-- ==== Sys2Proof/Word.lean ====
section
/-!
DEFINITION. The word types of the machine and their plainest arithmetic (R2, R3, R5).
-/

namespace Sys2Proof

/-- A 64-bit scalar, register or address value. -/
abbrev Word := BitVec 64

/-- One byte of memory. -/
abbrev Byte := BitVec 8

/-- The 32-bit unit in which instruction words and headers are stored (R5). -/
abbrev Word32 := BitVec 32

/-- The signed reading of a field, extended to 64 bits. -/
def sx {n : Nat} (x : BitVec n) : Word := x.signExtend 64

/-- The unsigned reading of a field, extended to 64 bits. -/
def zx {n : Nat} (x : BitVec n) : Word := x.zeroExtend 64

/-- Field [hi:lo] of a value (R2). -/
def fld {n : Nat} (x : BitVec n) (hi lo : Nat) : BitVec (hi - lo + 1) := x.extractLsb hi lo

/-- Field [hi:lo] of a value, read as a number (R2). -/
def fldN {n : Nat} (x : BitVec n) (hi lo : Nat) : Nat := x.toNat >>> lo % 2 ^ (hi - lo + 1)

/-- Bit n of a value (R2). -/
def bitOf {n : Nat} (x : BitVec n) (i : Nat) : Bool := x.getLsbD i

end Sys2Proof
end

