-- ==== Sys2Proof/Config.lean ====
section
/-!
DEFINITION. What an implementation fixes and the spec leaves open, and the free values. Every one is
opaque: nothing can be proved of the value it takes.
-/

namespace Sys2Proof.Config

/-- A free 32-bit launch id, before the probing that makes it differ from the live ones (R38, R162). -/
opaque freeLaunchId : Nat → BitVec 32

/-- A free 512-bit value: what a device register window read returns, byte by byte. -/
opaque freeBytes : Nat → BitVec 512

/-- The configuration words that a load of an image sends to a PE of its region, by the image's digest, the footprint and the PE
(R235). The spec gives them no layout. -/
opaque configWords : Nat → Nat → Nat → BitVec 512

/-- The kind of the token that TRET writes from a side word whose kind is 6 or 7 (R82, R390). -/
opaque freeKind : Word → BitVec 3

/-- A fresh nonce (R413). -/
opaque nonce : Nat → BitVec 256

/-- Sectors of 512 bytes that a home's memory holds: layer N of a die 24 GiB, the LPDDR-6 of an IO die 2 TiB,
and at most 1 TiB behind a CXL port (R14, R26, R371). -/
def rawSectors (home : Nat) : Nat :=
  (if home < 8 then 24 * 2 ^ 30 else if home < 10 then 2 * 2 ^ 40 else 2 ^ 40) / 512

/-- Sectors of a home beyond the bounce buffer and the reserved sector that pools do not get: its metadata table, and
what an expander falls short of 1 TiB (R371). -/
opaque carved : Nat → Nat

/-- HSEC.SEC of a home: sectors available to pools, after the metadata table, the bounce buffer of 64 MiB (R378)
and the reserved sector are carved out (R371). -/
def sectors (home : Nat) : Nat :=
  rawSectors home - (if home < 8 then 64 * 2 ^ 20 / 512 else 0) - 1 - carved home

/-- What the bytes of a placed image in a Glevis image say (R419): its placements, each a footprint with the PE of every
instruction, the capacity of its FIFOs and its recorded latency. The spec gives no layout of them. -/
opaque placedImage : List (BitVec 8) → List (Nat × List Nat) × Nat × Nat

/-- Whether CXL port p has a trained expander (R407). -/
opaque cxlPresent : Nat → Bool

/-- The module's serial number (R413). -/
opaque serial : Word

/-- Dvorrad's public keys, whose digests are fused (R412): Ed25519, then ML-DSA-65. -/
opaque vendorEd : List Byte
opaque vendorMl : List Byte

/-- Verification of an Ed25519 signature: key, message, signature (R412). -/
opaque edVerify : List Byte → List Byte → List Byte → Bool

/-- Verification of an ML-DSA-65 signature: key, message, signature (R412). -/
opaque mlVerify : List Byte → List Byte → List Byte → Bool

/-- The device's own signatures of a message (R414): Ed25519 (64 bytes) and ML-DSA-65 (3,309 bytes). -/
opaque edSign : List Byte → BitVec 512
opaque mlSign : List Byte → BitVec 26472

/-- The digest that extends M3: of the security state and every debug state, numbered (R414). -/
opaque stateDigest : Nat → BitVec 384

/-- The first-stage firmware in ROM, which bring-up measures into M0 (R414). -/
opaque firstStage : List Byte

end Sys2Proof.Config
end

