-- ==== Sys2Proof/Syntax.lean ====
section
/-!
DEFINITION. The syntax of Forrix: one constructor of `Instr` for each row of the opcode table
(R75), instructions first, then the machine operations and events that the table lists beside them.
An instruction's constructor carries its decoded fields; an event's constructor carries what the
party that makes it brings: the unit it strikes, the value a host writes, and each choice the spec
leaves to the device (a placement, an address for a spill ring, the length of a refresh window).
-/

namespace Sys2Proof

/-- Operand slots of an instruction (R67). -/
inductive Slot where
  | a | b | p
  deriving DecidableEq, Repr

/-- A target: the consumer's instruction index and its slot (R67). -/
structure Target where
  idx  : BitVec 7
  slot : Slot
  deriving DecidableEq, Repr

/-- A target field: `none` is the value 0x1FF, no target (R67). -/
abbrev Tgt := Option Target

/-- The predicate mode (R68). -/
inductive Pred where
  | always | onTrue | onFalse
  deriving DecidableEq, Repr

/-- The register file a READ names (R75). -/
inductive RFile where
  | g | k
  deriving DecidableEq, Repr

/-- The role suffix of SJOIN (R78). -/
inductive JoinRole where
  | rdr | pro
  deriving DecidableEq, Repr

/-- The size suffix of an atomic (R78). -/
inductive ASize where
  | w | d
  deriving DecidableEq, Repr

/-- The order suffix of an atomic (R78, R189). -/
inductive MOrder where
  | rlx | acq | rel | ar
  deriving DecidableEq, Repr

/-- The scope suffix of an atomic, ACQ, REL or SYNC (R78, R208). -/
inductive Scope where
  | rgn | die | pkg | sys
  deriving DecidableEq, Repr

/-- The rounding suffix of VCVT (R78). -/
inductive Rounding where
  | rne | rz | ru | rd | rs
  deriving DecidableEq, Repr

/-- The lane width of the vector integer instructions (R78). -/
inductive LaneW where
  | i32 | i16 | i8
  deriving DecidableEq, Repr

/-- The suffix of VSHUF (R78). -/
inductive Shuf where
  | lo | hi | ev | od
  deriving DecidableEq, Repr

/-- The suffix of FRED (R78). -/
inductive RedOp where
  | add | max | min
  deriving DecidableEq, Repr

/-- What another package asks of the owner of a block (R302, R316, R317, R408): its side entry; one more or one less in
REFS; bytes of its key page or, with `value`, its value page; or a request of a kind that the module does not serve. -/
inductive PeerReq where
  | side
  | raise
  | drop
  | get (value : Bool) (off n : Nat)
  | put (value : Bool) (off : Nat) (data : List (BitVec 8))
  | other
  deriving DecidableEq, Repr

/-- One constructor per row of the opcode table. -/
inductive Instr where
  /-- NOP (R95): Does nothing; it fires at admission, or on slot p when predicated. -/
  | nop (p : Pred)
  /-- READ (R93): Sends the value that a g or k register held at admission as a scalar token. -/
  | read (p : Pred) (n : BitVec 4) (file : RFile) (t1 : Tgt) (t2 : Tgt) (t3 : Tgt)
  /-- WRITE (R94): Sets a g register from its scalar operand at commit. -/
  | write (p : Pred) (n : BitVec 4)
  /-- VREAD (R93): Sends the token that a v register held at admission, stamped with the instance tag. -/
  | vread (p : Pred) (n : BitVec 2) (t1 : Tgt) (t2 : Tgt) (t3 : Tgt)
  /-- VWRITE (R94): Stores its whole token, stop and done included, into a v register at commit. -/
  | vwrite (p : Pred) (n : BitVec 2)
  /-- MOV_S (R95): Sends its token unchanged to two targets (S-form). -/
  | movS (p : Pred) (t1 : Tgt) (t2 : Tgt)
  /-- MOV_W (R95): Sends its token unchanged to up to four targets (W-form). -/
  | movW (p : Pred) (t1 : Tgt) (t2 : Tgt) (t3 : Tgt) (t4 : Tgt)
  /-- MOVX (R95): Retags a data token with a format and geometry, and with .scl binds its targets to scale positions. -/
  | movx (p : Pred) (fmt : BitVec 4) (geom : BitVec 2) (scl : Bool) (t1 : Tgt) (t2 : Tgt) (t3 : Tgt)
  /-- NULL_S (R95): Sends a null token to two targets (S-form). -/
  | nullS (p : Pred) (t1 : Tgt) (t2 : Tgt)
  /-- NULL_W (R95): Sends a null token to up to four targets (W-form). -/
  | nullW (p : Pred) (t1 : Tgt) (t2 : Tgt) (t3 : Tgt) (t4 : Tgt)
  /-- BR (R96): Exit that sets PC to a scalar address at commit. -/
  | br (p : Pred)
  /-- BRI (R96): Exit that sets PC to the block address plus 16 times a literal displacement. -/
  | bri (p : Pred) (lit : BitVec 32)
  /-- CALL (R96): Exit to a literal displacement that also checks a return address and prefetches its block. -/
  | call (p : Pred) (lit : BitVec 32)
  /-- RET (R96): Exit that sets PC to a scalar address, as BR does. -/
  | ret (p : Pred)
  /-- HALT (R96): Exit that retires the thread at commit. -/
  | halt (p : Pred)
  /-- YIELD (R96): Exit to a literal displacement that restarts the thread's age and prefers its context for write-out. -/
  | yield (p : Pred) (lit : BitVec 32)
  /-- SPAWN (R98): Checks and buffers a launch of N threads that writes its completion object and starts at commit. -/
  | spawn (lit : BitVec 32)
  /-- STEER_S (R99): Routes the token at a to its true or false target by the predicate at b (S-form). -/
  | steerS (p : Pred) (t1 : Tgt) (t2 : Tgt)
  /-- STEER_W (R99): Routes the token at a by the predicate at b, with a second true-side target (W-form). -/
  | steerW (p : Pred) (t1 : Tgt) (t2 : Tgt) (t3 : Tgt)
  /-- MERGE_S (R100): Takes one token from whichever slot holds one and forwards it unchanged (S-form). -/
  | mergeS (p : Pred) (t1 : Tgt) (t2 : Tgt)
  /-- MERGE_W (R100): Takes one token from whichever slot holds one and forwards it to three targets (W-form). -/
  | mergeW (p : Pred) (t1 : Tgt) (t2 : Tgt) (t3 : Tgt)
  /-- CARRY (R101): Holds a value from slot a and repeats it for each data token at b, passing stops and done. -/
  | carry (p : Pred) (t1 : Tgt) (t2 : Tgt)
  /-- INIT_W (R102): Sends a sign-extended 16-bit constant at admission and once per selecting predicate (W-form). -/
  | initW (p : Pred) (v : BitVec 16) (t1 : Tgt) (t2 : Tgt) (t3 : Tgt)
  /-- INIT_L (R102): Sends a sign-extended 32-bit literal constant at admission and once per selecting predicate (L-form). -/
  | initL (p : Pred) (lit : BitVec 32) (t1 : Tgt) (t2 : Tgt) (t3 : Tgt)
  /-- GATE (R103): Passes the token at a once a token has arrived at b. -/
  | gate (p : Pred) (t1 : Tgt) (t2 : Tgt)
  /-- STOP (R104): Turns a data token into a stop token of a given level. -/
  | stopTok (p : Pred) (lvl : BitVec 3) (t1 : Tgt) (t2 : Tgt) (t3 : Tgt)
  /-- DONE (R104): Turns a data or stop token into a done token. -/
  | doneTok (p : Pred) (t1 : Tgt) (t2 : Tgt)
  /-- TESTK (R105): Consumes a token of any kind and sends 1 if its kind is in the mask, else 0. -/
  | testk (p : Pred) (mask : BitVec 6) (t1 : Tgt) (t2 : Tgt) (t3 : Tgt)
  /-- LVLUP (R106): Raises the level of a stop token, or sends GRAMMAR beyond level 7. -/
  | lvlup (p : Pred) (amt : BitVec 3) (t1 : Tgt) (t2 : Tgt) (t3 : Tgt)
  /-- LVLDN (R106): Lowers the level of a stop token, sending nothing below level 0. -/
  | lvldn (p : Pred) (amt : BitVec 3) (t1 : Tgt) (t2 : Tgt) (t3 : Tgt)
  /-- BAR (R107): Arrives at a barrier word at commit, releasing the round or parking the thread. -/
  | bar (p : Pred)
  /-- ADD (R112): Sends a + b mod 2^64. -/
  | add (p : Pred) (t1 : Tgt) (t2 : Tgt)
  /-- SUB (R112): Sends a − b mod 2^64. -/
  | sub (p : Pred) (t1 : Tgt) (t2 : Tgt)
  /-- MUL (R112): Sends the low 64 bits of the product. -/
  | mul (p : Pred) (t1 : Tgt) (t2 : Tgt)
  /-- MULH (R112): Sends the high 64 bits of the signed product. -/
  | mulh (p : Pred) (t1 : Tgt) (t2 : Tgt)
  /-- MULHU (R112): Sends the high 64 bits of the unsigned product. -/
  | mulhu (p : Pred) (t1 : Tgt) (t2 : Tgt)
  /-- DIV (R113): Signed truncating division, with DZ flag or ARITH trap on a zero divisor. -/
  | div (p : Pred) (t1 : Tgt) (t2 : Tgt)
  /-- DIVU (R113): Unsigned division, with DZ flag or ARITH trap on a zero divisor. -/
  | divu (p : Pred) (t1 : Tgt) (t2 : Tgt)
  /-- REM (R113): Signed remainder, with DZ flag or ARITH trap on a zero divisor. -/
  | rem (p : Pred) (t1 : Tgt) (t2 : Tgt)
  /-- REMU (R113): Unsigned remainder, with DZ flag or ARITH trap on a zero divisor. -/
  | remu (p : Pred) (t1 : Tgt) (t2 : Tgt)
  /-- MIN (R112): Sends the signed lesser of a and b. -/
  | min (p : Pred) (t1 : Tgt) (t2 : Tgt)
  /-- MAX (R112): Sends the signed greater of a and b. -/
  | max (p : Pred) (t1 : Tgt) (t2 : Tgt)
  /-- MINU (R112): Sends the unsigned lesser of a and b. -/
  | minu (p : Pred) (t1 : Tgt) (t2 : Tgt)
  /-- MAXU (R112): Sends the unsigned greater of a and b. -/
  | maxu (p : Pred) (t1 : Tgt) (t2 : Tgt)
  /-- NEG (R112): Sends 0 − a mod 2^64. -/
  | neg (p : Pred) (t1 : Tgt) (t2 : Tgt)
  /-- ABS (R112): Sends the absolute value of a, wrapping at the most negative value. -/
  | abs (p : Pred) (t1 : Tgt) (t2 : Tgt)
  /-- ADDI (R112): Adds a sign-extended immediate to a. -/
  | addi (p : Pred) (imm : BitVec 16) (t1 : Tgt) (t2 : Tgt) (t3 : Tgt)
  /-- ANDI (R115): ANDs a with a zero-extended immediate. -/
  | andi (p : Pred) (imm : BitVec 16) (t1 : Tgt) (t2 : Tgt) (t3 : Tgt)
  /-- ORI (R115): ORs a with a zero-extended immediate. -/
  | ori (p : Pred) (imm : BitVec 16) (t1 : Tgt) (t2 : Tgt) (t3 : Tgt)
  /-- XORI (R115): XORs a with a zero-extended immediate. -/
  | xori (p : Pred) (imm : BitVec 16) (t1 : Tgt) (t2 : Tgt) (t3 : Tgt)
  /-- SHLI (R116): Shifts a left by an immediate amount. -/
  | shli (p : Pred) (amt : BitVec 6) (t1 : Tgt) (t2 : Tgt) (t3 : Tgt)
  /-- SHRI (R116): Shifts a right logically by an immediate amount. -/
  | shri (p : Pred) (amt : BitVec 6) (t1 : Tgt) (t2 : Tgt) (t3 : Tgt)
  /-- SARI (R116): Shifts a right arithmetically by an immediate amount. -/
  | sari (p : Pred) (amt : BitVec 6) (t1 : Tgt) (t2 : Tgt) (t3 : Tgt)
  /-- TEQI (R123): Sends 1 if a equals a sign-extended immediate, else 0. -/
  | teqi (p : Pred) (imm : BitVec 16) (t1 : Tgt) (t2 : Tgt) (t3 : Tgt)
  /-- TLTI (R123): Sends 1 if a is signed-less than a sign-extended immediate, else 0. -/
  | tlti (p : Pred) (imm : BitVec 16) (t1 : Tgt) (t2 : Tgt) (t3 : Tgt)
  /-- LIT_W (R122): Sends a sign-extended 16-bit constant (W-form). -/
  | litW (p : Pred) (v : BitVec 16) (t1 : Tgt) (t2 : Tgt) (t3 : Tgt)
  /-- LIT_L (R122): Sends a sign-extended 32-bit literal constant (L-form). -/
  | litL (p : Pred) (lit : BitVec 32) (t1 : Tgt) (t2 : Tgt) (t3 : Tgt)
  /-- LITH (R122): Sends the literal as the high 32 bits over the low 32 bits of a. -/
  | lith (p : Pred) (lit : BitVec 32) (t1 : Tgt) (t2 : Tgt) (t3 : Tgt)
  /-- LEA (R124): Sends a plus b scaled by 2^s, without any check. -/
  | lea (p : Pred) (sh : BitVec 3) (t1 : Tgt) (t2 : Tgt) (t3 : Tgt)
  /-- AND (R115): Sends the bitwise AND of a and b. -/
  | and (p : Pred) (t1 : Tgt) (t2 : Tgt)
  /-- OR (R115): Sends the bitwise OR of a and b. -/
  | or (p : Pred) (t1 : Tgt) (t2 : Tgt)
  /-- XOR (R115): Sends the bitwise XOR of a and b. -/
  | xor (p : Pred) (t1 : Tgt) (t2 : Tgt)
  /-- SHL (R116): Shifts a left by the whole 64-bit amount b, giving 0 at 64 or more. -/
  | shl (p : Pred) (t1 : Tgt) (t2 : Tgt)
  /-- SHR (R116): Shifts a right logically by the whole 64-bit amount b. -/
  | shr (p : Pred) (t1 : Tgt) (t2 : Tgt)
  /-- SAR (R116): Shifts a right arithmetically by the whole 64-bit amount b. -/
  | sar (p : Pred) (t1 : Tgt) (t2 : Tgt)
  /-- ROTL (R116): Rotates a left by b mod 64. -/
  | rotl (p : Pred) (t1 : Tgt) (t2 : Tgt)
  /-- TEQ (R123): Sends 1 if a equals b. -/
  | teq (p : Pred) (t1 : Tgt) (t2 : Tgt)
  /-- TNE (R123): Sends 1 if a differs from b. -/
  | tne (p : Pred) (t1 : Tgt) (t2 : Tgt)
  /-- TLT (R123): Sends 1 if a is signed-less than b. -/
  | tlt (p : Pred) (t1 : Tgt) (t2 : Tgt)
  /-- TLE (R123): Sends 1 if a is signed-less than or equal to b. -/
  | tle (p : Pred) (t1 : Tgt) (t2 : Tgt)
  /-- TLTU (R123): Sends 1 if a is unsigned-less than b. -/
  | tltu (p : Pred) (t1 : Tgt) (t2 : Tgt)
  /-- TLEU (R123): Sends 1 if a is unsigned-less than or equal to b. -/
  | tleu (p : Pred) (t1 : Tgt) (t2 : Tgt)
  /-- SEL (R123): Sends a if the value at p is nonzero, else b. -/
  | sel (t1 : Tgt) (t2 : Tgt)
  /-- CLZ (R117): Counts the leading zero bits of a. -/
  | clz (p : Pred) (t1 : Tgt) (t2 : Tgt)
  /-- CTZ (R117): Counts the trailing zero bits of a. -/
  | ctz (p : Pred) (t1 : Tgt) (t2 : Tgt)
  /-- POPC (R117): Counts the set bits of a. -/
  | popc (p : Pred) (t1 : Tgt) (t2 : Tgt)
  /-- SEXT (R118): Sign-extends the low w bits of a. -/
  | sext (p : Pred) (width : BitVec 7) (t1 : Tgt) (t2 : Tgt) (t3 : Tgt)
  /-- ZEXT (R118): Zero-extends the low w bits of a. -/
  | zext (p : Pred) (width : BitVec 7) (t1 : Tgt) (t2 : Tgt) (t3 : Tgt)
  /-- BFX (R118): Extracts an unsigned bit field of a. -/
  | bfx (p : Pred) (lo : BitVec 6) (wm1 : BitVec 6) (t1 : Tgt) (t2 : Tgt) (t3 : Tgt)
  /-- BFI (R118): Inserts the low bits of b into a bit field of a. -/
  | bfi (p : Pred) (lo : BitVec 6) (wm1 : BitVec 6) (t1 : Tgt) (t2 : Tgt) (t3 : Tgt)
  /-- BFN (R119): Computes a bitwise three-input function of a, b and p by an 8-bit truth table. -/
  | bfn (tt : BitVec 8) (t1 : Tgt) (t2 : Tgt) (t3 : Tgt)
  /-- LUTB (R120): Maps each byte of a through a 64-entry image table. -/
  | lutb (p : Pred) (tbl : BitVec 8) (t1 : Tgt) (t2 : Tgt) (t3 : Tgt)
  /-- SRD (R138): Reads one stream element at a position, waiting until it is published. -/
  | srd (p : Pred) (t1 : Tgt) (t2 : Tgt)
  /-- SRDV (R138): Reads 64 stream bytes as a token, waiting until they are published. -/
  | srdv (p : Pred) (t1 : Tgt) (t2 : Tgt)
  /-- SWR (R139): Writes one stream element at commit, waiting for room in the window. -/
  | swr (p : Pred)
  /-- SWRV (R139): Writes the valid lanes of a token into the stream at commit, waiting for room. -/
  | swrv (p : Pred)
  /-- SPUB (R140): Raises the high-water mark at commit, waiting until the position lies within the limit. -/
  | spub (p : Pred)
  /-- SREL (R141): Releases a reader up to a position at commit, returning frames to the producer. -/
  | srel (p : Pred)
  /-- SREW (R142): Moves a reader's cursor to a position at commit. -/
  | srew (p : Pred)
  /-- SPOS (R143): Sends the stream's current high-water mark without waiting. -/
  | spos (p : Pred) (t1 : Tgt) (t2 : Tgt)
  /-- SJOIN (R145): Claims a reader slot or the producer role of a stream, effective at commit. -/
  | sjoin (p : Pred) (role : JoinRole)
  /-- SLEAVE (R146): Leaves a reader slot or the producer role at commit. -/
  | sleave (p : Pred)
  /-- LDB (R173): Loads a byte, sign-extended. -/
  | ldb (p : Pred) (off : BitVec 16) (t1 : Tgt) (t2 : Tgt) (t3 : Tgt)
  /-- LDBU (R173): Loads a byte, zero-extended. -/
  | ldbu (p : Pred) (off : BitVec 16) (t1 : Tgt) (t2 : Tgt) (t3 : Tgt)
  /-- LDH (R173): Loads a halfword, sign-extended. -/
  | ldh (p : Pred) (off : BitVec 16) (t1 : Tgt) (t2 : Tgt) (t3 : Tgt)
  /-- LDHU (R173): Loads a halfword, zero-extended. -/
  | ldhu (p : Pred) (off : BitVec 16) (t1 : Tgt) (t2 : Tgt) (t3 : Tgt)
  /-- LDW (R173): Loads a word, sign-extended. -/
  | ldw (p : Pred) (off : BitVec 16) (t1 : Tgt) (t2 : Tgt) (t3 : Tgt)
  /-- LDWU (R173): Loads a word, zero-extended. -/
  | ldwu (p : Pred) (off : BitVec 16) (t1 : Tgt) (t2 : Tgt) (t3 : Tgt)
  /-- LDD (R173): Loads a doubleword. -/
  | ldd (p : Pred) (off : BitVec 16) (t1 : Tgt) (t2 : Tgt) (t3 : Tgt)
  /-- STB (R173): Stores a byte at commit. -/
  | stb (p : Pred) (off : BitVec 16)
  /-- STH (R173): Stores a halfword at commit. -/
  | sth (p : Pred) (off : BitVec 16)
  /-- STW (R173): Stores a word at commit. -/
  | stw (p : Pred) (off : BitVec 16)
  /-- STD (R173): Stores a doubleword at commit. -/
  | std (p : Pred) (off : BitVec 16)
  /-- LDV (R174): Loads 64 bytes as a token tagged with the page's format and geometry. -/
  | ldv (p : Pred) (off : BitVec 16) (t1 : Tgt) (t2 : Tgt) (t3 : Tgt)
  /-- LDVS (R175): Loads the scale token belonging to an element token from the page's scale area. -/
  | ldvs (p : Pred) (off : BitVec 16) (t1 : Tgt) (t2 : Tgt) (t3 : Tgt)
  /-- STV (R176): Stores the valid lanes of a token at commit. -/
  | stv (p : Pred) (off : BitVec 16)
  /-- GATH (R177): Gathers one 4-byte word per valid offset lane. -/
  | gath (p : Pred) (t1 : Tgt) (t2 : Tgt)
  /-- SCAT (R178): Scatters the valid data lanes to base plus offsets at commit. -/
  | scat
  /-- AGEN (R181): Generates the accesses of an affine pattern from an object base, with stops and a done. -/
  | agen (p : Pred) (lit : BitVec 32) (t1 : Tgt) (t2 : Tgt) (t3 : Tgt)
  /-- AGENX (R182): Maps each index token to a bounds-checked access of an indexed object. -/
  | agenx (p : Pred) (lit : BitVec 32) (t1 : Tgt) (t2 : Tgt) (t3 : Tgt)
  /-- AADD (R185): Atomic add returning the old value. -/
  | aadd (p : Pred) (off : BitVec 16) (sz : ASize) (ord : MOrder) (scope : Scope) (t1 : Tgt) (t2 : Tgt) (t3 : Tgt)
  /-- AAND (R185): Atomic AND returning the old value. -/
  | aand (p : Pred) (off : BitVec 16) (sz : ASize) (ord : MOrder) (scope : Scope) (t1 : Tgt) (t2 : Tgt) (t3 : Tgt)
  /-- AOR (R185): Atomic OR returning the old value. -/
  | aor (p : Pred) (off : BitVec 16) (sz : ASize) (ord : MOrder) (scope : Scope) (t1 : Tgt) (t2 : Tgt) (t3 : Tgt)
  /-- AXOR (R185): Atomic XOR returning the old value. -/
  | axor (p : Pred) (off : BitVec 16) (sz : ASize) (ord : MOrder) (scope : Scope) (t1 : Tgt) (t2 : Tgt) (t3 : Tgt)
  /-- AMIN (R185): Atomic signed minimum returning the old value. -/
  | amin (p : Pred) (off : BitVec 16) (sz : ASize) (ord : MOrder) (scope : Scope) (t1 : Tgt) (t2 : Tgt) (t3 : Tgt)
  /-- AMAX (R185): Atomic signed maximum returning the old value. -/
  | amax (p : Pred) (off : BitVec 16) (sz : ASize) (ord : MOrder) (scope : Scope) (t1 : Tgt) (t2 : Tgt) (t3 : Tgt)
  /-- AMINU (R185): Atomic unsigned minimum returning the old value. -/
  | aminu (p : Pred) (off : BitVec 16) (sz : ASize) (ord : MOrder) (scope : Scope) (t1 : Tgt) (t2 : Tgt) (t3 : Tgt)
  /-- AMAXU (R185): Atomic unsigned maximum returning the old value. -/
  | amaxu (p : Pred) (off : BitVec 16) (sz : ASize) (ord : MOrder) (scope : Scope) (t1 : Tgt) (t2 : Tgt) (t3 : Tgt)
  /-- AXCHG (R185): Atomic exchange returning the old value. -/
  | axchg (p : Pred) (off : BitVec 16) (sz : ASize) (ord : MOrder) (scope : Scope) (t1 : Tgt) (t2 : Tgt) (t3 : Tgt)
  /-- ACAS (R185): Atomic compare-and-swap returning the old value. -/
  | acas (off : BitVec 16) (sz : ASize) (ord : MOrder) (scope : Scope) (t1 : Tgt) (t2 : Tgt) (t3 : Tgt)
  /-- AFADD (R188): Atomic FP32 add with one nearest-even rounding, returning the old value. -/
  | afadd (p : Pred) (off : BitVec 16) (ord : MOrder) (scope : Scope) (t1 : Tgt) (t2 : Tgt) (t3 : Tgt)
  /-- ACQ (R189): Passes its token and makes the instance an acquire that begins a new region. -/
  | acq (p : Pred) (scope : Scope) (t1 : Tgt) (t2 : Tgt) (t3 : Tgt)
  /-- REL (R189): Passes its token and makes the instance a release that ends the region at commit. -/
  | rel (p : Pred) (scope : Scope) (t1 : Tgt) (t2 : Tgt) (t3 : Tgt)
  /-- SYNC (R189): Passes its token and makes the instance a region of its own. -/
  | sync (p : Pred) (scope : Scope) (t1 : Tgt) (t2 : Tgt) (t3 : Tgt)
  /-- COPY (R192): Checks a command and object and forks a linear copy onto a copy engine at commit. -/
  | copy (p : Pred)
  /-- COPY2D (R192): Checks a command and object and forks a two-dimensional copy at commit. -/
  | copy2d (p : Pred)
  /-- XFER (R192): Checks a command and object and forks a scale-up transfer at commit. -/
  | xfer (p : Pred)
  /-- TASK (R198): Checks a task record and enqueues it to the die's walker at commit. -/
  | task (p : Pred)
  /-- WAITC (R195): Reads a completion object's pending count at commit and parks the thread while it is nonzero. -/
  | waitc (p : Pred)
  /-- TESTC (R196): Sends 1 if a completion object's pending count is zero, else 0, without parking. -/
  | testc (p : Pred) (t1 : Tgt) (t2 : Tgt)
  /-- WSSEAL (R199): Makes an open weight-store shelf pending-sealed at commit. -/
  | wsseal (p : Pred)
  /-- WSOPEN (R199): Makes a sealed weight-store shelf open at commit. -/
  | wsopen (p : Pred)
  /-- VADD (R277): Lanewise FP32 addition with one rounding. -/
  | vadd (p : Pred) (t1 : Tgt) (t2 : Tgt)
  /-- VSUB (R277): Lanewise FP32 subtraction with one rounding. -/
  | vsub (p : Pred) (t1 : Tgt) (t2 : Tgt)
  /-- VMUL (R277): Lanewise FP32 multiplication with one rounding. -/
  | vmul (p : Pred) (t1 : Tgt) (t2 : Tgt)
  /-- VMIN (R278): Lanewise FP32 minimum. -/
  | vmin (p : Pred) (t1 : Tgt) (t2 : Tgt)
  /-- VMAX (R278): Lanewise FP32 maximum. -/
  | vmax (p : Pred) (t1 : Tgt) (t2 : Tgt)
  /-- VFMA (R277): Lanewise fused multiply-add with one rounding. -/
  | vfma (t1 : Tgt) (t2 : Tgt)
  /-- VFMS (R277): Lanewise fused multiply-subtract with one rounding. -/
  | vfms (t1 : Tgt) (t2 : Tgt)
  /-- VDIV (R277): Lanewise FP32 division with one rounding. -/
  | vdiv (p : Pred) (t1 : Tgt) (t2 : Tgt)
  /-- VSQRT (R277): Lanewise FP32 square root. -/
  | vsqrt (p : Pred) (t1 : Tgt) (t2 : Tgt)
  /-- VABS (R278): Lanewise clearing of the sign bit. -/
  | vabs (p : Pred) (t1 : Tgt) (t2 : Tgt)
  /-- VNEG (R278): Lanewise inversion of the sign bit. -/
  | vneg (p : Pred) (t1 : Tgt) (t2 : Tgt)
  /-- VCEQ (R279): Lanewise FP32 equality compare. -/
  | vceq (p : Pred) (t1 : Tgt) (t2 : Tgt)
  /-- VCNE (R279): Lanewise FP32 inequality compare. -/
  | vcne (p : Pred) (t1 : Tgt) (t2 : Tgt)
  /-- VCLT (R279): Lanewise FP32 less-than compare. -/
  | vclt (p : Pred) (t1 : Tgt) (t2 : Tgt)
  /-- VCLE (R279): Lanewise FP32 less-or-equal compare. -/
  | vcle (p : Pred) (t1 : Tgt) (t2 : Tgt)
  /-- VSEL (R279): Lanewise selection between a and b by the lanes of p. -/
  | vsel (t1 : Tgt) (t2 : Tgt)
  /-- VCVT (R282): Converts sixteen lanes into a format in a rounding mode, packing narrow results. -/
  | vcvt (p : Pred) (fmt : BitVec 4) (geom : BitVec 2) (rm : Rounding) (t1 : Tgt) (t2 : Tgt) (t3 : Tgt)
  /-- VPACK (R283): Packs the low bits of each lane as elements of a format without converting. -/
  | vpack (p : Pred) (fmt : BitVec 4) (t1 : Tgt) (t2 : Tgt) (t3 : Tgt)
  /-- VUNPK (R284): Widens a token's elements into a series of FP32 or INT32 tokens. -/
  | vunpk (p : Pred) (fmt : BitVec 4) (t1 : Tgt) (t2 : Tgt) (t3 : Tgt)
  /-- VBCAST (R285): Broadcasts one lane to every lane. -/
  | vbcast (p : Pred) (lane : BitVec 4) (t1 : Tgt) (t2 : Tgt) (t3 : Tgt)
  /-- VEXTR (R285): Extracts one lane as a scalar. -/
  | vextr (p : Pred) (lane : BitVec 4) (t1 : Tgt) (t2 : Tgt) (t3 : Tgt)
  /-- VINS (R285): Inserts a scalar into one lane. -/
  | vins (p : Pred) (lane : BitVec 4) (t1 : Tgt) (t2 : Tgt) (t3 : Tgt)
  /-- VPERM (R285): Permutes lanes of a by index lanes of b. -/
  | vperm (p : Pred) (t1 : Tgt) (t2 : Tgt)
  /-- VSHUF (R285): Interleaves or deinterleaves lanes of a and b by its variant. -/
  | vshuf (p : Pred) (half : Shuf) (t1 : Tgt) (t2 : Tgt)
  /-- VROT (R285): Rotates the lanes by a count. -/
  | vrot (p : Pred) (cnt : BitVec 4) (t1 : Tgt) (t2 : Tgt) (t3 : Tgt)
  /-- VREDA (R281): Sums the valid lanes with one rounding. -/
  | vreda (p : Pred) (t1 : Tgt) (t2 : Tgt)
  /-- VREDX (R281): Sends the greatest valid lane. -/
  | vredx (p : Pred) (t1 : Tgt) (t2 : Tgt)
  /-- VREDN (R281): Sends the least valid lane. -/
  | vredn (p : Pred) (t1 : Tgt) (t2 : Tgt)
  /-- VSCAN (R281): Sends inclusive prefix sums of the valid lanes. -/
  | vscan (p : Pred) (t1 : Tgt) (t2 : Tgt)
  /-- VMASK (R285): Clears valid bits outside an immediate mask. -/
  | vmask (p : Pred) (mask : BitVec 16) (t1 : Tgt) (t2 : Tgt) (t3 : Tgt)
  /-- VTOPK (R289): Keeps the k best (score, index) pairs of a stream and emits them at a stop or done. -/
  | vtopk (p : Pred) (k : BitVec 9) (t1 : Tgt) (t2 : Tgt) (t3 : Tgt)
  /-- VEXP2 (R280): Lanewise correctly rounded 2^x. -/
  | vexp2 (p : Pred) (t1 : Tgt) (t2 : Tgt)
  /-- VLOG2 (R280): Lanewise correctly rounded log2 x. -/
  | vlog2 (p : Pred) (t1 : Tgt) (t2 : Tgt)
  /-- VRCP (R280): Lanewise correctly rounded reciprocal. -/
  | vrcp (p : Pred) (t1 : Tgt) (t2 : Tgt)
  /-- VRSQ (R280): Lanewise correctly rounded reciprocal square root. -/
  | vrsq (p : Pred) (t1 : Tgt) (t2 : Tgt)
  /-- VTANH (R280): Lanewise correctly rounded tanh. -/
  | vtanh (p : Pred) (t1 : Tgt) (t2 : Tgt)
  /-- VSIGM (R280): Lanewise correctly rounded logistic sigmoid. -/
  | vsigm (p : Pred) (t1 : Tgt) (t2 : Tgt)
  /-- VSINC (R280): Lanewise correctly rounded normalised sinc. -/
  | vsinc (p : Pred) (t1 : Tgt) (t2 : Tgt)
  /-- VROPE (R287): Rotates eight FP32 pairs by angles from a position and a frequency table. -/
  | vrope (p : Pred) (tbl : BitVec 8) (t1 : Tgt) (t2 : Tgt) (t3 : Tgt)
  /-- VIADD (R286): Elementwise integer addition at the variant's width. -/
  | viadd (p : Pred) (w : LaneW) (t1 : Tgt) (t2 : Tgt)
  /-- VISUB (R286): Elementwise integer subtraction. -/
  | visub (p : Pred) (w : LaneW) (t1 : Tgt) (t2 : Tgt)
  /-- VIMUL (R286): Elementwise integer multiplication, low half. -/
  | vimul (p : Pred) (w : LaneW) (t1 : Tgt) (t2 : Tgt)
  /-- VIAND (R286): Elementwise bitwise AND. -/
  | viand (p : Pred) (w : LaneW) (t1 : Tgt) (t2 : Tgt)
  /-- VIOR (R286): Elementwise bitwise OR. -/
  | vior (p : Pred) (w : LaneW) (t1 : Tgt) (t2 : Tgt)
  /-- VIXOR (R286): Elementwise bitwise XOR. -/
  | vixor (p : Pred) (w : LaneW) (t1 : Tgt) (t2 : Tgt)
  /-- VISHL (R286): Elementwise left shift. -/
  | vishl (p : Pred) (w : LaneW) (t1 : Tgt) (t2 : Tgt)
  /-- VISHR (R286): Elementwise logical right shift. -/
  | vishr (p : Pred) (w : LaneW) (t1 : Tgt) (t2 : Tgt)
  /-- VIMIN (R286): Elementwise signed minimum. -/
  | vimin (p : Pred) (w : LaneW) (t1 : Tgt) (t2 : Tgt)
  /-- VIMAX (R286): Elementwise signed maximum. -/
  | vimax (p : Pred) (w : LaneW) (t1 : Tgt) (t2 : Tgt)
  /-- DOT (R291): Block-scaled dot product of two element tokens with the fixed order of roundings. -/
  | dot (p : Pred) (t1 : Tgt) (t2 : Tgt)
  /-- DOTA (R291): Block-scaled dot product added to an FP32 scalar with a third rounding. -/
  | dota (t1 : Tgt) (t2 : Tgt)
  /-- DOTI (R293): Exact integer dot product added to a 64-bit scalar. -/
  | doti (t1 : Tgt) (t2 : Tgt)
  /-- SVBND (R311): Has the Sieve bound a query against every page of a sequence and emit bound and page-number tokens. -/
  | svbnd (p : Pred) (t1 : Tgt) (t2 : Tgt)
  /-- SVGTH (R313): Sends the number of pages selected and forks a gather of their key and value pages at commit. -/
  | svgth (p : Pred) (t1 : Tgt) (t2 : Tgt)
  /-- KVX (R315): Looks up the stage-1 entry of a sequence position. -/
  | kvx (p : Pred) (t1 : Tgt) (t2 : Tgt)
  /-- KVFORK (R316): Checks a parent and child table and forks a fork operation at commit. -/
  | kvfork (p : Pred) (t1 : Tgt) (t2 : Tgt)
  /-- KVFREE (R317): Clears a sequence table at commit, after which the Sieve decrements its blocks' counts. -/
  | kvfree (p : Pred)
  /-- FSCAN (R340): Expands each token of a stream into the fibre of a compressed level. -/
  | fscan (p : Pred) (lvl : BitVec 3) (t1 : Tgt) (t2 : Tgt) (t3 : Tgt)
  /-- FISECT (R342): Keeps the coordinates that occur in both of two fibre streams. -/
  | fisect (t1 : Tgt) (t2 : Tgt)
  /-- FUNION (R343): Keeps every coordinate of either of two fibre streams, filling holes. -/
  | funion (t1 : Tgt) (t2 : Tgt)
  /-- FRPT (R341): Repeats each token of b once for each data token of the matching fibre of a. -/
  | frpt (t1 : Tgt) (t2 : Tgt)
  /-- FRED (R345): Reduces each innermost fibre to one value by sum, maximum or minimum. -/
  | fred (rop : RedOp) (t1 : Tgt) (t2 : Tgt)
  /-- FVALS (R344): Fetches the FP32 values of a pair of fibre tokens. -/
  | fvals (p : Pred) (t1 : Tgt) (t2 : Tgt)
  /-- FBLD (R346): Buffers one compressed level from a fibre stream and writes it at commit. -/
  | fbld
  /-- FCHK (R347): Passes a fibre stream through while checking its grammar, trapping at the first violation. -/
  | fchk (lvl : BitVec 3) (t1 : Tgt) (t2 : Tgt) (t3 : Tgt)
  /-- TRAP (R387): Raises BREAK with its code. -/
  | trap (p : Pred) (code : BitVec 16)
  /-- TRET (R390): Handler exit that resumes or retires the trapped thread named by a frame and frees the frame. -/
  | tret (p : Pred)
  /-- CRRD (R392): Reads a control register. -/
  | crrd (p : Pred) (n : BitVec 12) (t1 : Tgt) (t2 : Tgt) (t3 : Tgt)
  /-- CRWR (R392): Writes a control register at commit. -/
  | crwr (p : Pred) (n : BitVec 12)
  /-- XLINV (R397): Invalidates translations, writes back descriptors and merges bounce slots over a range before its commit point. -/
  | xlinv (p : Pred)
  /-- CFGINV (R399): Removes configurations and rejection records of a block range at commit. -/
  | cfginv (p : Pred)
  /-- QPOST (R400): Writes a value to a local queue's tail-pointer register at commit. -/
  | qpost (p : Pred)
  /-- DBGBRK (R388): Does nothing, records a trace event, or traps, by the partition's debug state. -/
  | dbgbrk (p : Pred) (tag : BitVec 16)
  /-- HINT (R389): Gives the context store or configuration cache a hint acted on at commit. -/
  | hint (p : Pred) (code : BitVec 8)
  /-- BLOCK_FETCH (R61): A thread arrives at a block with no resident configuration, and its header and extent are fetched and page-checked. -/
  | blockFetch (die : Nat) (asid : Nat) (b : Word)
  /-- BLOCK_CHECK (R79): The mapper checks a fetched block and accepts or rejects it. -/
  | blockCheck (die : Nat) (asid : Nat) (b : Word)
  /-- INSTANCE_ADMISSION (R47): A region admits a queued thread as a new block instance, reading its declared registers. -/
  | instanceAdmission (reg : Nat) (tid : Nat)
  /-- INSTANCE_COMMIT (R40): An instance reaches its commit point and all its buffered effects take effect as one. -/
  | instanceCommit (inst : Nat) (hold : Bool)
  /-- RETIREMENT_COUNT (R48): Once a retiring instance's stores are visible, its launch's completion object or launch node is decremented. -/
  | retirementCount (tid : Nat)
  /-- INSTANCE_STALL (R91): An instance with nothing in flight and nothing able to fire aborts and traps DEADLOCK. -/
  | instanceStall (inst : Nat)
  /-- CONTEXT_WRITE_OUT (R37): The context store controller writes a non-running context out to its private memory. -/
  | contextWriteOut (tid : Nat)
  /-- CONTEXT_READ_BACK (R37): The context store controller reads a context back into a slot before it runs. -/
  | contextReadBack (tid : Nat)
  /-- MEMORY_REPLY (R183): A memory reply returns to an address-generator PE and its token is sent in request order. -/
  | memoryReply (inst : Nat) (idx : Nat)
  /-- TRACKED_ACCESS_ARRIVAL (R209): A tracked access arrives at its home and is recorded, made to wait, retried or raised. -/
  | trackedAccessArrival (inst : Nat) (idx : Nat)
  /-- ATOMIC_ARRIVAL (R187): An atomic reaches its unit and is applied and held, or resolved against a holder. -/
  | atomicArrival (inst : Nat) (idx : Nat)
  /-- STREAM_WAIT_END (R137): A stream wait ends when a change of HWM or LIMIT meets its condition. -/
  | streamWaitEnd (inst : Nat) (idx : Nat)
  /-- EXTENSION_FRAME_RETURN (R147): When the tail crosses a frame boundary the Drip copies the first extension frame into the freed ring frame and frees it. -/
  | extensionFrameReturn (desc : Nat)
  /-- QUEUE_CONSUME (R160): The dispatcher consumes the head entry of a ready queue and starts or refuses its launch. -/
  | queueConsume (q : Nat)
  /-- STAMP_POLL (R161): The dispatcher polls the head slot's stamp at least every 256 cycles while H < T. -/
  | stampPoll (q : Nat)
  /-- DEVICE_LAUNCH_START (R163): The dispatcher starts a waiting SPAWN or launch-node launch ahead of queue entries. -/
  | deviceLaunchStart
  /-- FAULT_DOMAIN_TEARDOWN (R54): System software tears down a fault domain, aborting, retiring and counting its threads. -/
  | faultDomainTeardown (part : Nat) (fdom : Nat)
  /-- ASID_RELEASE (R166): System software releases an ASID, a teardown of launches in it. -/
  | asidRelease (asid : Nat)
  /-- FUNCTION_RESET (R158): A function is reset, disabling its queues, leaving host stream participations and tearing down its launches. -/
  | functionReset (fn : Nat)
  /-- QUEUE_ENABLE (R158): A write of QCTL.EN = 1 checks the configuration and enables the queue with T := H. -/
  | queueEnable (fn : Nat) (q : Nat) (v : Word)
  /-- QUEUE_DISABLE (R158): A write of QCTL.EN = 0 stops consumption before the next sequence. -/
  | queueDisable (fn : Nat) (q : Nat) (v : Word)
  /-- QUEUE_ERR_CLEAR (R157): Writing 1 to QCTL.ERR clears it. -/
  | queueErrClear (fn : Nat) (q : Nat)
  /-- QTAIL_WRITE (R159): A write to QTAIL advances the tail pointer if it lies 1..N ahead, else is ignored. -/
  | qtailWrite (fn : Nat) (q : Nat) (v : Word)
  /-- FNQ_WRITE (R168): A write assigning a function's queue range and maximum priority, ignored when unsafe. -/
  | fnqWrite (fn : Nat) (v : Word)
  /-- FNA_WRITE (R168): A write assigning a function's ASID range, ignored when unsafe. -/
  | fnaWrite (fn : Nat) (v : Word)
  /-- FUNCTION_SUSPEND (R402): Setting FNRUN.SUSP holds a function's launches and evicts its regions. -/
  | functionSuspend (fn : Nat)
  /-- FUNCTION_RESUME (R402): Clearing FNRUN.SUSP resumes a function with its held launches. -/
  | functionResume (fn : Nat)
  /-- HOST_STREAM_JOIN (R149): A host write of WCTL.JOIN = 1 joins a stream as reader or producer. -/
  | hostStreamJoin (fn : Nat) (w : Nat) (v : Word)
  /-- HOST_STREAM_LEAVE (R149): A host write of WCTL.JOIN = 0 leaves the stream. -/
  | hostStreamLeave (fn : Nat) (w : Nat)
  /-- HOST_STREAM_ERR_CLEAR (R148): Writing 1 to WCTL.ERR clears it. -/
  | hostStreamErrClear (fn : Nat) (w : Nat)
  /-- HOST_STREAM_ADVANCE (R148): A write to WADV acts as SREL for a host reader or SPUB for a host producer. -/
  | hostStreamAdvance (fn : Nat) (w : Nat) (q : Word)
  /-- HOST_STREAM_REWIND (R148): A write to WREW acts as SREW for a host reader. -/
  | hostStreamRewind (fn : Nat) (w : Nat) (q : Word)
  /-- COPY_OPERATION (R194): A copy engine starts a COPY, checks its command and copies bytes in ascending order. -/
  | copyOperation (op : Nat)
  /-- COPY2D_OPERATION (R194): A copy engine starts a COPY2D and copies row by row. -/
  | copy2dOperation (op : Nat)
  /-- XFER_PUT (R193): An engine transfer reads locally and writes at a peer. The operation, and whether the peer
  acknowledges the piece. -/
  | xferPut (op : Nat × Bool)
  /-- XFER_PUTADD_F32 (R193): An engine transfer adds FP32 elements into a peer's memory. The operation, and
  whether the peer acknowledges the piece. -/
  | xferPutaddF32 (op : Nat × Bool)
  /-- XFER_PUTADD_BF16 (R193): An engine transfer adds BF16 elements into a peer's memory. The operation, and
  whether the peer acknowledges the piece. -/
  | xferPutaddBf16 (op : Nat × Bool)
  /-- XFER_GET (R193): An engine transfer reads at a peer and writes locally. -/
  | xferGet (op : Nat) (data : (List Byte))
  /-- GATHER_OPERATION (R313): An engine gathers the key and value pages of selected ranks into the destination. -/
  | gatherOperation (op : Nat) (remote : Option (List Byte))
  /-- GATHER_LIST_OPERATION (R314): The walker forks a gather over a list of page numbers. -/
  | gatherListOperation (op : Nat) (remote : Option (List Byte))
  /-- FORK_OPERATION (R316): An engine shares the parent's blocks with the child and copies the tail block into the spare. -/
  | forkOperation (op : Nat) (remote : Option (List Byte))
  /-- ENGINE_OPERATION_FINISH (R191): An engine operation or task node finishes and updates its completion object atomically. -/
  | engineOperationFinish (op : Nat)
  /-- WALKER_ENQUEUE (R198): The task walker takes an enqueued record and resets and possibly launches it. -/
  | walkerEnqueue (die : Nat)
  /-- SHELF_SEAL_COMPLETE (R199): A pending-sealed shelf becomes sealed once its earlier forked writes have finished. -/
  | shelfSealComplete (shelf : Nat)
  /-- REFRESH_WINDOW (R200): A layer W refresh window begins or ends, holding shelf reads. -/
  | refreshWindow (die : Nat) (begins : Bool) (len : Nat) (gap : Nat)
  /-- SCHEDULER_DECISION (R227): Every 16 cycles the block scheduler ranks candidates and tries to give the winner a region. -/
  | schedulerDecision (die : Nat)
  /-- IMAGE_LOOKUP_COMPLETE (R233): A placed image arrives from the mapper's cache or a fresh placement and enters the configuration cache. -/
  | imageLookupComplete (die : Nat) (asid : Nat) (b : Word) (pes : (List (List Nat))) (cap : Nat) (lat : Nat)
  /-- CONFIG_LOAD_COMPLETE (R235): Every PE has taken its last config token, the gates open and the region admits. -/
  | configLoadComplete (reg : Nat)
  /-- DRAIN_TIMEOUT (R238): Instances still in flight 16,384 cycles after a draining shrink began abort. -/
  | drainTimeout (reg : Nat)
  /-- IDLE_RELEASE (R230): An unpinned region idle for 65,536 cycles is released. -/
  | idleRelease (reg : Nat)
  /-- QUIESCENCE_EXTENSION (R246): A silent set held for 4,096 cycles makes the Drip attempt one extension. -/
  | quiescenceExtension (die : Nat) (addr : Nat)
  /-- PAGE_WALK (R366): The die's walker completes a table walk and fills the translation caches. -/
  | pageWalk (die : Nat) (asid : Nat) (va : Word) (wr : Bool)
  /-- RESERVATION_GRANT (R374): A waiting sector reservation is granted from the pool in arrival order. -/
  | reservationGrant (home : Nat) (part : Nat)
  /-- LADLE_ZERO (R374): The Ladle frees the sectors of one of the pool's zero chunks. -/
  | ladleZero (home : Nat) (part : Nat)
  /-- LADLE_BALLOON (R375): The Ladle consumes a balloon entry and frees its chunk. -/
  | ladleBalloon (home : Nat) (part : Nat)
  /-- LADLE_HOST_COPY (R376): The Ladle consumes a host-copy entry and reclaims a clean page held on the host. -/
  | ladleHostCopy (home : Nat) (part : Nat)
  /-- LADLE_FAIL (R377): Every reservation still waiting fails with OUT_OF_SPACE. -/
  | ladleFail (home : Nat) (part : Nat)
  /-- DECODE_WATCHDOG (R372): A chunk decode that runs 1,024 cycles is cut off with LENGTH_VIOLATION. -/
  | decodeWatchdog (chunk : Nat)
  /-- PAGER_MERGE (R378): The pager merges a page's bounce slots into its frame before the covering XLINV completes. -/
  | pagerMerge (die : Nat) (slot : Nat)
  /-- MIGRATION_POST (R380): A write to MIGPOST submits a migration command to the page's home arbiter. -/
  | migrationPost (die : Nat) (cmd : Nat)
  /-- MIGRATION_LINE_COPY (R381): The home copies an uncopied line of a migrating page on idle bandwidth. -/
  | migrationLineCopy (mig : Nat)
  /-- MIGRATION_FINISH (R381): When the old frame's in-flight count reaches zero its sectors are freed and COMP is updated. -/
  | migrationFinish (mig : Nat)
  /-- MIGSETTLE_EXPIRY (R382): The interval in which host accesses are served remotely after a lost host migration ends. -/
  | migsettleExpiry (page : Nat)
  /-- HPRES_WRITE (R371): A write of a home's presented chunk count, accepted only while it holds no sector. -/
  | hpresWrite (home : Nat) (v : Word)
  /-- PQUOTA_WRITE (R371): A write of a partition's pool quota, ignored when out of bounds. -/
  | pquotaWrite (fn : Nat) (home : Nat) (v : Word)
  /-- BLIDX_WRITE (R371): A write of the balloon list indices, HEAD only when it equals TAIL. -/
  | blidxWrite (fn : Nat) (home : Nat) (v : Word)
  /-- HCIDX_WRITE (R371): A write of the host-copy list indices, HEAD only when it equals TAIL. -/
  | hcidxWrite (fn : Nat) (home : Nat) (v : Word)
  /-- TRAP_CAPTURE (R385): A trapped thread is given a free frame, its frame and fault record are written and a handler is launched. -/
  | trapCapture (tid : Nat)
  /-- APCTL_WRITE (R406): A write of the aperture control, ignored if it would enable an ASID outside the function's range. -/
  | apctlWrite (fn : Nat) (v : Word)
  /-- APERTURE_READ (R406): A host read piece at BAR4 translated in the aperture's ASID. -/
  | apertureRead (fn : Nat) (off : Nat) (len : Nat)
  /-- APERTURE_WRITE (R406): A host write piece at BAR4 translated in the aperture's ASID. -/
  | apertureWrite (fn : Nat) (off : Nat) (data : (List Byte))
  /-- PEER_WRITE (R409): An incoming scale-up write translated through the peer table. -/
  | peerWrite (peer : Nat) (raddr : Word) (data : (List Byte))
  /-- PEER_READ (R409): An incoming scale-up read translated through the peer table. -/
  | peerRead (peer : Nat) (raddr : Word) (len : Nat)
  /-- PEER_ADD (R408): An incoming add-in-memory on FP32 or BF16 elements. -/
  | peerAdd (peer : Nat) (raddr : Word) (bf16 : Bool) (data : (List Byte))
  /-- STAGE2_LOOKUP (R302): An owner die resolves a global block number through its block table. -/
  | stage2Lookup (die : Nat) (page : Nat) (peerReq : Option (Nat × Nat × Nat × PeerReq))
  /-- LINK_DOWN (R408): A scale-up link goes down and stops every transfer across it with CONTEXT_GONE. -/
  | linkDown (peer : Nat)
  /-- LINK_RETURN (R317): A link returns and held REFS decrements toward its owner are made. The peer, and
  whether it has been reset meanwhile. -/
  | linkReturn (peer : Nat × Bool)
  /-- SIEVE_ADMIT (R308): A waiting SVBND enters the Sieve and its header is read. -/
  | sieveAdmit (die : Nat)
  /-- SIEVE_LOOKUP_REPLY (R308): A stage-2 reply with a side entry returns to the Sieve and its page is bounded. -/
  | sieveLookupReply (die : Nat) (page : Nat) (remote : (Option (BitVec 512)))
  /-- KVFREE_DECREMENT (R317): After a KVFREE commits, the Sieve decrements each freed block's REFS and resets freed side entries.
  The die, and whether another package's owner makes the decrement. -/
  | kvfreeDecrement (die : Nat × Bool)
  /-- XLPOST_WRITE (R398): A host write to XLPOST queues a host invalidation command. -/
  | xlpostWrite (v : Word)
  /-- HOST_XLINV_COMMAND (R398): The IO die takes the next host invalidation command and starts its work on every die. -/
  | hostXlinvCommand
  /-- HOST_XLINV_COMPLETE (R398): A host invalidation's work completes and XLDONE advances. -/
  | hostXlinvComplete
  /-- XLSTAT_ERR_CLEAR (R398): Writing 1 to XLSTAT.ERR clears it. -/
  | xlstatErrClear
  /-- NONCE (R416): Root-of-trust command returning a fresh nonce and retiring the old one. -/
  | nonceCmd (buf : Word)
  /-- UNLOCK (R416): Root-of-trust command verifying a debug-unlock token and changing debug or security state. -/
  | unlockCmd (buf : Word)
  /-- ATTEST (R416): Root-of-trust command returning signed measurements. -/
  | attestCmd (buf : Word)
  /-- EXTEND (R416): Root-of-trust command extending a software measurement register. -/
  | extendCmd (buf : Word)
  /-- PROVISION (R416): Root-of-trust command installing the owner's keys and locking the module. -/
  | provisionCmd (buf : Word)
  /-- FWUPDATE (R416): Root-of-trust command verifying and storing new firmware or mapper tables. -/
  | fwupdateCmd (buf : Word)
  /-- DEBUG (R416): Root-of-trust command setting a partition's debug state and trace ring. -/
  | debugCmd (buf : Word)
  /-- LOCK (R416): Root-of-trust command moving Owner-Debug to Locked. -/
  | lockCmd (buf : Word)
  /-- ROOT_OF_TRUST_COMPLETE (R416): A root-of-trust command completes, writes its reply, clears BUSY and signals MSI-X vector 2. -/
  | rootOfTrustComplete
  /-- POWER_REQ_P0 (R417): A PWRCTL write requesting P0. -/
  | powerReqP0
  /-- POWER_REQ_P1 (R417): A PWRCTL write requesting P1. -/
  | powerReqP1
  /-- POWER_REQ_P2 (R417): A PWRCTL write requesting P2, starting suspension and save. -/
  | powerReqP2
  /-- POWER_REQ_P3 (R417): A PWRCTL write requesting P3, ending the module's operation. -/
  | powerReqP3
  /-- P2_ENTRY_COMPLETE (R417): After engines and Ladle actions end and state is saved, the fabric clock stops in P2. -/
  | p2EntryComplete
  /-- P2_WAKE_ACCESS (R418): A host or peer access in P2 is held and wakes the module. -/
  | p2WakeAccess
  /-- WAKE_COMPLETE (R418): The wake from P2 completes, restoring scratch and contexts and resuming functions. -/
  | wakeComplete
  /-- COLD_BRING_UP (R417): A cold power-up verifies and measures firmware and brings the module to P0 with all state reset. -/
  | coldBringUp
  /-- IMAGE_REGISTRATION (R420): A write to IMGREG has the mapper load an image's tables and preload its placed images. -/
  | imageRegistration (pa : Word)
  /-- REGISTER_WRITE (R7): A write to a register that has no row of its own stores its writable fields. -/
  | registerWrite (fn : Nat) (bar : Nat) (off : Nat) (v : Word)
  /-- SYSTEM_END (R208): The last store or atomic of a region ended by a narrower-than-system release reaches its home some time after the commit, ending the region's liveness for parties outside the scope and letting its records be removed. -/
  | systemEnd (tid : Nat) (seq : Nat)
  deriving DecidableEq, Repr

end Sys2Proof
end

