-- ==== Sys2Proof/WellFormed.lean ====
section
/-!
DEFINITION. Which instructions are well formed: the field limits that the mapper checks beyond what
a field's width already says (reason 0x0C of R79), and the rule that no two targets of one
instruction are equal (R67). An event's arguments have no static limits; its meaning checks them.
-/

namespace Sys2Proof

/-- The targets an instruction names, in the order T1, T2, T3, T4 (R73). -/
def Instr.tgts : Instr → List Tgt
  | .read _ _ _ t1 t2 t3 => [t1, t2, t3]
  | .vread _ _ t1 t2 t3 => [t1, t2, t3]
  | .movS _ t1 t2 => [t1, t2]
  | .movW _ t1 t2 t3 t4 => [t1, t2, t3, t4]
  | .movx _ _ _ _ t1 t2 t3 => [t1, t2, t3]
  | .nullS _ t1 t2 => [t1, t2]
  | .nullW _ t1 t2 t3 t4 => [t1, t2, t3, t4]
  | .steerS _ t1 t2 => [t1, t2]
  | .steerW _ t1 t2 t3 => [t1, t2, t3]
  | .mergeS _ t1 t2 => [t1, t2]
  | .mergeW _ t1 t2 t3 => [t1, t2, t3]
  | .carry _ t1 t2 => [t1, t2]
  | .initW _ _ t1 t2 t3 => [t1, t2, t3]
  | .initL _ _ t1 t2 t3 => [t1, t2, t3]
  | .gate _ t1 t2 => [t1, t2]
  | .stopTok _ _ t1 t2 t3 => [t1, t2, t3]
  | .doneTok _ t1 t2 => [t1, t2]
  | .testk _ _ t1 t2 t3 => [t1, t2, t3]
  | .lvlup _ _ t1 t2 t3 => [t1, t2, t3]
  | .lvldn _ _ t1 t2 t3 => [t1, t2, t3]
  | .add _ t1 t2 => [t1, t2]
  | .sub _ t1 t2 => [t1, t2]
  | .mul _ t1 t2 => [t1, t2]
  | .mulh _ t1 t2 => [t1, t2]
  | .mulhu _ t1 t2 => [t1, t2]
  | .div _ t1 t2 => [t1, t2]
  | .divu _ t1 t2 => [t1, t2]
  | .rem _ t1 t2 => [t1, t2]
  | .remu _ t1 t2 => [t1, t2]
  | .min _ t1 t2 => [t1, t2]
  | .max _ t1 t2 => [t1, t2]
  | .minu _ t1 t2 => [t1, t2]
  | .maxu _ t1 t2 => [t1, t2]
  | .neg _ t1 t2 => [t1, t2]
  | .abs _ t1 t2 => [t1, t2]
  | .addi _ _ t1 t2 t3 => [t1, t2, t3]
  | .andi _ _ t1 t2 t3 => [t1, t2, t3]
  | .ori _ _ t1 t2 t3 => [t1, t2, t3]
  | .xori _ _ t1 t2 t3 => [t1, t2, t3]
  | .shli _ _ t1 t2 t3 => [t1, t2, t3]
  | .shri _ _ t1 t2 t3 => [t1, t2, t3]
  | .sari _ _ t1 t2 t3 => [t1, t2, t3]
  | .teqi _ _ t1 t2 t3 => [t1, t2, t3]
  | .tlti _ _ t1 t2 t3 => [t1, t2, t3]
  | .litW _ _ t1 t2 t3 => [t1, t2, t3]
  | .litL _ _ t1 t2 t3 => [t1, t2, t3]
  | .lith _ _ t1 t2 t3 => [t1, t2, t3]
  | .lea _ _ t1 t2 t3 => [t1, t2, t3]
  | .and _ t1 t2 => [t1, t2]
  | .or _ t1 t2 => [t1, t2]
  | .xor _ t1 t2 => [t1, t2]
  | .shl _ t1 t2 => [t1, t2]
  | .shr _ t1 t2 => [t1, t2]
  | .sar _ t1 t2 => [t1, t2]
  | .rotl _ t1 t2 => [t1, t2]
  | .teq _ t1 t2 => [t1, t2]
  | .tne _ t1 t2 => [t1, t2]
  | .tlt _ t1 t2 => [t1, t2]
  | .tle _ t1 t2 => [t1, t2]
  | .tltu _ t1 t2 => [t1, t2]
  | .tleu _ t1 t2 => [t1, t2]
  | .sel t1 t2 => [t1, t2]
  | .clz _ t1 t2 => [t1, t2]
  | .ctz _ t1 t2 => [t1, t2]
  | .popc _ t1 t2 => [t1, t2]
  | .sext _ _ t1 t2 t3 => [t1, t2, t3]
  | .zext _ _ t1 t2 t3 => [t1, t2, t3]
  | .bfx _ _ _ t1 t2 t3 => [t1, t2, t3]
  | .bfi _ _ _ t1 t2 t3 => [t1, t2, t3]
  | .bfn _ t1 t2 t3 => [t1, t2, t3]
  | .lutb _ _ t1 t2 t3 => [t1, t2, t3]
  | .srd _ t1 t2 => [t1, t2]
  | .srdv _ t1 t2 => [t1, t2]
  | .spos _ t1 t2 => [t1, t2]
  | .ldb _ _ t1 t2 t3 => [t1, t2, t3]
  | .ldbu _ _ t1 t2 t3 => [t1, t2, t3]
  | .ldh _ _ t1 t2 t3 => [t1, t2, t3]
  | .ldhu _ _ t1 t2 t3 => [t1, t2, t3]
  | .ldw _ _ t1 t2 t3 => [t1, t2, t3]
  | .ldwu _ _ t1 t2 t3 => [t1, t2, t3]
  | .ldd _ _ t1 t2 t3 => [t1, t2, t3]
  | .ldv _ _ t1 t2 t3 => [t1, t2, t3]
  | .ldvs _ _ t1 t2 t3 => [t1, t2, t3]
  | .gath _ t1 t2 => [t1, t2]
  | .agen _ _ t1 t2 t3 => [t1, t2, t3]
  | .agenx _ _ t1 t2 t3 => [t1, t2, t3]
  | .aadd _ _ _ _ _ t1 t2 t3 => [t1, t2, t3]
  | .aand _ _ _ _ _ t1 t2 t3 => [t1, t2, t3]
  | .aor _ _ _ _ _ t1 t2 t3 => [t1, t2, t3]
  | .axor _ _ _ _ _ t1 t2 t3 => [t1, t2, t3]
  | .amin _ _ _ _ _ t1 t2 t3 => [t1, t2, t3]
  | .amax _ _ _ _ _ t1 t2 t3 => [t1, t2, t3]
  | .aminu _ _ _ _ _ t1 t2 t3 => [t1, t2, t3]
  | .amaxu _ _ _ _ _ t1 t2 t3 => [t1, t2, t3]
  | .axchg _ _ _ _ _ t1 t2 t3 => [t1, t2, t3]
  | .acas _ _ _ _ t1 t2 t3 => [t1, t2, t3]
  | .afadd _ _ _ _ t1 t2 t3 => [t1, t2, t3]
  | .acq _ _ t1 t2 t3 => [t1, t2, t3]
  | .rel _ _ t1 t2 t3 => [t1, t2, t3]
  | .sync _ _ t1 t2 t3 => [t1, t2, t3]
  | .testc _ t1 t2 => [t1, t2]
  | .vadd _ t1 t2 => [t1, t2]
  | .vsub _ t1 t2 => [t1, t2]
  | .vmul _ t1 t2 => [t1, t2]
  | .vmin _ t1 t2 => [t1, t2]
  | .vmax _ t1 t2 => [t1, t2]
  | .vfma t1 t2 => [t1, t2]
  | .vfms t1 t2 => [t1, t2]
  | .vdiv _ t1 t2 => [t1, t2]
  | .vsqrt _ t1 t2 => [t1, t2]
  | .vabs _ t1 t2 => [t1, t2]
  | .vneg _ t1 t2 => [t1, t2]
  | .vceq _ t1 t2 => [t1, t2]
  | .vcne _ t1 t2 => [t1, t2]
  | .vclt _ t1 t2 => [t1, t2]
  | .vcle _ t1 t2 => [t1, t2]
  | .vsel t1 t2 => [t1, t2]
  | .vcvt _ _ _ _ t1 t2 t3 => [t1, t2, t3]
  | .vpack _ _ t1 t2 t3 => [t1, t2, t3]
  | .vunpk _ _ t1 t2 t3 => [t1, t2, t3]
  | .vbcast _ _ t1 t2 t3 => [t1, t2, t3]
  | .vextr _ _ t1 t2 t3 => [t1, t2, t3]
  | .vins _ _ t1 t2 t3 => [t1, t2, t3]
  | .vperm _ t1 t2 => [t1, t2]
  | .vshuf _ _ t1 t2 => [t1, t2]
  | .vrot _ _ t1 t2 t3 => [t1, t2, t3]
  | .vreda _ t1 t2 => [t1, t2]
  | .vredx _ t1 t2 => [t1, t2]
  | .vredn _ t1 t2 => [t1, t2]
  | .vscan _ t1 t2 => [t1, t2]
  | .vmask _ _ t1 t2 t3 => [t1, t2, t3]
  | .vtopk _ _ t1 t2 t3 => [t1, t2, t3]
  | .vexp2 _ t1 t2 => [t1, t2]
  | .vlog2 _ t1 t2 => [t1, t2]
  | .vrcp _ t1 t2 => [t1, t2]
  | .vrsq _ t1 t2 => [t1, t2]
  | .vtanh _ t1 t2 => [t1, t2]
  | .vsigm _ t1 t2 => [t1, t2]
  | .vsinc _ t1 t2 => [t1, t2]
  | .vrope _ _ t1 t2 t3 => [t1, t2, t3]
  | .viadd _ _ t1 t2 => [t1, t2]
  | .visub _ _ t1 t2 => [t1, t2]
  | .vimul _ _ t1 t2 => [t1, t2]
  | .viand _ _ t1 t2 => [t1, t2]
  | .vior _ _ t1 t2 => [t1, t2]
  | .vixor _ _ t1 t2 => [t1, t2]
  | .vishl _ _ t1 t2 => [t1, t2]
  | .vishr _ _ t1 t2 => [t1, t2]
  | .vimin _ _ t1 t2 => [t1, t2]
  | .vimax _ _ t1 t2 => [t1, t2]
  | .dot _ t1 t2 => [t1, t2]
  | .dota t1 t2 => [t1, t2]
  | .doti t1 t2 => [t1, t2]
  | .svbnd _ t1 t2 => [t1, t2]
  | .svgth _ t1 t2 => [t1, t2]
  | .kvx _ t1 t2 => [t1, t2]
  | .kvfork _ t1 t2 => [t1, t2]
  | .fscan _ _ t1 t2 t3 => [t1, t2, t3]
  | .fisect t1 t2 => [t1, t2]
  | .funion t1 t2 => [t1, t2]
  | .frpt t1 t2 => [t1, t2]
  | .fred _ t1 t2 => [t1, t2]
  | .fvals _ t1 t2 => [t1, t2]
  | .fchk _ t1 t2 t3 => [t1, t2, t3]
  | .crrd _ _ t1 t2 t3 => [t1, t2, t3]
  | _ => []

/-- The targets in use. -/
def Instr.targets (i : Instr) : List Target := i.tgts.filterMap id

/-- Control registers that CRRD may name (R393). -/
def crReadable (n : Nat) : Bool :=
  [0x000, 0x001, 0x002, 0x003, 0x004, 0x005, 0x040, 0x041, 0x042, 0x043, 0x044, 0x045,
   0x080, 0x081, 0x082, 0x083, 0x0C0].contains n

/-- Control registers that CRWR may name (R393). -/
def crWritable (n : Nat) : Bool :=
  [0x002, 0x003, 0x040, 0x041, 0x042, 0x043, 0x044, 0x045, 0x046,
   0x080, 0x081, 0x082, 0x083].contains n

/-- Control registers whose read needs a SYSB block (R76, R393). -/
def crSysRead (n : Nat) : Bool :=
  [0x041, 0x042, 0x043, 0x044, 0x045, 0x080, 0x081, 0x082, 0x083].contains n

/-- Control registers whose write needs a SYSB block (R76, R393). -/
def crSysWrite (n : Nat) : Bool := crSysRead n || n == 0x040 || n == 0x046

/-- The limit on MOVX: a format code 0..11, and with .scl a scale format and a geometry (R75). -/
def movxOk (fmt : BitVec 4) (geom : BitVec 2) (scl : Bool) : Bool :=
  fmt.toNat ≤ 11 && (!scl || ((fmt == 5 || fmt == 11) && geom != 0))

/-- The limit on VCVT: a format code 0..11, with a geometry only for codes 4..8 (R276). -/
def vcvtOk (fmt : BitVec 4) (geom : BitVec 2) : Bool :=
  fmt.toNat ≤ 11 && (geom == 0 || (4 ≤ fmt.toNat && fmt.toNat ≤ 8))

/-- The limit on BFX and BFI: low bit plus width at most 64 (R75, R118). -/
def bfxOk (lo wm1 : BitVec 6) : Bool := lo.toNat + wm1.toNat + 1 ≤ 64

/-- The field limits of R75, R78, R118, R169 and R276 that the widths do not already say. -/
def Instr.fieldsOk : Instr → Bool
  | .read _ n file _ _ _ => file == .g || n.toNat < 8
  | .movx _ fmt geom scl _ _ _ => movxOk fmt geom scl
  | .lvlup _ amt _ _ _ => amt != 0
  | .lvldn _ amt _ _ _ => amt != 0
  | .lea _ sh _ _ _ => sh.toNat ≤ 3
  | .sext _ width _ _ _ => 1 ≤ width.toNat && width.toNat ≤ 64
  | .zext _ width _ _ _ => 1 ≤ width.toNat && width.toNat ≤ 64
  | .bfx _ lo wm1 _ _ _ => bfxOk lo wm1
  | .bfi _ lo wm1 _ _ _ => bfxOk lo wm1
  | .agen _ lit _ _ _ => lit.toNat % 16 == 0
  | .agenx _ lit _ _ _ => lit.toNat % 16 == 0
  | .vcvt _ fmt geom _ _ _ _ => vcvtOk fmt geom
  | .vpack _ fmt _ _ _ => fmt.toNat ≤ 11
  | .vunpk _ fmt _ _ _ => fmt.toNat ≤ 1
  | .vtopk _ k _ _ _ => 1 ≤ k.toNat && k.toNat ≤ 256
  | .crrd _ n _ _ _ => crReadable n.toNat
  | .crwr _ n => crWritable n.toNat
  | _ => true

/-- No two targets of one instruction are equal (R67). -/
def distinctTargets : List Target → Bool
  | [] => true
  | t :: ts => !ts.contains t && distinctTargets ts

/-- A well-formed instruction: its fields within their limits and its targets distinct. -/
def Instr.wf (i : Instr) : Bool := i.fieldsOk && distinctTargets i.targets

end Sys2Proof
end

