-- ==== Sys2Proof/Decode.lean ====
section
/-!
DEFINITION. Instruction words (R62..R69, R75..R78): from words to an instruction or a named
rejection, and back. `Fields` is the common middle: the fields of R63..R65 as they stand in the
words. The scan order of R79 fixes which rejection a word gets.
-/

namespace Sys2Proof

/-- Instruction forms (R62). -/
inductive Form where
  | s | w | l
  deriving DecidableEq, Repr

/-- Instruction classes (R44, R75): address generator, reducer, compute pipeline. -/
inductive Cls where
  | m | a | p
  deriving DecidableEq, Repr

/-- What the opcode map gives for one opcode (R75, R78). -/
structure OpInfo where
  /-- the mnemonic -/
  name : String
  /-- the forms the opcode may take -/
  forms : List Form
  /-- the class that places the instruction -/
  cls : Cls
  /-- slot a is a data slot -/
  hasA : Bool
  /-- slot b is a data slot -/
  hasB : Bool
  /-- slot p is a data slot (R69) -/
  pData : Bool
  /-- a taking operator (R336): its predicate mode must be 00 -/
  taking : Bool
  /-- slots a and b take element and scale tokens in pairs (R70) -/
  pair : Bool
  /-- counted in EXITS -/
  isExit : Bool
  /-- counted in STORES -/
  isStore : Bool
  /-- needs SYSB -/
  isSys : Bool
  /-- has a result, and so targets -/
  result : Bool
  /-- variants assigned: the codes below this number (R78) -/
  variants : Nat
  /-- bits of ext that carry a suffix (R78) -/
  extMask : BitVec 7
  /-- the W-form's imm16 carries a fourth target (R64) -/
  t4 : Bool
  deriving DecidableEq, Repr

/-- The opcode map (R75, R77): `none` for an unassigned opcode. -/
def opInfo : Nat → Option OpInfo
  | 0x00 => some ⟨"NOP", [.s], .p, false, false, false, false, false, false, false, false, false, 1, 0x0#7, false⟩
  | 0x01 => some ⟨"READ", [.w], .p, false, false, false, false, false, false, false, false, true, 1, 0x0#7, false⟩
  | 0x02 => some ⟨"WRITE", [.w], .p, true, false, false, false, false, false, false, false, false, 1, 0x0#7, false⟩
  | 0x03 => some ⟨"VREAD", [.w], .p, false, false, false, false, false, false, false, false, true, 1, 0x0#7, false⟩
  | 0x04 => some ⟨"VWRITE", [.w], .p, true, false, false, false, false, false, false, false, false, 1, 0x0#7, false⟩
  | 0x05 => some ⟨"MOV", [.s, .w], .p, true, false, false, false, false, false, false, false, true, 1, 0x0#7, true⟩
  | 0x06 => some ⟨"MOVX", [.w], .p, true, false, false, false, false, false, false, false, true, 1, 0x0#7, false⟩
  | 0x07 => some ⟨"NULL", [.s, .w], .p, false, false, false, false, false, false, false, false, true, 1, 0x0#7, true⟩
  | 0x08 => some ⟨"BR", [.s], .p, true, false, false, false, false, true, false, false, false, 1, 0x0#7, false⟩
  | 0x09 => some ⟨"BRI", [.l], .p, false, false, false, false, false, true, false, false, false, 1, 0x0#7, false⟩
  | 0x0A => some ⟨"CALL", [.l], .p, true, false, false, false, false, true, false, false, false, 1, 0x0#7, false⟩
  | 0x0B => some ⟨"RET", [.s], .p, true, false, false, false, false, true, false, false, false, 1, 0x0#7, false⟩
  | 0x0C => some ⟨"HALT", [.s], .p, false, false, false, false, false, true, false, false, false, 1, 0x0#7, false⟩
  | 0x0D => some ⟨"YIELD", [.l], .p, false, false, false, false, false, true, false, false, false, 1, 0x0#7, false⟩
  | 0x0E => some ⟨"SPAWN", [.l], .m, true, true, true, false, false, false, false, false, false, 1, 0x0#7, false⟩
  | 0x10 => some ⟨"STEER", [.s, .w], .p, true, true, false, false, false, false, false, false, true, 1, 0x0#7, false⟩
  | 0x11 => some ⟨"MERGE", [.s, .w], .p, true, true, false, false, false, false, false, false, true, 1, 0x0#7, false⟩
  | 0x12 => some ⟨"CARRY", [.s], .a, true, true, false, false, false, false, false, false, true, 1, 0x0#7, false⟩
  | 0x13 => some ⟨"INIT", [.w, .l], .p, false, false, false, false, false, false, false, false, true, 1, 0x0#7, false⟩
  | 0x14 => some ⟨"GATE", [.s], .p, true, true, false, false, false, false, false, false, true, 1, 0x0#7, false⟩
  | 0x15 => some ⟨"STOP", [.w], .p, true, false, false, false, false, false, false, false, true, 1, 0x0#7, false⟩
  | 0x16 => some ⟨"DONE", [.s], .p, true, false, false, false, false, false, false, false, true, 1, 0x0#7, false⟩
  | 0x17 => some ⟨"TESTK", [.w], .p, true, false, false, false, false, false, false, false, true, 1, 0x0#7, false⟩
  | 0x18 => some ⟨"LVLUP", [.w], .p, true, false, false, false, false, false, false, false, true, 1, 0x0#7, false⟩
  | 0x19 => some ⟨"LVLDN", [.w], .p, true, false, false, false, false, false, false, false, true, 1, 0x0#7, false⟩
  | 0x1A => some ⟨"BAR", [.s], .m, true, true, false, false, false, false, false, false, false, 1, 0x0#7, false⟩
  | 0x20 => some ⟨"ADD", [.s], .p, true, true, false, false, false, false, false, false, true, 1, 0x0#7, false⟩
  | 0x21 => some ⟨"SUB", [.s], .p, true, true, false, false, false, false, false, false, true, 1, 0x0#7, false⟩
  | 0x22 => some ⟨"MUL", [.s], .p, true, true, false, false, false, false, false, false, true, 1, 0x0#7, false⟩
  | 0x23 => some ⟨"MULH", [.s], .p, true, true, false, false, false, false, false, false, true, 1, 0x0#7, false⟩
  | 0x24 => some ⟨"MULHU", [.s], .p, true, true, false, false, false, false, false, false, true, 1, 0x0#7, false⟩
  | 0x25 => some ⟨"DIV", [.s], .p, true, true, false, false, false, false, false, false, true, 1, 0x0#7, false⟩
  | 0x26 => some ⟨"DIVU", [.s], .p, true, true, false, false, false, false, false, false, true, 1, 0x0#7, false⟩
  | 0x27 => some ⟨"REM", [.s], .p, true, true, false, false, false, false, false, false, true, 1, 0x0#7, false⟩
  | 0x28 => some ⟨"REMU", [.s], .p, true, true, false, false, false, false, false, false, true, 1, 0x0#7, false⟩
  | 0x29 => some ⟨"MIN", [.s], .p, true, true, false, false, false, false, false, false, true, 1, 0x0#7, false⟩
  | 0x2A => some ⟨"MAX", [.s], .p, true, true, false, false, false, false, false, false, true, 1, 0x0#7, false⟩
  | 0x2B => some ⟨"MINU", [.s], .p, true, true, false, false, false, false, false, false, true, 1, 0x0#7, false⟩
  | 0x2C => some ⟨"MAXU", [.s], .p, true, true, false, false, false, false, false, false, true, 1, 0x0#7, false⟩
  | 0x2D => some ⟨"NEG", [.s], .p, true, false, false, false, false, false, false, false, true, 1, 0x0#7, false⟩
  | 0x2E => some ⟨"ABS", [.s], .p, true, false, false, false, false, false, false, false, true, 1, 0x0#7, false⟩
  | 0x30 => some ⟨"ADDI", [.w], .p, true, false, false, false, false, false, false, false, true, 1, 0x0#7, false⟩
  | 0x31 => some ⟨"ANDI", [.w], .p, true, false, false, false, false, false, false, false, true, 1, 0x0#7, false⟩
  | 0x32 => some ⟨"ORI", [.w], .p, true, false, false, false, false, false, false, false, true, 1, 0x0#7, false⟩
  | 0x33 => some ⟨"XORI", [.w], .p, true, false, false, false, false, false, false, false, true, 1, 0x0#7, false⟩
  | 0x34 => some ⟨"SHLI", [.w], .p, true, false, false, false, false, false, false, false, true, 1, 0x0#7, false⟩
  | 0x35 => some ⟨"SHRI", [.w], .p, true, false, false, false, false, false, false, false, true, 1, 0x0#7, false⟩
  | 0x36 => some ⟨"SARI", [.w], .p, true, false, false, false, false, false, false, false, true, 1, 0x0#7, false⟩
  | 0x37 => some ⟨"TEQI", [.w], .p, true, false, false, false, false, false, false, false, true, 1, 0x0#7, false⟩
  | 0x38 => some ⟨"TLTI", [.w], .p, true, false, false, false, false, false, false, false, true, 1, 0x0#7, false⟩
  | 0x39 => some ⟨"LIT", [.w, .l], .p, false, false, false, false, false, false, false, false, true, 1, 0x0#7, false⟩
  | 0x3A => some ⟨"LITH", [.l], .p, true, false, false, false, false, false, false, false, true, 1, 0x0#7, false⟩
  | 0x3B => some ⟨"LEA", [.w], .p, true, true, false, false, false, false, false, false, true, 1, 0x0#7, false⟩
  | 0x40 => some ⟨"AND", [.s], .p, true, true, false, false, false, false, false, false, true, 1, 0x0#7, false⟩
  | 0x41 => some ⟨"OR", [.s], .p, true, true, false, false, false, false, false, false, true, 1, 0x0#7, false⟩
  | 0x42 => some ⟨"XOR", [.s], .p, true, true, false, false, false, false, false, false, true, 1, 0x0#7, false⟩
  | 0x43 => some ⟨"SHL", [.s], .p, true, true, false, false, false, false, false, false, true, 1, 0x0#7, false⟩
  | 0x44 => some ⟨"SHR", [.s], .p, true, true, false, false, false, false, false, false, true, 1, 0x0#7, false⟩
  | 0x45 => some ⟨"SAR", [.s], .p, true, true, false, false, false, false, false, false, true, 1, 0x0#7, false⟩
  | 0x46 => some ⟨"ROTL", [.s], .p, true, true, false, false, false, false, false, false, true, 1, 0x0#7, false⟩
  | 0x47 => some ⟨"TEQ", [.s], .p, true, true, false, false, false, false, false, false, true, 1, 0x0#7, false⟩
  | 0x48 => some ⟨"TNE", [.s], .p, true, true, false, false, false, false, false, false, true, 1, 0x0#7, false⟩
  | 0x49 => some ⟨"TLT", [.s], .p, true, true, false, false, false, false, false, false, true, 1, 0x0#7, false⟩
  | 0x4A => some ⟨"TLE", [.s], .p, true, true, false, false, false, false, false, false, true, 1, 0x0#7, false⟩
  | 0x4B => some ⟨"TLTU", [.s], .p, true, true, false, false, false, false, false, false, true, 1, 0x0#7, false⟩
  | 0x4C => some ⟨"TLEU", [.s], .p, true, true, false, false, false, false, false, false, true, 1, 0x0#7, false⟩
  | 0x4D => some ⟨"SEL", [.s], .p, true, true, true, false, false, false, false, false, true, 1, 0x0#7, false⟩
  | 0x50 => some ⟨"CLZ", [.s], .p, true, false, false, false, false, false, false, false, true, 1, 0x0#7, false⟩
  | 0x51 => some ⟨"CTZ", [.s], .p, true, false, false, false, false, false, false, false, true, 1, 0x0#7, false⟩
  | 0x52 => some ⟨"POPC", [.s], .p, true, false, false, false, false, false, false, false, true, 1, 0x0#7, false⟩
  | 0x53 => some ⟨"SEXT", [.w], .p, true, false, false, false, false, false, false, false, true, 1, 0x0#7, false⟩
  | 0x54 => some ⟨"ZEXT", [.w], .p, true, false, false, false, false, false, false, false, true, 1, 0x0#7, false⟩
  | 0x55 => some ⟨"BFX", [.w], .p, true, false, false, false, false, false, false, false, true, 1, 0x0#7, false⟩
  | 0x56 => some ⟨"BFI", [.w], .p, true, true, false, false, false, false, false, false, true, 1, 0x0#7, false⟩
  | 0x57 => some ⟨"BFN", [.w], .p, true, true, true, false, false, false, false, false, true, 1, 0x0#7, false⟩
  | 0x58 => some ⟨"LUTB", [.w], .p, true, false, false, false, false, false, false, false, true, 1, 0x0#7, false⟩
  | 0x60 => some ⟨"SRD", [.s], .m, true, false, false, false, false, false, false, false, true, 1, 0x0#7, false⟩
  | 0x61 => some ⟨"SRDV", [.s], .m, true, false, false, false, false, false, false, false, true, 1, 0x0#7, false⟩
  | 0x62 => some ⟨"SWR", [.s], .m, true, true, false, false, false, false, true, false, false, 1, 0x0#7, false⟩
  | 0x63 => some ⟨"SWRV", [.s], .m, true, true, false, false, false, false, true, false, false, 1, 0x0#7, false⟩
  | 0x64 => some ⟨"SPUB", [.s], .m, true, false, false, false, false, false, false, false, false, 1, 0x0#7, false⟩
  | 0x65 => some ⟨"SREL", [.s], .m, true, false, false, false, false, false, false, false, false, 1, 0x0#7, false⟩
  | 0x66 => some ⟨"SREW", [.s], .m, true, false, false, false, false, false, false, false, false, 1, 0x0#7, false⟩
  | 0x67 => some ⟨"SPOS", [.s], .m, true, false, false, false, false, false, false, false, true, 1, 0x0#7, false⟩
  | 0x68 => some ⟨"SJOIN", [.s], .m, true, false, false, false, false, false, false, false, false, 2, 0x0#7, false⟩
  | 0x69 => some ⟨"SLEAVE", [.s], .m, true, false, false, false, false, false, false, false, false, 1, 0x0#7, false⟩
  | 0x70 => some ⟨"LDB", [.w], .m, true, false, false, false, false, false, false, false, true, 1, 0x0#7, false⟩
  | 0x71 => some ⟨"LDBU", [.w], .m, true, false, false, false, false, false, false, false, true, 1, 0x0#7, false⟩
  | 0x72 => some ⟨"LDH", [.w], .m, true, false, false, false, false, false, false, false, true, 1, 0x0#7, false⟩
  | 0x73 => some ⟨"LDHU", [.w], .m, true, false, false, false, false, false, false, false, true, 1, 0x0#7, false⟩
  | 0x74 => some ⟨"LDW", [.w], .m, true, false, false, false, false, false, false, false, true, 1, 0x0#7, false⟩
  | 0x75 => some ⟨"LDWU", [.w], .m, true, false, false, false, false, false, false, false, true, 1, 0x0#7, false⟩
  | 0x76 => some ⟨"LDD", [.w], .m, true, false, false, false, false, false, false, false, true, 1, 0x0#7, false⟩
  | 0x77 => some ⟨"STB", [.w], .m, true, true, false, false, false, false, true, false, false, 1, 0x0#7, false⟩
  | 0x78 => some ⟨"STH", [.w], .m, true, true, false, false, false, false, true, false, false, 1, 0x0#7, false⟩
  | 0x79 => some ⟨"STW", [.w], .m, true, true, false, false, false, false, true, false, false, 1, 0x0#7, false⟩
  | 0x7A => some ⟨"STD", [.w], .m, true, true, false, false, false, false, true, false, false, 1, 0x0#7, false⟩
  | 0x7B => some ⟨"LDV", [.w], .m, true, false, false, false, false, false, false, false, true, 1, 0x0#7, false⟩
  | 0x7C => some ⟨"LDVS", [.w], .m, true, false, false, false, false, false, false, false, true, 1, 0x0#7, false⟩
  | 0x7D => some ⟨"STV", [.w], .m, true, true, false, false, false, false, true, false, false, 1, 0x0#7, false⟩
  | 0x7E => some ⟨"GATH", [.s], .m, true, true, false, false, false, false, false, false, true, 1, 0x0#7, false⟩
  | 0x7F => some ⟨"SCAT", [.s], .m, true, true, true, false, false, false, true, false, false, 1, 0x0#7, false⟩
  | 0x80 => some ⟨"AGEN", [.l], .m, true, false, false, false, false, false, false, false, true, 1, 0x0#7, false⟩
  | 0x81 => some ⟨"AGENX", [.l], .m, true, false, false, false, false, false, false, false, true, 1, 0x0#7, false⟩
  | 0x82 => some ⟨"AADD", [.w], .m, true, true, false, false, false, false, true, false, true, 2, 0xF#7, false⟩
  | 0x83 => some ⟨"AAND", [.w], .m, true, true, false, false, false, false, true, false, true, 2, 0xF#7, false⟩
  | 0x84 => some ⟨"AOR", [.w], .m, true, true, false, false, false, false, true, false, true, 2, 0xF#7, false⟩
  | 0x85 => some ⟨"AXOR", [.w], .m, true, true, false, false, false, false, true, false, true, 2, 0xF#7, false⟩
  | 0x86 => some ⟨"AMIN", [.w], .m, true, true, false, false, false, false, true, false, true, 2, 0xF#7, false⟩
  | 0x87 => some ⟨"AMAX", [.w], .m, true, true, false, false, false, false, true, false, true, 2, 0xF#7, false⟩
  | 0x88 => some ⟨"AMINU", [.w], .m, true, true, false, false, false, false, true, false, true, 2, 0xF#7, false⟩
  | 0x89 => some ⟨"AMAXU", [.w], .m, true, true, false, false, false, false, true, false, true, 2, 0xF#7, false⟩
  | 0x8A => some ⟨"AXCHG", [.w], .m, true, true, false, false, false, false, true, false, true, 2, 0xF#7, false⟩
  | 0x8B => some ⟨"ACAS", [.w], .m, true, true, true, false, false, false, true, false, true, 2, 0xF#7, false⟩
  | 0x8C => some ⟨"AFADD", [.w], .m, true, true, false, false, false, false, true, false, true, 1, 0xF#7, false⟩
  | 0x8D => some ⟨"ACQ", [.w], .m, true, false, false, false, false, false, false, false, true, 1, 0xC#7, false⟩
  | 0x8E => some ⟨"REL", [.w], .m, true, false, false, false, false, false, false, false, true, 1, 0xC#7, false⟩
  | 0x8F => some ⟨"SYNC", [.w], .m, true, false, false, false, false, false, false, false, true, 1, 0xC#7, false⟩
  | 0x90 => some ⟨"COPY", [.s], .m, true, true, false, false, false, false, false, false, false, 1, 0x0#7, false⟩
  | 0x91 => some ⟨"COPY2D", [.s], .m, true, true, false, false, false, false, false, false, false, 1, 0x0#7, false⟩
  | 0x92 => some ⟨"XFER", [.s], .m, true, true, false, false, false, false, false, false, false, 1, 0x0#7, false⟩
  | 0x93 => some ⟨"TASK", [.s], .m, true, false, false, false, false, false, false, false, false, 1, 0x0#7, false⟩
  | 0x94 => some ⟨"WAITC", [.s], .m, true, false, false, false, false, false, false, false, false, 1, 0x0#7, false⟩
  | 0x95 => some ⟨"TESTC", [.s], .m, true, false, false, false, false, false, false, false, true, 1, 0x0#7, false⟩
  | 0x96 => some ⟨"WSSEAL", [.s], .m, true, false, false, false, false, false, false, false, false, 1, 0x0#7, false⟩
  | 0x97 => some ⟨"WSOPEN", [.s], .m, true, false, false, false, false, false, false, false, false, 1, 0x0#7, false⟩
  | 0xA0 => some ⟨"VADD", [.s], .p, true, true, false, false, false, false, false, false, true, 1, 0x0#7, false⟩
  | 0xA1 => some ⟨"VSUB", [.s], .p, true, true, false, false, false, false, false, false, true, 1, 0x0#7, false⟩
  | 0xA2 => some ⟨"VMUL", [.s], .p, true, true, false, false, false, false, false, false, true, 1, 0x0#7, false⟩
  | 0xA3 => some ⟨"VMIN", [.s], .p, true, true, false, false, false, false, false, false, true, 1, 0x0#7, false⟩
  | 0xA4 => some ⟨"VMAX", [.s], .p, true, true, false, false, false, false, false, false, true, 1, 0x0#7, false⟩
  | 0xA5 => some ⟨"VFMA", [.s], .p, true, true, true, false, false, false, false, false, true, 1, 0x0#7, false⟩
  | 0xA6 => some ⟨"VFMS", [.s], .p, true, true, true, false, false, false, false, false, true, 1, 0x0#7, false⟩
  | 0xA7 => some ⟨"VDIV", [.s], .p, true, true, false, false, false, false, false, false, true, 1, 0x0#7, false⟩
  | 0xA8 => some ⟨"VSQRT", [.s], .p, true, false, false, false, false, false, false, false, true, 1, 0x0#7, false⟩
  | 0xA9 => some ⟨"VABS", [.s], .p, true, false, false, false, false, false, false, false, true, 1, 0x0#7, false⟩
  | 0xAA => some ⟨"VNEG", [.s], .p, true, false, false, false, false, false, false, false, true, 1, 0x0#7, false⟩
  | 0xB0 => some ⟨"VCEQ", [.s], .p, true, true, false, false, false, false, false, false, true, 1, 0x0#7, false⟩
  | 0xB1 => some ⟨"VCNE", [.s], .p, true, true, false, false, false, false, false, false, true, 1, 0x0#7, false⟩
  | 0xB2 => some ⟨"VCLT", [.s], .p, true, true, false, false, false, false, false, false, true, 1, 0x0#7, false⟩
  | 0xB3 => some ⟨"VCLE", [.s], .p, true, true, false, false, false, false, false, false, true, 1, 0x0#7, false⟩
  | 0xB4 => some ⟨"VSEL", [.s], .p, true, true, true, false, false, false, false, false, true, 1, 0x0#7, false⟩
  | 0xB5 => some ⟨"VCVT", [.w], .p, true, false, false, false, false, false, false, false, true, 1, 0x7#7, false⟩
  | 0xB6 => some ⟨"VPACK", [.w], .p, true, false, false, false, false, false, false, false, true, 1, 0x0#7, false⟩
  | 0xB7 => some ⟨"VUNPK", [.w], .p, true, false, false, false, false, false, false, false, true, 1, 0x0#7, false⟩
  | 0xB8 => some ⟨"VBCAST", [.w], .p, true, false, false, false, false, false, false, false, true, 1, 0x0#7, false⟩
  | 0xB9 => some ⟨"VEXTR", [.w], .p, true, false, false, false, false, false, false, false, true, 1, 0x0#7, false⟩
  | 0xBA => some ⟨"VINS", [.w], .p, true, true, false, false, false, false, false, false, true, 1, 0x0#7, false⟩
  | 0xBB => some ⟨"VPERM", [.s], .p, true, true, false, false, false, false, false, false, true, 1, 0x0#7, false⟩
  | 0xBC => some ⟨"VSHUF", [.s], .p, true, true, false, false, false, false, false, false, true, 4, 0x0#7, false⟩
  | 0xBD => some ⟨"VROT", [.w], .p, true, false, false, false, false, false, false, false, true, 1, 0x0#7, false⟩
  | 0xC0 => some ⟨"VREDA", [.s], .p, true, false, false, false, false, false, false, false, true, 1, 0x0#7, false⟩
  | 0xC1 => some ⟨"VREDX", [.s], .p, true, false, false, false, false, false, false, false, true, 1, 0x0#7, false⟩
  | 0xC2 => some ⟨"VREDN", [.s], .p, true, false, false, false, false, false, false, false, true, 1, 0x0#7, false⟩
  | 0xC3 => some ⟨"VSCAN", [.s], .p, true, false, false, false, false, false, false, false, true, 1, 0x0#7, false⟩
  | 0xC4 => some ⟨"VMASK", [.w], .p, true, false, false, false, false, false, false, false, true, 1, 0x0#7, false⟩
  | 0xC5 => some ⟨"VTOPK", [.w], .a, true, true, false, false, false, false, false, false, true, 1, 0x0#7, false⟩
  | 0xC6 => some ⟨"VEXP2", [.s], .p, true, false, false, false, false, false, false, false, true, 1, 0x0#7, false⟩
  | 0xC7 => some ⟨"VLOG2", [.s], .p, true, false, false, false, false, false, false, false, true, 1, 0x0#7, false⟩
  | 0xC8 => some ⟨"VRCP", [.s], .p, true, false, false, false, false, false, false, false, true, 1, 0x0#7, false⟩
  | 0xC9 => some ⟨"VRSQ", [.s], .p, true, false, false, false, false, false, false, false, true, 1, 0x0#7, false⟩
  | 0xCA => some ⟨"VTANH", [.s], .p, true, false, false, false, false, false, false, false, true, 1, 0x0#7, false⟩
  | 0xCB => some ⟨"VSIGM", [.s], .p, true, false, false, false, false, false, false, false, true, 1, 0x0#7, false⟩
  | 0xCC => some ⟨"VSINC", [.s], .p, true, false, false, false, false, false, false, false, true, 1, 0x0#7, false⟩
  | 0xCD => some ⟨"VROPE", [.w], .p, true, true, false, false, false, false, false, false, true, 1, 0x0#7, false⟩
  | 0xD0 => some ⟨"VIADD", [.s], .p, true, true, false, false, false, false, false, false, true, 3, 0x0#7, false⟩
  | 0xD1 => some ⟨"VISUB", [.s], .p, true, true, false, false, false, false, false, false, true, 3, 0x0#7, false⟩
  | 0xD2 => some ⟨"VIMUL", [.s], .p, true, true, false, false, false, false, false, false, true, 3, 0x0#7, false⟩
  | 0xD3 => some ⟨"VIAND", [.s], .p, true, true, false, false, false, false, false, false, true, 3, 0x0#7, false⟩
  | 0xD4 => some ⟨"VIOR", [.s], .p, true, true, false, false, false, false, false, false, true, 3, 0x0#7, false⟩
  | 0xD5 => some ⟨"VIXOR", [.s], .p, true, true, false, false, false, false, false, false, true, 3, 0x0#7, false⟩
  | 0xD6 => some ⟨"VISHL", [.s], .p, true, true, false, false, false, false, false, false, true, 3, 0x0#7, false⟩
  | 0xD7 => some ⟨"VISHR", [.s], .p, true, true, false, false, false, false, false, false, true, 3, 0x0#7, false⟩
  | 0xD8 => some ⟨"VIMIN", [.s], .p, true, true, false, false, false, false, false, false, true, 3, 0x0#7, false⟩
  | 0xD9 => some ⟨"VIMAX", [.s], .p, true, true, false, false, false, false, false, false, true, 3, 0x0#7, false⟩
  | 0xDA => some ⟨"DOT", [.s], .p, true, true, false, false, true, false, false, false, true, 1, 0x0#7, false⟩
  | 0xDB => some ⟨"DOTA", [.s], .p, true, true, true, false, true, false, false, false, true, 1, 0x0#7, false⟩
  | 0xDC => some ⟨"DOTI", [.s], .p, true, true, true, false, true, false, false, false, true, 1, 0x0#7, false⟩
  | 0xE0 => some ⟨"SVBND", [.s], .m, true, true, false, false, false, false, false, false, true, 1, 0x0#7, false⟩
  | 0xE1 => some ⟨"SVGTH", [.s], .m, true, true, false, false, false, false, false, false, true, 1, 0x0#7, false⟩
  | 0xE2 => some ⟨"KVX", [.s], .m, true, true, false, false, false, false, false, false, true, 1, 0x0#7, false⟩
  | 0xE3 => some ⟨"KVFORK", [.s], .m, true, true, false, false, false, false, false, false, true, 1, 0x0#7, false⟩
  | 0xE4 => some ⟨"KVFREE", [.s], .m, true, false, false, false, false, false, false, false, false, 1, 0x0#7, false⟩
  | 0xE8 => some ⟨"FSCAN", [.w], .m, true, false, false, false, false, false, false, false, true, 1, 0x0#7, false⟩
  | 0xE9 => some ⟨"FISECT", [.s], .a, true, true, false, true, false, false, false, false, true, 1, 0x0#7, false⟩
  | 0xEA => some ⟨"FUNION", [.s], .a, true, true, false, true, false, false, false, false, true, 1, 0x0#7, false⟩
  | 0xEB => some ⟨"FRPT", [.s], .a, true, true, false, true, false, false, false, false, true, 1, 0x0#7, false⟩
  | 0xEC => some ⟨"FRED", [.s], .a, true, false, false, true, false, false, false, false, true, 3, 0x0#7, false⟩
  | 0xED => some ⟨"FVALS", [.s], .m, true, true, false, false, false, false, false, false, true, 1, 0x0#7, false⟩
  | 0xEE => some ⟨"FBLD", [.s], .m, true, true, false, true, false, false, true, false, false, 1, 0x0#7, false⟩
  | 0xEF => some ⟨"FCHK", [.w], .a, true, false, false, true, false, false, false, false, true, 1, 0x0#7, false⟩
  | 0xF0 => some ⟨"TRAP", [.w], .p, false, false, false, false, false, false, false, false, false, 1, 0x0#7, false⟩
  | 0xF1 => some ⟨"TRET", [.s], .p, true, false, false, false, false, true, false, true, false, 1, 0x0#7, false⟩
  | 0xF2 => some ⟨"CRRD", [.w], .p, false, false, false, false, false, false, false, false, true, 1, 0x0#7, false⟩
  | 0xF3 => some ⟨"CRWR", [.w], .p, true, false, false, false, false, false, false, false, false, 1, 0x0#7, false⟩
  | 0xF4 => some ⟨"XLINV", [.s], .m, true, false, false, false, false, false, false, true, false, 1, 0x0#7, false⟩
  | 0xF5 => some ⟨"CFGINV", [.s], .m, true, false, false, false, false, false, false, true, false, 1, 0x0#7, false⟩
  | 0xF6 => some ⟨"QPOST", [.s], .m, true, true, false, false, false, false, false, false, false, 1, 0x0#7, false⟩
  | 0xF7 => some ⟨"DBGBRK", [.w], .p, false, false, false, false, false, false, false, false, false, 1, 0x0#7, false⟩
  | 0xF8 => some ⟨"HINT", [.w], .p, false, false, false, false, false, false, false, false, false, 1, 0x0#7, false⟩
  | _ => none

/-- The fields of an instruction as its words hold them (R63..R65); an absent word reads as its held values. -/
structure Fields where
  form    : Form
  opcode  : BitVec 8
  pred    : BitVec 2
  variant : BitVec 2
  t1      : BitVec 9
  t2      : BitVec 9
  t3      : BitVec 9
  ext     : BitVec 7
  imm     : BitVec 16
  lit     : BitVec 32
  deriving DecidableEq, Repr

/-- Why a word sequence is no instruction: the reasons 0x06..0x0E of R79. -/
inductive Reject where
  /-- 0x06: length code 11 -/
  | lengthCode
  /-- 0x07: unassigned opcode -/
  | opcode
  /-- 0x08: form not allowed for the opcode -/
  | form
  /-- 0x09: pred is 11, or nonzero on a p-data instruction or taking operator -/
  | pred
  /-- 0x0A: variant not assigned -/
  | variant
  /-- 0x0B: ext not assigned, or nonzero where unused -/
  | ext
  /-- 0x0C: imm16 or literal outside its limits -/
  | imm
  /-- 0x0D: a target that R66 or R67 refuses -/
  | target
  /-- 0x0E: no word remains, or the length runs past the last word -/
  | words
  deriving DecidableEq, Repr

/-- The reason code of R79. -/
def Reject.code : Reject → BitVec 8
  | .lengthCode => 0x06 | .opcode => 0x07 | .form => 0x08 | .pred => 0x09 | .variant => 0x0A
  | .ext => 0x0B | .imm => 0x0C | .target => 0x0D | .words => 0x0E

/-! ### Field encodings (R67, R68, R78) -/

def encSlot : Slot → BitVec 2 | .a => 0 | .b => 1 | .p => 2
def decSlot (x : BitVec 2) : Slot := if x = 0 then .a else if x = 1 then .b else .p

def encTgt : Tgt → BitVec 9
  | none => 0x1FF
  | some t => t.idx ++ encSlot t.slot

/-- A target field read as a target; slot code 11 occurs only in 0x1FF once `tgtOk` has passed. -/
def decTgt (x : BitVec 9) : Tgt :=
  if x = 0x1FF then none else some ⟨x.extractLsb' 2 7, decSlot (x.extractLsb' 0 2)⟩

/-- A target field that R67 allows: slot code 11 only in 0x1FF. -/
def tgtOk (x : BitVec 9) : Bool := x == 0x1FF || x.extractLsb' 0 2 != 3#2

def encPred : Pred → BitVec 2 | .always => 0 | .onTrue => 1 | .onFalse => 2
def decPred (x : BitVec 2) : Pred := if x = 1 then .onTrue else if x = 2 then .onFalse else .always

def encBool : Bool → BitVec 1 | false => 0 | true => 1
def decBool (x : BitVec 1) : Bool := x == 1

def encRFile : RFile → BitVec 1 | .g => 0 | .k => 1
def decRFile (x : BitVec 1) : RFile := if x = 0 then .g else .k

def encRole : JoinRole → BitVec 2 | .rdr => 0 | .pro => 1
def decRole (x : BitVec 2) : JoinRole := if x = 0 then .rdr else .pro

def encASize : ASize → BitVec 2 | .w => 0 | .d => 1
def decASize (x : BitVec 2) : ASize := if x = 0 then .w else .d

def encOrder : MOrder → BitVec 2 | .rlx => 0 | .acq => 1 | .rel => 2 | .ar => 3
def decOrder (x : BitVec 2) : MOrder :=
  if x = 0 then .rlx else if x = 1 then .acq else if x = 2 then .rel else .ar

def encScope : Scope → BitVec 2 | .rgn => 0 | .die => 1 | .pkg => 2 | .sys => 3
def decScope (x : BitVec 2) : Scope :=
  if x = 0 then .rgn else if x = 1 then .die else if x = 2 then .pkg else .sys

def encRounding : Rounding → BitVec 3 | .rne => 0 | .rz => 1 | .ru => 2 | .rd => 3 | .rs => 4
def decRounding (x : BitVec 3) : Rounding :=
  if x = 0 then .rne else if x = 1 then .rz else if x = 2 then .ru else if x = 3 then .rd else .rs

def encLaneW : LaneW → BitVec 2 | .i32 => 0 | .i16 => 1 | .i8 => 2
def decLaneW (x : BitVec 2) : LaneW := if x = 0 then .i32 else if x = 1 then .i16 else .i8

def encShuf : Shuf → BitVec 2 | .lo => 0 | .hi => 1 | .ev => 2 | .od => 3
def decShuf (x : BitVec 2) : Shuf :=
  if x = 0 then .lo else if x = 1 then .hi else if x = 2 then .ev else .od

def encRedOp : RedOp → BitVec 2 | .add => 0 | .max => 1 | .min => 2
def decRedOp (x : BitVec 2) : RedOp := if x = 0 then .add else if x = 1 then .max else .min

/-! ### Fields and words (R62..R65) -/

def Form.code : Form → BitVec 2 | .s => 0 | .w => 1 | .l => 2

/-- The number of words of a form (R62). -/
def Form.words : Form → Nat | .s => 1 | .w => 2 | .l => 3

/-- The form that a first word's length code gives (R62). -/
def formOf (w : Word32) : Option Form :=
  let c := w.extractLsb' 0 2
  if c = 0 then some .s else if c = 1 then some .w else if c = 2 then some .l else none

/-- The first word (R63). -/
def Fields.first (f : Fields) : Word32 :=
  f.variant ++ f.t2 ++ f.t1 ++ f.pred ++ f.opcode ++ f.form.code

/-- The extension word (R64). -/
def Fields.second (f : Fields) : Word32 := f.ext ++ f.t3 ++ f.imm

/-- The words of an instruction, lowest address first (R62..R65). -/
def Fields.words (f : Fields) : List Word32 :=
  match f.form with
  | .s => [f.first]
  | .w => [f.first, f.second]
  | .l => [f.first, f.second, f.lit]

/-- The fields that words hold; the words the form lacks read as R66's held values. -/
def fieldsOfWords (form : Form) (w0 w1 w2 : Word32) : Fields :=
  { form := form
    opcode := w0.extractLsb' 2 8
    pred := w0.extractLsb' 10 2
    t1 := w0.extractLsb' 12 9
    t2 := w0.extractLsb' 21 9
    variant := w0.extractLsb' 30 2
    imm := if form = .s then 0 else w1.extractLsb' 0 16
    t3 := if form = .s then 0x1FF else w1.extractLsb' 16 9
    ext := if form = .s then 0 else w1.extractLsb' 25 7
    lit := if form = .l then w2 else 0 }

/-- The limits on imm16 and the literal (reason 0x0C): R66, R75, R76, R169, R276. -/
def immOk (f : Fields) : Bool :=
  let i := f.imm.toNat
  match f.opcode.toNat with
  | 0x01 => i < 32 && (i < 16 || i < 24)
  | 0x02 => i < 16
  | 0x03 | 0x04 => i < 4
  | 0x05 | 0x07 => i < 512
  | 0x06 => i < 128 && movxOk (f.imm.extractLsb' 0 4) (f.imm.extractLsb' 4 2) (decBool (f.imm.extractLsb' 6 1))
  | 0x13 | 0x39 => f.form == .w || i == 0
  | 0x15 => i < 8
  | 0x17 => i < 64
  | 0x18 | 0x19 => 1 ≤ i && i < 8
  | 0x30 | 0x31 | 0x32 | 0x33 | 0x37 | 0x38 => true
  | 0x34 | 0x35 | 0x36 => i < 64
  | 0x3B => i < 4
  | 0x53 | 0x54 => 1 ≤ i && i ≤ 64
  | 0x55 | 0x56 => i < 4096 && bfxOk (f.imm.extractLsb' 0 6) (f.imm.extractLsb' 6 6)
  | 0x57 | 0x58 => i < 256
  | 0x70 | 0x71 | 0x72 | 0x73 | 0x74 | 0x75 | 0x76 | 0x77 | 0x78 | 0x79 | 0x7A | 0x7B | 0x7C | 0x7D => true
  | 0x80 | 0x81 => i == 0 && f.lit.toNat % 16 == 0
  | 0x82 | 0x83 | 0x84 | 0x85 | 0x86 | 0x87 | 0x88 | 0x89 | 0x8A | 0x8B | 0x8C => true
  | 0xB5 => i < 64 && vcvtOk (f.imm.extractLsb' 0 4) (f.imm.extractLsb' 4 2)
  | 0xB6 => i < 12
  | 0xB7 => i < 2
  | 0xB8 | 0xB9 | 0xBA | 0xBD => i < 16
  | 0xC4 => true
  | 0xC5 => 1 ≤ i && i ≤ 256
  | 0xCD => i < 256
  | 0xE8 | 0xEF => i < 8
  | 0xF0 | 0xF7 => true
  | 0xF2 => i < 4096 && crReadable i
  | 0xF3 => i < 4096 && crWritable i
  | 0xF8 => i < 256
  | _ => i == 0

/-- The ext values a row assigns (reason 0x0B): R66, R78. -/
def extOk (o : OpInfo) (f : Fields) : Bool :=
  (f.ext &&& ~~~o.extMask) == 0 && (f.opcode != 0xB5 || f.ext.toNat ≤ 4)

/-- The target fields of R66 and R67, as far as the instruction itself shows (reason 0x0D). -/
def fieldTargetsOk (o : OpInfo) (f : Fields) : Bool :=
  if o.result then
    tgtOk f.t1 && tgtOk f.t2 && tgtOk f.t3 &&
      (!(o.t4 && f.form == .w) || tgtOk (f.imm.extractLsb' 0 9))
  else f.t1 == 0x1FF && f.t2 == 0x1FF && f.t3 == 0x1FF

/-- The instruction whose fields are `f`, for an assigned opcode. -/
def mkInstr (f : Fields) : Option Instr :=
  match f.opcode.toNat with
  | 0x00 => some (.nop (decPred f.pred))
  | 0x01 => some (.read (decPred f.pred) (f.imm.extractLsb' 0 4) (decRFile (f.imm.extractLsb' 4 1)) (decTgt f.t1) (decTgt f.t2) (decTgt f.t3))
  | 0x02 => some (.write (decPred f.pred) (f.imm.extractLsb' 0 4))
  | 0x03 => some (.vread (decPred f.pred) (f.imm.extractLsb' 0 2) (decTgt f.t1) (decTgt f.t2) (decTgt f.t3))
  | 0x04 => some (.vwrite (decPred f.pred) (f.imm.extractLsb' 0 2))
  | 0x05 => some (match f.form with | .s => .movS (decPred f.pred) (decTgt f.t1) (decTgt f.t2) | _ => .movW (decPred f.pred) (decTgt f.t1) (decTgt f.t2) (decTgt f.t3) (decTgt (f.imm.extractLsb' 0 9)))
  | 0x06 => some (.movx (decPred f.pred) (f.imm.extractLsb' 0 4) (f.imm.extractLsb' 4 2) (decBool (f.imm.extractLsb' 6 1)) (decTgt f.t1) (decTgt f.t2) (decTgt f.t3))
  | 0x07 => some (match f.form with | .s => .nullS (decPred f.pred) (decTgt f.t1) (decTgt f.t2) | _ => .nullW (decPred f.pred) (decTgt f.t1) (decTgt f.t2) (decTgt f.t3) (decTgt (f.imm.extractLsb' 0 9)))
  | 0x08 => some (.br (decPred f.pred))
  | 0x09 => some (.bri (decPred f.pred) f.lit)
  | 0x0A => some (.call (decPred f.pred) f.lit)
  | 0x0B => some (.ret (decPred f.pred))
  | 0x0C => some (.halt (decPred f.pred))
  | 0x0D => some (.yield (decPred f.pred) f.lit)
  | 0x0E => some (.spawn f.lit)
  | 0x10 => some (match f.form with | .s => .steerS (decPred f.pred) (decTgt f.t1) (decTgt f.t2) | _ => .steerW (decPred f.pred) (decTgt f.t1) (decTgt f.t2) (decTgt f.t3))
  | 0x11 => some (match f.form with | .s => .mergeS (decPred f.pred) (decTgt f.t1) (decTgt f.t2) | _ => .mergeW (decPred f.pred) (decTgt f.t1) (decTgt f.t2) (decTgt f.t3))
  | 0x12 => some (.carry (decPred f.pred) (decTgt f.t1) (decTgt f.t2))
  | 0x13 => some (match f.form with | .w => .initW (decPred f.pred) f.imm (decTgt f.t1) (decTgt f.t2) (decTgt f.t3) | _ => .initL (decPred f.pred) f.lit (decTgt f.t1) (decTgt f.t2) (decTgt f.t3))
  | 0x14 => some (.gate (decPred f.pred) (decTgt f.t1) (decTgt f.t2))
  | 0x15 => some (.stopTok (decPred f.pred) (f.imm.extractLsb' 0 3) (decTgt f.t1) (decTgt f.t2) (decTgt f.t3))
  | 0x16 => some (.doneTok (decPred f.pred) (decTgt f.t1) (decTgt f.t2))
  | 0x17 => some (.testk (decPred f.pred) (f.imm.extractLsb' 0 6) (decTgt f.t1) (decTgt f.t2) (decTgt f.t3))
  | 0x18 => some (.lvlup (decPred f.pred) (f.imm.extractLsb' 0 3) (decTgt f.t1) (decTgt f.t2) (decTgt f.t3))
  | 0x19 => some (.lvldn (decPred f.pred) (f.imm.extractLsb' 0 3) (decTgt f.t1) (decTgt f.t2) (decTgt f.t3))
  | 0x1A => some (.bar (decPred f.pred))
  | 0x20 => some (.add (decPred f.pred) (decTgt f.t1) (decTgt f.t2))
  | 0x21 => some (.sub (decPred f.pred) (decTgt f.t1) (decTgt f.t2))
  | 0x22 => some (.mul (decPred f.pred) (decTgt f.t1) (decTgt f.t2))
  | 0x23 => some (.mulh (decPred f.pred) (decTgt f.t1) (decTgt f.t2))
  | 0x24 => some (.mulhu (decPred f.pred) (decTgt f.t1) (decTgt f.t2))
  | 0x25 => some (.div (decPred f.pred) (decTgt f.t1) (decTgt f.t2))
  | 0x26 => some (.divu (decPred f.pred) (decTgt f.t1) (decTgt f.t2))
  | 0x27 => some (.rem (decPred f.pred) (decTgt f.t1) (decTgt f.t2))
  | 0x28 => some (.remu (decPred f.pred) (decTgt f.t1) (decTgt f.t2))
  | 0x29 => some (.min (decPred f.pred) (decTgt f.t1) (decTgt f.t2))
  | 0x2A => some (.max (decPred f.pred) (decTgt f.t1) (decTgt f.t2))
  | 0x2B => some (.minu (decPred f.pred) (decTgt f.t1) (decTgt f.t2))
  | 0x2C => some (.maxu (decPred f.pred) (decTgt f.t1) (decTgt f.t2))
  | 0x2D => some (.neg (decPred f.pred) (decTgt f.t1) (decTgt f.t2))
  | 0x2E => some (.abs (decPred f.pred) (decTgt f.t1) (decTgt f.t2))
  | 0x30 => some (.addi (decPred f.pred) f.imm (decTgt f.t1) (decTgt f.t2) (decTgt f.t3))
  | 0x31 => some (.andi (decPred f.pred) f.imm (decTgt f.t1) (decTgt f.t2) (decTgt f.t3))
  | 0x32 => some (.ori (decPred f.pred) f.imm (decTgt f.t1) (decTgt f.t2) (decTgt f.t3))
  | 0x33 => some (.xori (decPred f.pred) f.imm (decTgt f.t1) (decTgt f.t2) (decTgt f.t3))
  | 0x34 => some (.shli (decPred f.pred) (f.imm.extractLsb' 0 6) (decTgt f.t1) (decTgt f.t2) (decTgt f.t3))
  | 0x35 => some (.shri (decPred f.pred) (f.imm.extractLsb' 0 6) (decTgt f.t1) (decTgt f.t2) (decTgt f.t3))
  | 0x36 => some (.sari (decPred f.pred) (f.imm.extractLsb' 0 6) (decTgt f.t1) (decTgt f.t2) (decTgt f.t3))
  | 0x37 => some (.teqi (decPred f.pred) f.imm (decTgt f.t1) (decTgt f.t2) (decTgt f.t3))
  | 0x38 => some (.tlti (decPred f.pred) f.imm (decTgt f.t1) (decTgt f.t2) (decTgt f.t3))
  | 0x39 => some (match f.form with | .w => .litW (decPred f.pred) f.imm (decTgt f.t1) (decTgt f.t2) (decTgt f.t3) | _ => .litL (decPred f.pred) f.lit (decTgt f.t1) (decTgt f.t2) (decTgt f.t3))
  | 0x3A => some (.lith (decPred f.pred) f.lit (decTgt f.t1) (decTgt f.t2) (decTgt f.t3))
  | 0x3B => some (.lea (decPred f.pred) (f.imm.extractLsb' 0 3) (decTgt f.t1) (decTgt f.t2) (decTgt f.t3))
  | 0x40 => some (.and (decPred f.pred) (decTgt f.t1) (decTgt f.t2))
  | 0x41 => some (.or (decPred f.pred) (decTgt f.t1) (decTgt f.t2))
  | 0x42 => some (.xor (decPred f.pred) (decTgt f.t1) (decTgt f.t2))
  | 0x43 => some (.shl (decPred f.pred) (decTgt f.t1) (decTgt f.t2))
  | 0x44 => some (.shr (decPred f.pred) (decTgt f.t1) (decTgt f.t2))
  | 0x45 => some (.sar (decPred f.pred) (decTgt f.t1) (decTgt f.t2))
  | 0x46 => some (.rotl (decPred f.pred) (decTgt f.t1) (decTgt f.t2))
  | 0x47 => some (.teq (decPred f.pred) (decTgt f.t1) (decTgt f.t2))
  | 0x48 => some (.tne (decPred f.pred) (decTgt f.t1) (decTgt f.t2))
  | 0x49 => some (.tlt (decPred f.pred) (decTgt f.t1) (decTgt f.t2))
  | 0x4A => some (.tle (decPred f.pred) (decTgt f.t1) (decTgt f.t2))
  | 0x4B => some (.tltu (decPred f.pred) (decTgt f.t1) (decTgt f.t2))
  | 0x4C => some (.tleu (decPred f.pred) (decTgt f.t1) (decTgt f.t2))
  | 0x4D => some (.sel (decTgt f.t1) (decTgt f.t2))
  | 0x50 => some (.clz (decPred f.pred) (decTgt f.t1) (decTgt f.t2))
  | 0x51 => some (.ctz (decPred f.pred) (decTgt f.t1) (decTgt f.t2))
  | 0x52 => some (.popc (decPred f.pred) (decTgt f.t1) (decTgt f.t2))
  | 0x53 => some (.sext (decPred f.pred) (f.imm.extractLsb' 0 7) (decTgt f.t1) (decTgt f.t2) (decTgt f.t3))
  | 0x54 => some (.zext (decPred f.pred) (f.imm.extractLsb' 0 7) (decTgt f.t1) (decTgt f.t2) (decTgt f.t3))
  | 0x55 => some (.bfx (decPred f.pred) (f.imm.extractLsb' 0 6) (f.imm.extractLsb' 6 6) (decTgt f.t1) (decTgt f.t2) (decTgt f.t3))
  | 0x56 => some (.bfi (decPred f.pred) (f.imm.extractLsb' 0 6) (f.imm.extractLsb' 6 6) (decTgt f.t1) (decTgt f.t2) (decTgt f.t3))
  | 0x57 => some (.bfn (f.imm.extractLsb' 0 8) (decTgt f.t1) (decTgt f.t2) (decTgt f.t3))
  | 0x58 => some (.lutb (decPred f.pred) (f.imm.extractLsb' 0 8) (decTgt f.t1) (decTgt f.t2) (decTgt f.t3))
  | 0x60 => some (.srd (decPred f.pred) (decTgt f.t1) (decTgt f.t2))
  | 0x61 => some (.srdv (decPred f.pred) (decTgt f.t1) (decTgt f.t2))
  | 0x62 => some (.swr (decPred f.pred))
  | 0x63 => some (.swrv (decPred f.pred))
  | 0x64 => some (.spub (decPred f.pred))
  | 0x65 => some (.srel (decPred f.pred))
  | 0x66 => some (.srew (decPred f.pred))
  | 0x67 => some (.spos (decPred f.pred) (decTgt f.t1) (decTgt f.t2))
  | 0x68 => some (.sjoin (decPred f.pred) (decRole f.variant))
  | 0x69 => some (.sleave (decPred f.pred))
  | 0x70 => some (.ldb (decPred f.pred) f.imm (decTgt f.t1) (decTgt f.t2) (decTgt f.t3))
  | 0x71 => some (.ldbu (decPred f.pred) f.imm (decTgt f.t1) (decTgt f.t2) (decTgt f.t3))
  | 0x72 => some (.ldh (decPred f.pred) f.imm (decTgt f.t1) (decTgt f.t2) (decTgt f.t3))
  | 0x73 => some (.ldhu (decPred f.pred) f.imm (decTgt f.t1) (decTgt f.t2) (decTgt f.t3))
  | 0x74 => some (.ldw (decPred f.pred) f.imm (decTgt f.t1) (decTgt f.t2) (decTgt f.t3))
  | 0x75 => some (.ldwu (decPred f.pred) f.imm (decTgt f.t1) (decTgt f.t2) (decTgt f.t3))
  | 0x76 => some (.ldd (decPred f.pred) f.imm (decTgt f.t1) (decTgt f.t2) (decTgt f.t3))
  | 0x77 => some (.stb (decPred f.pred) f.imm)
  | 0x78 => some (.sth (decPred f.pred) f.imm)
  | 0x79 => some (.stw (decPred f.pred) f.imm)
  | 0x7A => some (.std (decPred f.pred) f.imm)
  | 0x7B => some (.ldv (decPred f.pred) f.imm (decTgt f.t1) (decTgt f.t2) (decTgt f.t3))
  | 0x7C => some (.ldvs (decPred f.pred) f.imm (decTgt f.t1) (decTgt f.t2) (decTgt f.t3))
  | 0x7D => some (.stv (decPred f.pred) f.imm)
  | 0x7E => some (.gath (decPred f.pred) (decTgt f.t1) (decTgt f.t2))
  | 0x7F => some (.scat)
  | 0x80 => some (.agen (decPred f.pred) f.lit (decTgt f.t1) (decTgt f.t2) (decTgt f.t3))
  | 0x81 => some (.agenx (decPred f.pred) f.lit (decTgt f.t1) (decTgt f.t2) (decTgt f.t3))
  | 0x82 => some (.aadd (decPred f.pred) f.imm (decASize f.variant) (decOrder (f.ext.extractLsb' 0 2)) (decScope (f.ext.extractLsb' 2 2)) (decTgt f.t1) (decTgt f.t2) (decTgt f.t3))
  | 0x83 => some (.aand (decPred f.pred) f.imm (decASize f.variant) (decOrder (f.ext.extractLsb' 0 2)) (decScope (f.ext.extractLsb' 2 2)) (decTgt f.t1) (decTgt f.t2) (decTgt f.t3))
  | 0x84 => some (.aor (decPred f.pred) f.imm (decASize f.variant) (decOrder (f.ext.extractLsb' 0 2)) (decScope (f.ext.extractLsb' 2 2)) (decTgt f.t1) (decTgt f.t2) (decTgt f.t3))
  | 0x85 => some (.axor (decPred f.pred) f.imm (decASize f.variant) (decOrder (f.ext.extractLsb' 0 2)) (decScope (f.ext.extractLsb' 2 2)) (decTgt f.t1) (decTgt f.t2) (decTgt f.t3))
  | 0x86 => some (.amin (decPred f.pred) f.imm (decASize f.variant) (decOrder (f.ext.extractLsb' 0 2)) (decScope (f.ext.extractLsb' 2 2)) (decTgt f.t1) (decTgt f.t2) (decTgt f.t3))
  | 0x87 => some (.amax (decPred f.pred) f.imm (decASize f.variant) (decOrder (f.ext.extractLsb' 0 2)) (decScope (f.ext.extractLsb' 2 2)) (decTgt f.t1) (decTgt f.t2) (decTgt f.t3))
  | 0x88 => some (.aminu (decPred f.pred) f.imm (decASize f.variant) (decOrder (f.ext.extractLsb' 0 2)) (decScope (f.ext.extractLsb' 2 2)) (decTgt f.t1) (decTgt f.t2) (decTgt f.t3))
  | 0x89 => some (.amaxu (decPred f.pred) f.imm (decASize f.variant) (decOrder (f.ext.extractLsb' 0 2)) (decScope (f.ext.extractLsb' 2 2)) (decTgt f.t1) (decTgt f.t2) (decTgt f.t3))
  | 0x8A => some (.axchg (decPred f.pred) f.imm (decASize f.variant) (decOrder (f.ext.extractLsb' 0 2)) (decScope (f.ext.extractLsb' 2 2)) (decTgt f.t1) (decTgt f.t2) (decTgt f.t3))
  | 0x8B => some (.acas f.imm (decASize f.variant) (decOrder (f.ext.extractLsb' 0 2)) (decScope (f.ext.extractLsb' 2 2)) (decTgt f.t1) (decTgt f.t2) (decTgt f.t3))
  | 0x8C => some (.afadd (decPred f.pred) f.imm (decOrder (f.ext.extractLsb' 0 2)) (decScope (f.ext.extractLsb' 2 2)) (decTgt f.t1) (decTgt f.t2) (decTgt f.t3))
  | 0x8D => some (.acq (decPred f.pred) (decScope (f.ext.extractLsb' 2 2)) (decTgt f.t1) (decTgt f.t2) (decTgt f.t3))
  | 0x8E => some (.rel (decPred f.pred) (decScope (f.ext.extractLsb' 2 2)) (decTgt f.t1) (decTgt f.t2) (decTgt f.t3))
  | 0x8F => some (.sync (decPred f.pred) (decScope (f.ext.extractLsb' 2 2)) (decTgt f.t1) (decTgt f.t2) (decTgt f.t3))
  | 0x90 => some (.copy (decPred f.pred))
  | 0x91 => some (.copy2d (decPred f.pred))
  | 0x92 => some (.xfer (decPred f.pred))
  | 0x93 => some (.task (decPred f.pred))
  | 0x94 => some (.waitc (decPred f.pred))
  | 0x95 => some (.testc (decPred f.pred) (decTgt f.t1) (decTgt f.t2))
  | 0x96 => some (.wsseal (decPred f.pred))
  | 0x97 => some (.wsopen (decPred f.pred))
  | 0xA0 => some (.vadd (decPred f.pred) (decTgt f.t1) (decTgt f.t2))
  | 0xA1 => some (.vsub (decPred f.pred) (decTgt f.t1) (decTgt f.t2))
  | 0xA2 => some (.vmul (decPred f.pred) (decTgt f.t1) (decTgt f.t2))
  | 0xA3 => some (.vmin (decPred f.pred) (decTgt f.t1) (decTgt f.t2))
  | 0xA4 => some (.vmax (decPred f.pred) (decTgt f.t1) (decTgt f.t2))
  | 0xA5 => some (.vfma (decTgt f.t1) (decTgt f.t2))
  | 0xA6 => some (.vfms (decTgt f.t1) (decTgt f.t2))
  | 0xA7 => some (.vdiv (decPred f.pred) (decTgt f.t1) (decTgt f.t2))
  | 0xA8 => some (.vsqrt (decPred f.pred) (decTgt f.t1) (decTgt f.t2))
  | 0xA9 => some (.vabs (decPred f.pred) (decTgt f.t1) (decTgt f.t2))
  | 0xAA => some (.vneg (decPred f.pred) (decTgt f.t1) (decTgt f.t2))
  | 0xB0 => some (.vceq (decPred f.pred) (decTgt f.t1) (decTgt f.t2))
  | 0xB1 => some (.vcne (decPred f.pred) (decTgt f.t1) (decTgt f.t2))
  | 0xB2 => some (.vclt (decPred f.pred) (decTgt f.t1) (decTgt f.t2))
  | 0xB3 => some (.vcle (decPred f.pred) (decTgt f.t1) (decTgt f.t2))
  | 0xB4 => some (.vsel (decTgt f.t1) (decTgt f.t2))
  | 0xB5 => some (.vcvt (decPred f.pred) (f.imm.extractLsb' 0 4) (f.imm.extractLsb' 4 2) (decRounding (f.ext.extractLsb' 0 3)) (decTgt f.t1) (decTgt f.t2) (decTgt f.t3))
  | 0xB6 => some (.vpack (decPred f.pred) (f.imm.extractLsb' 0 4) (decTgt f.t1) (decTgt f.t2) (decTgt f.t3))
  | 0xB7 => some (.vunpk (decPred f.pred) (f.imm.extractLsb' 0 4) (decTgt f.t1) (decTgt f.t2) (decTgt f.t3))
  | 0xB8 => some (.vbcast (decPred f.pred) (f.imm.extractLsb' 0 4) (decTgt f.t1) (decTgt f.t2) (decTgt f.t3))
  | 0xB9 => some (.vextr (decPred f.pred) (f.imm.extractLsb' 0 4) (decTgt f.t1) (decTgt f.t2) (decTgt f.t3))
  | 0xBA => some (.vins (decPred f.pred) (f.imm.extractLsb' 0 4) (decTgt f.t1) (decTgt f.t2) (decTgt f.t3))
  | 0xBB => some (.vperm (decPred f.pred) (decTgt f.t1) (decTgt f.t2))
  | 0xBC => some (.vshuf (decPred f.pred) (decShuf f.variant) (decTgt f.t1) (decTgt f.t2))
  | 0xBD => some (.vrot (decPred f.pred) (f.imm.extractLsb' 0 4) (decTgt f.t1) (decTgt f.t2) (decTgt f.t3))
  | 0xC0 => some (.vreda (decPred f.pred) (decTgt f.t1) (decTgt f.t2))
  | 0xC1 => some (.vredx (decPred f.pred) (decTgt f.t1) (decTgt f.t2))
  | 0xC2 => some (.vredn (decPred f.pred) (decTgt f.t1) (decTgt f.t2))
  | 0xC3 => some (.vscan (decPred f.pred) (decTgt f.t1) (decTgt f.t2))
  | 0xC4 => some (.vmask (decPred f.pred) f.imm (decTgt f.t1) (decTgt f.t2) (decTgt f.t3))
  | 0xC5 => some (.vtopk (decPred f.pred) (f.imm.extractLsb' 0 9) (decTgt f.t1) (decTgt f.t2) (decTgt f.t3))
  | 0xC6 => some (.vexp2 (decPred f.pred) (decTgt f.t1) (decTgt f.t2))
  | 0xC7 => some (.vlog2 (decPred f.pred) (decTgt f.t1) (decTgt f.t2))
  | 0xC8 => some (.vrcp (decPred f.pred) (decTgt f.t1) (decTgt f.t2))
  | 0xC9 => some (.vrsq (decPred f.pred) (decTgt f.t1) (decTgt f.t2))
  | 0xCA => some (.vtanh (decPred f.pred) (decTgt f.t1) (decTgt f.t2))
  | 0xCB => some (.vsigm (decPred f.pred) (decTgt f.t1) (decTgt f.t2))
  | 0xCC => some (.vsinc (decPred f.pred) (decTgt f.t1) (decTgt f.t2))
  | 0xCD => some (.vrope (decPred f.pred) (f.imm.extractLsb' 0 8) (decTgt f.t1) (decTgt f.t2) (decTgt f.t3))
  | 0xD0 => some (.viadd (decPred f.pred) (decLaneW f.variant) (decTgt f.t1) (decTgt f.t2))
  | 0xD1 => some (.visub (decPred f.pred) (decLaneW f.variant) (decTgt f.t1) (decTgt f.t2))
  | 0xD2 => some (.vimul (decPred f.pred) (decLaneW f.variant) (decTgt f.t1) (decTgt f.t2))
  | 0xD3 => some (.viand (decPred f.pred) (decLaneW f.variant) (decTgt f.t1) (decTgt f.t2))
  | 0xD4 => some (.vior (decPred f.pred) (decLaneW f.variant) (decTgt f.t1) (decTgt f.t2))
  | 0xD5 => some (.vixor (decPred f.pred) (decLaneW f.variant) (decTgt f.t1) (decTgt f.t2))
  | 0xD6 => some (.vishl (decPred f.pred) (decLaneW f.variant) (decTgt f.t1) (decTgt f.t2))
  | 0xD7 => some (.vishr (decPred f.pred) (decLaneW f.variant) (decTgt f.t1) (decTgt f.t2))
  | 0xD8 => some (.vimin (decPred f.pred) (decLaneW f.variant) (decTgt f.t1) (decTgt f.t2))
  | 0xD9 => some (.vimax (decPred f.pred) (decLaneW f.variant) (decTgt f.t1) (decTgt f.t2))
  | 0xDA => some (.dot (decPred f.pred) (decTgt f.t1) (decTgt f.t2))
  | 0xDB => some (.dota (decTgt f.t1) (decTgt f.t2))
  | 0xDC => some (.doti (decTgt f.t1) (decTgt f.t2))
  | 0xE0 => some (.svbnd (decPred f.pred) (decTgt f.t1) (decTgt f.t2))
  | 0xE1 => some (.svgth (decPred f.pred) (decTgt f.t1) (decTgt f.t2))
  | 0xE2 => some (.kvx (decPred f.pred) (decTgt f.t1) (decTgt f.t2))
  | 0xE3 => some (.kvfork (decPred f.pred) (decTgt f.t1) (decTgt f.t2))
  | 0xE4 => some (.kvfree (decPred f.pred))
  | 0xE8 => some (.fscan (decPred f.pred) (f.imm.extractLsb' 0 3) (decTgt f.t1) (decTgt f.t2) (decTgt f.t3))
  | 0xE9 => some (.fisect (decTgt f.t1) (decTgt f.t2))
  | 0xEA => some (.funion (decTgt f.t1) (decTgt f.t2))
  | 0xEB => some (.frpt (decTgt f.t1) (decTgt f.t2))
  | 0xEC => some (.fred (decRedOp f.variant) (decTgt f.t1) (decTgt f.t2))
  | 0xED => some (.fvals (decPred f.pred) (decTgt f.t1) (decTgt f.t2))
  | 0xEE => some (.fbld)
  | 0xEF => some (.fchk (f.imm.extractLsb' 0 3) (decTgt f.t1) (decTgt f.t2) (decTgt f.t3))
  | 0xF0 => some (.trap (decPred f.pred) f.imm)
  | 0xF1 => some (.tret (decPred f.pred))
  | 0xF2 => some (.crrd (decPred f.pred) (f.imm.extractLsb' 0 12) (decTgt f.t1) (decTgt f.t2) (decTgt f.t3))
  | 0xF3 => some (.crwr (decPred f.pred) (f.imm.extractLsb' 0 12))
  | 0xF4 => some (.xlinv (decPred f.pred))
  | 0xF5 => some (.cfginv (decPred f.pred))
  | 0xF6 => some (.qpost (decPred f.pred))
  | 0xF7 => some (.dbgbrk (decPred f.pred) f.imm)
  | 0xF8 => some (.hint (decPred f.pred) (f.imm.extractLsb' 0 8))
  | _ => none

/-- The checks 0x07..0x0D of R79 in code order, then the instruction. -/
def decodeFields (f : Fields) : Except Reject Instr :=
  match opInfo f.opcode.toNat with
  | none => .error .opcode
  | some o =>
    if !o.forms.contains f.form then .error .form
    else if f.pred = 3 || ((o.pData || o.taking) && f.pred != 0) then .error .pred
    else if o.variants ≤ f.variant.toNat then .error .variant
    else if !extOk o f then .error .ext
    else if !immOk f then .error .imm
    else if !fieldTargetsOk o f then .error .target
    else match mkInstr f with
      | some i => .ok i
      | none => .error .opcode

/-- The words of one instruction taken from the front of `ws`: its length code, then whether its
words remain (R62, R79). -/
def takeFields (ws : List Word32) : Except Reject (Fields × List Word32) :=
  match ws with
  | [] => .error .words
  | w0 :: r =>
    match formOf w0 with
    | none => .error .lengthCode
    | some .s => .ok (fieldsOfWords .s w0 0 0, r)
    | some .w =>
      match r with
      | w1 :: r1 => .ok (fieldsOfWords .w w0 w1 0, r1)
      | [] => .error .words
    | some .l =>
      match r with
      | w1 :: w2 :: r2 => .ok (fieldsOfWords .l w0 w1 w2, r2)
      | _ => .error .words

/-- One instruction from the front of a word sequence, and the words after it. -/
def decode (ws : List Word32) : Except Reject (Instr × List Word32) :=
  match takeFields ws with
  | .error e => .error e
  | .ok (f, r) =>
    match decodeFields f with
    | .error e => .error e
    | .ok i => .ok (i, r)

/-- A little-endian 32-bit word of memory (R5). -/
def wordOfBytes (b0 b1 b2 b3 : Byte) : Word32 := b3 ++ b2 ++ b1 ++ b0

/-- The bytes of a 32-bit word, lowest address first (R5). -/
def bytesOfWord (w : Word32) : List Byte :=
  [w.extractLsb' 0 8, w.extractLsb' 8 8, w.extractLsb' 16 8, w.extractLsb' 24 8]

/-- The instruction words in a byte sequence; bytes that fill no word are dropped (R59). -/
def wordsOfBytes : List Byte → List Word32
  | b0 :: b1 :: b2 :: b3 :: r => wordOfBytes b0 b1 b2 b3 :: wordsOfBytes r
  | _ => []

/-- Decoding is total on any bytes: an instruction and the words after it, or a named rejection. -/
def decodeBytes (bs : List Byte) : Except Reject (Instr × List Word32) := decode (wordsOfBytes bs)

/-- The fields of an instruction (R75, R78); events have no encoding. -/
def Instr.fields : Instr → Option Fields
  | .nop p => some { form := .s, opcode := 0x00#8, pred := encPred p, variant := 0#2, t1 := 0x1FF#9, t2 := 0x1FF#9, t3 := 0x1FF#9, ext := 0#7, imm := 0#16, lit := 0#32 }
  | .read p n file t1 t2 t3 => some { form := .w, opcode := 0x01#8, pred := encPred p, variant := 0#2, t1 := encTgt t1, t2 := encTgt t2, t3 := encTgt t3, ext := 0#7, imm := 0#11 ++ encRFile file ++ n, lit := 0#32 }
  | .write p n => some { form := .w, opcode := 0x02#8, pred := encPred p, variant := 0#2, t1 := 0x1FF#9, t2 := 0x1FF#9, t3 := 0x1FF#9, ext := 0#7, imm := 0#12 ++ n, lit := 0#32 }
  | .vread p n t1 t2 t3 => some { form := .w, opcode := 0x03#8, pred := encPred p, variant := 0#2, t1 := encTgt t1, t2 := encTgt t2, t3 := encTgt t3, ext := 0#7, imm := 0#14 ++ n, lit := 0#32 }
  | .vwrite p n => some { form := .w, opcode := 0x04#8, pred := encPred p, variant := 0#2, t1 := 0x1FF#9, t2 := 0x1FF#9, t3 := 0x1FF#9, ext := 0#7, imm := 0#14 ++ n, lit := 0#32 }
  | .movS p t1 t2 => some { form := .s, opcode := 0x05#8, pred := encPred p, variant := 0#2, t1 := encTgt t1, t2 := encTgt t2, t3 := 0x1FF#9, ext := 0#7, imm := 0#16, lit := 0#32 }
  | .movW p t1 t2 t3 t4 => some { form := .w, opcode := 0x05#8, pred := encPred p, variant := 0#2, t1 := encTgt t1, t2 := encTgt t2, t3 := encTgt t3, ext := 0#7, imm := 0#7 ++ encTgt t4, lit := 0#32 }
  | .movx p fmt geom scl t1 t2 t3 => some { form := .w, opcode := 0x06#8, pred := encPred p, variant := 0#2, t1 := encTgt t1, t2 := encTgt t2, t3 := encTgt t3, ext := 0#7, imm := 0#9 ++ encBool scl ++ geom ++ fmt, lit := 0#32 }
  | .nullS p t1 t2 => some { form := .s, opcode := 0x07#8, pred := encPred p, variant := 0#2, t1 := encTgt t1, t2 := encTgt t2, t3 := 0x1FF#9, ext := 0#7, imm := 0#16, lit := 0#32 }
  | .nullW p t1 t2 t3 t4 => some { form := .w, opcode := 0x07#8, pred := encPred p, variant := 0#2, t1 := encTgt t1, t2 := encTgt t2, t3 := encTgt t3, ext := 0#7, imm := 0#7 ++ encTgt t4, lit := 0#32 }
  | .br p => some { form := .s, opcode := 0x08#8, pred := encPred p, variant := 0#2, t1 := 0x1FF#9, t2 := 0x1FF#9, t3 := 0x1FF#9, ext := 0#7, imm := 0#16, lit := 0#32 }
  | .bri p lit => some { form := .l, opcode := 0x09#8, pred := encPred p, variant := 0#2, t1 := 0x1FF#9, t2 := 0x1FF#9, t3 := 0x1FF#9, ext := 0#7, imm := 0#16, lit := lit }
  | .call p lit => some { form := .l, opcode := 0x0A#8, pred := encPred p, variant := 0#2, t1 := 0x1FF#9, t2 := 0x1FF#9, t3 := 0x1FF#9, ext := 0#7, imm := 0#16, lit := lit }
  | .ret p => some { form := .s, opcode := 0x0B#8, pred := encPred p, variant := 0#2, t1 := 0x1FF#9, t2 := 0x1FF#9, t3 := 0x1FF#9, ext := 0#7, imm := 0#16, lit := 0#32 }
  | .halt p => some { form := .s, opcode := 0x0C#8, pred := encPred p, variant := 0#2, t1 := 0x1FF#9, t2 := 0x1FF#9, t3 := 0x1FF#9, ext := 0#7, imm := 0#16, lit := 0#32 }
  | .yield p lit => some { form := .l, opcode := 0x0D#8, pred := encPred p, variant := 0#2, t1 := 0x1FF#9, t2 := 0x1FF#9, t3 := 0x1FF#9, ext := 0#7, imm := 0#16, lit := lit }
  | .spawn lit => some { form := .l, opcode := 0x0E#8, pred := 0#2, variant := 0#2, t1 := 0x1FF#9, t2 := 0x1FF#9, t3 := 0x1FF#9, ext := 0#7, imm := 0#16, lit := lit }
  | .steerS p t1 t2 => some { form := .s, opcode := 0x10#8, pred := encPred p, variant := 0#2, t1 := encTgt t1, t2 := encTgt t2, t3 := 0x1FF#9, ext := 0#7, imm := 0#16, lit := 0#32 }
  | .steerW p t1 t2 t3 => some { form := .w, opcode := 0x10#8, pred := encPred p, variant := 0#2, t1 := encTgt t1, t2 := encTgt t2, t3 := encTgt t3, ext := 0#7, imm := 0#16, lit := 0#32 }
  | .mergeS p t1 t2 => some { form := .s, opcode := 0x11#8, pred := encPred p, variant := 0#2, t1 := encTgt t1, t2 := encTgt t2, t3 := 0x1FF#9, ext := 0#7, imm := 0#16, lit := 0#32 }
  | .mergeW p t1 t2 t3 => some { form := .w, opcode := 0x11#8, pred := encPred p, variant := 0#2, t1 := encTgt t1, t2 := encTgt t2, t3 := encTgt t3, ext := 0#7, imm := 0#16, lit := 0#32 }
  | .carry p t1 t2 => some { form := .s, opcode := 0x12#8, pred := encPred p, variant := 0#2, t1 := encTgt t1, t2 := encTgt t2, t3 := 0x1FF#9, ext := 0#7, imm := 0#16, lit := 0#32 }
  | .initW p v t1 t2 t3 => some { form := .w, opcode := 0x13#8, pred := encPred p, variant := 0#2, t1 := encTgt t1, t2 := encTgt t2, t3 := encTgt t3, ext := 0#7, imm := v, lit := 0#32 }
  | .initL p lit t1 t2 t3 => some { form := .l, opcode := 0x13#8, pred := encPred p, variant := 0#2, t1 := encTgt t1, t2 := encTgt t2, t3 := encTgt t3, ext := 0#7, imm := 0#16, lit := lit }
  | .gate p t1 t2 => some { form := .s, opcode := 0x14#8, pred := encPred p, variant := 0#2, t1 := encTgt t1, t2 := encTgt t2, t3 := 0x1FF#9, ext := 0#7, imm := 0#16, lit := 0#32 }
  | .stopTok p lvl t1 t2 t3 => some { form := .w, opcode := 0x15#8, pred := encPred p, variant := 0#2, t1 := encTgt t1, t2 := encTgt t2, t3 := encTgt t3, ext := 0#7, imm := 0#13 ++ lvl, lit := 0#32 }
  | .doneTok p t1 t2 => some { form := .s, opcode := 0x16#8, pred := encPred p, variant := 0#2, t1 := encTgt t1, t2 := encTgt t2, t3 := 0x1FF#9, ext := 0#7, imm := 0#16, lit := 0#32 }
  | .testk p mask t1 t2 t3 => some { form := .w, opcode := 0x17#8, pred := encPred p, variant := 0#2, t1 := encTgt t1, t2 := encTgt t2, t3 := encTgt t3, ext := 0#7, imm := 0#10 ++ mask, lit := 0#32 }
  | .lvlup p amt t1 t2 t3 => some { form := .w, opcode := 0x18#8, pred := encPred p, variant := 0#2, t1 := encTgt t1, t2 := encTgt t2, t3 := encTgt t3, ext := 0#7, imm := 0#13 ++ amt, lit := 0#32 }
  | .lvldn p amt t1 t2 t3 => some { form := .w, opcode := 0x19#8, pred := encPred p, variant := 0#2, t1 := encTgt t1, t2 := encTgt t2, t3 := encTgt t3, ext := 0#7, imm := 0#13 ++ amt, lit := 0#32 }
  | .bar p => some { form := .s, opcode := 0x1A#8, pred := encPred p, variant := 0#2, t1 := 0x1FF#9, t2 := 0x1FF#9, t3 := 0x1FF#9, ext := 0#7, imm := 0#16, lit := 0#32 }
  | .add p t1 t2 => some { form := .s, opcode := 0x20#8, pred := encPred p, variant := 0#2, t1 := encTgt t1, t2 := encTgt t2, t3 := 0x1FF#9, ext := 0#7, imm := 0#16, lit := 0#32 }
  | .sub p t1 t2 => some { form := .s, opcode := 0x21#8, pred := encPred p, variant := 0#2, t1 := encTgt t1, t2 := encTgt t2, t3 := 0x1FF#9, ext := 0#7, imm := 0#16, lit := 0#32 }
  | .mul p t1 t2 => some { form := .s, opcode := 0x22#8, pred := encPred p, variant := 0#2, t1 := encTgt t1, t2 := encTgt t2, t3 := 0x1FF#9, ext := 0#7, imm := 0#16, lit := 0#32 }
  | .mulh p t1 t2 => some { form := .s, opcode := 0x23#8, pred := encPred p, variant := 0#2, t1 := encTgt t1, t2 := encTgt t2, t3 := 0x1FF#9, ext := 0#7, imm := 0#16, lit := 0#32 }
  | .mulhu p t1 t2 => some { form := .s, opcode := 0x24#8, pred := encPred p, variant := 0#2, t1 := encTgt t1, t2 := encTgt t2, t3 := 0x1FF#9, ext := 0#7, imm := 0#16, lit := 0#32 }
  | .div p t1 t2 => some { form := .s, opcode := 0x25#8, pred := encPred p, variant := 0#2, t1 := encTgt t1, t2 := encTgt t2, t3 := 0x1FF#9, ext := 0#7, imm := 0#16, lit := 0#32 }
  | .divu p t1 t2 => some { form := .s, opcode := 0x26#8, pred := encPred p, variant := 0#2, t1 := encTgt t1, t2 := encTgt t2, t3 := 0x1FF#9, ext := 0#7, imm := 0#16, lit := 0#32 }
  | .rem p t1 t2 => some { form := .s, opcode := 0x27#8, pred := encPred p, variant := 0#2, t1 := encTgt t1, t2 := encTgt t2, t3 := 0x1FF#9, ext := 0#7, imm := 0#16, lit := 0#32 }
  | .remu p t1 t2 => some { form := .s, opcode := 0x28#8, pred := encPred p, variant := 0#2, t1 := encTgt t1, t2 := encTgt t2, t3 := 0x1FF#9, ext := 0#7, imm := 0#16, lit := 0#32 }
  | .min p t1 t2 => some { form := .s, opcode := 0x29#8, pred := encPred p, variant := 0#2, t1 := encTgt t1, t2 := encTgt t2, t3 := 0x1FF#9, ext := 0#7, imm := 0#16, lit := 0#32 }
  | .max p t1 t2 => some { form := .s, opcode := 0x2A#8, pred := encPred p, variant := 0#2, t1 := encTgt t1, t2 := encTgt t2, t3 := 0x1FF#9, ext := 0#7, imm := 0#16, lit := 0#32 }
  | .minu p t1 t2 => some { form := .s, opcode := 0x2B#8, pred := encPred p, variant := 0#2, t1 := encTgt t1, t2 := encTgt t2, t3 := 0x1FF#9, ext := 0#7, imm := 0#16, lit := 0#32 }
  | .maxu p t1 t2 => some { form := .s, opcode := 0x2C#8, pred := encPred p, variant := 0#2, t1 := encTgt t1, t2 := encTgt t2, t3 := 0x1FF#9, ext := 0#7, imm := 0#16, lit := 0#32 }
  | .neg p t1 t2 => some { form := .s, opcode := 0x2D#8, pred := encPred p, variant := 0#2, t1 := encTgt t1, t2 := encTgt t2, t3 := 0x1FF#9, ext := 0#7, imm := 0#16, lit := 0#32 }
  | .abs p t1 t2 => some { form := .s, opcode := 0x2E#8, pred := encPred p, variant := 0#2, t1 := encTgt t1, t2 := encTgt t2, t3 := 0x1FF#9, ext := 0#7, imm := 0#16, lit := 0#32 }
  | .addi p imm t1 t2 t3 => some { form := .w, opcode := 0x30#8, pred := encPred p, variant := 0#2, t1 := encTgt t1, t2 := encTgt t2, t3 := encTgt t3, ext := 0#7, imm := imm, lit := 0#32 }
  | .andi p imm t1 t2 t3 => some { form := .w, opcode := 0x31#8, pred := encPred p, variant := 0#2, t1 := encTgt t1, t2 := encTgt t2, t3 := encTgt t3, ext := 0#7, imm := imm, lit := 0#32 }
  | .ori p imm t1 t2 t3 => some { form := .w, opcode := 0x32#8, pred := encPred p, variant := 0#2, t1 := encTgt t1, t2 := encTgt t2, t3 := encTgt t3, ext := 0#7, imm := imm, lit := 0#32 }
  | .xori p imm t1 t2 t3 => some { form := .w, opcode := 0x33#8, pred := encPred p, variant := 0#2, t1 := encTgt t1, t2 := encTgt t2, t3 := encTgt t3, ext := 0#7, imm := imm, lit := 0#32 }
  | .shli p amt t1 t2 t3 => some { form := .w, opcode := 0x34#8, pred := encPred p, variant := 0#2, t1 := encTgt t1, t2 := encTgt t2, t3 := encTgt t3, ext := 0#7, imm := 0#10 ++ amt, lit := 0#32 }
  | .shri p amt t1 t2 t3 => some { form := .w, opcode := 0x35#8, pred := encPred p, variant := 0#2, t1 := encTgt t1, t2 := encTgt t2, t3 := encTgt t3, ext := 0#7, imm := 0#10 ++ amt, lit := 0#32 }
  | .sari p amt t1 t2 t3 => some { form := .w, opcode := 0x36#8, pred := encPred p, variant := 0#2, t1 := encTgt t1, t2 := encTgt t2, t3 := encTgt t3, ext := 0#7, imm := 0#10 ++ amt, lit := 0#32 }
  | .teqi p imm t1 t2 t3 => some { form := .w, opcode := 0x37#8, pred := encPred p, variant := 0#2, t1 := encTgt t1, t2 := encTgt t2, t3 := encTgt t3, ext := 0#7, imm := imm, lit := 0#32 }
  | .tlti p imm t1 t2 t3 => some { form := .w, opcode := 0x38#8, pred := encPred p, variant := 0#2, t1 := encTgt t1, t2 := encTgt t2, t3 := encTgt t3, ext := 0#7, imm := imm, lit := 0#32 }
  | .litW p v t1 t2 t3 => some { form := .w, opcode := 0x39#8, pred := encPred p, variant := 0#2, t1 := encTgt t1, t2 := encTgt t2, t3 := encTgt t3, ext := 0#7, imm := v, lit := 0#32 }
  | .litL p lit t1 t2 t3 => some { form := .l, opcode := 0x39#8, pred := encPred p, variant := 0#2, t1 := encTgt t1, t2 := encTgt t2, t3 := encTgt t3, ext := 0#7, imm := 0#16, lit := lit }
  | .lith p lit t1 t2 t3 => some { form := .l, opcode := 0x3A#8, pred := encPred p, variant := 0#2, t1 := encTgt t1, t2 := encTgt t2, t3 := encTgt t3, ext := 0#7, imm := 0#16, lit := lit }
  | .lea p sh t1 t2 t3 => some { form := .w, opcode := 0x3B#8, pred := encPred p, variant := 0#2, t1 := encTgt t1, t2 := encTgt t2, t3 := encTgt t3, ext := 0#7, imm := 0#13 ++ sh, lit := 0#32 }
  | .and p t1 t2 => some { form := .s, opcode := 0x40#8, pred := encPred p, variant := 0#2, t1 := encTgt t1, t2 := encTgt t2, t3 := 0x1FF#9, ext := 0#7, imm := 0#16, lit := 0#32 }
  | .or p t1 t2 => some { form := .s, opcode := 0x41#8, pred := encPred p, variant := 0#2, t1 := encTgt t1, t2 := encTgt t2, t3 := 0x1FF#9, ext := 0#7, imm := 0#16, lit := 0#32 }
  | .xor p t1 t2 => some { form := .s, opcode := 0x42#8, pred := encPred p, variant := 0#2, t1 := encTgt t1, t2 := encTgt t2, t3 := 0x1FF#9, ext := 0#7, imm := 0#16, lit := 0#32 }
  | .shl p t1 t2 => some { form := .s, opcode := 0x43#8, pred := encPred p, variant := 0#2, t1 := encTgt t1, t2 := encTgt t2, t3 := 0x1FF#9, ext := 0#7, imm := 0#16, lit := 0#32 }
  | .shr p t1 t2 => some { form := .s, opcode := 0x44#8, pred := encPred p, variant := 0#2, t1 := encTgt t1, t2 := encTgt t2, t3 := 0x1FF#9, ext := 0#7, imm := 0#16, lit := 0#32 }
  | .sar p t1 t2 => some { form := .s, opcode := 0x45#8, pred := encPred p, variant := 0#2, t1 := encTgt t1, t2 := encTgt t2, t3 := 0x1FF#9, ext := 0#7, imm := 0#16, lit := 0#32 }
  | .rotl p t1 t2 => some { form := .s, opcode := 0x46#8, pred := encPred p, variant := 0#2, t1 := encTgt t1, t2 := encTgt t2, t3 := 0x1FF#9, ext := 0#7, imm := 0#16, lit := 0#32 }
  | .teq p t1 t2 => some { form := .s, opcode := 0x47#8, pred := encPred p, variant := 0#2, t1 := encTgt t1, t2 := encTgt t2, t3 := 0x1FF#9, ext := 0#7, imm := 0#16, lit := 0#32 }
  | .tne p t1 t2 => some { form := .s, opcode := 0x48#8, pred := encPred p, variant := 0#2, t1 := encTgt t1, t2 := encTgt t2, t3 := 0x1FF#9, ext := 0#7, imm := 0#16, lit := 0#32 }
  | .tlt p t1 t2 => some { form := .s, opcode := 0x49#8, pred := encPred p, variant := 0#2, t1 := encTgt t1, t2 := encTgt t2, t3 := 0x1FF#9, ext := 0#7, imm := 0#16, lit := 0#32 }
  | .tle p t1 t2 => some { form := .s, opcode := 0x4A#8, pred := encPred p, variant := 0#2, t1 := encTgt t1, t2 := encTgt t2, t3 := 0x1FF#9, ext := 0#7, imm := 0#16, lit := 0#32 }
  | .tltu p t1 t2 => some { form := .s, opcode := 0x4B#8, pred := encPred p, variant := 0#2, t1 := encTgt t1, t2 := encTgt t2, t3 := 0x1FF#9, ext := 0#7, imm := 0#16, lit := 0#32 }
  | .tleu p t1 t2 => some { form := .s, opcode := 0x4C#8, pred := encPred p, variant := 0#2, t1 := encTgt t1, t2 := encTgt t2, t3 := 0x1FF#9, ext := 0#7, imm := 0#16, lit := 0#32 }
  | .sel t1 t2 => some { form := .s, opcode := 0x4D#8, pred := 0#2, variant := 0#2, t1 := encTgt t1, t2 := encTgt t2, t3 := 0x1FF#9, ext := 0#7, imm := 0#16, lit := 0#32 }
  | .clz p t1 t2 => some { form := .s, opcode := 0x50#8, pred := encPred p, variant := 0#2, t1 := encTgt t1, t2 := encTgt t2, t3 := 0x1FF#9, ext := 0#7, imm := 0#16, lit := 0#32 }
  | .ctz p t1 t2 => some { form := .s, opcode := 0x51#8, pred := encPred p, variant := 0#2, t1 := encTgt t1, t2 := encTgt t2, t3 := 0x1FF#9, ext := 0#7, imm := 0#16, lit := 0#32 }
  | .popc p t1 t2 => some { form := .s, opcode := 0x52#8, pred := encPred p, variant := 0#2, t1 := encTgt t1, t2 := encTgt t2, t3 := 0x1FF#9, ext := 0#7, imm := 0#16, lit := 0#32 }
  | .sext p width t1 t2 t3 => some { form := .w, opcode := 0x53#8, pred := encPred p, variant := 0#2, t1 := encTgt t1, t2 := encTgt t2, t3 := encTgt t3, ext := 0#7, imm := 0#9 ++ width, lit := 0#32 }
  | .zext p width t1 t2 t3 => some { form := .w, opcode := 0x54#8, pred := encPred p, variant := 0#2, t1 := encTgt t1, t2 := encTgt t2, t3 := encTgt t3, ext := 0#7, imm := 0#9 ++ width, lit := 0#32 }
  | .bfx p lo wm1 t1 t2 t3 => some { form := .w, opcode := 0x55#8, pred := encPred p, variant := 0#2, t1 := encTgt t1, t2 := encTgt t2, t3 := encTgt t3, ext := 0#7, imm := 0#4 ++ wm1 ++ lo, lit := 0#32 }
  | .bfi p lo wm1 t1 t2 t3 => some { form := .w, opcode := 0x56#8, pred := encPred p, variant := 0#2, t1 := encTgt t1, t2 := encTgt t2, t3 := encTgt t3, ext := 0#7, imm := 0#4 ++ wm1 ++ lo, lit := 0#32 }
  | .bfn tt t1 t2 t3 => some { form := .w, opcode := 0x57#8, pred := 0#2, variant := 0#2, t1 := encTgt t1, t2 := encTgt t2, t3 := encTgt t3, ext := 0#7, imm := 0#8 ++ tt, lit := 0#32 }
  | .lutb p tbl t1 t2 t3 => some { form := .w, opcode := 0x58#8, pred := encPred p, variant := 0#2, t1 := encTgt t1, t2 := encTgt t2, t3 := encTgt t3, ext := 0#7, imm := 0#8 ++ tbl, lit := 0#32 }
  | .srd p t1 t2 => some { form := .s, opcode := 0x60#8, pred := encPred p, variant := 0#2, t1 := encTgt t1, t2 := encTgt t2, t3 := 0x1FF#9, ext := 0#7, imm := 0#16, lit := 0#32 }
  | .srdv p t1 t2 => some { form := .s, opcode := 0x61#8, pred := encPred p, variant := 0#2, t1 := encTgt t1, t2 := encTgt t2, t3 := 0x1FF#9, ext := 0#7, imm := 0#16, lit := 0#32 }
  | .swr p => some { form := .s, opcode := 0x62#8, pred := encPred p, variant := 0#2, t1 := 0x1FF#9, t2 := 0x1FF#9, t3 := 0x1FF#9, ext := 0#7, imm := 0#16, lit := 0#32 }
  | .swrv p => some { form := .s, opcode := 0x63#8, pred := encPred p, variant := 0#2, t1 := 0x1FF#9, t2 := 0x1FF#9, t3 := 0x1FF#9, ext := 0#7, imm := 0#16, lit := 0#32 }
  | .spub p => some { form := .s, opcode := 0x64#8, pred := encPred p, variant := 0#2, t1 := 0x1FF#9, t2 := 0x1FF#9, t3 := 0x1FF#9, ext := 0#7, imm := 0#16, lit := 0#32 }
  | .srel p => some { form := .s, opcode := 0x65#8, pred := encPred p, variant := 0#2, t1 := 0x1FF#9, t2 := 0x1FF#9, t3 := 0x1FF#9, ext := 0#7, imm := 0#16, lit := 0#32 }
  | .srew p => some { form := .s, opcode := 0x66#8, pred := encPred p, variant := 0#2, t1 := 0x1FF#9, t2 := 0x1FF#9, t3 := 0x1FF#9, ext := 0#7, imm := 0#16, lit := 0#32 }
  | .spos p t1 t2 => some { form := .s, opcode := 0x67#8, pred := encPred p, variant := 0#2, t1 := encTgt t1, t2 := encTgt t2, t3 := 0x1FF#9, ext := 0#7, imm := 0#16, lit := 0#32 }
  | .sjoin p role => some { form := .s, opcode := 0x68#8, pred := encPred p, variant := encRole role, t1 := 0x1FF#9, t2 := 0x1FF#9, t3 := 0x1FF#9, ext := 0#7, imm := 0#16, lit := 0#32 }
  | .sleave p => some { form := .s, opcode := 0x69#8, pred := encPred p, variant := 0#2, t1 := 0x1FF#9, t2 := 0x1FF#9, t3 := 0x1FF#9, ext := 0#7, imm := 0#16, lit := 0#32 }
  | .ldb p off t1 t2 t3 => some { form := .w, opcode := 0x70#8, pred := encPred p, variant := 0#2, t1 := encTgt t1, t2 := encTgt t2, t3 := encTgt t3, ext := 0#7, imm := off, lit := 0#32 }
  | .ldbu p off t1 t2 t3 => some { form := .w, opcode := 0x71#8, pred := encPred p, variant := 0#2, t1 := encTgt t1, t2 := encTgt t2, t3 := encTgt t3, ext := 0#7, imm := off, lit := 0#32 }
  | .ldh p off t1 t2 t3 => some { form := .w, opcode := 0x72#8, pred := encPred p, variant := 0#2, t1 := encTgt t1, t2 := encTgt t2, t3 := encTgt t3, ext := 0#7, imm := off, lit := 0#32 }
  | .ldhu p off t1 t2 t3 => some { form := .w, opcode := 0x73#8, pred := encPred p, variant := 0#2, t1 := encTgt t1, t2 := encTgt t2, t3 := encTgt t3, ext := 0#7, imm := off, lit := 0#32 }
  | .ldw p off t1 t2 t3 => some { form := .w, opcode := 0x74#8, pred := encPred p, variant := 0#2, t1 := encTgt t1, t2 := encTgt t2, t3 := encTgt t3, ext := 0#7, imm := off, lit := 0#32 }
  | .ldwu p off t1 t2 t3 => some { form := .w, opcode := 0x75#8, pred := encPred p, variant := 0#2, t1 := encTgt t1, t2 := encTgt t2, t3 := encTgt t3, ext := 0#7, imm := off, lit := 0#32 }
  | .ldd p off t1 t2 t3 => some { form := .w, opcode := 0x76#8, pred := encPred p, variant := 0#2, t1 := encTgt t1, t2 := encTgt t2, t3 := encTgt t3, ext := 0#7, imm := off, lit := 0#32 }
  | .stb p off => some { form := .w, opcode := 0x77#8, pred := encPred p, variant := 0#2, t1 := 0x1FF#9, t2 := 0x1FF#9, t3 := 0x1FF#9, ext := 0#7, imm := off, lit := 0#32 }
  | .sth p off => some { form := .w, opcode := 0x78#8, pred := encPred p, variant := 0#2, t1 := 0x1FF#9, t2 := 0x1FF#9, t3 := 0x1FF#9, ext := 0#7, imm := off, lit := 0#32 }
  | .stw p off => some { form := .w, opcode := 0x79#8, pred := encPred p, variant := 0#2, t1 := 0x1FF#9, t2 := 0x1FF#9, t3 := 0x1FF#9, ext := 0#7, imm := off, lit := 0#32 }
  | .std p off => some { form := .w, opcode := 0x7A#8, pred := encPred p, variant := 0#2, t1 := 0x1FF#9, t2 := 0x1FF#9, t3 := 0x1FF#9, ext := 0#7, imm := off, lit := 0#32 }
  | .ldv p off t1 t2 t3 => some { form := .w, opcode := 0x7B#8, pred := encPred p, variant := 0#2, t1 := encTgt t1, t2 := encTgt t2, t3 := encTgt t3, ext := 0#7, imm := off, lit := 0#32 }
  | .ldvs p off t1 t2 t3 => some { form := .w, opcode := 0x7C#8, pred := encPred p, variant := 0#2, t1 := encTgt t1, t2 := encTgt t2, t3 := encTgt t3, ext := 0#7, imm := off, lit := 0#32 }
  | .stv p off => some { form := .w, opcode := 0x7D#8, pred := encPred p, variant := 0#2, t1 := 0x1FF#9, t2 := 0x1FF#9, t3 := 0x1FF#9, ext := 0#7, imm := off, lit := 0#32 }
  | .gath p t1 t2 => some { form := .s, opcode := 0x7E#8, pred := encPred p, variant := 0#2, t1 := encTgt t1, t2 := encTgt t2, t3 := 0x1FF#9, ext := 0#7, imm := 0#16, lit := 0#32 }
  | .scat => some { form := .s, opcode := 0x7F#8, pred := 0#2, variant := 0#2, t1 := 0x1FF#9, t2 := 0x1FF#9, t3 := 0x1FF#9, ext := 0#7, imm := 0#16, lit := 0#32 }
  | .agen p lit t1 t2 t3 => some { form := .l, opcode := 0x80#8, pred := encPred p, variant := 0#2, t1 := encTgt t1, t2 := encTgt t2, t3 := encTgt t3, ext := 0#7, imm := 0#16, lit := lit }
  | .agenx p lit t1 t2 t3 => some { form := .l, opcode := 0x81#8, pred := encPred p, variant := 0#2, t1 := encTgt t1, t2 := encTgt t2, t3 := encTgt t3, ext := 0#7, imm := 0#16, lit := lit }
  | .aadd p off sz ord scope t1 t2 t3 => some { form := .w, opcode := 0x82#8, pred := encPred p, variant := encASize sz, t1 := encTgt t1, t2 := encTgt t2, t3 := encTgt t3, ext := 0#3 ++ encScope scope ++ encOrder ord, imm := off, lit := 0#32 }
  | .aand p off sz ord scope t1 t2 t3 => some { form := .w, opcode := 0x83#8, pred := encPred p, variant := encASize sz, t1 := encTgt t1, t2 := encTgt t2, t3 := encTgt t3, ext := 0#3 ++ encScope scope ++ encOrder ord, imm := off, lit := 0#32 }
  | .aor p off sz ord scope t1 t2 t3 => some { form := .w, opcode := 0x84#8, pred := encPred p, variant := encASize sz, t1 := encTgt t1, t2 := encTgt t2, t3 := encTgt t3, ext := 0#3 ++ encScope scope ++ encOrder ord, imm := off, lit := 0#32 }
  | .axor p off sz ord scope t1 t2 t3 => some { form := .w, opcode := 0x85#8, pred := encPred p, variant := encASize sz, t1 := encTgt t1, t2 := encTgt t2, t3 := encTgt t3, ext := 0#3 ++ encScope scope ++ encOrder ord, imm := off, lit := 0#32 }
  | .amin p off sz ord scope t1 t2 t3 => some { form := .w, opcode := 0x86#8, pred := encPred p, variant := encASize sz, t1 := encTgt t1, t2 := encTgt t2, t3 := encTgt t3, ext := 0#3 ++ encScope scope ++ encOrder ord, imm := off, lit := 0#32 }
  | .amax p off sz ord scope t1 t2 t3 => some { form := .w, opcode := 0x87#8, pred := encPred p, variant := encASize sz, t1 := encTgt t1, t2 := encTgt t2, t3 := encTgt t3, ext := 0#3 ++ encScope scope ++ encOrder ord, imm := off, lit := 0#32 }
  | .aminu p off sz ord scope t1 t2 t3 => some { form := .w, opcode := 0x88#8, pred := encPred p, variant := encASize sz, t1 := encTgt t1, t2 := encTgt t2, t3 := encTgt t3, ext := 0#3 ++ encScope scope ++ encOrder ord, imm := off, lit := 0#32 }
  | .amaxu p off sz ord scope t1 t2 t3 => some { form := .w, opcode := 0x89#8, pred := encPred p, variant := encASize sz, t1 := encTgt t1, t2 := encTgt t2, t3 := encTgt t3, ext := 0#3 ++ encScope scope ++ encOrder ord, imm := off, lit := 0#32 }
  | .axchg p off sz ord scope t1 t2 t3 => some { form := .w, opcode := 0x8A#8, pred := encPred p, variant := encASize sz, t1 := encTgt t1, t2 := encTgt t2, t3 := encTgt t3, ext := 0#3 ++ encScope scope ++ encOrder ord, imm := off, lit := 0#32 }
  | .acas off sz ord scope t1 t2 t3 => some { form := .w, opcode := 0x8B#8, pred := 0#2, variant := encASize sz, t1 := encTgt t1, t2 := encTgt t2, t3 := encTgt t3, ext := 0#3 ++ encScope scope ++ encOrder ord, imm := off, lit := 0#32 }
  | .afadd p off ord scope t1 t2 t3 => some { form := .w, opcode := 0x8C#8, pred := encPred p, variant := 0#2, t1 := encTgt t1, t2 := encTgt t2, t3 := encTgt t3, ext := 0#3 ++ encScope scope ++ encOrder ord, imm := off, lit := 0#32 }
  | .acq p scope t1 t2 t3 => some { form := .w, opcode := 0x8D#8, pred := encPred p, variant := 0#2, t1 := encTgt t1, t2 := encTgt t2, t3 := encTgt t3, ext := 0#3 ++ encScope scope ++ 0#2, imm := 0#16, lit := 0#32 }
  | .rel p scope t1 t2 t3 => some { form := .w, opcode := 0x8E#8, pred := encPred p, variant := 0#2, t1 := encTgt t1, t2 := encTgt t2, t3 := encTgt t3, ext := 0#3 ++ encScope scope ++ 0#2, imm := 0#16, lit := 0#32 }
  | .sync p scope t1 t2 t3 => some { form := .w, opcode := 0x8F#8, pred := encPred p, variant := 0#2, t1 := encTgt t1, t2 := encTgt t2, t3 := encTgt t3, ext := 0#3 ++ encScope scope ++ 0#2, imm := 0#16, lit := 0#32 }
  | .copy p => some { form := .s, opcode := 0x90#8, pred := encPred p, variant := 0#2, t1 := 0x1FF#9, t2 := 0x1FF#9, t3 := 0x1FF#9, ext := 0#7, imm := 0#16, lit := 0#32 }
  | .copy2d p => some { form := .s, opcode := 0x91#8, pred := encPred p, variant := 0#2, t1 := 0x1FF#9, t2 := 0x1FF#9, t3 := 0x1FF#9, ext := 0#7, imm := 0#16, lit := 0#32 }
  | .xfer p => some { form := .s, opcode := 0x92#8, pred := encPred p, variant := 0#2, t1 := 0x1FF#9, t2 := 0x1FF#9, t3 := 0x1FF#9, ext := 0#7, imm := 0#16, lit := 0#32 }
  | .task p => some { form := .s, opcode := 0x93#8, pred := encPred p, variant := 0#2, t1 := 0x1FF#9, t2 := 0x1FF#9, t3 := 0x1FF#9, ext := 0#7, imm := 0#16, lit := 0#32 }
  | .waitc p => some { form := .s, opcode := 0x94#8, pred := encPred p, variant := 0#2, t1 := 0x1FF#9, t2 := 0x1FF#9, t3 := 0x1FF#9, ext := 0#7, imm := 0#16, lit := 0#32 }
  | .testc p t1 t2 => some { form := .s, opcode := 0x95#8, pred := encPred p, variant := 0#2, t1 := encTgt t1, t2 := encTgt t2, t3 := 0x1FF#9, ext := 0#7, imm := 0#16, lit := 0#32 }
  | .wsseal p => some { form := .s, opcode := 0x96#8, pred := encPred p, variant := 0#2, t1 := 0x1FF#9, t2 := 0x1FF#9, t3 := 0x1FF#9, ext := 0#7, imm := 0#16, lit := 0#32 }
  | .wsopen p => some { form := .s, opcode := 0x97#8, pred := encPred p, variant := 0#2, t1 := 0x1FF#9, t2 := 0x1FF#9, t3 := 0x1FF#9, ext := 0#7, imm := 0#16, lit := 0#32 }
  | .vadd p t1 t2 => some { form := .s, opcode := 0xA0#8, pred := encPred p, variant := 0#2, t1 := encTgt t1, t2 := encTgt t2, t3 := 0x1FF#9, ext := 0#7, imm := 0#16, lit := 0#32 }
  | .vsub p t1 t2 => some { form := .s, opcode := 0xA1#8, pred := encPred p, variant := 0#2, t1 := encTgt t1, t2 := encTgt t2, t3 := 0x1FF#9, ext := 0#7, imm := 0#16, lit := 0#32 }
  | .vmul p t1 t2 => some { form := .s, opcode := 0xA2#8, pred := encPred p, variant := 0#2, t1 := encTgt t1, t2 := encTgt t2, t3 := 0x1FF#9, ext := 0#7, imm := 0#16, lit := 0#32 }
  | .vmin p t1 t2 => some { form := .s, opcode := 0xA3#8, pred := encPred p, variant := 0#2, t1 := encTgt t1, t2 := encTgt t2, t3 := 0x1FF#9, ext := 0#7, imm := 0#16, lit := 0#32 }
  | .vmax p t1 t2 => some { form := .s, opcode := 0xA4#8, pred := encPred p, variant := 0#2, t1 := encTgt t1, t2 := encTgt t2, t3 := 0x1FF#9, ext := 0#7, imm := 0#16, lit := 0#32 }
  | .vfma t1 t2 => some { form := .s, opcode := 0xA5#8, pred := 0#2, variant := 0#2, t1 := encTgt t1, t2 := encTgt t2, t3 := 0x1FF#9, ext := 0#7, imm := 0#16, lit := 0#32 }
  | .vfms t1 t2 => some { form := .s, opcode := 0xA6#8, pred := 0#2, variant := 0#2, t1 := encTgt t1, t2 := encTgt t2, t3 := 0x1FF#9, ext := 0#7, imm := 0#16, lit := 0#32 }
  | .vdiv p t1 t2 => some { form := .s, opcode := 0xA7#8, pred := encPred p, variant := 0#2, t1 := encTgt t1, t2 := encTgt t2, t3 := 0x1FF#9, ext := 0#7, imm := 0#16, lit := 0#32 }
  | .vsqrt p t1 t2 => some { form := .s, opcode := 0xA8#8, pred := encPred p, variant := 0#2, t1 := encTgt t1, t2 := encTgt t2, t3 := 0x1FF#9, ext := 0#7, imm := 0#16, lit := 0#32 }
  | .vabs p t1 t2 => some { form := .s, opcode := 0xA9#8, pred := encPred p, variant := 0#2, t1 := encTgt t1, t2 := encTgt t2, t3 := 0x1FF#9, ext := 0#7, imm := 0#16, lit := 0#32 }
  | .vneg p t1 t2 => some { form := .s, opcode := 0xAA#8, pred := encPred p, variant := 0#2, t1 := encTgt t1, t2 := encTgt t2, t3 := 0x1FF#9, ext := 0#7, imm := 0#16, lit := 0#32 }
  | .vceq p t1 t2 => some { form := .s, opcode := 0xB0#8, pred := encPred p, variant := 0#2, t1 := encTgt t1, t2 := encTgt t2, t3 := 0x1FF#9, ext := 0#7, imm := 0#16, lit := 0#32 }
  | .vcne p t1 t2 => some { form := .s, opcode := 0xB1#8, pred := encPred p, variant := 0#2, t1 := encTgt t1, t2 := encTgt t2, t3 := 0x1FF#9, ext := 0#7, imm := 0#16, lit := 0#32 }
  | .vclt p t1 t2 => some { form := .s, opcode := 0xB2#8, pred := encPred p, variant := 0#2, t1 := encTgt t1, t2 := encTgt t2, t3 := 0x1FF#9, ext := 0#7, imm := 0#16, lit := 0#32 }
  | .vcle p t1 t2 => some { form := .s, opcode := 0xB3#8, pred := encPred p, variant := 0#2, t1 := encTgt t1, t2 := encTgt t2, t3 := 0x1FF#9, ext := 0#7, imm := 0#16, lit := 0#32 }
  | .vsel t1 t2 => some { form := .s, opcode := 0xB4#8, pred := 0#2, variant := 0#2, t1 := encTgt t1, t2 := encTgt t2, t3 := 0x1FF#9, ext := 0#7, imm := 0#16, lit := 0#32 }
  | .vcvt p fmt geom rm t1 t2 t3 => some { form := .w, opcode := 0xB5#8, pred := encPred p, variant := 0#2, t1 := encTgt t1, t2 := encTgt t2, t3 := encTgt t3, ext := 0#4 ++ encRounding rm, imm := 0#10 ++ geom ++ fmt, lit := 0#32 }
  | .vpack p fmt t1 t2 t3 => some { form := .w, opcode := 0xB6#8, pred := encPred p, variant := 0#2, t1 := encTgt t1, t2 := encTgt t2, t3 := encTgt t3, ext := 0#7, imm := 0#12 ++ fmt, lit := 0#32 }
  | .vunpk p fmt t1 t2 t3 => some { form := .w, opcode := 0xB7#8, pred := encPred p, variant := 0#2, t1 := encTgt t1, t2 := encTgt t2, t3 := encTgt t3, ext := 0#7, imm := 0#12 ++ fmt, lit := 0#32 }
  | .vbcast p lane t1 t2 t3 => some { form := .w, opcode := 0xB8#8, pred := encPred p, variant := 0#2, t1 := encTgt t1, t2 := encTgt t2, t3 := encTgt t3, ext := 0#7, imm := 0#12 ++ lane, lit := 0#32 }
  | .vextr p lane t1 t2 t3 => some { form := .w, opcode := 0xB9#8, pred := encPred p, variant := 0#2, t1 := encTgt t1, t2 := encTgt t2, t3 := encTgt t3, ext := 0#7, imm := 0#12 ++ lane, lit := 0#32 }
  | .vins p lane t1 t2 t3 => some { form := .w, opcode := 0xBA#8, pred := encPred p, variant := 0#2, t1 := encTgt t1, t2 := encTgt t2, t3 := encTgt t3, ext := 0#7, imm := 0#12 ++ lane, lit := 0#32 }
  | .vperm p t1 t2 => some { form := .s, opcode := 0xBB#8, pred := encPred p, variant := 0#2, t1 := encTgt t1, t2 := encTgt t2, t3 := 0x1FF#9, ext := 0#7, imm := 0#16, lit := 0#32 }
  | .vshuf p half t1 t2 => some { form := .s, opcode := 0xBC#8, pred := encPred p, variant := encShuf half, t1 := encTgt t1, t2 := encTgt t2, t3 := 0x1FF#9, ext := 0#7, imm := 0#16, lit := 0#32 }
  | .vrot p cnt t1 t2 t3 => some { form := .w, opcode := 0xBD#8, pred := encPred p, variant := 0#2, t1 := encTgt t1, t2 := encTgt t2, t3 := encTgt t3, ext := 0#7, imm := 0#12 ++ cnt, lit := 0#32 }
  | .vreda p t1 t2 => some { form := .s, opcode := 0xC0#8, pred := encPred p, variant := 0#2, t1 := encTgt t1, t2 := encTgt t2, t3 := 0x1FF#9, ext := 0#7, imm := 0#16, lit := 0#32 }
  | .vredx p t1 t2 => some { form := .s, opcode := 0xC1#8, pred := encPred p, variant := 0#2, t1 := encTgt t1, t2 := encTgt t2, t3 := 0x1FF#9, ext := 0#7, imm := 0#16, lit := 0#32 }
  | .vredn p t1 t2 => some { form := .s, opcode := 0xC2#8, pred := encPred p, variant := 0#2, t1 := encTgt t1, t2 := encTgt t2, t3 := 0x1FF#9, ext := 0#7, imm := 0#16, lit := 0#32 }
  | .vscan p t1 t2 => some { form := .s, opcode := 0xC3#8, pred := encPred p, variant := 0#2, t1 := encTgt t1, t2 := encTgt t2, t3 := 0x1FF#9, ext := 0#7, imm := 0#16, lit := 0#32 }
  | .vmask p mask t1 t2 t3 => some { form := .w, opcode := 0xC4#8, pred := encPred p, variant := 0#2, t1 := encTgt t1, t2 := encTgt t2, t3 := encTgt t3, ext := 0#7, imm := mask, lit := 0#32 }
  | .vtopk p k t1 t2 t3 => some { form := .w, opcode := 0xC5#8, pred := encPred p, variant := 0#2, t1 := encTgt t1, t2 := encTgt t2, t3 := encTgt t3, ext := 0#7, imm := 0#7 ++ k, lit := 0#32 }
  | .vexp2 p t1 t2 => some { form := .s, opcode := 0xC6#8, pred := encPred p, variant := 0#2, t1 := encTgt t1, t2 := encTgt t2, t3 := 0x1FF#9, ext := 0#7, imm := 0#16, lit := 0#32 }
  | .vlog2 p t1 t2 => some { form := .s, opcode := 0xC7#8, pred := encPred p, variant := 0#2, t1 := encTgt t1, t2 := encTgt t2, t3 := 0x1FF#9, ext := 0#7, imm := 0#16, lit := 0#32 }
  | .vrcp p t1 t2 => some { form := .s, opcode := 0xC8#8, pred := encPred p, variant := 0#2, t1 := encTgt t1, t2 := encTgt t2, t3 := 0x1FF#9, ext := 0#7, imm := 0#16, lit := 0#32 }
  | .vrsq p t1 t2 => some { form := .s, opcode := 0xC9#8, pred := encPred p, variant := 0#2, t1 := encTgt t1, t2 := encTgt t2, t3 := 0x1FF#9, ext := 0#7, imm := 0#16, lit := 0#32 }
  | .vtanh p t1 t2 => some { form := .s, opcode := 0xCA#8, pred := encPred p, variant := 0#2, t1 := encTgt t1, t2 := encTgt t2, t3 := 0x1FF#9, ext := 0#7, imm := 0#16, lit := 0#32 }
  | .vsigm p t1 t2 => some { form := .s, opcode := 0xCB#8, pred := encPred p, variant := 0#2, t1 := encTgt t1, t2 := encTgt t2, t3 := 0x1FF#9, ext := 0#7, imm := 0#16, lit := 0#32 }
  | .vsinc p t1 t2 => some { form := .s, opcode := 0xCC#8, pred := encPred p, variant := 0#2, t1 := encTgt t1, t2 := encTgt t2, t3 := 0x1FF#9, ext := 0#7, imm := 0#16, lit := 0#32 }
  | .vrope p tbl t1 t2 t3 => some { form := .w, opcode := 0xCD#8, pred := encPred p, variant := 0#2, t1 := encTgt t1, t2 := encTgt t2, t3 := encTgt t3, ext := 0#7, imm := 0#8 ++ tbl, lit := 0#32 }
  | .viadd p w t1 t2 => some { form := .s, opcode := 0xD0#8, pred := encPred p, variant := encLaneW w, t1 := encTgt t1, t2 := encTgt t2, t3 := 0x1FF#9, ext := 0#7, imm := 0#16, lit := 0#32 }
  | .visub p w t1 t2 => some { form := .s, opcode := 0xD1#8, pred := encPred p, variant := encLaneW w, t1 := encTgt t1, t2 := encTgt t2, t3 := 0x1FF#9, ext := 0#7, imm := 0#16, lit := 0#32 }
  | .vimul p w t1 t2 => some { form := .s, opcode := 0xD2#8, pred := encPred p, variant := encLaneW w, t1 := encTgt t1, t2 := encTgt t2, t3 := 0x1FF#9, ext := 0#7, imm := 0#16, lit := 0#32 }
  | .viand p w t1 t2 => some { form := .s, opcode := 0xD3#8, pred := encPred p, variant := encLaneW w, t1 := encTgt t1, t2 := encTgt t2, t3 := 0x1FF#9, ext := 0#7, imm := 0#16, lit := 0#32 }
  | .vior p w t1 t2 => some { form := .s, opcode := 0xD4#8, pred := encPred p, variant := encLaneW w, t1 := encTgt t1, t2 := encTgt t2, t3 := 0x1FF#9, ext := 0#7, imm := 0#16, lit := 0#32 }
  | .vixor p w t1 t2 => some { form := .s, opcode := 0xD5#8, pred := encPred p, variant := encLaneW w, t1 := encTgt t1, t2 := encTgt t2, t3 := 0x1FF#9, ext := 0#7, imm := 0#16, lit := 0#32 }
  | .vishl p w t1 t2 => some { form := .s, opcode := 0xD6#8, pred := encPred p, variant := encLaneW w, t1 := encTgt t1, t2 := encTgt t2, t3 := 0x1FF#9, ext := 0#7, imm := 0#16, lit := 0#32 }
  | .vishr p w t1 t2 => some { form := .s, opcode := 0xD7#8, pred := encPred p, variant := encLaneW w, t1 := encTgt t1, t2 := encTgt t2, t3 := 0x1FF#9, ext := 0#7, imm := 0#16, lit := 0#32 }
  | .vimin p w t1 t2 => some { form := .s, opcode := 0xD8#8, pred := encPred p, variant := encLaneW w, t1 := encTgt t1, t2 := encTgt t2, t3 := 0x1FF#9, ext := 0#7, imm := 0#16, lit := 0#32 }
  | .vimax p w t1 t2 => some { form := .s, opcode := 0xD9#8, pred := encPred p, variant := encLaneW w, t1 := encTgt t1, t2 := encTgt t2, t3 := 0x1FF#9, ext := 0#7, imm := 0#16, lit := 0#32 }
  | .dot p t1 t2 => some { form := .s, opcode := 0xDA#8, pred := encPred p, variant := 0#2, t1 := encTgt t1, t2 := encTgt t2, t3 := 0x1FF#9, ext := 0#7, imm := 0#16, lit := 0#32 }
  | .dota t1 t2 => some { form := .s, opcode := 0xDB#8, pred := 0#2, variant := 0#2, t1 := encTgt t1, t2 := encTgt t2, t3 := 0x1FF#9, ext := 0#7, imm := 0#16, lit := 0#32 }
  | .doti t1 t2 => some { form := .s, opcode := 0xDC#8, pred := 0#2, variant := 0#2, t1 := encTgt t1, t2 := encTgt t2, t3 := 0x1FF#9, ext := 0#7, imm := 0#16, lit := 0#32 }
  | .svbnd p t1 t2 => some { form := .s, opcode := 0xE0#8, pred := encPred p, variant := 0#2, t1 := encTgt t1, t2 := encTgt t2, t3 := 0x1FF#9, ext := 0#7, imm := 0#16, lit := 0#32 }
  | .svgth p t1 t2 => some { form := .s, opcode := 0xE1#8, pred := encPred p, variant := 0#2, t1 := encTgt t1, t2 := encTgt t2, t3 := 0x1FF#9, ext := 0#7, imm := 0#16, lit := 0#32 }
  | .kvx p t1 t2 => some { form := .s, opcode := 0xE2#8, pred := encPred p, variant := 0#2, t1 := encTgt t1, t2 := encTgt t2, t3 := 0x1FF#9, ext := 0#7, imm := 0#16, lit := 0#32 }
  | .kvfork p t1 t2 => some { form := .s, opcode := 0xE3#8, pred := encPred p, variant := 0#2, t1 := encTgt t1, t2 := encTgt t2, t3 := 0x1FF#9, ext := 0#7, imm := 0#16, lit := 0#32 }
  | .kvfree p => some { form := .s, opcode := 0xE4#8, pred := encPred p, variant := 0#2, t1 := 0x1FF#9, t2 := 0x1FF#9, t3 := 0x1FF#9, ext := 0#7, imm := 0#16, lit := 0#32 }
  | .fscan p lvl t1 t2 t3 => some { form := .w, opcode := 0xE8#8, pred := encPred p, variant := 0#2, t1 := encTgt t1, t2 := encTgt t2, t3 := encTgt t3, ext := 0#7, imm := 0#13 ++ lvl, lit := 0#32 }
  | .fisect t1 t2 => some { form := .s, opcode := 0xE9#8, pred := 0#2, variant := 0#2, t1 := encTgt t1, t2 := encTgt t2, t3 := 0x1FF#9, ext := 0#7, imm := 0#16, lit := 0#32 }
  | .funion t1 t2 => some { form := .s, opcode := 0xEA#8, pred := 0#2, variant := 0#2, t1 := encTgt t1, t2 := encTgt t2, t3 := 0x1FF#9, ext := 0#7, imm := 0#16, lit := 0#32 }
  | .frpt t1 t2 => some { form := .s, opcode := 0xEB#8, pred := 0#2, variant := 0#2, t1 := encTgt t1, t2 := encTgt t2, t3 := 0x1FF#9, ext := 0#7, imm := 0#16, lit := 0#32 }
  | .fred rop t1 t2 => some { form := .s, opcode := 0xEC#8, pred := 0#2, variant := encRedOp rop, t1 := encTgt t1, t2 := encTgt t2, t3 := 0x1FF#9, ext := 0#7, imm := 0#16, lit := 0#32 }
  | .fvals p t1 t2 => some { form := .s, opcode := 0xED#8, pred := encPred p, variant := 0#2, t1 := encTgt t1, t2 := encTgt t2, t3 := 0x1FF#9, ext := 0#7, imm := 0#16, lit := 0#32 }
  | .fbld => some { form := .s, opcode := 0xEE#8, pred := 0#2, variant := 0#2, t1 := 0x1FF#9, t2 := 0x1FF#9, t3 := 0x1FF#9, ext := 0#7, imm := 0#16, lit := 0#32 }
  | .fchk lvl t1 t2 t3 => some { form := .w, opcode := 0xEF#8, pred := 0#2, variant := 0#2, t1 := encTgt t1, t2 := encTgt t2, t3 := encTgt t3, ext := 0#7, imm := 0#13 ++ lvl, lit := 0#32 }
  | .trap p code => some { form := .w, opcode := 0xF0#8, pred := encPred p, variant := 0#2, t1 := 0x1FF#9, t2 := 0x1FF#9, t3 := 0x1FF#9, ext := 0#7, imm := code, lit := 0#32 }
  | .tret p => some { form := .s, opcode := 0xF1#8, pred := encPred p, variant := 0#2, t1 := 0x1FF#9, t2 := 0x1FF#9, t3 := 0x1FF#9, ext := 0#7, imm := 0#16, lit := 0#32 }
  | .crrd p n t1 t2 t3 => some { form := .w, opcode := 0xF2#8, pred := encPred p, variant := 0#2, t1 := encTgt t1, t2 := encTgt t2, t3 := encTgt t3, ext := 0#7, imm := 0#4 ++ n, lit := 0#32 }
  | .crwr p n => some { form := .w, opcode := 0xF3#8, pred := encPred p, variant := 0#2, t1 := 0x1FF#9, t2 := 0x1FF#9, t3 := 0x1FF#9, ext := 0#7, imm := 0#4 ++ n, lit := 0#32 }
  | .xlinv p => some { form := .s, opcode := 0xF4#8, pred := encPred p, variant := 0#2, t1 := 0x1FF#9, t2 := 0x1FF#9, t3 := 0x1FF#9, ext := 0#7, imm := 0#16, lit := 0#32 }
  | .cfginv p => some { form := .s, opcode := 0xF5#8, pred := encPred p, variant := 0#2, t1 := 0x1FF#9, t2 := 0x1FF#9, t3 := 0x1FF#9, ext := 0#7, imm := 0#16, lit := 0#32 }
  | .qpost p => some { form := .s, opcode := 0xF6#8, pred := encPred p, variant := 0#2, t1 := 0x1FF#9, t2 := 0x1FF#9, t3 := 0x1FF#9, ext := 0#7, imm := 0#16, lit := 0#32 }
  | .dbgbrk p tag => some { form := .w, opcode := 0xF7#8, pred := encPred p, variant := 0#2, t1 := 0x1FF#9, t2 := 0x1FF#9, t3 := 0x1FF#9, ext := 0#7, imm := tag, lit := 0#32 }
  | .hint p code => some { form := .w, opcode := 0xF8#8, pred := encPred p, variant := 0#2, t1 := 0x1FF#9, t2 := 0x1FF#9, t3 := 0x1FF#9, ext := 0#7, imm := 0#8 ++ code, lit := 0#32 }
  | .blockFetch .. => none
  | .blockCheck .. => none
  | .instanceAdmission .. => none
  | .instanceCommit .. => none
  | .retirementCount .. => none
  | .instanceStall .. => none
  | .contextWriteOut .. => none
  | .contextReadBack .. => none
  | .memoryReply .. => none
  | .trackedAccessArrival .. => none
  | .atomicArrival .. => none
  | .streamWaitEnd .. => none
  | .extensionFrameReturn .. => none
  | .queueConsume .. => none
  | .stampPoll .. => none
  | .deviceLaunchStart => none
  | .faultDomainTeardown .. => none
  | .asidRelease .. => none
  | .functionReset .. => none
  | .queueEnable .. => none
  | .queueDisable .. => none
  | .queueErrClear .. => none
  | .qtailWrite .. => none
  | .fnqWrite .. => none
  | .fnaWrite .. => none
  | .functionSuspend .. => none
  | .functionResume .. => none
  | .hostStreamJoin .. => none
  | .hostStreamLeave .. => none
  | .hostStreamErrClear .. => none
  | .hostStreamAdvance .. => none
  | .hostStreamRewind .. => none
  | .copyOperation .. => none
  | .copy2dOperation .. => none
  | .xferPut .. => none
  | .xferPutaddF32 .. => none
  | .xferPutaddBf16 .. => none
  | .xferGet .. => none
  | .gatherOperation .. => none
  | .gatherListOperation .. => none
  | .forkOperation .. => none
  | .engineOperationFinish .. => none
  | .walkerEnqueue .. => none
  | .shelfSealComplete .. => none
  | .refreshWindow .. => none
  | .schedulerDecision .. => none
  | .imageLookupComplete .. => none
  | .configLoadComplete .. => none
  | .drainTimeout .. => none
  | .idleRelease .. => none
  | .quiescenceExtension .. => none
  | .pageWalk .. => none
  | .reservationGrant .. => none
  | .ladleZero .. => none
  | .ladleBalloon .. => none
  | .ladleHostCopy .. => none
  | .ladleFail .. => none
  | .decodeWatchdog .. => none
  | .pagerMerge .. => none
  | .migrationPost .. => none
  | .migrationLineCopy .. => none
  | .migrationFinish .. => none
  | .migsettleExpiry .. => none
  | .hpresWrite .. => none
  | .pquotaWrite .. => none
  | .blidxWrite .. => none
  | .hcidxWrite .. => none
  | .trapCapture .. => none
  | .apctlWrite .. => none
  | .apertureRead .. => none
  | .apertureWrite .. => none
  | .peerWrite .. => none
  | .peerRead .. => none
  | .peerAdd .. => none
  | .stage2Lookup .. => none
  | .linkDown .. => none
  | .linkReturn .. => none
  | .sieveAdmit .. => none
  | .sieveLookupReply .. => none
  | .kvfreeDecrement .. => none
  | .xlpostWrite .. => none
  | .hostXlinvCommand => none
  | .hostXlinvComplete => none
  | .xlstatErrClear => none
  | .nonceCmd .. => none
  | .unlockCmd .. => none
  | .attestCmd .. => none
  | .extendCmd .. => none
  | .provisionCmd .. => none
  | .fwupdateCmd .. => none
  | .debugCmd .. => none
  | .lockCmd .. => none
  | .rootOfTrustComplete => none
  | .powerReqP0 => none
  | .powerReqP1 => none
  | .powerReqP2 => none
  | .powerReqP3 => none
  | .p2EntryComplete => none
  | .p2WakeAccess => none
  | .wakeComplete => none
  | .coldBringUp => none
  | .imageRegistration .. => none
  | .registerWrite .. => none
  | .systemEnd .. => none

/-- The words of an instruction, lowest address first; none for an event. -/
def encode (i : Instr) : List Word32 :=
  match i.fields with
  | some f => f.words
  | none => []

/-- The opcode map's row for an instruction; `none` for an event. -/
def Instr.info (i : Instr) : Option OpInfo := i.fields.bind fun f => opInfo f.opcode.toNat

/-- The words whose bits are `w`, bit 0 the least significant bit of the first word; the bits from
`nbits` up are zero. -/
def tableWords (nbits w : Nat) : List Word32 :=
  let v := w % 2 ^ nbits
  [BitVec.ofNat 32 v, BitVec.ofNat 32 (v >>> 32), BitVec.ofNat 32 (v >>> 64)]

/-- The instruction the decoder reads from words whose bits are `w`. -/
def decodeTableWord (nbits w : Nat) : Option Instr :=
  match decode (tableWords nbits w) with
  | .ok (i, _) => some i
  | .error _ => none

end Sys2Proof
end

