-- ==== Sys2Proof/Machine/State.lean ====
section
/-!
DEFINITION. The state of the machine: plain data holding every piece of state the spec names.

`State` has two parts. `Dev` is the device: threads, blocks, memory, queues, engines and host
registers. `RoT` is the root of trust: the security state, the debug states, keys, measurements and
power (R410..R418). Tables with many like entries are sparse: a list of (key, entry) in rising key
order, and an absent key reads as the entry's reset value.

The device's freedom of timing (R12) is data too: `Dev.agenda` lists the moves that the outside and
the device's own timing make next; when it is empty, `Machine/Step.lean` picks the next move.
-/

namespace Sys2Proof.Machine

/-! ### Tokens (R82, R83) -/

/-- Token kinds (R82). -/
inductive Kind where
  | data | stop | done | error | config | null
  deriving DecidableEq, Repr

/-- A token: the 24-bit header of R82, the sixteen valid bits and the payload. -/
structure Token where
  kind    : Kind
  level   : BitVec 3
  fmt     : BitVec 4
  geom    : BitVec 2
  tag     : BitVec 8
  err     : BitVec 4
  valid   : BitVec 16
  payload : BitVec 512
  deriving DecidableEq, Repr

/-- The null token: every valid bit 0 and a zero payload (R38, R82). -/
def Token.null : Token := ⟨.null, 0, 0, 0, 0, 0, 0, 0⟩

/-- Error codes (R83). -/
inductive TErr where
  | bounds | page | perm | align | format | grammar | decode | sealed
  deriving DecidableEq, Repr

/-- Trap causes, completion statuses and record causes (R384). -/
inductive Cause where
  | badBlock | pageFault | protection | align | streamBehind | memoryModel | regionCapacity
  | outOfSpace | malformedStream | lengthViolation | deadlock | wsSealed | arith | posrange
  | brk | queue | contextGone
  deriving DecidableEq, Repr

/-! ### Threads and launches (R35..R38, R41) -/

/-- Thread states (R36). -/
inductive TState where
  | free | queued | running | parkC | parkB | trapped | space | retired
  deriving DecidableEq, Repr

/-- The preference a hint or YIELD gives a context (R96, R389). -/
inductive CtxPref where
  | plain | keep | cold
  deriving DecidableEq, Repr

/-- The other party that the record of a MEMORY_MODEL names (R210): a thread by its partition, launch id
and thread index, an engine by its partition and completion object, the host, or a device agent. -/
inductive Other where
  | thread (part launch tidx : Nat)
  | engine (part : Nat) (comp : Word)
  | host
  | agent
  deriving DecidableEq, Repr

/-- What a trap leaves for its frame and fault record (R353, R386). -/
structure TrapInfo where
  cause  : Cause
  index  : Nat
  faddr  : Word
  /-- the address its record carries: the faulting address, but for an invalid stream descriptor's (R130) -/
  raddr  : Word
  code   : BitVec 16
  /-- 0 fault, 1 TRAP, 2 DBGBRK (R386) -/
  kind   : BitVec 2
  rpc    : Word
  gmask  : BitVec 16
  vmask  : BitVec 4
  /-- the record's list of waiting instructions, bit 7 for a stream wait (R353) -/
  list   : List (BitVec 8)
  /-- the record has been sent and the frame written -/
  frame  : Option Word
  /-- capture has stopped for good: no handler, or a frame that does not translate (R385) -/
  stuck  : Bool
  /-- of a MEMORY_MODEL: the other party, and whether that party's access raised it (R210) -/
  other  : Option (Other × Bool)
  deriving DecidableEq, Repr

/-- A thread: its context (R35) and where it stands. -/
structure Thread where
  g        : Vector Word 16
  v        : Vector Token 4
  k        : Vector Word 6
  flags    : BitVec 6
  st       : TState
  asid     : Nat
  part     : Nat
  rcb      : Nat
  pc       : Word
  waddr    : Word
  /-- the physical address behind `waddr`, kept while parked -/
  wpa      : Nat
  die      : Nat
  launch   : Nat
  /-- its context slot, when the context is resident (R35, R37) -/
  slot     : Option Nat
  /-- cycle at which it entered QUEUED, for the ranking (R225) -/
  since    : Nat
  /-- place in its entry queue -/
  order    : Nat
  /-- when its last instance was admitted: the `since` it had then -/
  before   : Nat
  pref     : CtxPref
  trap     : Option TrapInfo
  /-- order in which trapped threads wait for frames (R385) -/
  trapOrd  : Nat
  /-- TCAUSE: the cause for which this handler was launched (R393) -/
  tcause   : BitVec 16
  /-- a pending MEMORY_MODEL mark: the lowest conflicting byte and the party that raised it (R210) -/
  mark     : Option (Word × Other)
  /-- number of its current synchronisation-free region (R202) -/
  seq      : Nat
  /-- commit count at its fork: records committed by then by its parent are not live for it (R208) -/
  forkAt   : Nat
  /-- the thread whose commit launched it (R208) -/
  parent   : Option Nat
  deriving DecidableEq, Repr

/-- A live launch (R38, R162, R163). -/
structure Launch where
  /-- k5, the launch id -/
  id    : Nat
  part  : Nat
  asid  : Nat
  rcb   : Nat
  /-- its completion object, where it has one -/
  comp  : Word
  /-- it has a completion object: a queue entry's COMP that is not 0 (R155), any SPAWN's O (R98) -/
  obj   : Bool
  /-- the task record that made it, when it is a launch node (R198) -/
  node  : Option (Nat × Word)
  /-- threads not yet counted -/
  left  : Nat
  deriving DecidableEq, Repr

/-! ### Block instances (R39..R43, R47, R84..R92) -/

/-- How a latched firing came about: a first firing, a generator going on, or a waiting access made again. -/
inductive FireMode where
  | new | cont | again
  deriving DecidableEq, Repr

/-- A latched firing: the instruction and the tokens it takes (R84, R249). -/
structure Firing where
  inst : Nat
  idx  : Nat
  a    : Option Token
  b    : Option Token
  p    : Option Token
  /-- the scale tokens of paired slots (R70) -/
  sa   : Option Token
  sb   : Option Token
  mode : FireMode
  deriving DecidableEq, Repr

/-- A channel: one edge from a producer to a slot, in order (R84, R242, R243). -/
structure Chan where
  src   : Nat
  idx   : Nat
  slot  : Slot
  /-- the edge carries scale tokens (R249) -/
  scale : Bool
  /-- the FIFO, oldest first -/
  q     : List Token
  /-- the tokens in the spill ring behind it, oldest first (R243) -/
  spill : List Token
  /-- the places of those tokens in the ring, which the region's instances share (R243) -/
  sn    : List Nat
  /-- how many tokens of the FIFO did not come through the ring (R243) -/
  pre   : Nat
  /-- of each token of `q`, then of `spill`: it arrived when the instruction held every other operand (R184) -/
  lt    : List Bool
  deriving DecidableEq, Repr

/-- The spill ring behind a channel FIFO of a region (R242). -/
structure Ring where
  src   : Nat
  idx   : Nat
  slot  : Slot
  scale : Bool
  /-- physical address of the ring in scratch -/
  pa    : Nat
  /-- 4 KiB..256 KiB -/
  size  : Nat
  rcb   : Nat
  deriving DecidableEq, Repr

/-- Exits (R96, R390). -/
inductive Exit where
  | goto (a : Word) (yield : Bool)
  | halt
  /-- with the frame's address and the physical address behind it -/
  | tret (frame : Word) (pa : Nat)
  deriving DecidableEq, Repr

/-- An engine command's kind (R193, R313, R314, R316). -/
inductive EngKind where
  | copy | copy2d | xfer | gather | gatherList | fork
  deriving DecidableEq, Repr

/-- Atomic operations (R185, R188). -/
inductive AOp where
  | add | and | or | xor | min | max | minu | maxu | xchg | cas | fadd
  deriving DecidableEq, Repr

/-- Buffered effects of an instance (R40): each takes effect at commit. -/
inductive Eff where
  | gw (n : Nat) (v : Word)
  | vw (n : Nat) (t : Token)
  /-- bytes to write, by physical address, with the page's class and side entry (R369, R304) -/
  | store (bytes : List (Nat × Byte)) (cls : BitVec 2) (side : Option Nat)
  /-- an atomic's word, held until commit (R187) -/
  | atomic (pa size : Nat) (cls : BitVec 2) (side : Option Nat)
  | crwr (n : Nat) (v : Word)
  | spawn (entry : Word) (n : Nat) (arg : Word) (comp : Word) (pa : Nat)
  | engine (kind : EngKind) (cmd dst comp : Word) (pa : Nat) (sel : List Nat)
  | task (rec : Word) (pa : Nat)
  | bar (va : Word) (pa : Nat) (count : Nat)
  | waitc (va : Word) (pa : Nat)
  | qpost (q : Nat) (v : Word)
  | cfginv (all : Bool) (asid : Nat) (base len : Nat) (comp : Word)
  | shelf (pa : Nat) (close : Bool)
  | swr (desc : Nat) (pos : Nat) (bytes : List (Nat × Byte))
  | spub (desc : Nat) (q : Nat)
  | srd (desc : Nat) (j : Nat) (e : Nat)
  | srel (desc : Nat) (j : Nat) (q : Nat)
  | srew (desc : Nat) (j : Nat) (q : Nat)
  | sjoinR (desc : Nat) (j : Nat) (p : Nat)
  | sjoinP (desc : Nat)
  | sleave (desc : Nat) (j : Nat)
  | dbg (code : BitVec 16)
  | hint (code : BitVec 8)
  | cfetch (q : Word)
  | kvfree (s : Word) (entries : List Word)
  /-- an XLINV's range, which holds the commit point (R397): the ASID, none for all, and the range, none for all -/
  | xlinv (asid : Option Nat) (range : Option (Nat × Nat))
  deriving DecidableEq, Repr

/-- What a reducer or generator keeps from one token to the next within an instance (R44, R101,
R102, R181, R289, R324..R329, R336..R347). -/
inductive OpSt where
  /-- CARRY's held value (R101) -/
  | carry (held : Option Token)
  /-- AGEN's base and next point; the second field says that the pattern is over (R181) -/
  | agen (base : Word) (ix : List Nat)
  /-- FSCAN between references: whether a stop 0 is held (R324) -/
  | fscan (held : Bool)
  /-- FSCAN inside a segment: the next entry and the end, the array, what follows, and the last coordinate -/
  | fscanSeg (k last : Nat) (crd next : Word) (prev : Option Nat)
  /-- FRPT's held token (R341) -/
  | frpt (held : Option Token)
  /-- FISECT and FUNION: the last coordinate taken from each slot in the open fibre -/
  | fpair (pa pb : Option Nat)
  /-- FRED: the values of the open fibre (R345); the flag says that data is accumulated -/
  | fred (vals : List (BitVec 32)) (open_ : Bool)
  /-- FBLD: entries buffered, the descriptor with its CAP, CRD and VALS, the last coordinate, and 0
  within the fibre, 1 after its stop, 2 after done (R346) -/
  | fbld (n : Nat) (desc : Word) (cap : Nat) (crd vals : Word) (prev : Option Nat) (stage : Nat)
  /-- FCHK: the last coordinate, the level of a stop just taken, the stream's format, whether a token
  has come and whether done has (R347) -/
  | fchk (prev : Option Nat) (stop_ : Option Nat) (fmt : Option (BitVec 4)) (any_ ended : Bool)
  /-- draining: which slots have still to deliver done (R337) -/
  | drain (a b : Bool)
  /-- VTOPK's running selection (R289) -/
  | vtopk (best : List (BitVec 32 × BitVec 32))
  /-- the position at which a stream instruction acts: descriptor, reader and position (R137) -/
  | spos (desc j pos : Nat)
  deriving DecidableEq, Repr

/-- A wait that holds a firing (R137, R209, R187). -/
inductive Wait where
  /-- waits for the closing or ongoing commit of another instance at a home -/
  | access
  /-- an atomic waits for a holder's commit -/
  | atomic
  /-- until HWM reaches the position -/
  | hwm (desc : Nat) (pos : Nat)
  /-- until LIMIT reaches the position -/
  | limit (desc : Nat) (pos : Nat)
  /-- for a stream-cache entry -/
  | entry
  deriving DecidableEq, Repr

/-- A request whose reply has not been sent on (R183). -/
structure Req where
  idx   : Nat
  out   : Token
  /-- counted by the prefetch counters (R184) -/
  gen   : Bool
  /-- the reply has returned -/
  back  : Bool
  /-- the requests it stands for: one a line -/
  lines : Nat
  /-- the leaf entries whose translations it uses (R397) -/
  leafs : List Nat
  deriving DecidableEq, Repr

/-- A leaf's translation as the caches keep it (R362, R366). -/
structure Leaf where
  /-- frame base, or the descriptor's address for a stream page -/
  pa     : Nat
  /-- page size in bytes -/
  size   : Nat
  rd     : Bool
  wr     : Bool
  ex     : Bool
  sys    : Bool
  gl     : Bool
  nr     : Bool
  kind   : BitVec 2
  cls    : BitVec 2
  view   : BitVec 3
  sum    : Bool
  /-- the side entry's address, when `sum` -/
  side   : Nat
  tag    : BitVec 64
  /-- physical address of the leaf entry -/
  entry  : Nat
  a      : Bool
  d      : Bool
  deriving DecidableEq, Repr

/-- A cached translation: the ASID and partition it serves and its page base (R366). -/
structure Tlb where
  asid : Nat
  part : Nat
  va   : Nat
  leaf : Leaf
  /-- an instance's own: an XLINV or a migration has removed it from the caches since (R366, R397) -/
  stale : Bool
  /-- an instance's own, made for the scales of an LDVS, which may be translated apart from its LDV (R271) -/
  scl   : Bool
  deriving DecidableEq, Repr

/-- The sampled control registers of an instance (R392). -/
structure CrSnap where
  flags  : BitVec 6
  ten    : BitVec 3
  rseed  : Word
  pfcnt  : Word
  tvec   : Word
  trcb   : Word
  thctl  : Word
  tframe : Word
  fqtb   : Word
  asidtb : Word
  kvbtb  : Word
  kvbtn  : Word
  migs   : Word
  fdom   : Nat
  dclass : Nat
  prio   : Nat
  sys    : Bool
  dbg    : BitVec 2
  sec    : BitVec 2
  deriving DecidableEq, Repr

/-- A synchronising operation that fired in an instance (R189, R202). -/
structure Marks where
  acq   : Bool
  rel   : Bool
  own   : Bool
  /-- the widest scope of its releases -/
  scope : Scope
  waitc : Bool
  halt  : Bool
  deriving DecidableEq, Repr

def Marks.none : Marks := ⟨false, false, false, .rgn, false, false⟩

/-- A block instance (R39). -/
structure Inst where
  reg      : Nat
  slot     : Nat
  tag      : BitVec 8
  tid      : Nat
  /-- package cycle of its admission (R187) -/
  at_      : Nat
  /-- the context registers as read at admission -/
  g        : Vector Word 16
  v        : Vector Token 4
  k        : Vector Word 6
  cr       : CrSnap
  chans    : List Chan
  /-- instructions without slots that have still to fire at admission -/
  start    : List Nat
  ops      : List (Nat × OpSt)
  /-- at-most-once instructions that have fired (R90) -/
  once     : List Nat
  effs     : List (Nat × Eff)
  /-- declared writes and stores produced (R39) -/
  made     : List Nat
  exit     : Option Exit
  /-- flags raised, set at commit (R269) -/
  raised   : BitVec 6
  /-- outputs held for want of room, in order (R84, R338) -/
  held     : List (Nat × Target × Bool × Token)
  reqs     : List Req
  blocked  : List (Firing × Wait)
  /-- firings to make again -/
  again    : List Firing
  /-- translations in use by the instance (R366) -/
  tlb      : List Tlb
  marks    : Marks
  /-- it has reached its commit point and its commit is under way (R43, R209) -/
  atPoint  : Bool
  /-- the order in which it reached its commit point (R47) -/
  ptOrd    : Nat
  /-- joins of streams pending (R145) -/
  claims   : List (Nat × Nat)
  /-- reservations (R373): line number, growth in bytes, sectors granted -/
  resv     : List (Nat × Nat × Nat)
  /-- a second WAITC or BAR traps (R195) -/
  parkers  : Nat
  /-- reader cursors and joins as they stood at admission, for streams touched (R128) -/
  refs     : List (Nat × Nat × Option Nat)
  deriving DecidableEq, Repr

/-! ### Regions, configurations, the block scheduler (R44..R47, R225..R247) -/

/-- One placement of an image: its footprint and the PE of each instruction (R45, R429). -/
structure Placement where
  foot : Nat
  pes  : List Nat
  deriving DecidableEq, Repr

/-- A placed image (R232): the block, the tables it names and its placements. -/
structure Image where
  digest : Nat
  part   : Nat
  /-- header (R71), as a 128-bit number -/
  hdr    : BitVec 128
  words  : List Word32
  /-- word offset of each instruction -/
  starts : List Nat
  instrs : List Instr
  luts   : List (Nat × List Byte)
  descs  : List (Nat × BitVec 512)
  places : List Placement
  /-- channel capacity of its FIFOs, 8..64 (R84) -/
  cap    : Nat
  /-- the recorded latency L of a TDS block (R241) -/
  lat    : Nat
  deriving DecidableEq, Repr

/-- A configuration-cache entry of a die (R232, R234). -/
structure Cached where
  image : Image
  pairs : List (Nat × Nat)
  used  : Nat
  deriving DecidableEq, Repr

/-- Phases of a region (R235, R237, R238). -/
inductive Phase where
  /-- a load is under way: the region's gates are closed until it is complete -/
  | loading (began : Nat)
  | open_
  /-- draining toward a smaller footprint since a cycle -/
  | draining (began foot : Nat)
  /-- to be released when its instances have ended (R234) -/
  | closing
  deriving DecidableEq, Repr

/-- A region of a die: one placed block (R18, R46). -/
structure Region where
  die    : Nat
  site   : Nat
  foot   : Nat
  asid   : Nat
  part   : Nat
  blk    : Word
  rcb    : Nat
  image  : Image
  phase  : Phase
  /-- configuration tokens on their way to the PEs of a region that loads (R235) -/
  cfg    : List Token
  loaded : Nat
  pinned : Bool
  tds    : Bool
  gens   : Vector (BitVec 3) 32
  /-- cycle since which no instance of it is in flight (R230) -/
  idle   : Nat
  /-- cycle since which its entry queue on the die is empty (R230) -/
  bare   : Nat
  /-- cycle of its last activity, for the quiescence detector (R245) -/
  active : Nat
  /-- the last cycle in which it held no full edge (R245) -/
  clear  : Nat
  rings  : List Ring
  /-- CFGINVs that wait for its release: a number of their own, asid, part and object (R399) -/
  comps  : List (Nat × Nat × Nat × Word)
  deriving DecidableEq, Repr

/-- How far the fetch of a block has come on a die (R61, R233). -/
inductive FetchSt where
  /-- the lines read so far; each further line is an access of its own (R81) -/
  | lines (bytes : List Byte)
  | fetched (bytes : List Byte)
  | checked (bytes : List Byte) (instrs : List Instr) (luts : List (Nat × List Byte)) (descs : List (Nat × BitVec 512)) (digest : Nat)
  deriving DecidableEq, Repr

structure Fetch where
  die  : Nat
  asid : Nat
  part : Nat
  blk  : Word
  st   : FetchSt
  /-- the candidate has won its decision for the first load -/
  won  : Bool
  deriving DecidableEq, Repr

/-- A rejection record (R80). -/
structure RejRec where
  reason : BitVec 8
  index  : Nat
  deriving DecidableEq, Repr

/-- The device's usage counts of a region control block (R50) and its threads' sums (R184). -/
structure RcbUse where
  sites   : Nat
  slots   : Nat
  scratch : Nat
  sectors : Nat
  threads : Nat
  /-- the parent pointer kept while threads name it (R53) -/
  parent  : Nat
  iss     : Nat
  use     : Nat
  late    : Nat
  unu     : Nat
  deriving DecidableEq, Repr

def RcbUse.reset : RcbUse := ⟨0, 0, 0, 0, 0, 0, 0, 0, 0, 0⟩

/-! ### Streams (R127..R149) -/

/-- A reader of a stream. -/
structure Reader where
  joined : Bool
  cur    : Nat
  rel    : Nat
  host   : Bool
  deriving DecidableEq, Repr

/-- A cached stream descriptor (R129), with positions absolute. -/
structure Stream where
  /-- its home die; 9 for none yet (R131) -/
  home    : Nat
  tail    : Nat
  hwm     : Nat
  readers : Vector Reader 8
  hpro    : Bool
  pj      : Bool
  ovu     : Nat
  ovb     : Nat
  mem     : Bool
  esz     : Nat
  fsz     : Nat
  nf      : Nat
  /-- FBASE, as the descriptor holds it -/
  fbase   : Nat
  dirty   : Bool
  /-- threads whose instances changed it since its last write-back (R131) -/
  users   : List Nat
  /-- the regions it was reached through: partition, ASID and S / 2^43 (R127, R131) -/
  spans   : List (Nat × Nat × Nat)
  deriving DecidableEq, Repr

/-- A host stream window of a function (R148). -/
structure Window where
  asid : Nat
  span : Nat
  view : Nat
  role : Bool
  err  : Bool
  join : Bool
  /-- the descriptor of the stream joined, by its address; 0 while not joined -/
  desc : Nat
  deriving DecidableEq, Repr

def Window.reset : Window := ⟨0, 0, 0, false, false, false, 0⟩

/-! ### Queues (R153..R168) -/

/-- What a teardown covers (R166): a partition's effective fault domain, an ASID, or a function. -/
inductive Tear where
  | domain (part fdom : Nat)
  | space (asid : Nat)
  | function (fn : Nat)
  deriving DecidableEq, Repr

/-- A teardown covers a context (R166). -/
def Tear.covers (x : Tear) (asid part fdom : Nat) : Bool :=
  match x with
  | .domain p f => part == p && fdom == f
  | .space a => asid == a
  | .function f => part == f

/-- A work queue's registers (R157), keyed by global queue number. -/
structure Queue where
  asid   : Nat
  log2n  : Nat
  prio   : Nat
  err    : Bool
  en     : Bool
  base   : Word
  rcb    : Word
  mir    : Word
  t      : Nat
  h      : Nat
  seq    : Nat
  reason : BitVec 8
  stall  : Bool
  /-- the stamp read at the head slot matched (R160, R161) -/
  found  : Bool
  /-- cycle of the last consumption, plus one; 0 before the first -/
  last   : Nat
  /-- cycle of the last poll, plus one; 0 when a poll is due (R161) -/
  polled : Nat
  /-- teardowns that have reached the dispatcher while the entry at the head, found ready, waited for its turn (R166) -/
  torn   : List Tear
  deriving DecidableEq, Repr

def Queue.reset : Queue :=
  ⟨0, 0, 0, false, false, 0, 0, 0, 0, 0, 0, 0, false, false, 0, 0, []⟩

/-! ### The memory model (R202..R212) and atomics (R187) -/

/-- Who owns a record (R204, R209). -/
inductive Owner where
  | region (tid seq : Nat)
  | engine (op : Nat)
  deriving DecidableEq, Repr

/-- A record of a tracked access at its home (R206, R209). -/
structure Rec where
  owner  : Owner
  /-- the party, as the record of a MEMORY_MODEL names it (R210) -/
  who    : Other
  /-- the instance while tentative -/
  inst   : Option Nat
  pa     : Nat
  len    : Nat
  wr     : Bool
  atomic : Bool
  /-- commit count at which it was committed -/
  stamp  : Nat
  /-- the scope of the release that ended its region; live outside it until the system end (R208) -/
  ended  : Option Scope
  /-- placement of its party: die, and region at its release -/
  die    : Nat
  reg    : Nat
  deriving DecidableEq, Repr

/-- A word held by an atomic until its instance commits (R187). -/
structure Hold where
  pa   : Nat
  size : Nat
  inst : Nat
  cur  : Word
  deriving DecidableEq, Repr

/-! ### Engines and the task walker (R190..R198) -/

/-- Who an engine operation, walker record or launch acts for. -/
structure Party where
  tid    : Nat
  launch : Nat
  tidx   : Nat
  asid   : Nat
  part   : Nat
  die    : Nat
  rcb    : Nat
  fdom   : Nat
  sys    : Bool
  /-- commits made when the fork or TASK that it acts by committed (R208) -/
  forkAt : Nat
  deriving DecidableEq, Repr

/-- A device-side launch waiting at the dispatcher (R163). -/
structure DevLaunch where
  die   : Nat
  rcb   : Nat
  asid  : Nat
  part  : Nat
  entry : Word
  n     : Nat
  arg   : Word
  comp  : Word
  /-- the launch has a completion object (R98, R155) -/
  obj   : Bool
  node  : Option (Nat × Word)
  parent : Option Nat
  /-- the thread that issued it, where one did (R353) -/
  who    : Option Party
  forkAt : Nat
  tcause : BitVec 16
  deriving DecidableEq, Repr

/-- A block that an engine works on: its key and value pages and side entry, or a block of another package (R302). -/
inductive BlkAt where
  | here (k v side : Nat)
  | peer (p gbn : Nat)
  deriving DecidableEq, Repr

/-- An engine operation (R192..R194, R313, R314, R316). -/
structure EngOp where
  who    : Party
  kind   : EngKind
  /-- the command's address; the sequence table of a gather, the parent table of a fork -/
  cmd    : Word
  /-- the destination of a gather, the child table of a fork -/
  dst    : Word
  comp   : Word
  node   : Option (Nat × Word)
  /-- ranks used, for a gather -/
  sel    : List Nat
  /-- the command, once the engine has started and read it -/
  start  : Option (BitVec 256)
  /-- source bytes taken; pages shared, for a fork -/
  pos    : Nat
  /-- destination bytes written of the run under way -/
  dpos   : Nat
  /-- bytes completed -/
  bytes  : Nat
  ended  : Bool
  cause  : Option Cause
  /-- teardown has reached it (R194) -/
  torn   : Bool
  /-- a raise from another party has reached it (R210) -/
  struck : Bool
  /-- the other party of its MEMORY_MODEL, and whether that party's access raised it (R210) -/
  foe    : Option (Other × Bool)
  forkAt : Nat
  /-- destination pages recorded in the bounce buffer (R355) -/
  bnc    : List Nat
  /-- entries whose blocks' REFS a fork has raised (R316) -/
  raised : List Nat
  /-- the block of a gather's rank; a fork's tail block and its spare -/
  blk    : List BlkAt
  /-- the sequence header as read at the start, for gathers and forks -/
  seqh   : Option (Nat × Nat × Nat)
  /-- sectors granted after a wait (R373): the chunk, how many, and the growth in bytes that they cover -/
  resv   : List (Nat × Nat × Nat)
  /-- bytes of the packed image under way that have been read (R370) -/
  img    : List Byte
  deriving DecidableEq, Repr

/-- A launch node's remaining threads (R198). -/
structure Node where
  who   : Party
  left  : Nat
  gone  : Bool
  deriving DecidableEq, Repr

/-- Weight-store shelf states (R199). -/
inductive ShelfSt where
  | opened
  /-- waits for the writes of the operations forked before the one of a number -/
  | pending (op : Nat)
  | sealed
  deriving DecidableEq, Repr

/-! ### Compressed memory, the Ladle, migration (R367..R382) -/

/-- The metadata of a 4 KiB chunk (R367): its codes and the numbers of the sectors it holds. -/
structure Chunk where
  /-- code of line i at position i; empty for an all-zero chunk -/
  codes : List (BitVec 4)
  /-- SP0 upward: the sectors held; every higher SPk is 0xFFFF_FFFF -/
  sps   : List Nat
  /-- sectors reserved beyond those held -/
  resv  : Nat
  part  : Nat
  cls   : BitVec 2
  /-- decoding it is cut off (R372) -/
  cut   : Bool
  /-- payload growth that tentative instances have reserved (R373) -/
  grow  : Nat
  deriving DecidableEq, Repr

def Chunk.zero : Chunk := ⟨[], [], 0, 0, 0, false, 0⟩

/-- How many sectors a chunk holds. -/
def Chunk.secs (k : Chunk) : Nat := k.sps.length

/-- A pool block of a partition and home (R371). -/
structure Pool where
  quota  : Nat
  held   : Nat
  low    : Nat
  blBase : Nat
  blTail : Nat
  blHead : Nat
  hcBase : Nat
  hcTail : Nat
  hcHead : Nat
  fails  : Nat
  lstate : Nat
  /-- entries of the balloon list above HEAD that are consumed, and those passed over as busy (R379) -/
  blDone : List Nat
  blPass : List Nat
  /-- the same of the host-copy list; the leaf of an entry passed over is non-resident already, and its frame and size
  are kept (R376) -/
  hcDone : List Nat
  hcPass : List (Nat × Nat × Nat)
  deriving DecidableEq, Repr

def Pool.reset : Pool := ⟨0, 0, 0, 0, 0, 0, 0, 0, 0, 0, 0, [], [], [], []⟩

/-- Who waits for sectors (R373). -/
inductive Claimant where
  | inst (i : Nat)
  | engine (op : Nat)
  | host (fn : Nat)
  | pager (die slot : Nat)
  | mig (m : Nat)
  deriving DecidableEq, Repr

/-- A reservation waiting for a grant (R373, R374). -/
structure Resv where
  home  : Nat
  part  : Nat
  chunk : Nat
  need  : Nat
  rcb   : Nat
  who   : Claimant
  /-- the store that asked: its index and address, for the fault record -/
  idx   : Nat
  va    : Word
  deriving DecidableEq, Repr

/-- A bounce slot (R378): its page and the bytes landed, by offset. -/
structure Bounce where
  asid  : Nat
  part  : Nat
  page  : Nat
  rcb   : Nat
  cells : List Host.Cell
  deriving DecidableEq, Repr

/-- A page migration (R380, R381). -/
structure Mig where
  die    : Nat
  leaf   : Nat
  old    : Nat
  new_   : Nat
  size   : Nat
  comp   : Nat
  slot   : Option Nat
  part   : Nat
  cls    : BitVec 2
  /-- lines copied -/
  copied : List Nat
  switched : Bool
  failed : Bool
  host   : Bool
  /-- the cycle in which its command arrived (R382) -/
  at_    : Nat
  deriving DecidableEq, Repr

/-! ### The Sieve (R308, R317) -/

/-- A page of an SVBND in the Sieve (R311). -/
inductive PageRes where
  | waiting (e : Word)
  /-- looked up: the side entry of an owner in this package, none where its stage 2 failed; a remote
  owner's comes with its reply -/
  | asked (e : Word) (side : Option (BitVec 512))
  | bounded (b : BitVec 32)
  | absent
  | bad (err : TErr) (v : Word)
  deriving DecidableEq, Repr

/-- An SVBND in the Sieve (R308). -/
structure Svb where
  inst  : Nat
  idx   : Nat
  q     : Token
  s     : Word
  /-- LEN, PPP and HW, once its header is read -/
  hdr   : Option (Nat × Nat × Nat)
  pages : List PageRes
  /-- pairs sent -/
  sent  : Nat
  /-- it had to wait to enter, and holds a request slot of its PE -/
  waited : Bool
  deriving DecidableEq, Repr

/-- A KVFREE decrement to be made (R317). -/
structure Decr where
  asid  : Nat
  part  : Nat
  entry : Word
  /-- where the entry stood -/
  addr  : Word
  /-- the thread or engine whose release it is (R353) -/
  who   : Option Party
  deriving DecidableEq, Repr

/-! ### Dies, partitions, functions -/

/-- State of one fabric die beside the tables keyed by die. -/
structure Die where
  kvbtb   : Word
  kvbtn   : Word
  /-- refresh: whether a window is open and the cycle it ends, the cycle the next begins and its length, and how many
  cycles after the one before it was announced to begin (R200) -/
  inWin   : Bool
  winEnd  : Nat
  nextWin : Nat
  winLen  : Nat
  winGap  : Nat
  cache   : List Cached
  walk    : List (Party × Word × Nat)
  sieve   : List Svb
  decrs   : List Decr
  held    : List Decr
  tlb     : List Tlb
  /-- the translation caches of its address-generator PEs, by PE (R366) -/
  pec     : List (Nat × List Tlb)
  decided : Nat
  /-- blocks whose fetch a CALL or HINT NEXT has asked for: ASID, partition and address (R96, R389) -/
  want    : List (Nat × Nat × Word)
  deriving DecidableEq, Repr

def Die.reset : Die := ⟨0, 0, false, 0, 0, 0, 0, [], [], [], [], [], [], [], 0, []⟩

/-- Control registers of a partition (R393). -/
structure Part where
  rseed  : Word
  tvec   : Word
  trcb   : Word
  thctl  : Word
  tframe : Word
  fqtb   : Word
  deriving DecidableEq, Repr

def Part.reset : Part := ⟨0, 0, 0, 0, 0, 0⟩

/-- Host registers of a function: FNQ, FNA, FNRUN, APCTL (R168, R402, R406) and its MSI-X vectors (R404). -/
structure Func where
  maxprio : Nat
  qcnt    : Nat
  qbas    : Nat
  acnt    : Nat
  abas    : Nat
  susp    : Bool
  apasid  : Nat
  apbase  : Nat
  apen    : Bool
  msix    : Vector Nat 3
  deriving DecidableEq, Repr

def Func.reset : Func := ⟨0, 0, 0, 0, 0, false, 0, 0, false, #v[0, 0, 0]⟩

/-- A peer-table entry (R409) and its link. -/
structure Peer where
  en   : Bool
  part : Nat
  asid : Nat
  down : Bool
  deriving DecidableEq, Repr

def Peer.reset : Peer := ⟨false, 0, 0, false⟩

/-- A registered image (R420): its range, and where its LUT section lies, which is read when a block of
the range is placed (R121). -/
structure Registered where
  part : Nat
  asid : Nat
  base : Nat
  len  : Nat
  lutPa : Nat
  deriving DecidableEq, Repr

/-- What leaves the module: replies and requests that the outside sees. -/
inductive Out where
  | hostRead (fn : Nat) (data : List Byte)
  | peerReply (peer : Nat) (ok : Bool) (data : List Byte)
  | peerWrite (peer : Nat) (addr : Word) (data : List Byte)
  | peerAdd (peer : Nat) (addr : Word) (bf16 : Bool) (data : List Byte)
  | peerRead (peer : Nat) (addr : Word) (len : Nat)
  | peerStage2 (peer : Nat) (side : Option (BitVec 512))
  | peerLookup (peer : Nat) (gbn part : Nat)
  | peerRefs (peer : Nat) (gbn part : Nat) (up : Bool)
  /-- bytes for a block's key or value page at its owner (R316) -/
  | peerBlock (peer : Nat) (gbn part : Nat) (value : Bool) (off : Nat) (data : List Byte)
  | msix (fn : Nat) (vec : Nat)
  deriving DecidableEq, Repr

/-- A write of the host or a peer that waits for sectors at its home (R373). -/
inductive HeldWrite where
  | aperture (fn off : Nat) (data : List Byte)
  | peer (p : Nat) (a : Word) (data : List Byte)
  | peerAdd (p : Nat) (a : Word) (bf16 : Bool) (data : List Byte)
  deriving DecidableEq, Repr

/-! ### Fault records (R352, R353) -/

/-- Where an access comes from. -/
inductive Source where
  | inst (i : Nat)
  | engine (op : Nat)
  | host
  | agent
  deriving DecidableEq, Repr

/-- A fault record's fields (R353), and the party that a MEMORY_MODEL's names (R210), for which the record's 32 bytes have no
place (log 70). -/
structure FRec where
  cause  : Cause
  src    : Nat
  bnc    : Bool
  reason : BitVec 8
  part   : Nat
  asid   : Nat
  fdom   : Nat
  launch : Nat
  thread : Nat
  info   : Nat
  addr   : Word
  other  : Option (Other × Bool)
  deriving DecidableEq, Repr

/-- A move: an event or host access, a firing of an instance's instruction, or the passage of cycles. -/
inductive Move where
  | op (i : Instr)
  | fire (inst idx : Nat)
  | wait (n : Nat)
  deriving DecidableEq, Repr

/-- The device. -/
structure Dev where
  /-- the package cycle count (R187, R393) -/
  cycle    : Nat
  /-- the model's own counter for free values -/
  freeSeq  : Nat
  /-- moves still to be made by the outside and by the device's timing -/
  agenda   : List Move
  /-- physical memory, by address (R358) -/
  mem      : List Host.Cell
  threads  : List (Nat × Thread)
  nextTid  : Nat
  /-- order numbers for entry queues, traps and commits -/
  nextOrd  : Nat
  commits  : Nat
  launches : List (Nat × Launch)
  nextLaunch : Nat
  regions  : List (Nat × Region)
  nextRegion : Nat
  insts    : List (Nat × Inst)
  nextInst : Nat
  fire     : Option Firing
  fetches  : List Fetch
  /-- the mapper's placed-image cache (R233) -/
  placed   : List Image
  rejPair  : List ((Nat × Nat) × RejRec)
  rejDig   : List (Nat × RejRec)
  regImgs  : List Registered
  /-- VROPE frequency tables of each partition: (partition, table) (R288) -/
  ropes    : List ((Nat × Nat) × List Word)
  rcbs     : List (Nat × RcbUse)
  streams  : List (Nat × Stream)
  /-- the Drip's extension frames, by descriptor address: the number of the frame that the first one
  holds, and their addresses with the RCBs charged, in order (R147) -/
  drip     : List (Nat × (Nat × List (Nat × Nat)))
  windows  : List ((Nat × Nat) × Window)
  queues   : List (Nat × Queue)
  rr       : Vector Nat 8
  devq     : List DevLaunch
  /-- teardowns that reached the dispatcher in the cycle under way (R166) -/
  tears    : List Tear
  recs     : List Rec
  holds    : List Hold
  ops      : List (Nat × EngOp)
  nextOp   : Nat
  /-- task records that have launched, by physical address (R198) -/
  nodes    : List (Nat × Node)
  shelves  : List (Nat × ShelfSt)
  chunks   : List (Nat × Chunk)
  pools    : List ((Nat × Nat) × Pool)
  pres     : List (Nat × Nat)
  resvs    : List Resv
  /-- zero lists of the homes (R374) -/
  zeros    : List (Nat × List Nat)
  bounce   : List ((Nat × Nat) × Bounce)
  migs     : List (Nat × Mig)
  nextMig  : Nat
  /-- migration commands that wait for the page's own to finish: die, command and the cycle of arrival (R380, R382) -/
  migq     : List (Nat × Nat × Nat)
  settle   : List (Nat × Nat)
  dies     : List (Nat × Die)
  parts    : List (Nat × Part)
  funcs    : List (Nat × Func)
  peers    : List (Nat × Peer)
  asidtb   : Word
  migsettle : Nat
  xlq      : List Nat
  xlbusy   : Bool
  xldone   : Nat
  xlerr    : Bool
  /-- the host invalidation under way: partition, ASID or all, range or all (R398) -/
  xlcur    : Option (Nat × Option Nat × Option (Nat × Nat))
  /-- host and peer writes that wait for sectors, in arrival order (R373) -/
  pend     : List HeldWrite
  /-- fault records still to be written, with the region that each write belongs to: their writes wait for a
  commit under way (R209, R354) -/
  recq     : List (FRec × Source)
  /-- what the MEMORY_MODEL records in the rings name beside R353's fields, by the record's address (R210) -/
  names    : List (Nat × (Other × Bool))
  /-- the module's own identifier on the scale-up links (R408) -/
  ident    : Nat
  out      : List Out
  /-- an agent access inside the event under way must wait: the event then does not occur. False in
  every state between steps. -/
  balk     : Bool
  deriving DecidableEq, Repr

/-! ### The root of trust (R410..R418) -/

/-- Security states (R410). -/
inductive Sec where
  | unprovisioned | locked | ownerDebug | returned
  deriving DecidableEq, Repr

/-- Debug states of a partition (R388, R410). -/
inductive Dbg where
  | off | observe | invasive
  deriving DecidableEq, Repr

/-- Power states (R417). -/
inductive Power where
  | p0 | p1 | p2 | p3
  deriving DecidableEq, Repr

/-- Where a partition's trace ring lies in host memory (R416). -/
structure Trace where
  bus  : Nat
  log2 : Nat
  deriving DecidableEq, Repr

/-- Results of root-of-trust commands (R415). -/
inductive RtResult where
  | done | signature | identity | state | malformed
  deriving DecidableEq, Repr

def RtResult.num : RtResult → Nat
  | .done => 0 | .signature => 1 | .identity => 2 | .state => 3 | .malformed => 4

/-- Power states as PWRCTL gives them (R417). -/
def Power.num : Power → Nat
  | .p0 => 0 | .p1 => 1 | .p2 => 2 | .p3 => 3

/-- The root of trust. -/
structure RoT where
  sec      : Sec
  /-- debug state of each partition, off where absent -/
  dbg      : List (Nat × Dbg)
  traces   : List (Nat × Trace)
  /-- the owner's two public keys, once provisioned -/
  ownerEd  : Option (List Byte)
  ownerMl  : Option (List Byte)
  /-- sealed secrets are held -/
  secrets  : Bool
  /-- the nonce in force -/
  nonce    : Option (List Byte)
  /-- M0..M7 -/
  m        : Vector (List Byte) 8
  /-- the fused anti-rollback counts: runtime firmware and mapper tables -/
  fuses    : Nat × Nat
  /-- stored objects that take effect at the next cold bring-up: payload and version -/
  fw       : Option (List Byte × Nat)
  tables   : Option (List Byte × Nat)
  /-- the objects now in force -/
  fwNow    : List Byte
  tabNow   : List Byte
  /-- RTCMD.BUF and OP -/
  rtbuf    : Nat
  rtop     : Nat
  result   : RtResult
  busy     : Bool
  /-- the reply of the command under way -/
  reply    : Option (Nat × RtResult × List Byte)
  power    : Power
  req      : Power
  /-- changes that PWRCTL has requested and that are still to be served, in arrival order (R415) -/
  asked    : List Power
  /-- the state before P2, while in P2 -/
  before   : Power
  entering : Bool
  waking   : Bool
  /-- functions that the P2 entry suspended -/
  suspd    : List Nat
  /-- accesses held while the module wakes (R418) -/
  heldOps  : List Instr
  deriving DecidableEq, Repr

/-- The whole machine. -/
structure State where
  dev : Dev
  rot : RoT
  deriving DecidableEq, Repr

/-! ### Outcomes -/

/-- Why the machine stops. -/
inductive Fault where
  /-- An instruction's row run with no latched firing, or one of an instance, region or thread that
  does not exist. Raised by every instruction row. Safe: `step` latches the firing first, so no run
  of `step` meets it. -/
  | noFiring
  /-- The words of a latched firing do not decode. Raised by `step`. Safe: a placed block has passed
  the mapper's checks. -/
  | undecodable
  deriving DecidableEq, Repr

/-- Why a row is turned away. -/
inductive Refusal where
  /-- The instruction has no meaning yet. Safe: nothing is claimed of it. -/
  | notModelled (mnemonic : String)
  /-- The event cannot occur in this state: what it names does not exist, or the condition that the
  spec gives for it does not hold. Raised by the event rows. Safe: it is no step of the device, and `step` passes
  it over. -/
  | notEnabled (mnemonic : String)
  /-- An access of the event must wait (R187, R200, R209). Raised by the event rows. Safe: `step` makes a request of the
  host or a peer again when it can be made. -/
  | mustWait (mnemonic : String)
  deriving DecidableEq, Repr

/-! ### Reset (R7, R410, R417) -/

/-- The device after reset: every register at the reset value the spec states, or at the value the
assumption log names, and nothing listed anywhere. -/
def Dev.reset : Dev where
  cycle := 0
  freeSeq := 0
  agenda := []
  mem := []
  threads := []
  nextTid := 0
  nextOrd := 0
  commits := 0
  launches := []
  nextLaunch := 0
  regions := []
  nextRegion := 0
  insts := []
  nextInst := 0
  fire := none
  fetches := []
  placed := []
  rejPair := []
  rejDig := []
  regImgs := []
  ropes := []
  rcbs := []
  streams := []
  drip := []
  windows := []
  queues := []
  rr := Vector.replicate 8 0
  devq := []
  tears := []
  recs := []
  holds := []
  ops := []
  nextOp := 0
  nodes := []
  shelves := []
  chunks := []
  pools := []
  pres := []
  resvs := []
  zeros := []
  bounce := []
  migs := []
  nextMig := 0
  migq := []
  settle := []
  dies := []
  parts := []
  funcs := []
  peers := []
  asidtb := 0
  migsettle := 65536
  xlq := []
  xlbusy := false
  xldone := 0
  xlerr := false
  xlcur := none
  pend := []
  recq := []
  names := []
  ident := 0
  out := []
  balk := false

/-- The root of trust of a module as it leaves manufacture, at power-up: the measurement registers are zero,
and COLD_BRING_UP measures into them (R411, R414, R417). -/
def RoT.reset : RoT where
  sec := .unprovisioned
  dbg := []
  traces := []
  ownerEd := none
  ownerMl := none
  secrets := true
  nonce := none
  m := Vector.replicate 8 (List.replicate 48 0)
  fuses := (0, 0)
  fw := none
  tables := none
  fwNow := []
  tabNow := []
  rtbuf := 0
  rtop := 0
  result := .done
  busy := false
  reply := none
  power := .p0
  req := .p0
  asked := []
  before := .p0
  entering := false
  waking := false
  suspd := []
  heldOps := []

/-- The machine right after reset. -/
def State.reset : State := ⟨Dev.reset, RoT.reset⟩

end Sys2Proof.Machine
end

