-- ==== Sys2Proof/Machine/Bits.lean ====
section
/-!
DEFINITION. Helpers over plain data: keyed tables, tokens and their lanes (R11, R82, R83), byte
order (R5), and the codes of the enumerations that registers and frames hold.
-/

namespace Sys2Proof.Machine

/-! ### Keyed tables -/

/-- The entry of key `k`. -/
def tget {κ α : Type} [DecidableEq κ] (k : κ) : List (κ × α) → Option α
  | [] => none
  | (k', x) :: r => if k' = k then some x else tget k r

/-- Set the entry of key `k`, in place when it exists and at the end otherwise. -/
def tput {κ α : Type} [DecidableEq κ] (k : κ) (v : α) : List (κ × α) → List (κ × α)
  | [] => [(k, v)]
  | (k', x) :: r => if k' = k then (k, v) :: r else (k', x) :: tput k v r

/-- Remove the entry of key `k`. -/
def tdel {κ α : Type} [DecidableEq κ] (k : κ) : List (κ × α) → List (κ × α)
  | [] => []
  | (k', x) :: r => if k' = k then tdel k r else (k', x) :: tdel k r

/-- Change the entry of key `k`, if there is one. -/
def tmod {κ α : Type} [DecidableEq κ] (k : κ) (f : α → α) : List (κ × α) → List (κ × α)
  | [] => []
  | (k', x) :: r => if k' = k then (k', f x) :: r else (k', x) :: tmod k f r

/-- The least element by a key, the first of equals. -/
def leastBy {α : Type} (f : α → Nat) : List α → Option α
  | [] => none
  | x :: r =>
    match leastBy f r with
    | none => some x
    | some y => if f y < f x then some y else some x

/-- The greatest element by a key, the first of equals. -/
def mostBy {α : Type} (f : α → Nat) : List α → Option α
  | [] => none
  | x :: r =>
    match mostBy f r with
    | none => some x
    | some y => if f x < f y then some y else some x

/-- Insert by a key into a list in rising order of it, after equals. -/
def insertBy {α : Type} (f : α → Nat) (x : α) : List α → List α
  | [] => [x]
  | y :: r => if f x < f y then x :: y :: r else y :: insertBy f x r

/-- Sort by a key, keeping the order of equals. -/
def sortBy {α : Type} (f : α → Nat) (l : List α) : List α :=
  l.foldl (fun acc x => insertBy f x acc) []

/-- Ceiling of a quotient. -/
def cdiv (a b : Nat) : Nat := (a + b - 1) / b

/-! ### Bytes (R5) -/

/-- The number that bytes hold, lowest address first. -/
def natOfBytes : List Byte → Nat
  | [] => 0
  | b :: r => b.toNat + 256 * natOfBytes r

/-- The `n` low bytes of a number, lowest address first. -/
def bytesOfNat : Nat → Nat → List Byte
  | 0, _ => []
  | n + 1, v => BitVec.ofNat 8 v :: bytesOfNat n (v / 256)

/-- The `i`-th byte of a number. -/
def byteOf (v i : Nat) : Byte := BitVec.ofNat 8 (v >>> (8 * i))

/-- A field of a number (R2). -/
def nfld (v hi lo : Nat) : Nat := v >>> lo % 2 ^ (hi + 1 - lo)

/-! ### Tokens (R11, R82) -/

/-- Lane i of a payload (R11). -/
def Token.lane (t : Token) (i : Nat) : BitVec 32 := t.payload.extractLsb' (32 * i) 32

/-- Valid bit of lane i (R11). -/
def Token.vld (t : Token) (i : Nat) : Bool := t.valid.getLsbD i

/-- The scalar value, Lane 1 : Lane 0 (R82). -/
def Token.val (t : Token) : Word := t.payload.extractLsb' 0 64

/-- A payload from its sixteen lanes, lane 0 first (R5). -/
def payloadOf (ls : List (BitVec 32)) : BitVec 512 :=
  BitVec.ofNat 512 (ls.foldr (fun x acc => x.toNat + 2 ^ 32 * acc) 0)

/-- The sixteen lanes of a payload. -/
def Token.lanes (t : Token) : List (BitVec 32) := (List.range 16).map t.lane

/-- Valid bits from a list, lane 0 first. -/
def validOf (bs : List Bool) : BitVec 16 :=
  BitVec.ofNat 16 (bs.foldr (fun b acc => (if b then 1 else 0) + 2 * acc) 0)

/-- A data token from lanes and valid bits, with a format and geometry. -/
def dataTok (ls : List (BitVec 32)) (valid : BitVec 16) (fmt : BitVec 4) (geom : BitVec 2) : Token :=
  ⟨.data, 0, fmt, geom, 0, 0, valid, payloadOf ls⟩

/-- A scalar token (R82). -/
def scalarTok (x : Word) : Token := ⟨.data, 0, 0, 0, 0, 0, 1, x.zeroExtend 512⟩

/-- A stop token (R82). -/
def stopTok (l : Nat) : Token := ⟨.stop, BitVec.ofNat 3 l, 0, 0, 0, 0, 0, 0⟩

/-- The done token (R82). -/
def doneTok : Token := ⟨.done, 0, 0, 0, 0, 0, 0, 0⟩

/-- The code of an error (R83). -/
def TErr.code : TErr → BitVec 4
  | .bounds => 1 | .page => 2 | .perm => 3 | .align => 4 | .format => 5 | .grammar => 6
  | .decode => 7 | .sealed => 8

/-- An error token, built like a scalar token whose value is the address recorded (R82). -/
def errTok (e : TErr) (v : Word) : Token := ⟨.error, 0, 0, 0, 0, e.code, 1, v.zeroExtend 512⟩

/-- The cause an error has at a sink (R83). -/
def TErr.cause : TErr → Cause
  | .bounds => .protection | .page => .pageFault | .perm => .protection | .align => .align
  | .format => .malformedStream | .grammar => .malformedStream | .decode => .lengthViolation
  | .sealed => .wsSealed

/-- The cause of an error token's code at a sink (R83). Codes 0 and 9..15 are never produced. -/
def causeOfErr (c : BitVec 4) : Cause :=
  match c.toNat with
  | 1 => .protection | 2 => .pageFault | 3 => .protection | 4 => .align | 7 => .lengthViolation
  | 8 => .wsSealed | _ => .malformedStream

/-- The number of a kind (R82). -/
def Kind.num : Kind → Nat
  | .data => 0 | .stop => 1 | .done => 2 | .error => 3 | .config => 4 | .null => 5

/-- The kind of a number; 6 and 7 are never produced. -/
def kindOf (n : Nat) : Option Kind :=
  match n with
  | 0 => some .data | 1 => some .stop | 2 => some .done | 3 => some .error | 4 => some .config
  | 5 => some .null | _ => none

/-- A token as a scalar operand: a data token whose lane 0 is invalid counts as null (R82). -/
def Token.scalarView (t : Token) : Token :=
  if t.kind = .data && !t.vld 0 then Token.null else t

/-- The side word of a token register: valid bits, then the 24-bit header (R35, R82). -/
def sideWord (t : Token) : Word :=
  let hdr : BitVec 24 := t.err ++ t.tag ++ t.geom ++ t.fmt ++ t.level ++ BitVec.ofNat 3 t.kind.num
  (0 : BitVec 24) ++ hdr ++ t.valid

/-- A token register from its payload and side word, with TAG 0 (R35, R82). A kind of 6 or 7 is never produced, and the
spec states no token for it: its kind is a free value (log 56). -/
def tokenOfSide (payload : BitVec 512) (w : Word) : Token :=
  let k := (kindOf (fldN w 18 16)).getD ((kindOf ((Config.freeKind w).toNat % 6)).getD .null)
  ⟨k, w.extractLsb' 19 3, w.extractLsb' 22 4, w.extractLsb' 26 2, 0, w.extractLsb' 36 4, w.extractLsb' 0 16, payload⟩

/-! ### Codes of the enumerations -/

/-- The number of a cause (R384). -/
def Cause.num : Cause → Nat
  | .badBlock => 1 | .pageFault => 2 | .protection => 3 | .align => 4 | .streamBehind => 5
  | .memoryModel => 6 | .regionCapacity => 7 | .outOfSpace => 8 | .malformedStream => 9
  | .lengthViolation => 10 | .deadlock => 11 | .wsSealed => 12 | .arith => 13 | .posrange => 14
  | .brk => 15 | .queue => 16 | .contextGone => 17

/-- The number of a scope in rising width (R208). -/
def scopeNum : Scope → Nat | .rgn => 0 | .die => 1 | .pkg => 2 | .sys => 3

/-- The wider of two scopes. -/
def scopeMax (a b : Scope) : Scope := if scopeNum a < scopeNum b then b else a

/-- Canonical: bits [63:57] all equal to bit 56 (R97, R170). -/
def canonical (a : Word) : Bool := sx (a.extractLsb' 0 57) == a

/-- The block address plus a displacement in 16-byte units (R74, R96). -/
def blockDisp (b : Word) (lit : BitVec 32) : Word := b + sx lit * 16

end Sys2Proof.Machine
end

