-- ==== Sys2Proof/Machine/Num.lean ====
section
/-!
DEFINITION. Number formats (R252..R257), exact arithmetic over dyadic numbers, and rounding into each
format with the flags it raises (R263..R268). Every operation forms its exact result first and is
narrowed once, here.
-/

namespace Sys2Proof.Machine

/-! ### Exact numbers -/

/-- The number (−1)^neg × m × 2^e; a zero keeps its sign. -/
structure Dy where
  neg : Bool
  m   : Nat
  e   : Int
  deriving DecidableEq, Repr

/-- What a floating-point code stands for. -/
inductive FV where
  | nan
  | inf (neg : Bool)
  | num (d : Dy)
  deriving DecidableEq, Repr

def Dy.zero : Dy := ⟨false, 0, 0⟩

/-- The signed numerator over 2^e0, for e0 at most the exponent. -/
def Dy.at (d : Dy) (e0 : Int) : Int :=
  let n : Int := Int.ofNat (d.m <<< (d.e - e0).toNat)
  if d.neg then -n else n

/-- An integer over 2^e as a number; zero is +0. -/
def dyOf (n : Int) (e : Int) : Dy := ⟨decide (n < 0), n.natAbs, e⟩

/-- Exact sum; an exact zero of unlike signs is +0 (R277). -/
def Dy.add (a b : Dy) : Dy :=
  let e0 := min a.e b.e
  let n := a.at e0 + b.at e0
  if n = 0 then ⟨a.neg && b.neg, 0, e0⟩ else dyOf n e0

def Dy.mul (a b : Dy) : Dy := ⟨a.neg != b.neg, a.m * b.m, a.e + b.e⟩
def Dy.flip (a : Dy) : Dy := { a with neg := !a.neg }

/-- By value, for numbers: −0 and +0 equal. -/
def Dy.lt (a b : Dy) : Bool := let e0 := min a.e b.e; decide (a.at e0 < b.at e0)

/-- Exact quotient to at least `bits` significant bits with a sticky last bit: its rounding into any
format of fewer bits is that of the true quotient. -/
def dyDiv (a b : Dy) (bits : Nat) : Dy :=
  if b.m = 0 then Dy.zero else
  let k := bits + b.m.log2 + 2
  let q := a.m <<< k / b.m
  let st := if a.m <<< k % b.m = 0 then 0 else 1
  ⟨a.neg != b.neg, 2 * q + st, a.e - b.e - Int.ofNat k - 1⟩

/-- Integer square root by bisection on bits. -/
def isqrtGo (n : Nat) : Nat → Nat → Nat
  | 0, r => r
  | k + 1, r =>
    let r' := r + 2 ^ k
    isqrtGo n k (if r' * r' ≤ n then r' else r)

def isqrt (n : Nat) : Nat := isqrtGo n (n.log2 / 2 + 1) 0

/-- Square root of a positive number with a sticky last bit. -/
def dySqrt (a : Dy) (bits : Nat) : Dy :=
  let k := 2 * bits + (if (a.e % 2 = 0) then 0 else 1)
  let n := a.m <<< k
  let r := isqrt n
  ⟨false, 2 * r + (if r * r = n then 0 else 1), (a.e - Int.ofNat k) / 2 - 1⟩

/-! ### Floating-point formats (R254) -/

/-- A floating-point format: mantissa bits, the exponent of its least subnormal, its largest finite
magnitude, infinity and canonical NaN codes, and where its sign bit lies. -/
structure FFmt where
  mb      : Nat
  qmin    : Int
  maxCode : Nat
  infCode : Option Nat
  nanCode : Option Nat
  sign    : Nat
  deriving DecidableEq, Repr

def fFp32 : FFmt := ⟨23, -149, 0x7F7FFFFF, some 0x7F800000, some 0x7FC00000, 31⟩
def fBf16 : FFmt := ⟨7, -133, 0x7F7F, some 0x7F80, some 0x7FC0, 15⟩
def fFp16 : FFmt := ⟨10, -24, 0x7BFF, some 0x7C00, some 0x7E00, 15⟩
def fE4m3 : FFmt := ⟨3, -9, 0x7E, none, some 0x7F, 7⟩
def fE5m2 : FFmt := ⟨2, -16, 0x7B, some 0x7C, some 0x7E, 7⟩
def fE2m1 : FFmt := ⟨1, -1, 0x7, none, none, 3⟩

/-- The floating-point format of a code (R252). -/
def ffmtOf (f : Nat) : Option FFmt :=
  match f with
  | 1 => some fFp32 | 2 => some fBf16 | 3 => some fFp16 | 4 => some fE4m3 | 5 => some fE5m2 | 6 => some fE2m1
  | _ => none

/-- Element width in bits (R252). -/
def fmtWidth (f : Nat) : Nat :=
  match f with
  | 0 => 32 | 1 => 32 | 2 => 16 | 3 => 16 | 10 => 16 | 6 => 4 | 8 => 4 | _ => 8

/-- The value of a finite magnitude code (R254). -/
def FFmt.mag (F : FFmt) (c : Nat) : Nat × Int :=
  let E := c / 2 ^ F.mb
  let M := c % 2 ^ F.mb
  if E = 0 then (M, F.qmin) else (2 ^ F.mb + M, F.qmin + Int.ofNat (E - 1))

/-- What a code stands for (R254). -/
def FFmt.decode (F : FFmt) (c : Nat) : FV :=
  let neg := c.testBit F.sign
  let mc := c % 2 ^ F.sign
  if mc ≤ F.maxCode then (let x := F.mag mc; .num ⟨neg, x.1, x.2⟩)
  else if F.infCode = some mc then .inf neg else .nan

/-- A w-bit code read as a signed number. -/
def signedOf (w c : Nat) : Int := if c.testBit (w - 1) then Int.ofNat c - Int.ofNat (2 ^ w) else Int.ofNat c

/-- An element's value (R252, R254..R256). -/
def decodeElem (f c : Nat) : FV :=
  match ffmtOf f with
  | some F => F.decode c
  | none =>
    match f with
    | 9 => .num ⟨false, c, 0⟩
    | 11 => if c = 255 then .nan else .num ⟨false, 1, Int.ofNat c - 127⟩
    | _ => .num (dyOf (signedOf (fmtWidth f) c) 0)

/-! ### Rounding (R263..R268) -/

/-- A rounded result: its code and the flags raised. -/
structure Rnd where
  code  : Nat
  flags : BitVec 6
  deriving DecidableEq, Repr

def flNV : BitVec 6 := 1
def flDZ : BitVec 6 := 2
def flOF : BitVec 6 := 4
def flUF : BitVec 6 := 8
def flNX : BitVec 6 := 16
def flPR : BitVec 6 := 32

/-- Exponent of the leading bit of a nonzero number. -/
def Dy.top (d : Dy) : Int := d.e + Int.ofNat d.m.log2

/-- Whether a magnitude between lo and hi goes up (R263, R266): `rem / 2^s` is the fraction of the
way, `odd` says that lo's code is odd, `r` is the 24-bit draw. -/
def goesUp (mode : Rounding) (neg odd : Bool) (rem s r : Nat) : Bool :=
  match mode with
  | .rne => 2 * rem > 2 ^ s || (2 * rem == 2 ^ s && odd)
  | .rz => false
  | .ru => !neg && rem != 0
  | .rd => neg && rem != 0
  | .rs => r < rem * 2 ^ 24 / 2 ^ s

/-- What overflow gives (R264). -/
def FFmt.onOver (F : FFmt) (mode : Rounding) (neg : Bool) : Nat :=
  match F.infCode with
  | none => F.maxCode
  | some i =>
    match mode with
    | .rne => i
    | .rs => i
    | .rz => F.maxCode
    | .ru => if neg then F.maxCode else i
    | .rd => if neg then i else F.maxCode

/-- Round an exact number into a floating-point format (R263, R264, R266, R268). -/
def FFmt.round (F : FFmt) (mode : Rounding) (r : Nat) (x : Dy) : Rnd :=
  let sg := if x.neg then 2 ^ F.sign else 0
  if x.m = 0 then ⟨sg, 0⟩ else
  let q := max (x.top - Int.ofNat F.mb) F.qmin
  let s := (q - x.e).toNat
  let lo := if x.e < q then x.m >>> s else x.m <<< (x.e - q).toNat
  let rem := if x.e < q then x.m % 2 ^ s else 0
  let base := (q - F.qmin).toNat * 2 ^ F.mb + lo
  let code := if goesUp mode x.neg (base % 2 == 1) rem s r then base + 1 else base
  if F.maxCode < code then ⟨sg + F.onOver mode x.neg, flOF ||| flNX⟩
  else if rem = 0 then ⟨sg + code, 0⟩
  else ⟨sg + code, if x.top < F.qmin + Int.ofNat F.mb then flUF ||| flNX else flNX⟩

/-- Round a value, infinities and NaNs included, into a floating-point format (R264, R267). -/
def FFmt.put (F : FFmt) (mode : Rounding) (r : Nat) : FV → Rnd
  | .num d => F.round mode r d
  | .inf neg =>
    let sg := if neg then 2 ^ F.sign else 0
    (match F.infCode with
     | some i => ⟨sg + i, 0⟩
     | none => ⟨sg + F.maxCode, flNV⟩)
  | .nan => match F.nanCode with | some n => ⟨n, 0⟩ | none => ⟨0, flNV⟩

/-- Range of an integer format (R256). -/
def intRange (f : Nat) : Int × Int :=
  match f with
  | 9 => (0, 255)
  | _ => let w := fmtWidth f; (-Int.ofNat (2 ^ (w - 1)), Int.ofNat (2 ^ (w - 1)) - 1)

/-- Round a number to an integer in a mode: the integer, and whether it differs. -/
def roundInt (mode : Rounding) (r : Nat) (x : Dy) : Int × Bool :=
  if 0 ≤ x.e then (x.at 0, false) else
  let s := (-x.e).toNat
  let lo := x.m >>> s
  let rem := x.m % 2 ^ s
  let n := if goesUp mode x.neg (lo % 2 == 1) rem s r then lo + 1 else lo
  (if x.neg then -Int.ofNat n else Int.ofNat n, rem != 0)

/-- Convert to an integer format (R265). -/
def putInt (f : Nat) (mode : Rounding) (r : Nat) : FV → Rnd
  | .nan => ⟨0, flNV⟩
  | .inf neg =>
    let g := intRange f
    ⟨((if neg then g.1 else g.2) % Int.ofNat (2 ^ fmtWidth f)).toNat, flNV⟩
  | .num d =>
    let g := intRange f
    let x := roundInt mode r d
    let m := Int.ofNat (2 ^ fmtWidth f)
    if x.1 < g.1 then ⟨(g.1 % m).toNat, flNV⟩
    else if g.2 < x.1 then ⟨(g.2 % m).toNat, flNV⟩
    else ⟨(x.1 % m).toNat, if x.2 then flNX else 0⟩

/-- Convert to E8M0 (R265). -/
def putE8m0 (mode : Rounding) (r : Nat) : FV → Rnd
  | .nan => ⟨255, 0⟩
  | .inf true => ⟨255, flNV⟩
  | .inf false => ⟨255, flNV⟩
  | .num d =>
    if d.m = 0 then ⟨0, flUF ||| flNX⟩
    else if d.neg then ⟨255, flNV⟩
    else
      let k := d.top
      let s := d.m.log2
      let rem := d.m - 2 ^ s
      -- the code of 2^k is k + 127; a tie goes to the even code
      let up := goesUp mode false ((k + 127) % 2 == 1) rem s r
      let k' := if up then k + 1 else k
      if k < -127 then ⟨0, flUF ||| flNX⟩
      else if 127 < k' then ⟨254, flOF ||| flNX⟩
      else ⟨(k' + 127).toNat, if rem = 0 then 0 else flNX⟩

/-- Convert a value to a format (R263..R267). -/
def putFmt (f : Nat) (mode : Rounding) (r : Nat) (x : FV) : Rnd :=
  match ffmtOf f with
  | some F => F.put mode r x
  | none => if f = 11 then putE8m0 mode r x else putInt f mode r x

/-- Round to FP32, nearest-even: Round32. -/
def round32 (x : Dy) : Rnd := fFp32.round .rne 0 x

/-- An FP32 lane's value. -/
def fp32 (x : BitVec 32) : FV := fFp32.decode x.toNat

def qnan : BitVec 32 := 0x7FC00000
def pinf : BitVec 32 := 0x7F800000
def ninf : BitVec 32 := 0xFF800000
def infOf (neg : Bool) : BitVec 32 := if neg then ninf else pinf

/-! ### FP32 operations on values (R277, R281, R292) -/

/-- A lane's result and its flags. -/
abbrev LaneR := BitVec 32 × BitVec 6

def laneOf (r : Rnd) : LaneR := (BitVec.ofNat 32 r.code, r.flags)

/-- Round a value to an FP32 lane. -/
def lane32 : FV → LaneR
  | .nan => (qnan, 0)
  | .inf n => (infOf n, 0)
  | .num d => laneOf (round32 d)

/-- Whether a value is zero. -/
def FV.isZero : FV → Bool
  | .num d => d.m == 0
  | _ => false

def FV.isInf : FV → Bool
  | .inf _ => true
  | _ => false

def FV.isNan : FV → Bool
  | .nan => true
  | _ => false

/-- The sign of a value; a NaN has none. -/
def FV.neg : FV → Bool
  | .num d => d.neg
  | .inf n => n
  | .nan => false

def FV.flip : FV → FV
  | .num d => .num d.flip
  | .inf n => .inf !n
  | .nan => .nan

/-- Exact sum of two values; `true` when it is invalid (∞ − ∞). -/
def FV.add : FV → FV → FV × Bool
  | .nan, _ => (.nan, false)
  | _, .nan => (.nan, false)
  | .inf x, .inf y => if x = y then (.inf x, false) else (.nan, true)
  | .inf x, _ => (.inf x, false)
  | _, .inf y => (.inf y, false)
  | .num a, .num b => (.num (a.add b), false)

/-- Exact product; `true` when it is invalid (0 × ∞). -/
def FV.mul (a b : FV) : FV × Bool :=
  if a.isNan || b.isNan then (.nan, false)
  else if (a.isZero && b.isInf) || (a.isInf && b.isZero) then (.nan, true)
  else if a.isInf || b.isInf then (.inf (a.neg != b.neg), false)
  else match a, b with
    | .num x, .num y => (.num (x.mul y), false)
    | _, _ => (.nan, false)

/-- A rounded result, or the canonical NaN with NV where the step was invalid. -/
def finish (x : FV × Bool) : LaneR := if x.2 then (qnan, flNV) else lane32 x.1

def fAdd (a b : BitVec 32) : LaneR := finish ((fp32 a).add (fp32 b))
def fSub (a b : BitVec 32) : LaneR := finish ((fp32 a).add (fp32 b).flip)
def fMul (a b : BitVec 32) : LaneR := finish ((fp32 a).mul (fp32 b))

/-- a × b + c with one rounding. A NaN among the three is quiet (R267). -/
def fmaV (a b c : FV) : FV × Bool :=
  if a.isNan || b.isNan || c.isNan then (.nan, false)
  else
    let p := a.mul b
    if p.2 then p else p.1.add c

def fFma (a b c : BitVec 32) : LaneR := finish (fmaV (fp32 a) (fp32 b) (fp32 c))
def fFms (a b c : BitVec 32) : LaneR := finish (fmaV (fp32 a) (fp32 b) (fp32 c).flip)

def fDiv (a b : BitVec 32) : LaneR :=
  let x := fp32 a
  let y := fp32 b
  if x.isNan || y.isNan then (qnan, 0)
  else if (x.isZero && y.isZero) || (x.isInf && y.isInf) then (qnan, flNV)
  else if x.isInf then (infOf (x.neg != y.neg), 0)
  else if y.isInf then (if x.neg != y.neg then 0x80000000 else 0, 0)
  else if y.isZero then (infOf (x.neg != y.neg), flDZ)
  else match x, y with
    | .num p, .num q => laneOf (round32 (dyDiv p q 64))
    | _, _ => (qnan, 0)

def fSqrt (a : BitVec 32) : LaneR :=
  match fp32 a with
  | .nan => (qnan, 0)
  | .inf n => if n then (qnan, flNV) else (pinf, 0)
  | .num d => if d.m = 0 then (a, 0) else if d.neg then (qnan, flNV) else laneOf (round32 (dySqrt d 64))

/-- A key that orders FP32 codes by value with −0 below +0, for codes that are no NaN. -/
def ordKey (x : BitVec 32) : Nat := if x.getLsbD 31 then (~~~x).toNat else x.toNat + 2 ^ 31

def fMin (a b : BitVec 32) : LaneR :=
  if (fp32 a).isNan || (fp32 b).isNan then (qnan, 0) else (if ordKey b < ordKey a then b else a, 0)

def fMax (a b : BitVec 32) : LaneR :=
  if (fp32 a).isNan || (fp32 b).isNan then (qnan, 0) else (if ordKey a < ordKey b then b else a, 0)

def fAbs (a : BitVec 32) : LaneR := if (fp32 a).isNan then (qnan, 0) else (a &&& 0x7FFFFFFF, 0)
def fNeg (a : BitVec 32) : LaneR := if (fp32 a).isNan then (qnan, 0) else (a ^^^ 0x80000000, 0)

/-- Comparison by value: `none` when a lane is NaN. -/
def fCmp (a b : BitVec 32) : Option Ordering :=
  let key (x : BitVec 32) : Nat := if x &&& 0x7FFFFFFF = 0 then 2 ^ 31 else ordKey x
  if (fp32 a).isNan || (fp32 b).isNan then none
  else some (if key a < key b then .lt else if key b < key a then .gt else .eq)

/-- The exact sum of many lanes, by R281's special values: an exact zero sum is −0 when every lane is −0. -/
def sumLanes (xs : List (BitVec 32)) : LaneR :=
  let vs := xs.map fp32
  if vs.any FV.isNan then (qnan, 0)
  else
    let p := vs.any fun v => v == .inf false
    let n := vs.any fun v => v == .inf true
    if p && n then (qnan, flNV)
    else if p then (pinf, 0)
    else if n then (ninf, 0)
    else
      match vs.filterMap fun v => match v with | .num d => some d | _ => none with
      | [] => (0, 0)
      | d :: r => laneOf (round32 (r.foldl Dy.add d))

/-- AFADD's sum (R188): no flags. -/
def afadd (a b : BitVec 32) : BitVec 32 := (fAdd a b).1

/-! ### Stochastic rounding (R266) -/

def mix (z : Word) : Word :=
  let z := (z ^^^ (z >>> 30)) * 0xBF58476D1CE4E5B9
  let z := (z ^^^ (z >>> 27)) * 0x94D049BB133111EB
  z ^^^ (z >>> 31)

/-- The 24-bit draw for element k of source bits X at an instruction of a block (R266). -/
def stochR (rseed k0 k5 blk : Word) (idx k : Nat) (x : Word) : Nat :=
  let u := mix (rseed ^^^ (k5 <<< 32 ||| (k0 &&& 0xFFFFFFFF)))
  let b : Word := zx (blk.extractLsb' 4 53) <<< 11
  let u := mix (u ^^^ b ^^^ BitVec.ofNat 64 (idx * 128) ^^^ BitVec.ofNat 64 k)
  let u := mix (u ^^^ x)
  (u.extractLsb' 40 24).toNat

end Sys2Proof.Machine
end

