-- ==== Sys2Proof/Machine/Phys.lean ====
section
/-!
DEFINITION. Physical memory: bytes by address, the physical map (R358), the line codec (R367..R369)
and the sectors a chunk holds (R373).
-/

namespace Sys2Proof.Machine

/-! ### Bytes by address -/

/-- What an address that nothing has written reads as. Compressed memory: R367, every presented
chunk starts all-zero. Scratch, layer W and host memory: DESIGN CHOICE (log 1). -/
def unlisted : Byte := 0

/-- Read one byte of a canonical memory. -/
def memGet (m : List Host.Cell) (a : Nat) : Byte :=
  match m with
  | [] => unlisted
  | (k, b) :: r => if k = a then b else if a < k then unlisted else memGet r a

/-- Write one byte, keeping the canonical form. -/
def memPut (m : List Host.Cell) (a : Nat) (v : Byte) : List Host.Cell :=
  match m with
  | [] => if v = unlisted then [] else [(a, v)]
  | (k, b) :: r =>
    if a < k then (if v = unlisted then (k, b) :: r else (a, v) :: (k, b) :: r)
    else if k = a then (if v = unlisted then r else (a, v) :: r)
    else (k, b) :: memPut r a v

/-- The canonical form: addresses strictly rising, and no entry equal to what an unlisted address reads as. -/
def memWf : List Host.Cell → Bool
  | [] => true
  | [(_, b)] => b != unlisted
  | (k, b) :: (k', b') :: r => b != unlisted && decide (k < k') && memWf ((k', b') :: r)

/-- The canonical form of the machine's memory. -/
abbrev Memory.wf (m : List Host.Cell) : Bool := memWf m

/-- Write bytes at rising addresses from `a`. -/
def memPutList (m : List Host.Cell) (a : Nat) : List Byte → List Host.Cell
  | [] => m
  | b :: r => memPutList (memPut m a b) (a + 1) r

/-- Write (address, byte) pairs in order. -/
def memPutAt (m : List Host.Cell) : List (Nat × Byte) → List Host.Cell
  | [] => m
  | (a, b) :: r => memPutAt (memPut m a b) r

/-- `n` bytes from `a`. -/
def memGetList (m : List Host.Cell) (a : Nat) : Nat → List Byte
  | 0 => []
  | n + 1 => memGet m a :: memGetList m (a + 1) n

/-- Byte at a physical address. -/
def Dev.byte (d : Dev) (a : Nat) : Byte := memGet d.mem a

/-- `n` bytes at a physical address. -/
def Dev.bytes (d : Dev) (a n : Nat) : List Byte := memGetList d.mem a n

/-- The little-endian number in `n` bytes at a physical address (R5). -/
def Dev.num (d : Dev) (a n : Nat) : Nat := natOfBytes (d.bytes a n)

/-! ### The physical map (R358) -/

/-- The memories of the physical map. -/
inductive Mem where
  | lpddr (i : Nat) | cxl (p : Nat) | near (d : Nat) | layerW (d : Nat) | scratch (d : Nat)
  | devreg | host
  deriving DecidableEq, Repr

/-- The compressed home index of a memory (R371); none for the memories that are not compressed. -/
def Mem.home : Mem → Option Nat
  | .near d => some d
  | .lpddr i => some (8 + i)
  | .cxl p => some (10 + p)
  | _ => none

/-- The window of a compressed home: its base and its size (R358). -/
def homeWindow (h : Nat) : Nat × Nat :=
  if h < 8 then (0x0080000000000 + h * 2 ^ 36, 2 ^ 36)
  else if h < 10 then ((h - 8) * 2 ^ 41, 2 ^ 41)
  else (0x0040000000000 + (h - 10) * 2 ^ 40, 2 ^ 40)

/-- Presented chunks of a home (R371). -/
def Dev.presented (d : Dev) (h : Nat) : Nat := (tget h d.pres).getD 0

/-- The row of the physical map that holds an address, whatever is presented of it. -/
def memRow (a : Nat) : Option Mem :=
  if a < 0x0020000000000 then some (.lpddr 0)
  else if a < 0x0040000000000 then some (.lpddr 1)
  else if a < 0x0080000000000 then some (.cxl ((a - 0x0040000000000) / 2 ^ 40))
  else if a < 0x0080000000000 + 8 * 2 ^ 36 then some (.near ((a - 0x0080000000000) / 2 ^ 36))
  else if a < 0x0090000000000 then none
  else if a < 0x0090000000000 + 8 * 2 ^ 35 then
    (if (a - 0x0090000000000) % 2 ^ 35 < 24 * 2 ^ 30 then some (.layerW ((a - 0x0090000000000) / 2 ^ 35)) else none)
  else if a < 0x00A0000000000 then none
  else if a < 0x00A0000000000 + 8 * 2 ^ 28 then some (.scratch ((a - 0x00A0000000000) / 2 ^ 28))
  else if a < 0x00B0000000000 then none
  else if a < 0x00C0000000000 then some .devreg
  else if a < 0x8000000000000 then none
  else if a < 2 ^ 52 then some .host
  else none

/-- The memory that holds an address, as far as its row is assigned (R358): a compressed home only
as far as it is presented, an expander window only where a device is present (R407). -/
def Dev.memAt (d : Dev) (a : Nat) : Option Mem :=
  match memRow a with
  | none => none
  | some m =>
    match m.home with
    | none => some m
    | some h =>
      if a - (homeWindow h).1 < 4096 * d.presented h &&
          (match m with | .cxl p => Config.cxlPresent p | _ => true) then some m else none

/-- The tier of a memory (R358). -/
def Mem.tier : Mem → Nat
  | .near _ => 0 | .lpddr _ => 1 | .cxl _ => 2 | _ => 3

/-- The die whose engines and pools serve a memory, where one does. -/
def Mem.dieOf : Mem → Option Nat
  | .near d => some d | .layerW d => some d | .scratch d => some d | _ => none

/-- Base address of a die's scratch. -/
def scratchBase (die : Nat) : Nat := 0x00A0000000000 + die * 2 ^ 28

/-- The whole range [a, a + n) lies in one row of the map as far as it is assigned. -/
def Dev.rangeIn (d : Dev) (a n : Nat) : Option Mem :=
  match d.memAt a with
  | none => none
  | some m => if n = 0 || d.memAt (a + n - 1) = some m then some m else none

/-! ### The codec (R368, R369) -/

/-- Payload bytes of a line's code (R368). -/
def codeBytes (c : BitVec 4) : Nat :=
  match c.toNat with
  | 0 => 0 | 1 => 8 | 2 => 16 | 3 => 24 | 4 => 40 | 5 => 20 | 6 => 36 | 7 => 34 | 8 => 64 | _ => 0

/-- The elements of a line, each of `w` bytes. -/
def elems (w : Nat) : Nat → List Byte → List Nat
  | 0, _ => []
  | n + 1, bs => natOfBytes (bs.take w) :: elems w n (bs.drop w)

/-- Every element differs from element 0 by a signed delta of `k` bytes, modulo the element's width. -/
def deltasFit (w k : Nat) (es : List Nat) : Bool :=
  match es with
  | [] => true
  | b :: _ => es.all fun e =>
      let dlt := (e + 2 ^ (8 * w) - b) % 2 ^ (8 * w)
      dlt < 2 ^ (8 * k - 1) || 2 ^ (8 * w) - 2 ^ (8 * k - 1) ≤ dlt

/-- Whether code `c` reproduces a line with base element 0 (R369). -/
def codeFits (c : Nat) (line : List Byte) : Bool :=
  match c with
  | 0 => line.all (· == 0)
  | 1 => let es := elems 8 8 line; es.all (· == es.headD 0)
  | 2 => deltasFit 8 1 (elems 8 8 line)
  | 3 => deltasFit 8 2 (elems 8 8 line)
  | 4 => deltasFit 8 4 (elems 8 8 line)
  | 5 => deltasFit 4 1 (elems 4 16 line)
  | 6 => deltasFit 4 2 (elems 4 16 line)
  | 7 => deltasFit 2 1 (elems 2 32 line)
  | 8 => true
  | _ => false

/-- The codes in rising order of payload, the lower code first among equals. -/
def codeOrder : List Nat := [0, 1, 2, 5, 3, 7, 6, 4, 8]

/-- The code the encoder takes for a line by class: the smallest payload for transparent, code 8 for none (R369). -/
def encodeLine (cls : BitVec 2) (line : List Byte) : BitVec 4 :=
  if cls = 0 then 8 else BitVec.ofNat 4 ((codeOrder.find? fun c => codeFits c line).getD 8)

/-- SExt of a `k`-byte delta, modulo `2^(8w)`. -/
def addDelta (w k base dlt : Nat) : Nat :=
  let sd := if dlt < 2 ^ (8 * k - 1) then dlt else dlt + 2 ^ (8 * w) - 2 ^ (8 * k)
  (base + sd) % 2 ^ (8 * w)

/-- The line that a payload of base and deltas holds (R368). -/
def decodeDeltas (w k n : Nat) (pl : List Byte) : List Byte :=
  let base := natOfBytes (pl.take w)
  (List.range n).flatMap fun j =>
    bytesOfNat w (addDelta w k base (natOfBytes ((pl.drop (w + k * j)).take k)))

/-- The line that a code and its payload give (R368); none for a malformed code. -/
def decodeLine (c : BitVec 4) (pl : List Byte) : Option (List Byte) :=
  match c.toNat with
  | 0 => some (List.replicate 64 0)
  | 1 => some ((List.range 8).flatMap fun _ => pl.take 8)
  | 2 => some (decodeDeltas 8 1 8 pl)
  | 3 => some (decodeDeltas 8 2 8 pl)
  | 4 => some (decodeDeltas 8 4 8 pl)
  | 5 => some (decodeDeltas 4 1 16 pl)
  | 6 => some (decodeDeltas 4 2 16 pl)
  | 7 => some (decodeDeltas 2 1 32 pl)
  | 8 => some (pl.take 64)
  | _ => none

/-- The payload of base and deltas that the encoder gives a line: base element 0, then the deltas (R369). -/
def encodeDeltas (w k n : Nat) (line : List Byte) : List Byte :=
  let base := natOfBytes (line.take w)
  bytesOfNat w base ++ (List.range n).flatMap fun j =>
    bytesOfNat k (natOfBytes ((line.drop (w * j)).take w) + 2 ^ (8 * w) - base)

/-- The payload of a line under a code that holds it (R368, R369). -/
def encodePayload (c : BitVec 4) (line : List Byte) : List Byte :=
  match c.toNat with
  | 1 => line.take 8
  | 2 => encodeDeltas 8 1 8 line
  | 3 => encodeDeltas 8 2 8 line
  | 4 => encodeDeltas 8 4 8 line
  | 5 => encodeDeltas 4 1 16 line
  | 6 => encodeDeltas 4 2 16 line
  | 7 => encodeDeltas 2 1 32 line
  | 8 => line
  | _ => []

/-- Metadata of a chunk, by its number (address / 4,096). -/
def Dev.chunk (d : Dev) (c : Nat) : Chunk := (tget c d.chunks).getD Chunk.zero

/-- Code of line i of a chunk: 0 in an all-zero chunk (R367). -/
def Chunk.code (c : Chunk) (i : Nat) : BitVec 4 := c.codes.getD i 0

/-- The codes as 64 of them. -/
def Chunk.full (c : Chunk) : List (BitVec 4) := (List.range 64).map c.code

/-- Payload bytes of a code list (R368). -/
def payloadBytes (cs : List (BitVec 4)) : Nat := cs.foldl (fun n c => n + codeBytes c) 0

/-- Sectors of a payload (R368). -/
def sectorsOf (bytes : Nat) : Nat := cdiv bytes 512

/-- A chunk's payload string: the payloads of its lines end to end, in line order (R368). Memory is kept
decoded, so the string is what the codes and the lines give (log 28). -/
def Dev.payload (d : Dev) (c : Nat) : List Byte :=
  (List.range 64).flatMap fun i => encodePayload ((d.chunk c).code i) (d.bytes (c * 4096 + 64 * i) 64)

/-- The 64-byte metadata entry of a chunk (R367): CODES, then SP0 to SP7. -/
def Chunk.entry (k : Chunk) : BitVec 512 :=
  BitVec.ofNat 512 (k.full.foldr (fun c n => c.toNat + 16 * n) 0 +
    (List.range 8).foldr (fun j n => k.sps.getD j 0xFFFFFFFF + 2 ^ 32 * n) 0 * 2 ^ 256)

/-- Decoding a chunk from line 0 up to line `i` is cut off (R372): it has been already, or the walk meets a code
of 9..15 or reaches a sector that the chunk does not hold. A walk of at most 64 lines of 64 bytes never emits
more than 4,096 bytes. -/
def Chunk.stops (k : Chunk) (i : Nat) : Bool :=
  k.cut || (!k.codes.isEmpty &&
    let cs := (List.range (i + 1)).map k.code
    (cs.any fun c => 8 < c.toNat) || k.secs < sectorsOf (payloadBytes cs))

/-- A line of the range [pa, pa + n) cannot be decoded (R372). -/
def Dev.cutAt (d : Dev) (pa n : Nat) : Bool :=
  n != 0 && (List.range ((pa + n - 1) / 4096 + 1 - pa / 4096)).any fun j =>
    let c := pa / 4096 + j
    (d.chunk c).stops (Nat.min 63 ((pa + n - 1 - c * 4096) / 64))

/-! ### Pools and sectors (R371, R373) -/

/-- The pool of a partition at a home. -/
def Dev.pool (d : Dev) (part home : Nat) : Pool := (tget (part, home) d.pools).getD Pool.reset

def Dev.setPool (d : Dev) (part home : Nat) (p : Pool) : Dev := { d with pools := tput (part, home) p d.pools }

/-- Usage counts of an RCB. -/
def Dev.rcbUse (d : Dev) (r : Nat) : RcbUse := (tget r d.rcbs).getD RcbUse.reset

def Dev.setRcb (d : Dev) (r : Nat) (u : RcbUse) : Dev := { d with rcbs := tput r u d.rcbs }

/-- The RCB and its ancestors, by the parent pointers kept; at most nine (R53). -/
def Dev.rcbChain (d : Dev) : Nat → Nat → List Nat
  | 0, _ => []
  | n + 1, r => if r = 0 then [] else r :: d.rcbChain n (d.rcbUse r).parent

/-- Apply a change to the usage of RCBs (R50), and write the counts to their memory images, where software may
read them. -/
def Dev.chargeAll (d : Dev) (rs : List Nat) (f : RcbUse → RcbUse) : Dev :=
  rs.foldl (fun d x =>
    let u := f (d.rcbUse x)
    let d := d.setRcb x u
    { d with mem := memPutList d.mem (x + 48) (bytesOfNat 8 u.sites ++ bytesOfNat 8 u.slots ++
        bytesOfNat 8 u.scratch ++ bytesOfNat 8 u.sectors) }) d

/-- Apply a change to the usage of an RCB and every ancestor (R50). -/
def Dev.charge (d : Dev) (r : Nat) (f : RcbUse → RcbUse) : Dev := d.chargeAll (d.rcbChain 9 r) f

/-- Free sectors of a pool (R371). -/
def Pool.free (p : Pool) : Nat := p.quota - p.held

/-- The Ladle leaves IDLE when a grant leaves the pool below its mark or a reservation waits (R374). -/
def Dev.wakeLadle (d : Dev) (part home : Nat) (waits : Bool) : Dev :=
  let p := d.pool part home
  if p.lstate = 0 && (waits || p.free < p.low) then d.setPool part home { p with lstate := 1 } else d

/-- Sectors that a pool's waiting reservations need. -/
def Dev.waitNeed (d : Dev) (part home : Nat) : Nat :=
  ((d.resvs.filter fun r => r.part == part && r.home == home).map (·.need)).sum

/-- The Ladle returns to IDLE from ZERO, BALLOON and HOST once enough is free (R374). -/
def Dev.ladleRest (d : Dev) (part home : Nat) : Dev :=
  let p := d.pool part home
  if 1 ≤ p.lstate && p.lstate ≤ 3 && p.low + d.waitNeed part home ≤ p.free then d.setPool part home { p with lstate := 0 } else d

/-- Every pool whose Ladle has done enough returns to IDLE (R374). -/
def Dev.restLadles (d : Dev) : Dev :=
  d.pools.foldl (fun d p => if p.2.lstate = 0 then d else d.ladleRest p.1.1 p.1.2) d

/-- A sector need that a pool grants at once: no earlier reservation waits, and it is free (R373, R374). -/
def Dev.poolGives (d : Dev) (part home need : Nat) : Bool :=
  need = 0 || (!(d.resvs.any fun r => r.part == part && r.home == home) && need ≤ (d.pool part home).free)

/-- Move sectors of a chunk's pool and of the RCB charged (R373): `plus` taken, `minus` returned. A grant that
leaves the pool below its mark wakes the Ladle (R374). -/
def Dev.moveSectors (d : Dev) (part home rcb plus minus : Nat) : Dev :=
  if plus = 0 && minus = 0 then d else
  let p := d.pool part home
  let d := d.setPool part home { p with held := p.held + plus - minus }
  let d := if rcb = 0 then d else d.charge rcb fun u => { u with sectors := u.sectors + plus - minus }
  if plus = 0 then d else d.wakeLadle part home false

/-- The home index of a chunk, if its memory is compressed. -/
def chunkHome (c : Nat) : Option Nat := (memRow (c * 4096)).bind Mem.home

/-- Line numbers (address / 64) that [a, a + n) touches. -/
def linesOf (a n : Nat) : List Nat :=
  if n = 0 then [] else (List.range ((a + n - 1) / 64 + 1 - a / 64)).map (a / 64 + ·)

/-- Record a chunk in its home's zero list: class none or packed import, holding sectors although
every line is zero; candidates beyond 4,096 are not recorded (R374). -/
def Dev.noteZero (d : Dev) (home c : Nat) : Dev :=
  let k := d.chunk c
  let l := (tget home d.zeros).getD []
  if k.cls ≠ 1 && k.secs ≠ 0 && !l.contains c && l.length < 4096 && (d.bytes (c * 4096) 4096).all (· == 0)
  then { d with zeros := tput home (l ++ [c]) d.zeros } else d

/-- The lowest sector numbers of a home that no chunk holds (log 53). -/
def Dev.freshSps (d : Dev) (home n : Nat) : List Nat :=
  if n = 0 then [] else
  let used := d.chunks.flatMap fun p => if chunkHome p.1 = some home then p.2.sps else []
  ((List.range (used.length + n)).filter fun s => !used.contains s).take n

/-- The sectors that a payload takes together with the growth that tentative instances have reserved (R373). A chunk
never needs more than eight. -/
def Chunk.projected (k : Chunk) (bytes : Nat) : Nat := sectorsOf (Nat.min 4096 (bytes + k.grow))

/-- A chunk is all-zero again: its metadata is that of reset (R367). -/
def Chunk.isIdle (k : Chunk) : Bool := k.secs == 0 && k.resv == 0 && k.grow == 0 && !k.cut && k.full.all (· == 0)

/-- Put a chunk's metadata. -/
def Dev.putChunk (d : Dev) (c : Nat) (k : Chunk) : Dev :=
  { d with chunks := if k.isIdle then tdel c d.chunks else tput c k d.chunks }

/-- The class of a write by physical address: no leaf names one, so a line is encoded transparent and the chunk
keeps its class (R369). -/
def noClass : BitVec 2 := 3

/-- Give a chunk its codes: growth beyond the sectors held is taken from the pool and charged, what
it no longer needs returns (R367, R373). The pool is that of the partition the chunk's sectors belong to. What the
growth of tentative instances still needs stays reserved. Only a write of the whole chunk replaces one that was
cut off (R372). -/
def Dev.setCodes (d : Dev) (c : Nat) (codes : List (BitVec 4)) (cls : BitVec 2) (part rcb : Nat) (whole : Bool := false) : Dev :=
  match chunkHome c with
  | none => d
  | some h =>
    let k := d.chunk c
    let owner := if k.secs = 0 && k.resv = 0 then part else k.part
    let need := sectorsOf (payloadBytes codes)
    let keep := k.projected (payloadBytes codes) - need - k.resv
    let d1 := (d.moveSectors owner h rcb (need - k.secs) (k.secs - need)).moveSectors owner h 0 keep 0
    let k' : Chunk := { k with
      codes := codes, sps := k.sps.take need ++ d.freshSps h (need - k.secs), resv := k.resv + keep,
      cls := if cls = noClass then k.cls else cls, part := owner, cut := k.cut && !whole }
    (d1.putChunk c k').noteZero h c

/-- The codes of a chunk after line `ln` is written with a content (R369): code 8 for every line in
class none, whose chunks hold 8 sectors (R374); else the line's own code alone. -/
def codesAfter (k : Chunk) (ln : Nat) (cls : BitVec 2) (line : List Byte) : List (BitVec 4) :=
  if cls = 0 then List.replicate 64 8 else k.full.set (ln % 64) (encodeLine cls line)

/-- Re-encode the line `ln` after a write to it (R369). -/
def Dev.recode (d : Dev) (ln : Nat) (cls : BitVec 2) (part rcb : Nat) (whole : Bool := false) : Dev :=
  let c := ln / 64
  d.setCodes c (codesAfter (d.chunk c) ln cls (d.bytes (ln * 64) 64)) cls part rcb whole

/-- The sectors that a line's new content needs beyond those its chunk holds or has reserved (R373). -/
def Dev.lineNeed (d : Dev) (ln : Nat) (cls : BitVec 2) (line : List Byte) : Nat :=
  let k := d.chunk (ln / 64)
  k.projected (payloadBytes (codesAfter k ln cls line)) - (k.secs + k.resv)

/-- Copy line `i` of a migrating page into its new frame and mark it copied (R381). -/
def Dev.copyLine (d : Dev) (m : Nat) (g : Mig) (i : Nat) : Dev :=
  let line := d.bytes (g.old + 64 * i) 64
  let d := { d with mem := memPutList d.mem (g.new_ + 64 * i) line }.recode ((g.new_ + 64 * i) / 64) g.cls g.part 0
  { d with migs := tmod m (fun g => { g with copied := if g.copied.contains i then g.copied else g.copied ++ [i] }) d.migs }

/-- The new frame's pool has the sectors for line `i` of a migrating page, or the need that it lacks (R373, R381). -/
def Dev.copyNeed (d : Dev) (g : Mig) (i : Nat) : Option Nat :=
  let ln := (g.new_ + 64 * i) / 64
  match chunkHome (ln / 64) with
  | none => none
  | some h =>
    let need := d.lineNeed ln g.cls (d.bytes (g.old + 64 * i) 64)
    if d.poolGives g.part h need then none else some need

/-- A reservation joins the queue of its pool, and the Ladle is called (R373, R374). -/
def Dev.queueResv (d : Dev) (part rcb chunk need : Nat) (who : Claimant) (va : Word) (idx : Nat := 0) : Dev :=
  match chunkHome chunk with
  | none => d
  | some h => Dev.wakeLadle { d with resvs := d.resvs ++ [(⟨h, part, chunk, need, rcb, who, idx, va⟩ : Resv)] } part h true

/-- Line `i` of a migrating page is to be written to the new frame: at once where the sectors are granted, else after
its reservation (R381). -/
def Dev.copyOrWait (d : Dev) (m : Nat) (g : Mig) (i : Nat) : Dev :=
  match d.copyNeed g i with
  | none => d.copyLine m g i
  | some n =>
    let d : Dev := { d with migs := tmod m (fun g => { g with copied := g.copied.erase i }) d.migs }
    if d.resvs.any fun r => r.who == .mig m && r.idx == i then d
    else d.queueResv g.part 0 ((g.new_ + 64 * i) / 4096) n (.mig m) 0 i

/-- Lines of a migrating page among the lines `lns` of memory. -/
def Mig.lines (g : Mig) (lns : List Nat) : List Nat :=
  (lns.filter fun l => g.old ≤ l * 64 && l * 64 < g.old + g.size).map fun l => (l * 64 - g.old) / 64

/-- Lines of migrating pages, before the switch, that lie among `lns` and that are copied or not: each is written to
the new frame as the old one holds it (R381). -/
def Dev.mirror (d : Dev) (lns : List Nat) (copied : Bool) : Dev :=
  d.migs.foldl (fun d p =>
    if p.2.switched then d else
    ((p.2.lines lns).filter fun i => p.2.copied.contains i == copied).foldl (fun d i => d.copyOrWait p.1 p.2 i) d) d

/-- The lines that cells lie in. -/
def linesIn (cells : List (Nat × Byte)) : List Nat :=
  (cells.map fun c => c.1 / 64).foldl (fun acc l => if acc.contains l then acc else acc ++ [l]) []

/-- Write bytes at physical addresses: memory, then the codes of every line touched in compressed
memory, then the new frames of migrating pages whose lines are copied (R381). `cls` is the class of the leaf that
names the lines, `noClass` for a write by physical address (R369); `part` and `rcb` own the sectors it needs. -/
def Dev.writeAt (d : Dev) (cells : List (Nat × Byte)) (cls : BitVec 2) (part rcb : Nat) : Dev :=
  let d1 := { d with mem := memPutAt d.mem cells }
  let lns := linesIn cells
  (lns.foldl (fun d l => d.recode l cls part rcb) d1).mirror lns true

/-- A read of lines of a migrating page copies those not copied yet (R381). -/
def Dev.noteRead (d : Dev) (pa n : Nat) : Dev := d.mirror (linesOf pa n) false

/-- Pair bytes with rising addresses. -/
def cellsAt (a : Nat) : List Byte → List (Nat × Byte)
  | [] => []
  | b :: r => (a, b) :: cellsAt (a + 1) r

/-- An agent's write by physical address, encoded transparent (R369); charged to no RCB (R373). -/
def Dev.agentWrite (d : Dev) (a : Nat) (bs : List Byte) : Dev := d.writeAt (cellsAt a bs) noClass 0 0

end Sys2Proof.Machine
end

