-- ==== Sys2Proof/Machine/Summary.lean ====
section
/-!
DEFINITION. Key summaries (R303, R304): the widening that every write under a summary page shares.
-/

namespace Sys2Proof.Machine

/-- The largest BF16 code at most, or the smallest at least, an FP32 value that is no NaN (R304). -/
def down16 (v : BitVec 32) : Nat := (fBf16.put .rd 0 (fp32 v)).code
def up16 (v : BitVec 32) : Nat := (fBf16.put .ru 0 (fp32 v)).code

/-- A zero result is stored as +0. -/
def plusZero (c : Nat) : Nat := if c = 0x8000 then 0 else c

def bfMin (a b : Nat) : Nat := plusZero (if ordKey (BitVec.ofNat 32 (b <<< 16)) < ordKey (BitVec.ofNat 32 (a <<< 16)) then b else a)
def bfMax (a b : Nat) : Nat := plusZero (if ordKey (BitVec.ofNat 32 (a <<< 16)) < ordKey (BitVec.ofNat 32 (b <<< 16)) then b else a)

/-- MIN and MAX of a channel after a lane's value (R304). A field that already holds a NaN code stays unbounded. -/
def widen1 (mn mx : Nat) (v : BitVec 32) : Nat × Nat :=
  if (fp32 v).isNan then (0xFF80, 0x7F80)
  else
    let m := if (fp32 (BitVec.ofNat 32 (mn <<< 16))).isNan then 0xFF80 else mn
    let x := if (fp32 (BitVec.ofNat 32 (mx <<< 16))).isNan then 0x7F80 else mx
    (bfMin m (down16 v), bfMax x (up16 v))

/-- Widen channel `c` of a side entry by a lane's value (R304). -/
def Dev.widenLane (d : Dev) (side c : Nat) (v : BitVec 32) : Dev :=
  let r := widen1 (d.num (side + 2 * c) 2) (d.num (side + 32 + 2 * c) 2) v
  (d.agentWrite (side + 2 * c) (bytesOfNat 2 r.1)).agentWrite (side + 32 + 2 * c) (bytesOfNat 2 r.2)

/-- Widen the side entry of a summary page by the lanes that a write has touched (R304), with the values that `val` gives
at their addresses. -/
def Dev.widenBy (d : Dev) (side : Nat) (val : Nat → BitVec 32) (cells : List (Nat × Byte)) : Dev :=
  ((cells.map fun c => c.1 / 4).eraseDups).foldl (fun d a => d.widenLane side (a % 16) (val (a * 4))) d

/-- Widen a side entry by the lanes of a write as memory now holds them. -/
def Dev.widen (d : Dev) (side : Nat) (cells : List (Nat × Byte)) : Dev :=
  d.widenBy side (fun a => BitVec.ofNat 32 (d.num a 4)) cells

/-- A write under a leaf: its bytes with the class of the page, then the summary it widens (R304, R369). -/
def Dev.writeLeaf (d : Dev) (cells : List (Nat × Byte)) (cls : BitVec 2) (side : Option Nat) (part rcb : Nat) : Dev :=
  let d := d.writeAt cells cls part rcb
  match side with
  | some s => d.widen s cells
  | none => d

def Leaf.sideOf (l : Leaf) : Option Nat := if l.sum then some l.side else none

end Sys2Proof.Machine
end

