-- ==== Sys2Proof/Machine/Xlate.lean ====
section
/-!
DEFINITION. Translation (R358..R366): the ASID table, the radix walk, leaf entries and their checks,
the accessed and dirty bits, and the translation caches.
-/

namespace Sys2Proof.Machine

/-! ### Dies and other sparse tables -/

def Dev.die (d : Dev) (i : Nat) : Die := (tget i d.dies).getD Die.reset
def Dev.setDie (d : Dev) (i : Nat) (x : Die) : Dev := { d with dies := tput i x d.dies }
def Dev.modDie (d : Dev) (i : Nat) (f : Die → Die) : Dev := d.setDie i (f (d.die i))
def Dev.part (d : Dev) (i : Nat) : Part := (tget i d.parts).getD Part.reset
def Dev.modPart (d : Dev) (i : Nat) (f : Part → Part) : Dev := { d with parts := tput i (f (d.part i)) d.parts }
def Dev.func (d : Dev) (i : Nat) : Func := (tget i d.funcs).getD Func.reset
def Dev.modFunc (d : Dev) (i : Nat) (f : Func → Func) : Dev := { d with funcs := tput i (f (d.func i)) d.funcs }

/-- The index under which the IO dies keep their translations. -/
def ioDie : Nat := 8

/-- ASID `a` lies in function `f`'s range (R168). -/
def Dev.asidIn (d : Dev) (f a : Nat) : Bool :=
  let x := d.func f
  x.abas ≤ a && a < x.abas + x.acnt

/-! ### Format tags (R258, R259) -/

def tagEfmt (t : BitVec 64) : BitVec 4 := t.extractLsb' 0 4
def tagGeom (t : BitVec 64) : BitVec 2 := t.extractLsb' 4 2
def tagSfmt (t : BitVec 64) : Bool := t.getLsbD 7
/-- The scale area's virtual address (R258). -/
def tagSbase (t : BitVec 64) : Word := sx (t.extractLsb' 19 45 ++ (0 : BitVec 12))

/-- A malformed tag (R259). -/
def tagBad (t : BitVec 64) : Bool :=
  let e := (tagEfmt t).toNat
  e ≥ 12 || (tagGeom t != 0 && !(4 ≤ e && e ≤ 8)) ||
    (tagGeom t == 0 && (tagSfmt t || t.extractLsb' 19 45 != 0)) ||
    t.getLsbD 6 || t.extractLsb' 8 11 != 0

/-! ### The walk (R359..R363) -/

/-- A table node at an address of the map, as far as it is assigned (R358, R360). -/
def Dev.nodeOk (d : Dev) (node : Nat) : Bool := (d.rangeIn node 8192).isSome

/-- An ASID-table entry that lets ASID `a` translate for a thread of `part`: its root node (R359). `tb` is the
ASIDTB in force (R392). -/
def Dev.asidRoot (d : Dev) (a part : Nat) (tb : Word := d.asidtb) : Except TErr Nat :=
  let pa := tb.toNat + 16 * a
  if d.cutAt pa 16 then .error .decode else
  let e := d.num pa 16
  if e.testBit 63 && nfld e 69 64 == part && d.asidIn part a && nfld e 127 70 == 0 &&
      nfld e 62 46 == 0 && nfld e 6 0 == 0 && d.nodeOk (nfld e 45 0 * 64)
  then .ok (nfld e 45 0 * 64) else .error .perm

/-- A table entry with no bit beyond those R361 names. -/
def tableOk (e : Nat) : Bool := nfld e 127 64 == 0 && nfld e 61 46 == 0 && nfld e 6 0 == 0

/-- Page size of a leaf at a level (R360). -/
def leafSize (level : Nat) (c64 : Bool) : Nat :=
  if level = 2 then 2 ^ 30 else if level = 1 then 2 ^ 21 else if c64 then 2 ^ 16 else 2 ^ 12

/-- C64 of a leaf entry: in the entry itself, or in the summary slot's frame word (R362). -/
def Dev.leafC64 (d : Dev) (e : Nat) : Bool :=
  let kind := nfld e 55 54
  if kind = 1 then false
  else if kind = 0 && e.testBit 51 then (d.num (nfld e 45 1 * 128 + 64) 8).testBit 0
  else e.testBit 5

/-- A leaf entry's meaning, or malformed (R362, R363). -/
def Dev.leafOf (d : Dev) (e entry level : Nat) (va : Word) : Except TErr Leaf :=
  let kind := nfld e 55 54
  let tag := BitVec.ofNat 64 (e >>> 64)
  let c64 := level = 0 && d.leafC64 e
  let size := leafSize level c64
  let mk (pa : Nat) (sum : Bool) (side : Nat) : Leaf :=
    { pa := pa, size := size, rd := e.testBit 60, wr := e.testBit 59, ex := e.testBit 58,
      sys := e.testBit 57, gl := e.testBit 56, nr := e.testBit 61, kind := BitVec.ofNat 2 kind,
      cls := BitVec.ofNat 2 (nfld e 53 52), view := BitVec.ofNat 3 (nfld e 53 51), sum := sum,
      side := side, tag := tag, entry := entry, a := e.testBit 50, d := e.testBit 49 }
  if kind = 1 then
    -- a stream leaf names its descriptor and its view
    let pa := nfld e 45 0 * 64
    match d.rangeIn pa 64 with
    | none => .error .perm
    | some m =>
      if m.tier = nfld e 47 46 && nfld e 53 51 == fldN va 42 40 && tag == 0 then .ok (mk pa false 0)
      else .error .perm
  else
    let sum := kind = 0 && e.testBit 51
    let slot := nfld e 45 1 * 128
    if sum && d.cutAt (slot + 64) 64 then .error .decode else
    let fw := d.num (slot + 64) 8
    let pa := if sum then nfld fw 51 12 * 4096 else nfld e 45 6 * 4096
    let slotOk := !sum || (!e.testBit 0 && (d.rangeIn slot 128).isSome && nfld fw 63 52 == 0 &&
      nfld fw 11 1 == 0 && (d.bytes (slot + 72) 56).all (· == 0))
    let cls := nfld e 53 52
    match d.rangeIn pa size with
    | none => .error .perm
    | some m =>
      if (e.testBit 51 && kind ≠ 0) || !slotOk || (!sum && nfld e 4 0 != 0) ||
          (level ≠ 0 && d.leafC64 e) || pa % size != 0 || m.tier != nfld e 47 46 ||
          cls == 3 || (cls != 0 && m.home.isNone) || (tag != 0 && kind ≠ 0) || tagBad tag ||
          (sum && !(tagEfmt tag == 1 && tagGeom tag == 0))
      then .error .perm else .ok (mk pa sum slot)

/-- The index of a virtual address at a level (R360). -/
def vaIndex (va : Word) (level : Nat) : Nat := nfld va.toNat (20 + 9 * level) (12 + 9 * level)

/-- The walk from a node (R360, R364 orders 2 and 3). -/
def Dev.walkFrom (d : Dev) (va : Word) : Nat → Nat → Except TErr Leaf
  | level, node =>
    let pa := node + 16 * vaIndex va level
    if d.cutAt pa 16 then .error .decode else
    let e := d.num pa 16
    match level with
    | 0 =>
      if !e.testBit 62 && d.leafC64 e then
        -- the group's first entry decides, V included
        let pa1 := node + 16 * (vaIndex va 0 / 16 * 16)
        let e1 := d.num pa1 16
        if !e1.testBit 63 then .error .page
        else if e1.testBit 62 || !d.leafC64 e1 then .error .perm
        else d.leafOf e1 pa1 0 va
      else if !e.testBit 63 then .error .page
      else if e.testBit 62 then .error .perm
      else d.leafOf e pa 0 va
    | l + 1 =>
      if !e.testBit 63 then .error .page
      else if e.testBit 62 then
        (if tableOk e && d.nodeOk (nfld e 45 0 * 64) then d.walkFrom va l (nfld e 45 0 * 64) else .error .perm)
      else if l + 1 ≥ 3 then .error .perm
      else d.leafOf e pa (l + 1) va

/-- The whole walk of a virtual address (R359, R360, R364 orders 1..3). -/
def Dev.walk (d : Dev) (asid part : Nat) (va : Word) (tb : Word := d.asidtb) : Except TErr Leaf :=
  if !canonical va then .error .page
  else match d.asidRoot asid part tb with
    | .error e => .error e
    | .ok root => d.walkFrom va 4 root

/-! ### Caches and checks (R364..R366) -/

/-- Kinds of access, for the permission check. -/
inductive Acc where
  | read | write | exec
  deriving DecidableEq, Repr

/-- On whose behalf a translation is made; `pe` is the address-generator PE of an instance's access, and `scl` says that it
is an LDVS's (R262). -/
structure XCtx where
  asid : Nat
  part : Nat
  die  : Nat
  sys  : Bool
  inst : Option Nat
  pe   : Option Nat
  scl  : Bool
  deriving DecidableEq, Repr

/-- A cached translation serves this address: same ASID, or global in the same partition (R366). -/
def Tlb.serves (t : Tlb) (c : XCtx) (va : Word) : Bool :=
  t.part == c.part && (t.asid == c.asid || t.leaf.gl) && t.va == va.toNat / t.leaf.size * t.leaf.size

/-- Change the translations that every cache and instance holds. -/
def Dev.mapTlb (d : Dev) (f : List Tlb → List Tlb) : Dev :=
  { d with
    dies := d.dies.map fun p => (p.1, { p.2 with tlb := f p.2.tlb, pec := p.2.pec.map fun q => (q.1, f q.2) })
    insts := d.insts.map fun p => (p.1, { p.2 with tlb := f p.2.tlb }) }

/-- Set A, and D for a write, in the leaf entry used (R365), and in the caches' copies of it. -/
def Dev.setAD (d : Dev) (l : Leaf) (wr : Bool) : Dev :=
  if l.a && (l.d || !wr) then d else
  let b := d.num (l.entry + 6) 1
  let b' := b ||| (1 <<< 2) ||| (if wr then 1 <<< 1 else 0)
  let d := if b = b' then d else d.agentWrite (l.entry + 6) [BitVec.ofNat 8 b']
  d.mapTlb fun ts => ts.map fun t =>
    if t.leaf.entry = l.entry then { t with leaf := { t.leaf with a := true, d := t.leaf.d || wr } } else t

/-- Bytes for the page of a leaf wait in a bounce slot: no access translates to it before the pager has merged
them (R378). `va` lies in the page. -/
def Dev.bounced (d : Dev) (asid part : Nat) (va : Word) (l : Leaf) : Bool :=
  d.bounce.any fun b =>
    (b.2.asid == asid || l.gl) && b.2.part == part && b.2.page * 4096 / l.size == va.toNat / l.size

/-- Physical addresses at which a buffered effect acts on memory. -/
def Eff.places : Eff → List Nat
  | .store bs _ _ => bs.map (·.1)
  | .atomic pa _ _ _ => [pa]
  | .spawn _ _ _ _ pa => [pa]
  | .engine _ _ _ _ pa _ => [pa]
  | .task _ pa => [pa]
  | .bar _ pa _ => [pa]
  | .waitc _ pa => [pa]
  | .shelf pa _ => [pa]
  | _ => []

/-- The descriptor of the stream on which a buffered effect acts. -/
def Eff.stream : Eff → Option Nat
  | .swr desc _ _ => some desc
  | .spub desc _ => some desc
  | .srd desc _ _ => some desc
  | .srel desc _ _ => some desc
  | .srew desc _ _ => some desc
  | .sjoinR desc _ _ => some desc
  | .sjoinP desc => some desc
  | .sleave desc _ => some desc
  | _ => none

/-- A buffered effect acts through a leaf: on the stream that it names, or in its page. -/
def Eff.through (e : Eff) (l : Leaf) : Bool :=
  if l.kind = 1 then e.stream == some l.pa else e.places.any fun a => l.pa ≤ a && a < l.pa + l.size

/-- An instance has an access outstanding that a translation made: a request whose reply has not returned or been sent on,
a buffered effect through it, or an access that waits and will be made again by it (R397). -/
def Inst.usesLeaf (x : Inst) (l : Leaf) : Bool :=
  (x.reqs.any fun r => r.leafs.contains l.entry) || (x.effs.any fun e => e.2.through l) ||
    !x.again.isEmpty || x.blocked.any fun b => b.2 == .access || b.2 == .atomic

/-- The translation that an instance already uses for an address: every later access of it to the page uses the same one,
though an XLINV has removed it from the caches (R366). An LDVS may be translated apart from its LDV: it looks for its own kind
first, and takes the other's only while that stands in the page tables' stead (R262, R271, log 71). -/
def Dev.ownTlb (d : Dev) (c : XCtx) (va : Word) : Option Tlb :=
  match c.inst.bind fun i => tget i d.insts with
  | some i =>
    match i.tlb.find? fun t => Tlb.serves t c va && t.scl == c.scl with
    | some t => some t
    | none => i.tlb.find? fun t => Tlb.serves t c va && !t.stale
  | none => none

/-- The cache of an address-generator PE (R366). -/
def Die.peTlb (x : Die) (pe : Option Nat) : List Tlb := (pe.bind fun p => tget p x.pec).getD []

/-- The translation that the PE's cache or the die's holds for an address (R366). -/
def Dev.cacheTlb (d : Dev) (c : XCtx) (va : Word) : Option Tlb :=
  let x := d.die c.die
  match (x.peTlb c.pe).find? fun t => Tlb.serves t c va with
  | some t => some t
  | none => x.tlb.find? fun t => Tlb.serves t c va

/-- The ASID table that a translation reads: an instance's is the one it sampled at its admission (R392). -/
def Dev.tableFor (d : Dev) (c : XCtx) : Word :=
  match c.inst.bind fun i => tget i d.insts with
  | some x => x.cr.asidtb
  | none => d.asidtb

/-- Orders 1..3 of R364: the instance's own translation, a cache's, or a walk. -/
def Dev.leafFor (d : Dev) (c : XCtx) (va : Word) : Except TErr Leaf :=
  match d.ownTlb c va with
  | some t => .ok t.leaf
  | none =>
    match d.cacheTlb c va with
    | some t => .ok t.leaf
    | none =>
      match d.walk c.asid c.part va (d.tableFor c) with
      | .ok l => .ok { l with nr := l.nr || d.bounced c.asid c.part va l }
      | e => e

/-- A translation enters a cache of `n` entries, unless it is there; the one that entered first leaves a full cache
(log 54). -/
def enterTlb (n : Nat) (c : XCtx) (va : Word) (t : Tlb) (ts : List Tlb) : List Tlb :=
  if ts.any fun (t : Tlb) => Tlb.serves t c va then ts else (t :: ts).take n

/-- Keep a translation in an instance, once for its LDVSs and once for every other access (R262, R366). -/
def Inst.keep (x : Inst) (c : XCtx) (va : Word) (t : Tlb) : Inst :=
  if x.tlb.any fun u => Tlb.serves u c va && u.scl == c.scl then x else { x with tlb := t :: x.tlb }

/-- Keep a translation in the PE's cache of 16, in the die's of 16,384 and in the instance (R366). One that the instance
holds already, which an XLINV may have removed from the caches, does not enter them again: they hold no translation from
before an XLINV that covers it. Non-resident leaves are not kept. -/
def Dev.fill (d : Dev) (c : XCtx) (va : Word) (l : Leaf) : Dev :=
  if l.nr then d else
  let t : Tlb := ⟨c.asid, c.part, va.toNat / l.size * l.size, l, false, c.scl⟩
  let d := if (d.ownTlb c va).isSome then d else d.modDie c.die fun x => { x with
    tlb := enterTlb 16384 c va t x.tlb
    pec := match c.pe with | some p => tput p (enterTlb 16 c va t (x.peTlb c.pe)) x.pec | none => x.pec }
  match c.inst with
  | none => d
  | some i => { d with insts := tmod i (fun x => x.keep c va t) d.insts }

/-- A range touches lines that a spill ring has withdrawn (R212). -/
def Dev.ringAt (d : Dev) (pa n : Nat) : Bool :=
  d.regions.any fun p => p.2.rings.any fun g => g.pa < pa + n && pa < g.pa + g.size

/-- Order 5 of R364 without the kinds of R171. -/
def Leaf.allows (l : Leaf) (acc : Acc) (sys : Bool) : Bool :=
  (!l.sys || sys) && (match acc with | .read => l.rd | .write => l.wr | .exec => l.rd && l.ex)

/-- A translation with its effect on the caches and on A and D (R364..R366). -/
def Dev.translate (d : Dev) (c : XCtx) (va : Word) (acc : Acc) : Dev × Except TErr Leaf :=
  match d.leafFor c va with
  | .error e => (d, .error e)
  | .ok l =>
    if l.nr then (d, .error .page)
    else if !l.allows acc c.sys then (d, .error .perm)
    else ((d.setAD l (acc == .write)).fill c va { l with a := true, d := l.d || acc == .write }, .ok l)

/-- The physical address behind a virtual one in a leaf. -/
def Leaf.at (l : Leaf) (va : Word) : Nat := l.pa + va.toNat % l.size

/-- A cached translation overlaps a range of an ASID, or of every ASID of the partition. A global leaf goes with any
ASID of its partition (R366, R397). -/
def Tlb.hit (t : Tlb) (part : Nat) (asid : Option Nat) (range : Option (Nat × Nat)) : Bool :=
  t.part == part && (t.leaf.gl || (match asid with | none => true | some a => t.asid == a)) &&
    (match range with | none => true | some (lo, hi) => t.va < hi && lo < t.va + t.leaf.size)

/-- Remove cached translations that overlap a range; `none` for every address. An instance keeps its own, marked as removed
(R262, R366, R397). -/
def Dev.dropTlb (d : Dev) (part : Nat) (asid : Option Nat) (range : Option (Nat × Nat)) : Dev :=
  { d with
    dies := d.dies.map fun p => (p.1, { p.2 with
      tlb := p.2.tlb.filter fun t => !t.hit part asid range
      pec := p.2.pec.map fun q => (q.1, q.2.filter fun t => !t.hit part asid range) })
    insts := d.insts.map fun p => (p.1, { p.2 with
      tlb := p.2.tlb.map fun t => if t.hit part asid range then { t with stale := true } else t }) }

/-- Remove every cached translation that a leaf entry made (R376, R381). -/
def Dev.dropLeaf (d : Dev) (entry : Nat) : Dev := d.mapTlb fun ts => ts.filter fun t => t.leaf.entry != entry

end Sys2Proof.Machine
end

