-- ==== Sys2Proof/Machine/Order.lean ====
section
/-!
DEFINITION. The region-control-block tree (R50..R53), aborts (R42, R43), the records of tracked
accesses and what an arriving access meets (R202..R211), and words held by atomics (R187).
-/

namespace Sys2Proof.Machine

/-! ### Region control blocks (R50, R51) -/

/-- The 1,024 bits of an RCB as memory holds them. -/
def Dev.rcbNum (d : Dev) (r : Nat) : Nat := d.num r 128

/-- The parent pointer in force: the one kept while threads name the RCB, or memory's (R53). -/
def Dev.rcbParent (d : Dev) (r : Nat) : Nat :=
  let u := d.rcbUse r
  if u.threads ≠ 0 then u.parent else nfld (d.rcbNum r) 63 0

/-- The RCB that supplies the field of OVR bit j (R51). -/
def Dev.rcbSupplier (d : Dev) (j : Nat) : Nat → Nat → Nat
  | 0, r => r
  | n + 1, r =>
    if (d.rcbNum r).testBit (104 + j) then r
    else
      let p := d.rcbParent r
      if p = 0 then r else d.rcbSupplier j n p

def Dev.effPrio (d : Dev) (r : Nat) : Nat := nfld (d.rcbNum (d.rcbSupplier 0 9 r)) 66 64
def Dev.effDclass (d : Dev) (r : Nat) : Nat := nfld (d.rcbNum (d.rcbSupplier 1 9 r)) 71 70
def Dev.effFdom (d : Dev) (r : Nat) : Nat := nfld (d.rcbNum (d.rcbSupplier 6 9 r)) 127 112
def Dev.effTen (d : Dev) (r : Nat) : BitVec 3 := BitVec.ofNat 3 (nfld (d.rcbNum (d.rcbSupplier 7 9 r)) 78 76)
def Dev.effSys (d : Dev) (r : Nat) : Bool := (d.rcbNum (d.rcbSupplier 7 9 r)).testBit 79

/-- The chain of an RCB by the parent pointers in force. -/
def Dev.rcbPath (d : Dev) : Nat → Nat → List Nat
  | 0, _ => []
  | n + 1, r => if r = 0 then [] else r :: d.rcbPath n (d.rcbParent r)

/-- A grant of `req` under the budget of OVR bit j at bit `lo`: every RCB of the chain that supplies
that budget itself has room (R52). -/
def Dev.budgetOk (d : Dev) (r j lo req : Nat) (use : RcbUse → Nat) : Bool :=
  (d.rcbPath 9 r).all fun x =>
    !(d.rcbNum x).testBit (104 + j) || use (d.rcbUse x) + req ≤ nfld (d.rcbNum x) (lo + 63) lo

def Dev.siteBudget (d : Dev) (r n : Nat) : Bool := d.budgetOk r 2 128 n (·.sites)
def Dev.slotBudget (d : Dev) (r n : Nat) : Bool := d.budgetOk r 3 192 n (·.slots)
def Dev.scratchBudget (d : Dev) (r n : Nat) : Bool := d.budgetOk r 4 256 n (·.scratch)
def Dev.sectorBudget (d : Dev) (r n : Nat) : Bool := d.budgetOk r 5 320 n (·.sectors)

/-- Reserved fields of an RCB are zero (R50). -/
def rcbReservedOk (v : Nat) : Bool := nfld v 1023 640 == 0 && nfld v 103 80 == 0 && nfld v 75 72 == 0 && nfld v 69 67 == 0

/-- The launch checks of R53 on an RCB: at most eight parent links, by the pointers in force, reserved fields
zero all the way, and a root whose OVR is 0xFF. -/
def Dev.rcbLaunchOk (d : Dev) : Nat → Nat → Bool
  | 0, _ => false
  | n + 1, r =>
    let v := d.rcbNum r
    rcbReservedOk v &&
      (if d.rcbParent r = 0 then nfld v 111 104 == 0xFF else d.rcbLaunchOk n (d.rcbParent r))

/-! ### Threads, instances, regions -/

def Dev.thread (d : Dev) (t : Nat) : Option Thread := tget t d.threads
def Dev.modThread (d : Dev) (t : Nat) (f : Thread → Thread) : Dev := { d with threads := tmod t f d.threads }
def Dev.inst (d : Dev) (i : Nat) : Option Inst := tget i d.insts
def Dev.modInst (d : Dev) (i : Nat) (f : Inst → Inst) : Dev := { d with insts := tmod i f d.insts }
def Dev.region (d : Dev) (r : Nat) : Option Region := tget r d.regions
def Dev.modRegion (d : Dev) (r : Nat) (f : Region → Region) : Dev := { d with regions := tmod r f d.regions }

/-- The instance in flight of a thread. -/
def Dev.instOf (d : Dev) (t : Nat) : Option (Nat × Inst) := d.insts.find? fun p => p.2.tid == t

/-- The translation context of a thread, on an address-generator PE for an instance's access. -/
def Dev.ctxOf (d : Dev) (t : Thread) (inst : Option Nat) (pe : Option Nat := none) : XCtx :=
  ⟨t.asid, t.part, t.die, d.effSys t.rcb, inst, pe, false⟩

/-- The party that acts in a thread's name (R194, R197), as its commit makes it. -/
def Dev.partyOf (d : Dev) (tid : Nat) (t : Thread) : Party :=
  { tid := tid, launch := (t.k[5]).toNat, tidx := (t.k[0]).toNat, asid := t.asid, part := t.part, die := t.die,
    rcb := t.rcb, fdom := d.effFdom t.rcb, sys := d.effSys t.rcb, forkAt := d.commits }

def Party.ctx (p : Party) : XCtx := ⟨p.asid, p.part, p.die, p.sys, none, none, false⟩

/-- Order of admission (R187): cycle, die, first site, slot. -/
def Dev.admOrder (d : Dev) (i : Inst) : Nat :=
  match d.region i.reg with
  | some r => ((i.at_ * 8 + r.die) * 128 + r.site) * 32 + i.slot
  | none => ((i.at_ * 8) * 128) * 32 + i.slot

/-! ### Ends of regions (R202, R203, R208) -/

/-- End a thread's region: its committed records stop being live, and are removed. A release of a
narrower scope, by an instance of the placed region `reg`, keeps them live for parties outside it until the system
end (R208). -/
def Dev.endRegion (d : Dev) (tid : Nat) (scope : Scope) (reg : Nat := 0) : Dev :=
  match d.thread tid with
  | none => d
  | some t =>
    let mine (r : Rec) : Bool := r.owner == .region tid t.seq && r.inst.isNone
    let recs := if scope = .sys then d.recs.filter fun r => !mine r
      else d.recs.map fun r => if mine r && r.ended.isNone then { r with ended := some scope, die := t.die, reg := reg } else r
    { d with recs := recs, threads := tmod tid (fun t => { t with seq := t.seq + 1 }) d.threads }

/-! ### Aborts (R42) -/

/-- Add to the sums of a thread's RCB (R184); each saturates when it is read. -/
def Dev.count (d : Dev) (rcb : Nat) (f : RcbUse → RcbUse) : Dev := d.setRcb rcb (f (d.rcbUse rcb))

/-- Return the sectors an instance reserved; with the last tentative growth of a chunk goes all that is reserved for
it (R373). -/
def Dev.freeResv (d : Dev) (i : Inst) (rcb : Nat) : Dev :=
  i.resv.foldl (fun d (x : Nat × Nat × Nat) =>
    let (ln, grow, n) := x
    let c := ln / 64
    match chunkHome c with
    | none => d
    | some h =>
      let k := d.chunk c
      let d := d.moveSectors k.part h rcb 0 n
      let rest := k.resv - n
      let back := if k.grow - grow = 0 then rest else 0
      (d.moveSectors k.part h 0 0 back).putChunk c { k with resv := rest - back, grow := k.grow - grow }) d

/-- A generator whose requests the prefetch counters count (R184). -/
def isAgen : Instr → Bool
  | .agen .. => true
  | .agenx .. => true
  | _ => false

/-- Replies of generators that nothing has consumed: in the generators' first channels, held for want of room, or still
to return (R184). -/
def Dev.unused (d : Dev) (x : Inst) : Nat :=
  match d.region x.reg with
  | none => 0
  | some r =>
    let first (src idx : Nat) (slot : Slot) : Bool :=
      match r.image.instrs[src]? with
      | some i => isAgen i && (match i.targets.head? with | some t => t.idx.toNat == idx && t.slot == slot | none => false)
      | none => false
    (x.chans.map fun c => if first c.src c.idx c.slot then ((c.q ++ c.spill).filter fun t => t.kind == .data).length else 0).sum +
      (x.held.filter fun h => h.2.2.2.kind == .data && first h.1 h.2.1.idx.toNat h.2.1.slot).length +
      (x.reqs.filter (·.gen)).length

/-- An instance ends: its slot's generation advances, and everything of it that was not an
architectural effect is discarded (R42, R47, R187, R373). -/
def Dev.dropInst (d : Dev) (i : Nat) : Dev :=
  match d.inst i with
  | none => d
  | some x =>
    let rcb := match d.thread x.tid with | some t => t.rcb | none => 0
    let stale := d.unused x
    let d := d.freeResv x rcb
    let d := if stale = 0 then d else d.count rcb fun u => { u with unu := u.unu + stale }
    { d with
      insts := tdel i d.insts
      recs := d.recs.filter fun r => r.inst != some i
      holds := d.holds.filter fun h => h.inst != i
      resvs := d.resvs.filter fun r => r.who != .inst i
      dies := d.dies.map fun p => (p.1, { p.2 with sieve := p.2.sieve.filter fun s => s.inst != i })
      regions := tmod x.reg (fun r => { r with
        gens := r.gens.setIfInBounds x.slot ((r.gens[x.slot]?.getD 0) + 1), active := d.cycle, idle := d.cycle }) d.regions }

/-- The masks of the captured set of a block: GRD and VRD of its header (R71, R386). -/
def hdrGrd (h : BitVec 128) : BitVec 16 := h.extractLsb' 20 16
def hdrVrd (h : BitVec 128) : BitVec 4 := h.extractLsb' 36 4

/-- A thread enters TRAPPED at its block; its region ends (R203, R385). A mark of it stays until it is next admitted (R210). -/
def Dev.trapThread (d : Dev) (tid : Nat) (info : TrapInfo) : Dev :=
  let d := d.endRegion tid .sys
  { d with
    nextOrd := d.nextOrd + 1
    threads := tmod tid (fun t => { t with st := .trapped, trap := some info, trapOrd := d.nextOrd }) d.threads }

/-- The information of a fault at an instruction of a block (R384, R386). -/
def faultInfo (cause : Cause) (idx : Nat) (faddr blk : Word) (hdr : BitVec 128) : TrapInfo :=
  { cause := cause, index := idx, faddr := faddr, raddr := faddr, code := 0, kind := 0, rpc := blk, gmask := hdrGrd hdr,
    vmask := hdrVrd hdr, list := [BitVec.ofNat 8 idx], frame := none, stuck := false, other := none }

/-! ### Arrival at a block (R76, R80) -/

/-- SYSB of a header (R71). -/
def hdrSysb (h : BitVec 128) : Bool := h.getLsbD 83

/-- The trap of a rejected block: an empty captured set, the reported index, and the reason (R80). -/
def badBlockInfo (blk : Word) (r : RejRec) : TrapInfo :=
  { cause := .badBlock, index := r.index, faddr := blk, raddr := blk, code := r.reason.zeroExtend 16, kind := 0, rpc := blk,
    gmask := 0, vmask := 0, list := [BitVec.ofNat 8 r.index], frame := none, stuck := false, other := none }

/-- The header of a block that a die knows: of a resident region, of an image in its configuration cache, or of a block
that has been fetched and checked for it (R61, R76, R233). -/
def Dev.knownHdr (d : Dev) (die asid part : Nat) (b : Word) : Option (BitVec 128) :=
  match d.regions.find? fun p => p.2.die == die && p.2.asid == asid && p.2.blk == b with
  | some (_, r) => some r.image.hdr
  | none =>
    match (d.die die).cache.find? fun c => c.image.part == part && c.pairs.contains (asid, b.toNat) with
    | some c => some c.image.hdr
    | none =>
      (d.fetches.find? fun f => f.die == die && f.asid == asid && f.part == part && f.blk == b).bind fun f =>
        match f.st with
        | .checked bs _ _ _ _ => some (BitVec.ofNat 128 (natOfBytes (bs.take 16)))
        | _ => none

/-- What a thread meets when it arrives in the queue of the block at its PC: a recorded rejection
(R80), or a resident system block it may not enter (R76). -/
def Dev.arriveAt (d : Dev) (tid : Nat) : Dev :=
  match d.thread tid with
  | none => d
  | some t =>
    match tget (t.asid, t.pc.toNat) d.rejPair with
    | some r => d.trapThread tid (badBlockInfo t.pc r)
    | none =>
      match d.knownHdr t.die t.asid t.part t.pc with
      | some h =>
        if hdrSysb h && !d.effSys t.rcb then d.trapThread tid (faultInfo .protection 0 t.pc t.pc h) else d
      | none => d

/-- Abort to QUEUED at the same block, for shrink, eviction or a lost race (R42, R187, R209). The
thread keeps the time at which it entered QUEUED before (R225), and arrives at its block again: a rejection recorded
meanwhile traps it (R80). -/
def Dev.abortRequeue (d : Dev) (i : Nat) : Dev :=
  match d.inst i with
  | none => d
  | some x => ((d.dropInst i).modThread x.tid fun t => { t with st := .queued, since := t.before }).arriveAt x.tid

/-- Abort an instance and trap its thread (R42, R385). -/
def Dev.abortTrap (d : Dev) (i : Nat) (mk : Word → BitVec 128 → TrapInfo) : Dev :=
  match d.inst i with
  | none => d
  | some x =>
    match d.region x.reg with
    | none => d
    | some r => (d.dropInst i).trapThread x.tid (mk r.blk r.image.hdr)

/-- TrapBlock(cause) at an instruction (R11, R43); a MEMORY_MODEL names the other party (R210). -/
def Dev.trapBlock (d : Dev) (i idx : Nat) (cause : Cause) (faddr : Word) (other : Option (Other × Bool) := none) : Dev :=
  d.abortTrap i fun b h => { faultInfo cause idx faddr b h with other := other }

/-! ### What an arriving access meets (R187, R209, R210) -/

/-- A tracked access at its home. -/
structure Xs where
  src    : Source
  pa     : Nat
  len    : Nat
  wr     : Bool
  atomic : Bool
  va     : Word
  deriving DecidableEq, Repr

/-- The thread a source acts for, its parent and fork edge, its die and region. -/
structure SrcInfo where
  tid    : Option Nat
  parent : Option Nat
  forkAt : Nat
  die    : Nat
  reg    : Option Nat
  deriving DecidableEq, Repr

def Dev.srcInfo (d : Dev) : Source → SrcInfo
  | .inst i =>
    match d.inst i with
    | none => ⟨none, none, 0, ioDie, none⟩
    | some x =>
      match d.thread x.tid with
      | none => ⟨some x.tid, none, 0, ioDie, some x.reg⟩
      | some t => ⟨some x.tid, t.parent, t.forkAt, t.die, some x.reg⟩
  | .engine op =>
    match tget op d.ops with
    | none => ⟨none, none, 0, ioDie, none⟩
    | some e => ⟨none, some e.who.tid, e.forkAt, e.who.die, none⟩
  | .host => ⟨none, none, 0, ioDie, none⟩
  | .agent => ⟨none, none, 0, ioDie, none⟩

/-- The source lies within a release's scope (R208). -/
def inScope (sc : Scope) (src : Source) (si : SrcInfo) (r : Rec) : Bool :=
  match sc with
  | .rgn => (match src with | .inst _ => si.reg == some r.reg | _ => false)
  | .die => (match src with | .inst _ => si.die == r.die | .engine _ => si.die == r.die | _ => false)
  | .pkg => (match src with | .host => false | _ => true)
  | .sys => true

/-- A record is live for an access of another region (R208). -/
def recLive (r : Rec) (src : Source) (si : SrcInfo) : Bool :=
  let other := match r.owner, src with
    | .region tid _, _ => si.tid != some tid
    | .engine op, .engine op' => op != op'
    | .engine _, _ => true
  let forked := match r.owner with
    | .region tid _ => si.parent == some tid && r.inst.isNone && r.stamp ≤ si.forkAt
    | .engine _ => false
  other && !forked && (match r.ended with | none => true | some sc => !inScope sc src si r)

/-- Two accesses conflict (R208). -/
def recConflict (r : Rec) (x : Xs) : Bool :=
  r.pa < x.pa + x.len && x.pa < r.pa + r.len && (r.wr || x.wr) && !(r.atomic && x.atomic)

/-- The instance's current region of its thread has a closing commit under way: one that ends it, be it as an acquire, which
ends the region before it (R202, R209). -/
def Dev.closing (d : Dev) (o : Owner) : Bool :=
  match o with
  | .engine _ => false
  | .region tid seq =>
    match d.instOf tid, d.thread tid with
    | some (_, x), some t => x.atPoint && t.seq == seq && (x.marks.acq || x.marks.rel || x.marks.own || x.marks.waitc || x.marks.halt)
    | _, _ => false

/-- Instance `j` is later than the source: any host, engine or agent access is older than every instance (R209). -/
def Dev.laterThan (d : Dev) (j : Nat) (src : Source) : Bool :=
  match src with
  | .inst i =>
    (match d.inst i, d.inst j with
     | some x, some y => d.admOrder x < d.admOrder y
     | _, _ => false)
  | _ => true

/-- The outcomes of an arrival (R209). -/
inductive Arrival where
  | ok (d : Dev)
  | raise (d : Dev) (low : Nat) (against : List Owner)
  | wait
  | retry (d : Dev)

/-- The owner under which a source's accesses are recorded. -/
def Dev.ownerOf (d : Dev) : Source → Option (Owner × Option Nat)
  | .inst i =>
    (match d.inst i with
     | some x => (match d.thread x.tid with | some t => some (.region x.tid t.seq, some i) | none => none)
     | none => none)
  | .engine op => some (.engine op, none)
  | _ => none

/-- How a record of an access names the party that makes it (R210). -/
def Dev.partyName (d : Dev) : Source → Other
  | .inst i =>
    (match (d.inst i).bind fun x => d.thread x.tid with
     | some t => .thread t.part (t.k[5]).toNat (t.k[0]).toNat
     | none => .agent)
  | .engine op => (match tget op d.ops with | some e => .engine e.who.part e.comp | none => .agent)
  | .host => .host
  | .agent => .agent

/-- Record an access at its home (R209); one-access regions end as they are made (R204). -/
def Dev.addRec (d : Dev) (x : Xs) : Dev :=
  match d.ownerOf x.src with
  | none => d
  | some (o, i) =>
    let si := d.srcInfo x.src
    let r : Rec := {
      owner := o, who := d.partyName x.src, inst := i, pa := x.pa, len := x.len, wr := x.wr, atomic := x.atomic, stamp := d.commits,
      ended := none, die := si.die, reg := si.reg.getD 0 }
    if d.recs.any fun q => q == { r with stamp := q.stamp } then d else { d with recs := r :: d.recs }

/-- The words held by other instances that an access meets (R187). -/
def Dev.holdersOf (d : Dev) (x : Xs) : List Hold :=
  d.holds.filter fun h => x.src != .inst h.inst && h.pa < x.pa + x.len && x.pa < h.pa + h.size

/-- R187: an atomic, or a write, that meets a held word. A load reads the value from before the hold. -/
def Dev.meetHolds (d : Dev) (x : Xs) : Arrival :=
  if !x.wr then .ok d else
  let hs := d.holdersOf x
  if hs.any fun h => match d.inst h.inst with | some y => y.atPoint && d.laterThan h.inst x.src | none => false then .wait
  else if hs.any fun h => !d.laterThan h.inst x.src then
    .retry d
  else .ok (hs.foldl (fun d h => d.abortRequeue h.inst) d)

/-- The test of R209 for an access at its home, then R187's for a held word; the access is recorded when it passes. -/
def Dev.arrive (d : Dev) (x : Xs) : Arrival :=
  let si := d.srcInfo x.src
  let c := d.recs.filter fun r => recConflict r x && recLive r x.src si
  let done_ := c.filter fun r => r.inst.isNone
  if !done_.isEmpty then
    if done_.all fun r => d.closing r.owner then .retry d
    else
      let low := done_.foldl (fun m r => Nat.min m (Nat.max r.pa x.pa)) (x.pa + x.len)
      .raise d low ((done_.map (·.owner)).eraseDups)
  else if c.any fun r => match r.inst.bind d.inst with | some y => y.atPoint | none => false then .wait
  else
    let js := (c.filterMap (·.inst)).eraseDups
    let losers := js.filter fun j => d.laterThan j x.src
    let d1 := losers.foldl (fun d j => d.abortRequeue j) d
    if js.any fun j => !d.laterThan j x.src then .retry d1
    else match d1.meetHolds x with
      | .ok d2 => .ok (d2.addRec x)
      | o => o

/-! ### Footprint (R211) -/

/-- Lines that hold a record of a thread's region, tentative records included. -/
def Dev.footLines (d : Dev) (tid seq : Nat) : List Nat :=
  ((d.recs.filter fun r => r.owner == .region tid seq).flatMap fun r => linesOf r.pa r.len).eraseDups

/-- The first line of an access that would bring the footprint to 16,385 lines (R211). The tentative lines of an instance
that holds an acquire count in the region before it until its commit (log 76). -/
def Dev.overFoot (d : Dev) (tid seq pa len : Nat) : Option Nat :=
  let have_ := d.footLines tid seq
  let new_ := (linesOf pa len).filter fun l => !have_.contains l
  if have_.length + new_.length ≤ 16384 then none
  else (new_.drop (16384 - have_.length)).head?

/-- How a fault record names an owner of records (R210): as the records do, which outlive its thread. -/
def Dev.nameOf (d : Dev) (o : Owner) : Option Other := (d.recs.find? fun r => r.owner == o).map (·.who)

/-- A MEMORY_MODEL raised by a host or agent access against the owners of records (R210). An instance that has reached
its commit point commits (R43), so its thread is marked (log 55). -/
def Dev.strike (d : Dev) (faddr : Word) (os : List Owner) (by_ : Other) : Dev :=
  os.foldl (fun d o =>
    match o with
    | .engine op => { d with ops := tmod op (fun e => if e.struck then e else { e with struck := true, foe := some (by_, true) }) d.ops }
    | .region tid _ =>
      let mark (d : Dev) : Dev := d.modThread tid fun t => if t.mark.isSome then t else { t with mark := some (faddr, by_) }
      match d.instOf tid with
      | some (i, x) => if x.atPoint then mark d else d.trapBlock i 0 .memoryModel faddr (some (by_, true))
      | none => mark d) d

end Sys2Proof.Machine
end

