-- ==== Sys2Proof/Machine/Frames.lean ====
section
/-!
DEFINITION. The window of a stream as data: positions, the frames that hold them and the write limit
(R128, R129, R132, R133, R147).
-/

namespace Sys2Proof.Machine

def Stream.esize (s : Stream) : Nat := 2 ^ s.esz
def Stream.fsize (s : Stream) : Nat := 2 ^ s.fsz

/-- The ring's base as a physical address (R129). -/
def Stream.base (s : Stream) : Nat :=
  if s.mem then s.fbase * 64 else scratchBase (nfld s.fbase 45 43) + nfld s.fbase 21 0 * 64

/-- The extension frames in use: the number of the frame that the first holds, and their addresses (R147). -/
def Dev.extOf (d : Dev) (desc : Nat) (s : Stream) : Nat × List (Nat × Nat) :=
  match tget desc d.drip with
  | some e => (e.1, e.2.take s.ovu)
  | none => (0, [])

/-- LIMIT (R133). While the Drip has still to return extension frames, LIMIT is what it was before the
tail crossed their boundary, as the return leaves it unchanged (R147). -/
def Dev.limitOf (d : Dev) (desc : Nat) (s : Stream) : Nat :=
  let ring := (s.tail / s.fsize + s.nf) * s.fsize
  let e := d.extOf desc s
  if e.2.isEmpty then ring else Nat.max ring ((e.1 + e.2.length) * s.fsize)

/-- The physical address of a position (R132, R147). -/
def Dev.framePa (d : Dev) (desc : Nat) (s : Stream) (p : Nat) : Nat :=
  let n := p / s.fsize
  let e := d.extOf desc s
  if e.1 ≤ n && n < e.1 + e.2.length then ((e.2[n - e.1]?).getD (0, 0)).1 + p % s.fsize
  else s.base + n % s.nf * s.fsize + p % s.fsize

/-- The runs of [p, p + n) that lie in one frame each: first position and length (R132). -/
def frameRuns (f p n : Nat) : List (Nat × Nat) :=
  (List.range ((p + n - 1) / f + 1 - p / f)).map fun k =>
    let lo := Nat.max p ((p / f + k) * f)
    (lo, Nat.min (p + n) ((p / f + k + 1) * f) - lo)

/-- Bytes by position as bytes by physical address. -/
def Dev.streamCells (d : Dev) (desc : Nat) (cells : List (Nat × Byte)) : List (Nat × Byte) :=
  match tget desc d.streams with
  | none => []
  | some s => cells.map fun c => (d.framePa desc s c.1, c.2)

/-- The `n` bytes at a position (R138). -/
def Dev.streamBytes (d : Dev) (desc : Nat) (s : Stream) (p n : Nat) : List Byte :=
  (List.range n).map fun k => d.byte (d.framePa desc s (p + k))

/-- The position that an address resolves to against a reference (R128); none below the start of the stream. -/
def resolvePos (a : Word) (ref : Nat) : Option Nat :=
  let o := a.toNat % 2 ^ 40
  let lo : Int := Int.ofNat ref - 2 ^ 39
  let p : Int := lo + (Int.ofNat o - lo) % 2 ^ 40
  if p < 0 then none else some p.toNat

/-- Reader j. -/
def Stream.reader (s : Stream) (j : Nat) : Reader := (s.readers[j]?).getD ⟨false, 0, 0, false⟩

def Stream.modReader (s : Stream) (j : Nat) (f : Reader → Reader) : Stream :=
  { s with readers := s.readers.setIfInBounds j (f (s.reader j)) }

/-- The least released position over the joined readers. -/
def Stream.leastRel (s : Stream) : Option Nat :=
  ((s.readers.toList.filter (·.joined)).map (·.rel)).min?

end Sys2Proof.Machine
end

