-- ==== Sys2Proof/Machine/Ops.lean ====
section
/-!
DEFINITION. The shared operations: fault records (R352..R354), accesses of agents and hosts (R204,
R210), queueing and arrival at a block (R76, R80), launches (R38, R162), completion objects (R190,
R191), task nodes (R198), taking a trap (R385, R386) and returning from one (R390).
-/

namespace Sys2Proof.Machine

/-! ### Accesses that are regions of their own (R204, R209, R210) -/

/-- A host or agent access: it takes effect, later instances that conflict abort, and owners of live
committed records trap; `none` while it must wait, as for an instance that has reached its commit point (R43) and records
the bytes or holds them by an atomic (R187). -/
def Dev.agentTry (d : Dev) (x : Xs) : Option Dev :=
  match d.arrive x with
  | .ok d => some d
  | .raise d low os =>
    let si := d.srcInfo x.src
    let c := d.recs.filter fun r => recConflict r x && recLive r x.src si
    let js := (c.filterMap (·.inst)).eraseDups
    if js.any fun j => match d.inst j with | some y => y.atPoint | none => false then none else
    let d := js.foldl (fun d j => d.abortRequeue j) d
    (match d.meetHolds x with
     | .ok d => some (d.strike (x.va + BitVec.ofNat 64 (low - x.pa)) os (d.partyName x.src))
     | _ => none)
  | .wait => none
  | .retry _ => none

/-- Something of an event must wait: at its home, or for sectors (R187, R200, R209, R404). -/
def Dev.mustWait (d : Dev) : Dev := { d with balk := true }

/-- An agent's access within an event: one that must wait holds the event back. -/
def Dev.agentMust (d : Dev) (x : Xs) : Dev := (d.agentTry x).getD d.mustWait

/-- The context of the device's own agents in an ASID: they pass the SYS bit of a leaf (log 12). -/
def agentCtx (asid part : Nat) : XCtx := ⟨asid, part, ioDie, true, none, none, false⟩

/-! ### Fault records (R352..R354) -/

/-- The 32 bytes of a record (R353). -/
def FRec.bytes (r : FRec) : List Byte :=
  bytesOfNat 32 (r.cause.num + r.src % 8 * 2 ^ 16 + (if r.bnc then 2 ^ 19 else 0) + r.reason.toNat * 2 ^ 20 +
    r.part % 64 * 2 ^ 28 + r.asid % 4096 * 2 ^ 34 + r.fdom % 65536 * 2 ^ 46 + r.launch % 2 ^ 32 * 2 ^ 64 +
    r.thread % 2 ^ 32 * 2 ^ 96 + r.info % 2 ^ 64 * 2 ^ 128 + r.addr.toNat * 2 ^ 192)

/-- INFO of a thread record that names one instruction: byte 0 the index, the rest 0xFF (R353). -/
def infoOf (l : List (BitVec 8)) : Nat :=
  natOfBytes ((l ++ List.replicate 8 0xFF).take 8)

/-- Signal an MSI-X vector of a function (R404). -/
def Dev.msix (d : Dev) (fn vec : Nat) : Dev :=
  let d := d.modFunc fn fun f => { f with msix := f.msix.setIfInBounds vec ((f.msix[vec]?.getD 0) + 1) }
  { d with out := .msix fn vec :: d.out }

/-- An agent's translation for an access of `n` bytes: a plain page, whose lines no spill ring has withdrawn (R212), which
only engines write when it is packed import (R370), and whose chunk can be decoded (R372). -/
def Dev.agentXlate (d : Dev) (asid part : Nat) (va : Word) (acc : Acc) (n : Nat) : Dev × Except TErr Leaf :=
  match d.translate (agentCtx asid part) va acc with
  | (d, .ok l) =>
    if l.kind ≠ 0 || (l.cls = 2 && acc = .write) || d.ringAt (l.at va) n then (d, .error .perm)
    else if d.cutAt (l.at va) n || (acc = .write && l.sum && d.cutAt l.side 64) then (d, .error .decode)
    else (d, .ok l)
  | r => r

/-- An agent's write under a leaf, with the summary it widens (R304); charged to no RCB (R373). -/
def Dev.putLeaf (d : Dev) (pa : Nat) (bs : List Byte) (l : Leaf) (part : Nat) : Dev :=
  d.writeLeaf (cellsAt pa bs) l.cls l.sideOf part 0

/-- A write that a record is made of, as its source makes it (R204, R209, R354): the device after it, and whether it takes
effect; `none` while it must wait. A write of an engine that raises MEMORY_MODEL stops the engine (R210). -/
def Dev.recordAccess (d : Dev) (x : Xs) : Option (Dev × Bool) :=
  match x.src with
  | .engine op =>
    (match d.arrive x with
     | .ok d => some (d, true)
     | .raise d _ os =>
       let foe := (os.head?.bind d.nameOf).map fun o => (o, false)
       some ({ d with ops := tmod op (fun e => { e with struck := true, foe := foe }) d.ops }, false)
     | _ => none)
  | _ => (d.agentTry x).map fun d => (d, true)

/-- Write a fault record into its ASID's ring, or drop it (R352, R354, R395); `none` while a write of it must wait.
`src` is the region the record's writes belong to: an engine's, or an agent's of one access. -/
def Dev.tryRecord (d : Dev) (r : FRec) (src : Source) : Option Dev :=
  let f := d.func r.part
  if !d.asidIn r.part r.asid then some d else
  let hva := BitVec.ofNat 64 (d.num ((d.part r.part).fqtb.toNat + 8 * (r.asid - f.abas)) 8)
  if hva = 0 then some d else
  match d.agentXlate r.asid r.part hva .write 64 with
  | (d, .error _) => some d
  | (d, .ok l) =>
    let pa := l.at hva
    let h := d.num pa 64
    let n := 2 ^ nfld h 4 0
    if pa % 64 ≠ 0 || nfld h 511 256 ≠ 0 || nfld h 31 5 ≠ 0 || nfld h 68 64 ≠ 0 || nfld h 4 0 < 4 || 16 < nfld h 4 0
    then some d else
    let wcnt := nfld h 191 128
    let rcnt := nfld h 255 192
    let drop (d : Dev) : Option Dev :=
      (d.recordAccess ⟨src, pa + 4, 4, true, true, hva + 4⟩).map fun x =>
        if x.2 then x.1.putLeaf (pa + 4) (bytesOfNat 4 (Nat.min (nfld h 63 32 + 1) (2 ^ 32 - 1))) l r.part else x.1
    if n ≤ (wcnt + 2 ^ 64 - rcnt) % 2 ^ 64 then drop d else
    let sva := BitVec.ofNat 64 (nfld h 127 64 + 32 * (wcnt % n))
    match d.agentXlate r.asid r.part sva .write 32 with
    | (d, .error _) => drop d
    | (d, .ok l2) =>
      let spa := l2.at sva
      match d.recordAccess ⟨src, spa, 32, true, false, sva⟩ with
      | none => none
      | some (d, false) => some d
      | some (d, true) =>
        match d.recordAccess ⟨src, pa + 16, 8, true, true, hva + 16⟩ with
        | none => none
        | some (d, false) => some d
        | some (d, true) =>
          let d := (d.putLeaf spa r.bytes l2 r.part).putLeaf (pa + 16) (bytesOfNat 8 (wcnt + 1)) l r.part
          let d : Dev := { d with names := match r.other with | some o => tput spa o d.names | none => tdel spa d.names }
          some (d.msix r.part 0)

/-- Send a fault record (R352, R354): records are written in the order in which they are sent, each when its writes can be made. -/
def Dev.faultRecord (d : Dev) (r : FRec) (src : Source) : Dev :=
  let later : Dev := { d with recq := d.recq ++ [(r, src)] }
  if d.recq.isEmpty then (d.tryRecord r src).getD later else later

/-- Records of the queue are written, oldest first, until one must wait. -/
def Dev.sendRecords : Nat → Dev → Dev
  | 0, d => d
  | n + 1, d =>
    match d.recq with
    | [] => d
    | (r, src) :: q =>
      match Dev.tryRecord { d with recq := q } r src with
      | some d => d.sendRecords n
      | none => d

/-- The record of a thread's fault or trap (R353, R385). -/
def Dev.threadRecord (d : Dev) (t : Thread) (cause : Cause) (addr : Word) (list : List (BitVec 8)) (reason : BitVec 8)
    (other : Option (Other × Bool) := none) : Dev :=
  let r : FRec := {
    cause := cause, src := 0, bnc := false, reason := reason, part := t.part, asid := t.asid, fdom := d.effFdom t.rcb,
    launch := (t.k[5]).toNat, thread := (t.k[0]).toNat, info := infoOf list, addr := addr, other := other }
  d.faultRecord r .agent

/-- A record of a device agent (SRC 2) for an ASID. It names the thread that issued what the agent does, where there is
one (R353). -/
def Dev.agentRecord (d : Dev) (part asid : Nat) (cause : Cause) (addr : Word) (who : Option Party := none)
    (reason : BitVec 8 := 0) : Dev :=
  let r : FRec := {
    cause := cause, src := 2, bnc := false, reason := reason, part := part, asid := asid,
    fdom := match who with | some p => p.fdom | none => 0
    launch := match who with | some p => p.launch | none => 0
    thread := match who with | some p => p.tidx | none => 0
    info := infoOf [], addr := addr, other := none }
  d.faultRecord r .agent

/-- The record of a launch that starts nothing (R53, R165, R166), with the thread that issued it where one did. -/
def Dev.launchRecord (d : Dev) (q : DevLaunch) (cause : Cause) (reason : BitVec 8) : Dev :=
  let r : FRec := {
    cause := cause, src := 2, bnc := false, reason := reason, part := q.part, asid := q.asid, fdom := d.effFdom q.rcb,
    launch := match q.who with | some p => p.launch | none => 0
    thread := match q.who with | some p => p.tidx | none => 0
    info := infoOf [], addr := q.comp, other := none }
  d.faultRecord r .agent

/-- A record of a host access (SRC 3) for an ASID. -/
def Dev.hostRecord (d : Dev) (part asid : Nat) (cause : Cause) (addr : Word) : Dev :=
  let r : FRec := {
    cause := cause, src := 3, bnc := false, reason := 0, part := part, asid := asid, fdom := 0, launch := 0,
    thread := 0, info := infoOf [], addr := addr, other := none }
  d.faultRecord r .agent

/-! ### Waking (R41, R191) -/

/-- A thread enters QUEUED anew at its PC (R41, R225). -/
def Dev.enqueue (d : Dev) (tid : Nat) : Dev :=
  let d := { d with
    nextOrd := d.nextOrd + 1
    threads := tmod tid (fun t => { t with
      st := .queued, since := d.cycle, before := d.cycle, order := d.nextOrd, waddr := 0, wpa := 0 }) d.threads }
  d.arriveAt tid

/-- Threads parked on a completion object whose pending count now reads zero return to QUEUED (R41, R191). -/
def Dev.wake (d : Dev) : Dev :=
  let ws := d.threads.filter fun p => p.2.st == .parkC && d.num p.2.wpa 5 == 0
  ws.foldl (fun d p => d.enqueue p.1) d

/-! ### Launches (R38, R53, R162, R163) -/

/-- A free context slot of a die. -/
def Dev.freeSlot (d : Dev) (die : Nat) : Option Nat :=
  let used := d.threads.filterMap fun p => if p.2.die = die then p.2.slot else none
  ((List.range (used.length + 1)).find? fun s => !used.contains s).bind fun s => if s < 32768 then some s else none

/-- Free context slots of a die. -/
def Dev.freeSlots (d : Dev) (die : Nat) : Nat :=
  32768 - (d.threads.filter fun p => p.2.die == die && p.2.slot.isSome).length

/-- The die that DIE names: 8 is the die with the most free slots, the lowest on a tie (R155). -/
def Dev.pickDie (d : Dev) (die : Nat) : Nat :=
  if die < 8 then die else (mostBy d.freeSlots (List.range 8)).getD 0

/-- The first id from a free one on that differs from every live launch id of the partition (R98, R162). -/
def freshFrom (live : List Nat) : Nat → Nat → Nat
  | 0, x => x
  | n + 1, x => if live.contains x then freshFrom live n ((x + 1) % 2 ^ 32) else x

def Dev.freshId (d : Dev) (part : Nat) : Nat :=
  let live := d.launches.filterMap fun p => if p.2.part = part then some p.2.id else none
  freshFrom live live.length (Config.freeLaunchId d.freeSeq).toNat

/-- Give a thread a context slot, if its budget and the die allow one (R38, R52). -/
def Dev.takeSlot (d : Dev) (tid : Nat) : Dev :=
  match d.thread tid with
  | none => d
  | some t =>
    if t.slot.isSome || !d.slotBudget t.rcb 1 then d else
    match d.freeSlot t.die with
    | none => d
    | some s => (d.modThread tid fun t => { t with slot := some s }).charge t.rcb fun u => { u with slots := u.slots + 1 }

/-- The parent pointer of an RCB is read again: what its subtree uses is counted under the new ancestors and no
longer under the old (R50, R53). -/
def Dev.reparent (d : Dev) (x : Nat) : Dev :=
  let u := d.rcbUse x
  let p := nfld (d.rcbNum x) 63 0
  let d := if p = u.parent || u.sites + u.slots + u.scratch + u.sectors = 0 then d else
    let less := d.chargeAll (d.rcbChain 8 u.parent) fun a =>
      { a with sites := a.sites - u.sites, slots := a.slots - u.slots, scratch := a.scratch - u.scratch, sectors := a.sectors - u.sectors }
    less.chargeAll (less.rcbChain 8 p) fun a =>
      { a with sites := a.sites + u.sites, slots := a.slots + u.slots, scratch := a.scratch + u.scratch, sectors := a.sectors + u.sectors }
  d.setRcb x { u with parent := p }

/-- Note threads that name an RCB: the parent pointers are read with the first and kept (R53). A thread counts for every RCB
of the chain, so that the pointers of its ancestors are kept with it (log 68). -/
def Dev.nameRcb (d : Dev) (r n : Nat) : Dev :=
  (d.rcbPath 9 r).foldl (fun d x =>
    let d := if (d.rcbUse x).threads = 0 then d.reparent x else d
    let u := d.rcbUse x
    d.setRcb x { u with threads := u.threads + n }) d

/-- A thread as its launch creates it (R38). -/
def newThread (l : Nat) (id : Nat) (q : DevLaunch) (i cycle order : Nat) : Thread :=
  { g := Vector.replicate 16 0, v := Vector.replicate 4 Token.null,
    k := #v[BitVec.ofNat 64 i, BitVec.ofNat 64 q.n, q.arg, BitVec.ofNat 64 q.part, BitVec.ofNat 64 q.die, BitVec.ofNat 64 id],
    flags := 0, st := .queued, asid := q.asid, part := q.part, rcb := q.rcb, pc := q.entry, waddr := 0, wpa := 0,
    die := q.die, launch := l, slot := none, since := cycle, order := order, before := cycle, pref := .plain,
    trap := none, trapOrd := 0, tcause := q.tcause, mark := none, seq := 0, forkAt := q.forkAt, parent := q.parent }

/-- Create the threads of a launch (R38, R162 step 2). -/
def Dev.createThreads (d : Dev) (q : DevLaunch) : Dev :=
  let l := d.nextLaunch
  let id := d.freshId q.part
  let d := { d with
    freeSeq := d.freeSeq + 1
    nextLaunch := l + 1
    launches := tput l ⟨id, q.part, q.asid, q.rcb, q.comp, q.obj, q.node, q.n⟩ d.launches }
  let d := d.nameRcb q.rcb q.n
  (List.range q.n).foldl (fun d i =>
    let tid := d.nextTid
    let d := { d with
      nextTid := tid + 1
      nextOrd := d.nextOrd + 1
      threads := d.threads ++ [(tid, newThread l id q i d.cycle d.nextOrd)] }
    (d.takeSlot tid).arriveAt tid) d

/-! ### Completion objects (R190, R191) -/

/-- Write a completion object: pending count, status and value (R98, R162, R166). The address has been checked. -/
def Dev.compSet (d : Dev) (asid part : Nat) (comp : Word) (pend status value : Nat) (who : Option Party := none) : Dev :=
  match d.agentXlate asid part comp .write 16 with
  | (d, .error e) => d.agentRecord part asid e.cause comp who
  | (d, .ok l) =>
    let pa := l.at comp
    let d := d.agentMust ⟨.agent, pa, 16, true, true, comp⟩
    (d.putLeaf pa (bytesOfNat 16 (pend + status * 2 ^ 48 + value * 2 ^ 64)) l part).wake

/-- The numbers after an operation finishes on an object (R191). Bits [47:40] are reserved: what stands there stays, and
nothing is reported (log 57). -/
def compNext (v bytes cause : Nat) : Nat :=
  let status := nfld v 63 48
  let pend := nfld v 39 0
  (pend - 1) + nfld v 47 40 * 2 ^ 40 + (if status = 0 then cause else status) * 2 ^ 48 +
    (nfld v 127 64 + bytes) % 2 ^ 64 * 2 ^ 64

/-- R191 on the object at an address: one acq-rel atomic at system scope, made as an agent access; `none` while it must wait. -/
def Dev.compAt (d : Dev) (asid part : Nat) (comp : Word) (bytes cause : Nat) (who : Option Party := none) : Option Dev :=
  match d.agentXlate asid part comp .write 16 with
  | (d, .error e) => some (d.agentRecord part asid e.cause comp who)
  | (d, .ok l) =>
    let pa := l.at comp
    match d.agentTry ⟨.agent, pa, 16, true, true, comp⟩ with
    | none => none
    | some d =>
      let v := d.num pa 16
      let d := d.putLeaf pa (bytesOfNat 16 (compNext v bytes cause)) l part
      let d := if nfld v 39 0 = 0 then d.agentRecord part asid .queue comp who else d
      some d.wake

/-- R191 where an address of 0 names no object (R192, R197, R396). -/
def Dev.compUpdate (d : Dev) (asid part : Nat) (comp : Word) (bytes cause : Nat) (who : Option Party := none) : Option Dev :=
  if comp = 0 then some d else d.compAt asid part comp bytes cause who

/-- R191 within an event: an update that must wait holds the event back. -/
def Dev.compDo (d : Dev) (asid part : Nat) (comp : Word) (bytes cause : Nat) (who : Option Party := none) : Dev :=
  (d.compUpdate asid part comp bytes cause who).getD d.mustWait

/-- R191 where the object is named by physical address (R380). -/
def Dev.compUpdatePa (d : Dev) (pa bytes cause : Nat) : Option Dev :=
  if pa = 0 then some d else
  match d.agentTry ⟨.agent, pa, 16, true, true, 0⟩ with
  | none => none
  | some d => some (d.agentWrite pa (bytesOfNat 16 (compNext (d.num pa 16) bytes cause))).wake

/-! ### Engine forks and task nodes (R192, R197, R198) -/

/-- Fork an engine operation (R192). -/
def Dev.forkEngine (d : Dev) (who : Party) (kind : EngKind) (cmd dst comp : Word) (node : Option (Nat × Word)) (sel : List Nat) : Dev :=
  let e : EngOp := {
    who := who, kind := kind, cmd := cmd, dst := dst, comp := comp, node := node, sel := sel, start := none, pos := 0, dpos := 0,
    bytes := 0, ended := false, cause := none, torn := false, struck := false, foe := none, forkAt := who.forkAt, bnc := [], raised := [], blk := [],
    seqh := none, resv := [], img := [] }
  { d with nextOp := d.nextOp + 1, ops := d.ops ++ [(d.nextOp, e)] }

/-- The walker's access to a record (R198): its physical address, translated in the party's ASID. -/
def Dev.recordAt (d : Dev) (who : Party) (rec : Word) : Dev × Option (Nat × Leaf) :=
  match d.agentXlate who.asid who.part rec .write 64 with
  | (d, .error e) => (d.agentRecord who.part who.asid e.cause rec (some who), none)
  | (d, .ok l) => (d.agentMust ⟨.agent, l.at rec, 64, true, true, rec⟩, some (l.at rec, l))

/-- Put a record's low 64 bits: kind, state, NSUCC and PRED. -/
def Dev.putRecord (d : Dev) (pa : Nat) (l : Leaf) (part : Nat) (v : Nat) : Dev :=
  (d.putLeaf pa (bytesOfNat 8 v) l part).wake

/-- A record's low word with a new STATE. -/
def withState (v st : Nat) : Nat := v - nfld v 5 4 * 16 + st * 16

/-- Displacement of successor k of a record (R197). -/
def succOf (v : Nat) (rec : Word) (k : Nat) : Word :=
  rec + sx (BitVec.ofNat 32 (nfld v (128 + 32 * k + 31) (128 + 32 * k))) * 64

/-- A predecessor's decrement of PRED (R198): at zero with STATE 0 the record is due to launch, for the party of the TASK that
last named it (R197), or for its predecessor's where no TASK has (log 77). -/
def Dev.decPred (d : Dev) (die : Nat) (who : Party) (rec : Word) : Dev :=
  match d.recordAt who rec with
  | (d, none) => d
  | (d, some (pa, l)) =>
    let v := d.num pa 8
    let pred := nfld v 63 32
    if pred = 0 then d.agentRecord who.part who.asid .queue rec (some who)
    else
      let d := d.putRecord pa l who.part (v - 2 ^ 32)
      if pred = 1 && nfld v 5 4 == 0 then
        let who' := match tget pa d.nodes with | some n => n.who | none => who
        d.modDie die fun x => { x with walk := x.walk ++ [(who', rec, 1)] }
      else d

/-- A task node finishes (R198): STATE, then COMP by R191, then the successors when it succeeded. -/
def Dev.nodeFinish (d : Dev) (die : Nat) (who : Party) (rec : Word) (bytes : Nat) (cause : Nat) : Dev :=
  match d.recordAt who rec with
  | (d, none) => d
  | (d, some (pa, l)) =>
    let v := d.num pa 64
    let d := d.putRecord pa l who.part (withState (v % 2 ^ 64) (if cause = 0 then 2 else 3))
    let comp := BitVec.ofNat 64 (nfld v 127 64)
    let d := d.compDo who.asid who.part comp bytes cause (some who)
    if cause ≠ 0 then d else
    (List.range (Nat.min (nfld v 10 8) 4)).foldl (fun d k => d.decPred die who (succOf v rec k)) d

/-- A record launches (R198): STATE 0 to 1, its checks, then by kind. -/
def Dev.nodeLaunch (d : Dev) (die : Nat) (who : Party) (rec : Word) : Dev :=
  match d.recordAt who rec with
  | (d, none) => d
  | (d, some (pa, l)) =>
    let v := d.num pa 64
    if nfld v 5 4 ≠ 0 then d else
    let d := d.putRecord pa l who.part (withState (v % 2 ^ 64) 1)
    let kind := nfld v 3 0
    let comp := BitVec.ofNat 64 (nfld v 127 64)
    if nfld v 31 11 ≠ 0 || nfld v 7 6 ≠ 0 || 5 < kind || 4 < nfld v 10 8 then d.nodeFinish die who rec 0 Cause.queue.num
    else
      let n : Node := ⟨who, 0, false⟩
      let d := { d with nodes := tput pa n d.nodes }
      let payload := rec + 32
      match kind with
      | 0 => d.nodeFinish die who rec 0 0
      | 1 => d.forkEngine who .copy payload 0 comp (some (die, rec)) []
      | 2 => d.forkEngine who .copy2d payload 0 comp (some (die, rec)) []
      | 3 => d.forkEngine who .xfer payload 0 comp (some (die, rec)) []
      | 4 =>
        let p := nfld v 511 256
        let rcb := if nfld p 191 128 = 0 then who.rcb else nfld p 191 128
        let nt := nfld p 223 192 + 1
        if nfld p 255 228 ≠ 0 then d.nodeFinish die who rec 0 Cause.queue.num else
        let q : DevLaunch := {
          die := nfld p 227 224, rcb := rcb, asid := who.asid, part := who.part, entry := BitVec.ofNat 64 (nfld p 63 0),
          n := nt, arg := BitVec.ofNat 64 (nfld p 127 64), comp := 0, obj := false, node := some (die, rec),
          parent := some who.tid, who := some who, forkAt := who.forkAt, tcause := 0 }
        { d with devq := d.devq ++ [q], nodes := tput pa { n with left := nt } d.nodes }
      | _ => d.forkEngine who .gatherList payload 0 comp (some (die, rec)) []

/-! ### Retirement (R48, R54, R166, R198) -/

/-- Free a thread: its slot returns, its RCB and launch lose it (R48, R53). -/
def Dev.freeThread (d : Dev) (tid : Nat) : Dev :=
  match d.thread tid with
  | none => d
  | some t =>
    let d := if t.slot.isSome then d.charge t.rcb fun u => { u with slots := u.slots - 1 } else d
    let d := (d.rcbPath 9 t.rcb).foldl (fun d x =>
      let u := d.rcbUse x
      d.setRcb x { u with threads := u.threads - 1 }) d
    let ls := match tget t.launch d.launches with
      | some l => if l.left ≤ 1 then tdel t.launch d.launches else tput t.launch { l with left := l.left - 1 } d.launches
      | none => d.launches
    { d with threads := tdel tid d.threads, launches := ls }

/-- Count a retired thread on its launch's object or node with a cause; `none` while the object's
update must wait (R48, R54, R198). `torn` says that a teardown retires it: a node then ends with CONTEXT_GONE. -/
def Dev.countThread (d : Dev) (tid : Nat) (cause : Nat) (torn : Bool := cause != 0) : Option Dev :=
  match d.thread tid with
  | none => none
  | some t =>
    match tget t.launch d.launches with
    | none => some (d.freeThread tid)
    | some l =>
      match l.node with
      | none =>
        if !l.obj then some (d.freeThread tid) else
        (match d.compAt l.asid l.part l.comp 0 cause (some (d.partyOf tid t)) with
         | none => none
         | some d => some (d.freeThread tid))
      | some (die, rec) =>
        let d := d.freeThread tid
        match d.nodes.find? fun p => (d.walk l.asid l.part rec).toOption.any (fun (f : Leaf) => f.at rec == p.1) with
        | none => some d
        | some (k, n) =>
          let gone := n.gone || torn
          if n.left ≤ 1 then
            let d := { d with nodes := tput k { n with left := 0, gone := gone } d.nodes }
            some (d.nodeFinish die n.who rec 0 (if gone then Cause.contextGone.num else 0))
          else some { d with nodes := tput k { n with left := n.left - 1, gone := gone } d.nodes }

/-! ### Taking a trap (R385, R386) -/

/-- The bits of a frame as capture writes it (R386). -/
def frameNum (t : Thread) (tid : Nat) (i : TrapInfo) (fdom : Nat) : Nat :=
  let gs := (List.range 16).foldr (fun n acc => (if i.gmask.getLsbD n then (t.g[n]?.getD 0).toNat else 0) + 2 ^ 64 * acc) 0
  let vt (n : Nat) : Token := t.v[n]?.getD Token.null
  let vs := (List.range 4).foldr (fun n acc => (if i.vmask.getLsbD n then (vt n).payload.toNat else 0) + 2 ^ 512 * acc) 0
  let sd := (List.range 4).foldr (fun n acc => (if i.vmask.getLsbD n then (sideWord (vt n)).toNat else 0) + 2 ^ 64 * acc) 0
  gs + vs * 2 ^ 1024 + sd * 2 ^ 3072 + i.rpc.toNat * 2 ^ 3328 + i.faddr.toNat * 2 ^ 3392 + tid * 2 ^ 3456 +
    (t.k[5]).toNat % 2 ^ 32 * 2 ^ 3520 + (t.k[0]).toNat % 2 ^ 32 * 2 ^ 3552 + i.cause.num * 2 ^ 3584 +
    i.index % 128 * 2 ^ 3600 + i.gmask.toNat * 2 ^ 3608 + i.vmask.toNat * 2 ^ 3624 + i.kind.toNat * 2 ^ 3630 +
    i.code.toNat * 2 ^ 3632 + t.part % 64 * 2 ^ 3648 + t.asid % 4096 * 2 ^ 3654 + fdom % 65536 * 2 ^ 3666 + 2 ^ 3682

/-- Base address and number of a partition's frames (R393). -/
def Part.frameBase (p : Part) : Word := p.tframe &&& 0xFFFFFFFFFFFFFE00#64
def Part.frames (p : Part) : Nat := 2 ^ nfld p.tframe.toNat 3 0

/-- How the search for a free frame ends (R385 step 2). -/
inductive FrameFind where
  | found (va : Word) (pa : Nat) (l : Leaf)
  | none_
  | bad (va : Word) (e : TErr)

/-- The lowest-numbered frame whose STATE is 0, reading frames in order (R385 step 2). -/
def Dev.findFrame (d : Dev) (part asid : Nat) (base : Word) : Nat → Nat → Dev × FrameFind
  | 0, _ => (d, .none_)
  | n + 1, i =>
    let va := base + BitVec.ofNat 64 (512 * i)
    match d.agentXlate asid part va .write 512 with
    | (d, .error e) => (d, .bad va e)
    | (d, .ok l) =>
      if nfld (d.num (l.at va + 460) 1) 3 2 = 0 then (d, .found va (l.at va) l)
      else d.findFrame part asid base n (i + 1)

/-- The thread's own record of its trap (R385 steps 1 and 4). -/
def Dev.trapRecord (d : Dev) (t : Thread) (i : TrapInfo) : Dev :=
  d.threadRecord t i.cause i.raddr i.list (if i.cause = .badBlock then i.code.setWidth 8 else 0) i.other

/-- RCB checks of a launch: alignment and R53 (reason 0x06). -/
def Dev.rcbOk (d : Dev) (r : Nat) : Bool := r % 128 == 0 && d.rcbLaunchOk 9 r

/-- Take the exception of a trapped thread (R385): with handling off it stays; else its frame is taken
and written, its record sent, and the handler launched at TVEC with the frame's address in k2. A TRCB that fails R53
starts nothing, with a record of cause QUEUE. While the function is suspended the launch waits at the dispatcher
(R402). `none` when no frame is free. -/
def Dev.takeException (d : Dev) (tid : Nat) (t : Thread) (i : TrapInfo) : Option Dev :=
  let p := d.part t.part
  let th := p.thctl.toNat
  if !th.testBit 12 then
    some ((d.trapRecord t i).modThread tid fun t => { t with trap := some { i with stuck := true } })
  else
    let hasid := th % 4096
    match d.findFrame t.part hasid p.frameBase p.frames 0 with
    | (_, .none_) => none
    | (d, .bad va e) =>
      let d := d.agentRecord t.part hasid e.cause va (some (d.partyOf tid t))
      some ((d.trapRecord t i).modThread tid fun t => { t with trap := some { i with stuck := true } })
    | (d, .found va pa l) =>
      let d := d.agentMust ⟨.agent, pa, 512, true, false, va⟩
      let d := (d.putLeaf pa (bytesOfNat 512 (frameNum t tid i (d.effFdom t.rcb))) l t.part).wake
      let d := d.trapRecord t i
      let d := d.modThread tid fun t => { t with trap := some { i with frame := some va } }
      let q : DevLaunch := {
        die := t.die, rcb := p.trcb.toNat, asid := hasid, part := t.part, entry := p.tvec, n := 1, arg := va, comp := 0,
        obj := false, node := none, parent := some tid, who := some (d.partyOf tid t), forkAt := d.commits, tcause := BitVec.ofNat 16 i.cause.num }
      if (d.func t.part).susp then some { d with devq := d.devq ++ [q] }
      else if !d.rcbOk q.rcb then some (d.launchRecord q .queue 6)
      else some (d.createThreads q)

/-! ### Returning from a trap (R390) -/

/-- The registers TRET restores from a frame (R390). -/
def Thread.restore (t : Thread) (f : Nat) : Thread :=
  let gm := nfld f 3623 3608
  let vm := nfld f 3627 3624
  let g := (List.range 16).foldl (fun (g : Vector Word 16) n =>
    if gm.testBit n then g.setIfInBounds n (BitVec.ofNat 64 (nfld f (64 * n + 63) (64 * n))) else g) t.g
  let v := (List.range 4).foldl (fun (v : Vector Token 4) n =>
    if vm.testBit n then
      v.setIfInBounds n (tokenOfSide (BitVec.ofNat 512 (nfld f (1024 + 512 * n + 511) (1024 + 512 * n)))
        (BitVec.ofNat 64 (nfld f (3072 + 64 * n + 63) (3072 + 64 * n))))
    else v) t.v
  { t with g := g, v := v }

end Sys2Proof.Machine
end

