-- ==== Sys2Proof/Machine/Operands.lean ====
section
/-!
DEFINITION. How tokens reach instructions and leave them: channels (R84, R85, R249), which tokens a
firing takes (R84, R100, R101, R336), the predicate and the kind rules (R86..R90), and sending (R338).
-/

namespace Sys2Proof.Machine

/-! ### The block's instructions -/

/-- Instruction `idx` of an image. -/
def Image.instr (im : Image) (idx : Nat) : Option Instr := im.instrs[idx]?

def Image.info (im : Image) (idx : Nat) : Option OpInfo := (im.instr idx).bind Instr.info

/-- The predicate mode of an instruction (R68). -/
def predOf (i : Instr) : Pred := match i.fields with | some f => decPred f.pred | none => .always

/-- LDVS and MOVX.scl bind their targets to scale positions (R249). -/
def bindsScale : Instr → Bool
  | .ldvs .. => true
  | .movx _ _ _ scl .. => scl
  | _ => false

/-- A target of producer `i` names the scale position of a pair slot (R249). -/
def Image.scaleAt (im : Image) (i : Instr) (t : Target) : Bool :=
  bindsScale i && t.slot != .p && (match im.info t.idx.toNat with | some o => o.pair | none => false)

/-- Producers whose targets name a position (R85, R249). -/
def Image.feeders (im : Image) (t : Target) (scale : Bool) : Nat :=
  (im.instrs.filter fun i => i.targets.contains t && im.scaleAt i t == scale).length

/-- The PE that holds an instruction under the region's placement (R429). -/
def Region.peOf (r : Region) (idx : Nat) : Option Nat :=
  (r.image.places.find? fun p => p.foot == r.foot).bind fun p => p.pes[idx]?

/-! ### Channels (R84, R85, R242) -/

/-- The first token waiting at a position. -/
def Inst.head (x : Inst) (idx : Nat) (slot : Slot) (scale : Bool) : Option Token :=
  match x.chans.find? fun c => c.idx == idx && c.slot == slot && c.scale == scale && !c.q.isEmpty with
  | some c => c.q.head?
  | none => none

/-- The sites of a footprint whose first site is `s` (R18). -/
def footSites (foot s : Nat) : List Nat :=
  match foot with
  | 1 => [s]
  | 2 => [s, s + 1]
  | _ => [s, s + 1, s + 8, s + 9]

/-- The PE of the die that holds an instruction: 32 on each site of the region, in the order of its sites (R18, R429). -/
def Region.diePe (r : Region) (idx : Nat) : Option Nat :=
  (r.peOf idx).bind fun k => ((footSites r.foot r.site)[k / 32]?).map fun s => s * 32 + k % 32

/-- Tokens that the spill ring of an edge holds: 64 bytes of payload and 8 of header, in lines of 128 (R242). -/
def Region.ringRoom (r : Region) (src : Nat) (t : Target) (scale : Bool) : Nat :=
  ((r.rings.filter fun g => g.src == src && g.idx == t.idx.toNat && g.slot == t.slot && g.scale == scale).map
    fun g => g.size / 128).sum

/-- A channel is that of an edge. -/
def Chan.isOn (c : Chan) (src : Nat) (t : Target) (scale : Bool) : Bool :=
  c.src == src && c.idx == t.idx.toNat && c.slot == t.slot && c.scale == scale

/-- The channels of an edge in the instances of a region. -/
def Dev.chansOn (d : Dev) (reg src : Nat) (t : Target) (scale : Bool) : List Chan :=
  (d.insts.filter fun p => p.2.reg == reg).flatMap fun p => p.2.chans.filter fun c => c.isOn src t scale

/-- Tokens in an edge's FIFO beyond the one that each instance's slot holds (R84). -/
def Dev.queuedOn (d : Dev) (reg src : Nat) (t : Target) (scale : Bool) : Nat :=
  ((d.chansOn reg src t scale).map fun c => c.q.length - 1).sum

/-- Tokens in an edge's spill ring (R243). -/
def Dev.spilledOn (d : Dev) (reg src : Nat) (t : Target) (scale : Bool) : Nat :=
  ((d.chansOn reg src t scale).map fun c => c.spill.length).sum

/-- Where a token sent on an edge goes (R84, R243): into the FIFO, or to a place of the ring. -/
inductive Way where
  | fifo
  | ring (place : Nat)
  deriving DecidableEq, Repr

/-- An edge of an instance without tokens. -/
def Chan.empty (src : Nat) (t : Target) (scale : Bool) : Chan := ⟨src, t.idx.toNat, t.slot, scale, [], [], [], 0, []⟩

/-- Append a token to a channel, in its FIFO or its ring (R243); `late` is R184's mark. -/
def Chan.push (c : Chan) (tok : Token) (late : Bool) : Way → Chan
  | .fifo => { c with q := c.q ++ [tok], pre := c.q.length + 1, lt := c.lt ++ [late] }
  | .ring n => { c with spill := c.spill ++ [tok], sn := c.sn ++ [n], lt := c.lt ++ [late] }

/-- Append a token to an edge of an instance. -/
def pushChan (src : Nat) (t : Target) (scale : Bool) (tok : Token) (late : Bool) (w : Way) : List Chan → List Chan
  | [] => [(Chan.empty src t scale).push tok late w]
  | c :: r => if c.isOn src t scale then c.push tok late w :: r else c :: pushChan src t scale tok late w r

/-- The ring's first token goes to the FIFO's tail. -/
def Chan.unspill (c : Chan) : Chan := { c with q := c.q ++ c.spill.take 1, spill := c.spill.drop 1, sn := c.sn.drop 1 }

/-- Take the first token of a channel. -/
def Chan.pop (c : Chan) : Chan := { c with q := c.q.drop 1, pre := c.pre - 1, lt := c.lt.drop 1 }

/-- Another producer's token lies unconsumed at the position (R85). -/
def Inst.taken (x : Inst) (src : Nat) (t : Target) (scale : Bool) : Bool :=
  x.chans.any fun c => c.src != src && c.idx == t.idx.toNat && c.slot == t.slot && c.scale == scale && !c.q.isEmpty

/-- The edge itself already holds a token of the instance. -/
def Inst.busy (x : Inst) (src : Nat) (t : Target) (scale : Bool) : Bool :=
  x.chans.any fun c => c.src == src && c.idx == t.idx.toNat && c.slot == t.slot && c.scale == scale && !c.q.isEmpty

/-- Where a token more goes on an edge: while the ring is empty into an empty slot or the FIFO, else to the ring's tail, behind
those of every instance of the region; `none` when the channel is full (R84, R243). -/
def Dev.wayOn (d : Dev) (x : Inst) (r : Region) (src : Nat) (t : Target) (scale : Bool) : Option Way :=
  let spilled := d.spilledOn x.reg src t scale
  if spilled = 0 && (!x.busy src t scale || d.queuedOn x.reg src t scale < r.image.cap) then some .fifo
  else if spilled < r.ringRoom src t scale then
    some (.ring (((d.chansOn x.reg src t scale).flatMap fun c => c.sn.map (· + 1)).foldl Nat.max 0))
  else none

/-- The edge has room for one token more (R84, R242). -/
def Dev.room (d : Dev) (x : Inst) (r : Region) (src : Nat) (t : Target) (scale : Bool) : Bool :=
  (d.wayOn x r src t scale).isSome

/-- Change the channels of an edge in the instances of a region, each with its instance's number. -/
def Dev.modEdge (d : Dev) (reg src : Nat) (t : Target) (scale : Bool) (f : Nat → Chan → Chan) : Dev :=
  { d with insts := d.insts.map fun p =>
      if p.2.reg = reg then (p.1, { p.2 with chans := p.2.chans.map fun k => if k.isOn src t scale then f p.1 k else k }) else p }

/-- The instance whose token stands first in an edge's ring, and its channel. -/
def Dev.ringHead (d : Dev) (reg src : Nat) (t : Target) (scale : Bool) : Option (Nat × Chan) :=
  leastBy (fun (x : Nat × Chan) => x.2.sn.headD 0) ((d.insts.filter fun p => p.2.reg == reg).flatMap fun p =>
    (p.2.chans.filter fun c => c.isOn src t scale && !c.spill.isEmpty).map fun c => (p.1, c))

/-- The ring of an edge refills its FIFO in ring order, as far as this has room, once no token is left in it that came before
the spilling (R243). When the ring is empty, every token of the FIFO is one of before the next spilling. -/
def Dev.refillEdge (d : Dev) (reg cap src : Nat) (t : Target) (scale : Bool) : Nat → Dev
  | 0 => d
  | n + 1 =>
    if (d.chansOn reg src t scale).any fun c => c.pre != 0 then d else
    match d.ringHead reg src t scale with
    | none => d
    | some (i, c) =>
      if !c.q.isEmpty && cap ≤ d.queuedOn reg src t scale then d else
      let d := d.modEdge reg src t scale fun j k => if j = i then k.unspill else k
      let d := if d.spilledOn reg src t scale = 0 then d.modEdge reg src t scale fun _ k => { k with pre := k.q.length } else d
      d.refillEdge reg cap src t scale n

/-- The rings behind an instance's channels refill their FIFOs (R243). -/
def Dev.refill (d : Dev) (i : Nat) : Dev :=
  match d.inst i with
  | none => d
  | some x =>
    match d.region x.reg with
    | none => d
    | some r =>
      x.chans.foldl (fun d c =>
        let t : Target := ⟨BitVec.ofNat 7 c.idx, c.slot⟩
        let n := d.spilledOn x.reg c.src t c.scale
        if n = 0 then d else d.refillEdge x.reg r.image.cap c.src t c.scale n) d

/-- The first target of a generator, on which its replies are counted (R184). -/
def Image.countsOn (im : Image) (src idx : Nat) (slot : Slot) : Bool :=
  match im.instr src with
  | some i =>
    isAgen i &&
      (match i.targets.head? with | some t => t.idx.toNat == idx && t.slot == slot | none => false)
  | none => false

/-- The slots an instruction waits on (R84). -/
def Image.slotsOf (im : Image) (idx : Nat) : List Slot :=
  match im.instr idx, im.info idx with
  | some i, some o =>
    (if o.hasA then [.a] else []) ++ (if o.hasB then [.b] else []) ++
      (if o.pData || predOf i != .always then [.p] else [])
  | _, _ => []

/-- Positions of an instruction: its slots, and the scale positions of a pair (R70, R249). -/
def Image.positions (im : Image) (k : Nat) : List (Slot × Bool) :=
  let sl := im.slotsOf k
  sl.map (fun s => (s, false)) ++
    (if (match im.info k with | some o => o.pair | none => false) then (sl.filter (· != .p)).map fun s => (s, true) else [])

/-- A token comes last of the operands of an instruction: every other position holds one, but a scale position whose element
token has no scale (R184, R249). -/
def Inst.comesLast (x : Inst) (im : Image) (t : Target) (scale : Bool) (tok : Token) : Bool :=
  let k := t.idx.toNat
  (im.positions k).all fun p =>
    p == (t.slot, scale) || (x.head k p.1 p.2).isSome ||
      (p.2 && (match if p.1 = t.slot && !scale then some tok else x.head k p.1 false with | some e => e.geom == 0 | none => false))

/-- What comes of a token that is offered to a position. -/
inductive Offer where
  /-- it has arrived, or is discarded -/
  | sent (d : Dev)
  /-- it meets another producer's token (R85) -/
  | clash
  /-- the channel is full, and the producer holds it -/
  | full

/-- Offer a token to a position (R84, R85). -/
def Dev.offer (d : Dev) (i src : Nat) (t : Target) (scale : Bool) (tok : Token) : Offer :=
  match d.inst i with
  | none => .sent d
  | some x =>
    match d.region x.reg with
    | none => .sent d
    | some r =>
      if tok.kind = .null && 2 ≤ r.image.feeders t scale then .sent d
      else if x.taken src t scale then .clash
      else match d.wayOn x r src t scale with
      | none => .full
      | some w =>
        let late := tok.kind = .data && r.image.countsOn src t.idx.toNat t.slot && !x.busy src t scale && x.comesLast r.image t scale tok
        .sent (d.modInst i fun x => { x with chans := pushChan src t scale tok late w x.chans })

/-- The second target of an SVBND whose first is named: the two tokens of a pair leave in one cycle (R296). -/
def Image.partner (im : Image) (src : Nat) (t : Target) : Option Target :=
  match im.instr src with
  | some (.svbnd _ (some t1) (some t2)) => if t = t1 then some t2 else none
  | _ => none

/-- The second token of a pair, which is among those held behind the first, finds no room: the first stays too (R296, R338). -/
def Dev.pairShort (d : Dev) (i src : Nat) (t : Target) (rest : List (Nat × Target × Bool × Token)) : Bool :=
  match d.inst i with
  | none => false
  | some x =>
    match d.region x.reg with
    | none => false
    | some r => (match r.image.partner src t with | some u => (rest.any fun h => h.1 == src && h.2.1 == u) && !d.room x r src u false | none => false)

/-- Offer the outputs held, each producer's in order, until one of its channels is full (R338). Of the instructions at which
tokens meet, the lowest traps (R43, R85). -/
def Dev.pumpList (d : Dev) (i : Nat) (stuck : List Nat) (hit : Option Nat) : List (Nat × Target × Bool × Token) → Dev
  | [] => (match hit with | some k => d.trapBlock i k .malformedStream 0 | none => d)
  | (src, t, sc, tok) :: r =>
    let keep (d : Dev) : Dev := d.modInst i fun x => { x with held := x.held ++ [(src, t, sc, tok)] }
    if stuck.contains src || d.pairShort i src t r then (keep d).pumpList i (src :: stuck) hit r
    else
      match d.offer i src t sc tok with
      | .sent d => d.pumpList i stuck hit r
      | .clash => d.pumpList i stuck (some (match hit with | some k => Nat.min k t.idx.toNat | none => t.idx.toNat)) r
      | .full => (keep d).pumpList i (src :: stuck) hit r

/-- Offer what an instance holds. -/
def Dev.pump (d : Dev) (i : Nat) : Dev :=
  match d.inst i with
  | none => d
  | some x => if x.held.isEmpty then d else (d.modInst i fun x => { x with held := [] }).pumpList i [] none x.held

/-- The rings refill their FIFOs, and every producer's held outputs are offered again, after room has been made (R84,
R243, R338). What an instance at its commit point still holds goes nowhere: it commits (R43). -/
def Dev.pumpAll (d : Dev) : Dev :=
  d.insts.foldl (fun d p => let d := d.refill p.1; if p.2.atPoint then d else d.pump p.1) d

/-! ### A firing and what it belongs to -/

/-- A firing with its instance, thread and region. -/
structure Fx where
  i   : Nat
  idx : Nat
  x   : Inst
  t   : Thread
  r   : Region
  fr  : Firing
  deriving DecidableEq, Repr

/-- The latched firing, with the instance, thread and region that it names. -/
def Dev.fx (d : Dev) : Option Fx :=
  match d.fire with
  | none => none
  | some fr =>
    match d.inst fr.inst with
    | none => none
    | some x =>
      match d.thread x.tid, d.region x.reg with
      | some t, some r => some ⟨fr.inst, fr.idx, x, t, r, fr⟩
      | _, _ => none

/-- Run the meaning of an instruction on the latched firing. -/
def onFire (s : State) (f : Dev → Fx → Dev) : Host.Outcome State Fault Refusal :=
  match s.dev.fx with
  | none => .fault .noFiring
  | some c => .next { s with dev := f s.dev c }

/-- Run an event of the device; one that cannot occur, or an access of which must wait, is turned away by name. -/
def onEvent (s : State) (name : String) (f : Dev → Option Dev) : Host.Outcome State Fault Refusal :=
  match f s.dev with
  | none => .refused (.notEnabled name)
  | some d => if d.balk then .refused (.mustWait name) else .next { s with dev := d }

/-- Run an event that reaches the root of trust too. -/
def onState (s : State) (name : String) (f : State → Option State) : Host.Outcome State Fault Refusal :=
  match f s with
  | none => .refused (.notEnabled name)
  | some t => if t.dev.balk then .refused (.mustWait name) else .next t

/-- An earlier write of the host waits for sectors: later requests of any function stay behind it (R404). -/
def Dev.hostHeld (d : Dev) : Bool := d.pend.any fun i => match i with | .aperture .. => true | _ => false

/-- An earlier write of a peer waits for sectors. -/
def Dev.peerHeld (d : Dev) (p : Nat) : Bool := d.pend.any fun i => match i with
  | .aperture .. => false
  | .peer q _ _ => q == p
  | .peerAdd q _ _ _ => q == p

/-- A peer's request, which stays behind its earlier ones (R404). -/
def Dev.peerDo (d : Dev) (p : Nat) (r : Option Dev) : Option Dev := some (if d.peerHeld p then d.mustWait else r.getD d.mustWait)

/-- Run a request of the host to a function's own BARs. Requests take effect in arrival order (R404), and in Returned no
virtual function is enabled (R410). -/
def onFn (s : State) (fn : Nat) (name : String) (f : Dev → Option Dev) : Host.Outcome State Fault Refusal :=
  if s.rot.sec == .returned && fn != 0 then .refused (.notEnabled name)
  else if s.dev.hostHeld then .refused (.mustWait name) else onEvent s name f

/-- The block's address. -/
def Fx.blk (c : Fx) : Word := c.r.blk

/-- The firing is of an LDVS, which loads scales. -/
def Fx.scl (c : Fx) : Bool := match c.r.image.instr c.idx with | some (.ldvs ..) => true | _ => false

/-- The translation context of the firing's thread, on the PE of its instruction. -/
def Fx.ctx (c : Fx) : XCtx := ⟨c.t.asid, c.t.part, c.t.die, c.x.cr.sys, some c.i, c.r.diePe c.idx, c.scl⟩

/-- Trap the instance at this instruction (R11, R43). -/
def Dev.trapAt (d : Dev) (c : Fx) (cause : Cause) (faddr : Word) (other : Option (Other × Bool) := none) : Dev :=
  d.trapBlock c.i c.idx cause faddr other

/-! ### Sending (R47, R82, R84, R338) -/

/-- Outputs as the producer stamps them: its own instance's tag (R47, R82). -/
def outputs (c : Fx) (tgts : List Tgt) (tok : Token) : List (Nat × Target × Bool × Token) :=
  match c.r.image.instr c.idx with
  | none => []
  | some ins => (tgts.filterMap id).map fun t => (c.idx, t, c.r.image.scaleAt ins t, { tok with tag := c.x.tag })

/-- Send a token to targets. -/
def Dev.send (d : Dev) (c : Fx) (tgts : List Tgt) (tok : Token) : Dev :=
  (d.modInst c.i fun x => { x with held := x.held ++ outputs c tgts tok }).pump c.i

/-- Instruction `idx` of an instance as a firing without tokens: what a reply acts for. -/
def Dev.fxOf (d : Dev) (i idx : Nat) : Option Fx :=
  match d.inst i with
  | none => none
  | some x =>
    match d.thread x.tid, d.region x.reg with
    | some t, some r => some ⟨i, idx, x, t, r, ⟨i, idx, none, none, none, none, none, .new⟩⟩
    | _, _ => none

/-- Send a token to the targets of instruction `idx`, as its reply. -/
def Dev.sendFrom (d : Dev) (i idx : Nat) (tok : Token) : Dev :=
  match d.fxOf i idx with
  | none => d
  | some c => d.send c (match c.r.image.instr idx with | some ins => ins.tgts | none => []) tok

/-- Send the replies of an instruction that have returned, in request order (R183). -/
def Dev.flushList (d : Dev) (i idx : Nat) : List Req → Dev
  | [] => d
  | q :: r =>
    if q.idx ≠ idx then (d.modInst i fun x => { x with reqs := x.reqs ++ [q] }).flushList i idx r
    else if !q.back then d.modInst i fun x => { x with reqs := x.reqs ++ (q :: r) }
    else (d.sendFrom i idx q.out).flushList i idx r

def Dev.flush (d : Dev) (i idx : Nat) : Dev :=
  match d.inst i with
  | none => d
  | some x => (d.modInst i fun x => { x with reqs := [] }).flushList i idx x.reqs

/-- Queue requests whose replies will make a token (R183), by the translations of the leaf entries `leafs`. -/
def Dev.request (d : Dev) (c : Fx) (lines : Nat) (gen : Bool) (tok : Token) (leafs : List Nat) : Dev :=
  let d := if gen then d.count c.t.rcb fun u => { u with iss := u.iss + 1 } else d
  d.modInst c.i fun x => { x with reqs := x.reqs ++ [⟨c.idx, tok, gen, false, lines, leafs⟩] }

/-- Send a token behind the replies still to come of the same instruction (R84, R183). -/
def Dev.sendQ (d : Dev) (c : Fx) (tgts : List Tgt) (tok : Token) : Dev :=
  match d.inst c.i with
  | none => d
  | some x =>
    if x.reqs.any fun q => q.idx == c.idx then
      d.modInst c.i fun x => { x with reqs := x.reqs ++ [⟨c.idx, tok, false, true, 0, []⟩] }
    else d.send c tgts tok

/-! ### Which tokens a firing takes -/

/-- What a firing takes from its slots. -/
structure Take where
  a : Bool
  b : Bool
  p : Bool
  deriving DecidableEq, Repr

/-- The state that an instruction keeps within the instance. -/
def Inst.opst (x : Inst) (idx : Nat) : Option OpSt := tget idx x.ops

def Dev.setOp (d : Dev) (c : Fx) (s : OpSt) : Dev := d.modInst c.i fun x => { x with ops := tput c.idx s x.ops }

def Dev.clearOp (d : Dev) (c : Fx) : Dev := d.modInst c.i fun x => { x with ops := tdel c.idx x.ops }

/-- How slot p of a predicated instruction decides (R86). -/
inductive Sel where
  | yes | no
  | bad (t : Token)
  deriving DecidableEq, Repr

/-- The decision of slot p (R86). -/
def selOf (m : Pred) (p : Option Token) : Sel :=
  match m, p with
  | .always, _ => .yes
  | _, none => .yes
  | m, some t =>
    let t := t.scalarView
    match t.kind with
    | .data => if (t.val != 0) == (m == .onTrue) then .yes else .no
    | .error => .bad t
    | .stop => .bad (errTok .grammar 0)
    | .done => .bad (errTok .grammar 0)
    | _ => .no

/-- MERGE takes one data slot, a before b, and p when predicated (R100, R101). -/
def takeMerge (m : Pred) (a b p : Option Token) : Option Take :=
  if m != .always && p.isNone then none
  else if a.isSome then some ⟨true, false, m != .always⟩
  else if b.isSome then some ⟨false, true, m != .always⟩
  else none

/-- CARRY: a before b; data at b waits for a held value unless the firing is not selected (R101). -/
def takeCarry (m : Pred) (held : Bool) (a b p : Option Token) : Option Take :=
  if m != .always && p.isNone then none
  else if a.isSome then some ⟨true, false, m != .always⟩
  else
    match b with
    | none => none
    | some t =>
      if t.kind = .data && !held && selOf m p = .yes then none else some ⟨false, true, m != .always⟩

/-- While draining, a slot is taken until it has delivered done (R337); a predicate is taken while one stands there
(log 75). -/
def takeDrain (wa wb : Bool) (a b p : Option Token) : Option Take :=
  let ta := wa && a.isSome
  let tb := wb && b.isSome
  if ta || tb || p.isSome then some ⟨ta, tb, p.isSome⟩ else none

def isKind (k : Kind) (t : Option Token) : Bool := match t with | some t => t.kind == k | none => false

/-- FISECT and FUNION: a null or error at once; else the slots that the step names (R326, R342, R343). -/
def takePair (a b : Option Token) : Option Take :=
  if isKind .null a || isKind .error a then some ⟨true, false, false⟩
  else if isKind .null b || isKind .error b then some ⟨false, true, false⟩
  else
    match a, b with
    | some ta, some tb =>
      if ta.kind = .data && tb.kind = .data then
        let x := (ta.lane 0).toNat
        let y := (tb.lane 0).toNat
        some ⟨x ≤ y, y ≤ x, false⟩
      else if ta.kind = .data && tb.kind = .stop then some ⟨true, false, false⟩
      else if ta.kind = .stop && tb.kind = .data then some ⟨false, true, false⟩
      else some ⟨true, true, false⟩
    | _, _ => none

/-- FRPT: a alone while it holds a token, else both (R341). -/
def takeRpt (held : Bool) (a b : Option Token) : Option Take :=
  match a with
  | none => none
  | some ta =>
    if ta.kind = .null || ta.kind = .error || held then some ⟨true, false, false⟩
    else
      match b with
      | none => none
      | some tb => if tb.kind = .null then some ⟨false, true, false⟩ else some ⟨true, true, false⟩

/-- FBLD: its first data with the descriptor at b; then a; a token at b is always looked at (R346). -/
def takeBld (begun : Bool) (a b : Option Token) : Option Take :=
  if isKind .null a then some ⟨true, false, false⟩
  else if isKind .null (b.map Token.scalarView) then some ⟨false, true, false⟩
  else if begun then
    (if b.isSome then some ⟨false, true, false⟩ else if a.isSome then some ⟨true, false, false⟩ else none)
  else
    match a, b with
    | some _, some _ => some ⟨true, true, false⟩
    | _, _ => none

/-- The tokens an instruction would take next from the heads at its slots; `none` when it cannot fire. -/
def takeOf (im : Image) (x : Inst) (idx : Nat) : Option Take :=
  match im.instr idx, im.info idx with
  | some ins, some o =>
    let m := predOf ins
    let a := x.head idx .a false
    let b := x.head idx .b false
    let p := x.head idx .p false
    let st := x.opst idx
    let plain : Option Take :=
      if !o.hasA && !o.hasB && !o.pData && m == .always then none
      else if (o.hasA && a.isNone) || (o.hasB && b.isNone) || ((o.pData || m != .always) && p.isNone) then none
      else
        let needs (s : Slot) (t : Option Token) : Bool :=
          o.pair && (match t with | some t => t.geom != 0 | none => false) && (x.head idx s true).isNone
        if needs .a a || needs .b b then none else some ⟨o.hasA, o.hasB, o.pData || m != .always⟩
    match ins with
    | .mergeS .. => takeMerge m a b p
    | .mergeW .. => takeMerge m a b p
    | .carry .. => takeCarry m (match st with | some (.carry (some _)) => true | _ => false) a b p
    | .fisect .. => (match st with | some (.drain da db) => takeDrain da db a b none | _ => takePair a b)
    | .funion .. => (match st with | some (.drain da db) => takeDrain da db a b none | _ => takePair a b)
    | .frpt .. =>
      (match st with
       | some (.drain da db) => takeDrain da db a b none
       | some (.frpt (some _)) => takeRpt true a b
       | _ => takeRpt false a b)
    | .fbld => takeBld st.isSome a b
    | .fscan .. =>
      (match st with
       | some (.drain ..) => takeDrain true false a none p
       | some (.fscanSeg ..) => none
       | _ => plain)
    | .fvals .. => (match st with | some (.drain da db) => takeDrain da db a b p | _ => plain)
    | .fred .. => (match st with | some (.drain ..) => takeDrain true false a none none | _ => plain)
    | .fchk .. => (match st with | some (.drain ..) => takeDrain true false a none none | _ => plain)
    | .agen .. => (match st with | some (.agen ..) => none | _ => plain)
    | _ => plain
  | _, _ => none

/-- A generator with more to send goes on without taking a token (R181, R324). -/
def contOf (x : Inst) (idx : Nat) : Bool :=
  match x.opst idx with
  | some (.agen ..) => true
  | some (.fscanSeg ..) => true
  | _ => false

/-- The SVBND of an instance's instruction is in the Sieve or waits to enter it (R308). -/
def Dev.inSieve (d : Dev) (i idx : Nat) : Bool :=
  d.dies.any fun p => p.2.sieve.any fun s => s.inst == i && s.idx == idx

/-- Request slots that a firing of an instruction may need at once: one for each access of LDVS, one for each of the two value
loads of FVALS (R344), and one for each lane line of GATH and SCAT, of which there are at most 16 (R183); a firing waits until there is room for all of them (log 72). -/
def slotsOfInstr : Instr → Nat
  | .gath .. => 16
  | .scat .. => 16
  | .ldvs .. => 2
  | .fvals .. => 2
  | _ => 1

/-- A wait that keeps a request outstanding. -/
def Wait.isAccess : Wait → Bool
  | .access => true
  | .atomic => true
  | _ => false

/-- Requests outstanding on the PE of an instruction, across the region's instances, waiting accesses among them (R183),
with the slots that SVBNDs hold which had to wait for the Sieve (R308). -/
def Dev.peLoad (d : Dev) (r : Region) (reg idx : Nat) : Nat :=
  let pe := r.peOf idx
  let sv := (d.dies.map fun p => (p.2.sieve.filter fun s =>
    s.waited && r.peOf s.idx == pe && (match d.inst s.inst with | some x => x.reg == reg | none => false)).length).sum
  ((d.insts.filter fun p => p.2.reg == reg).map fun p =>
    ((p.2.reqs.filter fun q => !q.back && r.peOf q.idx == pe).map (·.lines)).sum +
      ((p.2.blocked.filter fun b => b.2.isAccess && r.peOf b.1.idx == pe).map fun b =>
        match r.image.instr b.1.idx with | some i => slotsOfInstr i | none => 0).sum).sum + sv

/-- The PE of an instruction has no room for the requests of a firing of it (R183). -/
def Dev.peFull (d : Dev) (r : Region) (reg idx : Nat) : Bool :=
  match r.image.instr idx, r.image.info idx with
  | some i, some o => o.cls == .m && 48 < d.peLoad r reg idx + slotsOfInstr i
  | _, _ => false

/-- How an instruction can fire next. -/
inductive Next where
  | start
  | again (f : Firing)
  | cont
  | take (t : Take)
  deriving DecidableEq, Repr

/-- Whether and how an instruction of an instance can fire (R84, R90, R183, R338). -/
def Dev.canFire (d : Dev) (i idx : Nat) : Option Next :=
  match d.inst i with
  | none => none
  | some x =>
    match d.region x.reg with
    | none => none
    | some r =>
      if x.atPoint || (x.held.any fun h => h.1 == idx) || (x.blocked.any fun b => b.1.idx == idx) || d.inSieve i idx then none
      else if d.peFull r x.reg idx then none
      else
        match x.again.find? fun f => f.idx == idx with
        | some f => some (.again f)
        | none =>
          if x.start.contains idx then some .start
          else if contOf x idx then some .cont
          else (takeOf r.image x idx).map .take

/-- Remove the first token at a position, counting a generator's reply as used, and as late where it was (R184). -/
def Dev.pop (d : Dev) (i idx : Nat) (slot : Slot) (scale : Bool) : Dev × Option Token :=
  match d.inst i with
  | none => (d, none)
  | some x =>
    match x.chans.find? fun c => c.idx == idx && c.slot == slot && c.scale == scale && !c.q.isEmpty with
    | none => (d, none)
    | some c =>
      let tok := c.q.head?
      let used := isKind .data tok && (match d.region x.reg with | some r => r.image.countsOn c.src idx slot | none => false)
      let late := if c.lt.headD false then 1 else 0
      let d := if used then
          (match d.thread x.tid with
           | some t => d.count t.rcb fun u => { u with use := u.use + 1, late := u.late + late }
           | none => d)
        else d
      ((d.modInst i fun x => { x with chans := x.chans.map fun k =>
        if k.src == c.src && k.idx == idx && k.slot == slot && k.scale == scale then k.pop else k }).refill i, tok)

/-- Take tokens as a firing takes them, scale tokens with their elements (R249, R290). -/
def Dev.popAll (d : Dev) (i idx : Nat) (t : Take) (mode : FireMode) : Dev :=
  let none_ : Dev → Dev × Option Token := fun d => (d, none)
  let (d, a) := if t.a then d.pop i idx .a false else none_ d
  let (d, sa) := if t.a then d.pop i idx .a true else none_ d
  let (d, b) := if t.b then d.pop i idx .b false else none_ d
  let (d, sb) := if t.b then d.pop i idx .b true else none_ d
  let (d, p) := if t.p then d.pop i idx .p false else none_ d
  { d with fire := some ⟨i, idx, a, b, p, sa, sb, mode⟩ }

/-- Latch the next firing of an instruction: take its tokens and put them into `fire`. -/
def Dev.latch (d : Dev) (i idx : Nat) : Option Dev :=
  match d.canFire i idx with
  | none => none
  | some .start =>
    some { d.modInst i (fun x => { x with start := x.start.filter (· != idx) }) with
      fire := some ⟨i, idx, none, none, none, none, none, .new⟩ }
  | some (.again f) =>
    some { d.modInst i (fun x => { x with again := x.again.filter fun g => g.idx != idx }) with
      fire := some { f with mode := .again } }
  | some .cont => some { d with fire := some ⟨i, idx, none, none, none, none, none, .cont⟩ }
  | some (.take t) => some (d.popAll i idx t .new)

/-! ### The predicate and the kinds of operands (R86..R90) -/

/-- What the kinds of a firing's operands make of it. -/
inductive Gate where
  /-- selected, and all data -/
  | act
  /-- not selected (R87), or an operand is null (R88) -/
  | null
  /-- a stop or done that passes (R88) -/
  | pass (t : Token)
  /-- an error token, an operand's own or made for a mix of kinds (R88) -/
  | err (t : Token)
  deriving DecidableEq, Repr

/-- R88's rows over the operands of slots a and b and their scales, in order, slot p where it is a data slot (R69), and
an error from a predicate. Beside stops or dones that pass, slot p must hold data and is ignored. -/
def kindRule (ops : List Token) (p perr : Option Token) : Gate :=
  let all := ops ++ p.toList
  match (all ++ perr.toList).find? fun t => t.kind == .error with
  | some e => .err e
  | none =>
    if all.any fun t => t.kind == .null then .null
    else if all.all fun t => t.kind == .data then .act
    else
      match ops with
      | [] => .err (errTok .grammar 0)
      | t :: r =>
        if p.toList.any fun u => u.kind != .data then .err (errTok .grammar 0)
        else if t.kind = .stop && r.all (fun u => u.kind == .stop && u.level == t.level) then .pass t
        else if t.kind = .done && r.all (fun u => u.kind == .done) then .pass t
        else .err (errTok .grammar 0)

/-- Which of slots a, b and p an instruction reads as scalars (R82). -/
structure Scalars where
  a : Bool
  b : Bool
  p : Bool
  deriving DecidableEq, Repr

def Scalars.all : Scalars := ⟨true, true, true⟩
def Scalars.none : Scalars := ⟨false, false, false⟩

/-- An operand as its instruction reads it. -/
def viewOp (scalar : Bool) (t : Option Token) : Option Token := if scalar then t.map Token.scalarView else t

/-- The data operands of a firing but slot p's, in the order a, a's scale, b, b's scale (R88, R290). -/
def dataOps (sc : Scalars) (f : Firing) : List Token :=
  (viewOp sc.a f.a).toList ++ f.sa.toList ++ (viewOp sc.b f.b).toList ++ f.sb.toList

/-- Slot p where it is a data slot: the row has no predicate (R69). -/
def dataP (m : Pred) (sc : Scalars) (f : Firing) : Option Token := if m = .always then viewOp sc.p f.p else none

/-- The gate of a firing (R86, R87, R88). -/
def gateOf (m : Pred) (sc : Scalars) (f : Firing) : Gate :=
  match selOf m f.p with
  | .no => .null
  | .yes => kindRule (dataOps sc f) (dataP m sc f) none
  | .bad t => kindRule (dataOps sc f) (dataP m sc f) (some t)

/-- An instruction with a result (R87, R88). -/
def Dev.ordinary (d : Dev) (c : Fx) (m : Pred) (sc : Scalars) (tgts : List Tgt) (act : Dev → Dev) : Dev :=
  match gateOf m sc c.fr with
  | .act => act d
  | .null => d.send c tgts Token.null
  | .pass t => d.send c tgts t
  | .err t => d.send c tgts t

/-- The same for an instruction whose results wait behind its requests (R183). -/
def Dev.ordinaryQ (d : Dev) (c : Fx) (m : Pred) (sc : Scalars) (tgts : List Tgt) (act : Dev → Dev) : Dev :=
  match gateOf m sc c.fr with
  | .act => act d
  | .null => d.sendQ c tgts Token.null
  | .pass t => d.sendQ c tgts t
  | .err t => d.sendQ c tgts t

/-- An instruction with neither a result nor the duties of a sink: only a selected firing acts (R87). -/
def Dev.plainAct (d : Dev) (c : Fx) (m : Pred) (act : Dev → Dev) : Dev :=
  match gateOf m .none c.fr with
  | .act => act d
  | _ => d

/-- A sink (R89): an error traps with its cause, and a stop or done that would pass traps. `tgts` are
the targets of an atomic, which alone among sinks has a result. -/
def Dev.sink (d : Dev) (c : Fx) (m : Pred) (sc : Scalars) (tgts : List Tgt) (act : Dev → Dev) : Dev :=
  match gateOf m sc c.fr with
  | .act => act d
  | .null => d.sendQ c tgts Token.null
  | .pass _ => d.trapAt c .malformedStream 0
  | .err t => d.trapAt c (causeOfErr t.err) t.val

/-- R90: the first firing of an instruction that fires at most once goes on, marked as made (R39); a
second one traps. A waiting access made again is the same firing. -/
def Dev.once (d : Dev) (c : Fx) (k : Dev → Dev) : Dev :=
  if c.fr.mode = .again then k d
  else if c.x.once.contains c.idx then d.trapAt c .malformedStream 0
  else k (d.modInst c.i fun x => { x with once := c.idx :: x.once, made := c.idx :: x.made })

/-- Buffer an effect until commit (R40). -/
def Dev.buffer (d : Dev) (c : Fx) (e : Eff) : Dev := d.modInst c.i fun x => { x with effs := x.effs ++ [(c.idx, e)] }

/-- Operands as an acting instruction reads them. -/
def Fx.a (c : Fx) : Token := c.fr.a.getD Token.null
def Fx.b (c : Fx) : Token := c.fr.b.getD Token.null
def Fx.p (c : Fx) : Token := c.fr.p.getD Token.null

end Sys2Proof.Machine
end

