-- ==== Sys2Proof/Machine/Flags.lean ====
section
/-!
DEFINITION. The sticky flags an instruction raises and the traps they can take (R114, R268..R270).
-/

namespace Sys2Proof.Machine

/-- The outcome of a meaning. -/
abbrev Res := Host.Outcome State Fault Refusal

/-- The trap that raised flags take under the enables sampled at admission: TEN[76] invalid, TEN[77]
divide by zero, TEN[78] position range (R270). -/
def trapOf (ten : BitVec 3) (f : BitVec 6) : Option Cause :=
  if (f.getLsbD 0 && ten.getLsbD 0) || (f.getLsbD 1 && ten.getLsbD 1) then some .arith
  else if f.getLsbD 5 && ten.getLsbD 2 then some .posrange
  else none

/-- Raise flags: an enabled one traps at the instruction with faulting address 0 and sends nothing;
otherwise they are buffered to commit (R269, R270). -/
def Dev.raise (d : Dev) (c : Fx) (f : BitVec 6) (k : Dev → Dev) : Dev :=
  match trapOf c.x.cr.ten f with
  | some cause => d.trapAt c cause 0
  | none => k (if f = 0 then d else d.modInst c.i fun x => { x with raised := x.raised ||| f })

/-- FLAGS after a commit (R269): the highest-index CRWR FPFLAGS that fired, else FLAGS at admission,
with every flag raised. -/
def flagsAfter (base : BitVec 6) (wr : Option Word) (raised : BitVec 6) : BitVec 6 :=
  (match wr with | some w => w.extractLsb' 0 6 | none => base) ||| raised

end Sys2Proof.Machine
end

