-- ==== Sys2Proof/Machine/Access.lean ====
section
/-!
DEFINITION. Accesses of instances (R170, R171, R211, R372, R373): the checks an access passes, what
happens as it arrives at its home, the bytes a load reads, and the sectors a store reserves.
-/

namespace Sys2Proof.Machine

/-! ### Checks (R170, R171, R212, R364) -/

/-- How an instruction or engine uses a page (R171). -/
inductive Use where
  | scalarLoad | tokenLoad | scalarStore | tokenStore | atomic | engineRead | engineWrite
  /-- a write of the host or a peer -/
  | hostRead | hostWrite
  deriving DecidableEq, Repr

def Use.acc : Use → Acc
  | .scalarLoad => .read | .tokenLoad => .read | .engineRead => .read | .hostRead => .read
  | .scalarStore => .write | .tokenStore => .write | .atomic => .write | .engineWrite => .write
  | .hostWrite => .write

/-- The shelf that holds a physical address (R199). -/
def shelfOf (pa : Nat) : Nat := pa / 2 ^ 26

/-- State of a shelf: open at reset (log 7). -/
def Dev.shelf (d : Dev) (n : Nat) : ShelfSt := (tget n d.shelves).getD .opened

/-- What the kind of a page makes of a use (R171), and its class of a write (R370). -/
def Dev.kindErr (d : Dev) (l : Leaf) (pa : Nat) (u : Use) : Option TErr :=
  match l.kind.toNat with
  | 0 =>
    if l.cls = 2 then
      (match u with
       | .scalarStore => some .perm | .tokenStore => some .perm | .atomic => some .perm | .hostWrite => some .perm
       | _ => none)
    else none
  | 1 => some .perm
  | 2 =>
    let sealed_ := d.shelf (shelfOf pa) == .sealed
    (match u with
     | .scalarLoad => if sealed_ then none else some .sealed
     | .tokenLoad => if sealed_ then none else some .sealed
     | .hostRead => if sealed_ then none else some .sealed
     | .engineRead => if sealed_ then none else some .sealed
     | .engineWrite => if sealed_ then some .sealed else none
     | _ => some .perm)
  | _ =>
    (match u with
     | .scalarLoad => none
     | .scalarStore => none
     | .hostRead => none
     | .hostWrite => none
     | _ => some .perm)

/-- Translate and check an access of `size` bytes at `va`, in R170's order; A and D are set when the translation
is made, before the line is decoded (R365, R372). A write under a summary page decodes its side entry too (R304). -/
def Dev.check (d : Dev) (c : XCtx) (va : Word) (size align : Nat) (u : Use) : Dev × Except TErr (Nat × Leaf) :=
  if !canonical va then (d, .error .page)
  else if va.toNat % align ≠ 0 then (d, .error .align)
  else
    match d.leafFor c va with
    | .error e => (d, .error e)
    | .ok l =>
      let pa := l.at va
      if l.nr then (d, .error .page)
      else if !l.allows u.acc c.sys then (d, .error .perm)
      else match d.kindErr l pa u with
        | some e => (d, .error e)
        | none =>
          if d.ringAt pa size then (d, .error .perm)
          else
            let wr := u.acc == .write
            let d := (d.setAD l wr).fill c va { l with a := true, d := l.d || wr }
            if d.cutAt pa size || (wr && l.sum && d.cutAt l.side 64) then (d, .error .decode) else (d, .ok (pa, l))

/-- Whether a failure is one of translation, which sends a fault record (R364). -/
def translationFail (e : TErr) : Bool :=
  match e with
  | .page => true | .perm => true | .sealed => true | _ => false

/-! ### Arrival of an instance's access (R209..R211) -/

/-- How an access ends. -/
inductive Got where
  | ok (d : Dev) (pa : Nat) (l : Leaf)
  | err (d : Dev) (e : TErr)
  /-- the access waits at its home -/
  | wait (d : Dev)
  /-- the instance is over -/
  | gone (d : Dev)

/-- A refresh window of a die is open in a cycle: one that an event has begun, or the one announced for this cycle (R200). -/
def Die.refreshing (x : Die) (cycle : Nat) : Bool :=
  (x.inWin && cycle < x.winEnd) || (x.winGap != 0 && x.nextWin ≤ cycle && cycle < x.nextWin + x.winLen)

/-- A shelf read falls into a refresh window (R200). -/
def Dev.inRefresh (d : Dev) (l : Leaf) (pa : Nat) : Bool :=
  l.kind = 2 && (match (memRow pa).bind Mem.dieOf with | some x => (d.die x).refreshing d.cycle | none => false)

/-- The arrival of an access that has passed its checks: footprint, then the records at its home. -/
def Dev.arriveFx (d : Dev) (c : Fx) (pa len : Nat) (va : Word) (wr atomic : Bool) (l : Leaf) : Got :=
  match d.overFoot c.x.tid c.t.seq pa len with
  | some ln => .gone (d.trapAt c .regionCapacity (va + BitVec.ofInt 64 (Int.ofNat (ln * 64) - Int.ofNat pa)))
  | none =>
    match d.arrive ⟨.inst c.i, pa, len, wr, atomic, va⟩ with
    | .ok d => .ok d pa l
    | .wait => .wait d
    | .retry d => .gone (d.abortRequeue c.i)
    | .raise d low os =>
      .gone (d.trapAt c .memoryModel (va + BitVec.ofNat 64 (low - pa)) ((os.head?.bind d.nameOf).map fun o => (o, false)))

/-- A load's access: checked, held in a refresh window, and recorded unless the shelf is sealed (R206). -/
def Dev.loadAt (d : Dev) (c : Fx) (va : Word) (size align : Nat) (u : Use) : Got :=
  match d.check c.ctx va size align u with
  | (d, .error e) => .err d e
  | (d, .ok (pa, l)) =>
    if d.inRefresh l pa then .wait d
    else if l.kind = 2 then .ok d pa l
    else
      match d.arriveFx c pa size va false false l with
      | .ok d pa l => .ok (d.noteRead pa size) pa l
      | g => g

/-- The leaf entries by whose translations the instance has accessed addresses. -/
def Dev.leafsAt (d : Dev) (c : Fx) (vas : List Word) : List Nat :=
  vas.filterMap fun va => (d.ownTlb c.ctx va).map fun t => t.leaf.entry

/-- Put bytes over a run of bytes from `a`. -/
def overlay (a : Nat) (bs : List Byte) (cells : List (Nat × Byte)) : List Byte :=
  cells.foldl (fun bs c => if a ≤ c.1 && c.1 < a + bs.length then bs.set (c.1 - a) c.2 else bs) bs

/-- An address of the device register window (R358). -/
def isWindow (pa : Nat) : Bool := memRow pa == some .devreg

/-- The bytes a load of an instance reads: memory, with the words its own atomics hold (R172, R187).
The device register window reads as a free value (log 11). -/
def Dev.loadBytes (d : Dev) (i : Nat) (pa n : Nat) : Dev × List Byte :=
  if isWindow pa then
    ({ d with freeSeq := d.freeSeq + 1 }, bytesOfNat n (Config.freeBytes d.freeSeq).toNat)
  else
    let own := d.holds.filter fun h => h.inst == i
    (d, own.foldl (fun bs h => overlay pa bs (cellsAt h.pa (bytesOfNat h.size h.cur.toNat))) (d.bytes pa n))

/-- The record of a failed translation that becomes an error token (R364). -/
def Dev.loadRecord (d : Dev) (c : Fx) (e : TErr) (va : Word) : Dev :=
  if translationFail e then d.threadRecord c.t e.cause va [BitVec.ofNat 8 c.idx] 0 else d

/-- A firing that waits: it is made again when the wait ends (R209, R137). -/
def Dev.block (d : Dev) (c : Fx) (w : Wait) : Dev :=
  d.modInst c.i fun x => { x with blocked := x.blocked ++ [({ c.fr with mode := .again }, w)] }

/-! ### Sectors for stores (R373, R377) -/

/-- How a reservation ends. -/
inductive Grant where
  | granted (d : Dev)
  | waits (d : Dev)
  | refused

/-- Ask for sectors of a home's pool for a chunk (R373, R374). Granted sectors count as held by the
pool and reserved in the chunk. -/
def Dev.askSectors (d : Dev) (part rcb home chunk need : Nat) (who : Claimant) (idx : Nat) (va : Word) : Grant :=
  if need = 0 then .granted d
  else if rcb != 0 && !d.sectorBudget rcb need then .refused
  else
    if !d.poolGives part home need then
      .waits (Dev.wakeLadle { d with resvs := d.resvs ++ [(⟨home, part, chunk, need, rcb, who, idx, va⟩ : Resv)] } part home true)
    else
      let d := d.moveSectors part home rcb need 0
      let k := d.chunk chunk
      .granted (d.putChunk chunk { k with resv := k.resv + need, part := if k.secs = 0 && k.resv = 0 then part else k.part })

/-- The bytes of a line as this instance's atomics and stores so far leave it (R172). -/
def Dev.lineOf (d : Dev) (i : Nat) (x : Inst) (ln : Nat) : List Byte :=
  let held := (d.holds.filter fun h => h.inst == i).foldl (fun bs h =>
    overlay (ln * 64) bs (cellsAt h.pa (bytesOfNat h.size h.cur.toNat))) (d.bytes (ln * 64) 64)
  x.effs.foldl (fun bs e =>
    match e.2 with
    | .store cells _ _ => overlay (ln * 64) bs cells
    | .swr desc _ cells => overlay (ln * 64) bs (d.streamCells desc cells)
    | _ => bs) held

/-- OUT_OF_SPACE for an instance (R42, R377): it aborts, its thread enters SPACE, its region ends and
a fault record goes. -/
def Dev.outOfSpace (d : Dev) (i part home idx : Nat) (va : Word) : Dev :=
  match d.inst i with
  | none => d
  | some x =>
    let p := d.pool part home
    let d := d.setPool part home { p with fails := Nat.min (p.fails + 1) (2 ^ 32 - 1) }
    match d.thread x.tid with
    | none => d
    | some t =>
      let d := d.dropInst i
      let d := d.threadRecord t .outOfSpace va [BitVec.ofNat 8 idx] 0
      (d.endRegion x.tid .sys).modThread x.tid fun t => { t with st := .space }

/-- Reserve the growth of one line that a store leaves as `line` (R373); `false` when the instance has
ended for want of sectors. A chunk of class none takes its eight sectors with its first line (R374). -/
def Dev.reserveLine (d : Dev) (i idx part rcb ln : Nat) (va : Word) (cls : BitVec 2) (line : List Byte) : Dev × Bool :=
  match chunkHome (ln / 64), d.inst i with
  | some home, some x =>
    let c := ln / 64
    let k := d.chunk c
    let grown := codeBytes (encodeLine cls line) - codeBytes (k.code (ln % 64))
    let had := ((x.resv.filter fun r => r.1 == ln).map fun r => r.2.1).sum
    let more := grown - had
    let k' := { k with grow := k.grow + more }
    let need := (if cls = 0 then 8 else k'.projected (payloadBytes k.full)) - (k.secs + k.resv)
    (match d.askSectors part rcb home c need (.inst i) idx va with
     | .refused => (d.outOfSpace i part home idx va, false)
     | .waits d =>
       ({ d with
          chunks := tput c { d.chunk c with grow := k.grow + more } d.chunks
          insts := tmod i (fun x => { x with resv := x.resv ++ [(ln, more, 0)] }) d.insts }, true)
     | .granted d =>
       if more = 0 && need = 0 then (d, true) else
       ({ d with
          chunks := tput c { d.chunk c with grow := k.grow + more } d.chunks
          insts := tmod i (fun x => { x with resv := x.resv ++ [(ln, more, need)] }) d.insts }, true))
  | _, _ => (d, true)

/-- Reserve for every line that buffered bytes touch (R373). -/
def Dev.reserveCells (d : Dev) (i idx part rcb : Nat) (va : Word) (cells : List (Nat × Byte)) (cls : BitVec 2) : Dev × Bool :=
  let lns := (cells.map fun c => c.1 / 64).eraseDups
  lns.foldl (fun (r : Dev × Bool) ln =>
    if !r.2 then r else
    match r.1.inst i with
    | none => (r.1, false)
    | some x => r.1.reserveLine i idx part rcb ln va cls (overlay (ln * 64) (r.1.lineOf i x ln) cells)) (d, true)

/-! ### Tokens and lanes in memory -/

/-- Lanes of a token that are valid, as runs of four bytes from a position. -/
def laneRuns (t : Token) (q : Nat) : List (Nat × Nat) :=
  ((List.range 16).filter t.vld).map fun i => (q + 4 * i, 4)

/-- The bytes of a token's valid lanes at a position (R139, R176). -/
def laneCells (t : Token) (q : Nat) : List (Nat × Byte) :=
  ((List.range 16).filter t.vld).flatMap fun i => cellsAt (q + 4 * i) (bytesOfNat 4 (t.lane i).toNat)

/-- The token of 64 bytes (R138, R174). -/
def tokenOfBytes (bs : List Byte) (fmt : BitVec 4) (geom : BitVec 2) : Token :=
  ⟨.data, 0, fmt, geom, 0, 0, 0xFFFF, BitVec.ofNat 512 (natOfBytes bs)⟩

/-- The address that a failure reports: the access's, or its line's where that cannot be decoded (R170, R372, R384). -/
def failAddr (e : TErr) (va : Word) : Word := if e = .decode then va - BitVec.ofNat 64 (va.toNat % 64) else va

/-- The same for an access of several whole lines: the first of them that cannot be decoded. -/
def Dev.failLine (d : Dev) (c : XCtx) (e : TErr) (va : Word) (n : Nat) : Word :=
  match e, d.leafFor c va with
  | .decode, .ok l => va + BitVec.ofNat 64 (64 * ((List.range (n / 64)).find? fun k => d.cutAt (l.at va + 64 * k) 64).getD 0)
  | _, _ => failAddr e va

/-! ### Loads and stores of instances -/

/-- A store's access, as a sink: checked, recorded, its sectors reserved and its bytes buffered. -/
def Dev.storeAt (d : Dev) (c : Fx) (va : Word) (bs : List Byte) (align : Nat) (u : Use) : Got :=
  match d.check c.ctx va bs.length align u with
  | (d, .error e) => .gone (d.trapAt c e.cause (failAddr e va))
  | (d, .ok (pa, l)) =>
    match d.arriveFx c pa bs.length va true false l with
    | .ok d pa l =>
      let cells := cellsAt pa bs
      (match d.reserveCells c.i c.idx c.t.part c.t.rcb va cells l.cls with
       | (d, false) => .gone d
       | (d, true) => .ok (d.buffer c (.store cells l.cls l.sideOf)) pa l)
    | g => g

/-- What an instruction does with the end of an access that must pass: go on, wait, or be over. -/
def Got.andThen (g : Got) (c : Fx) (fail : Dev → TErr → Dev) (k : Dev → Nat → Leaf → Dev) : Dev :=
  match g with
  | .ok d pa l => k d pa l
  | .err d e => fail d e
  | .wait d => d.block c .access
  | .gone d => d

/-- A failed load: its record, and the error token behind the requests before it (R170). -/
def Dev.loadFail (d : Dev) (c : Fx) (tgts : List Tgt) (va : Word) (e : TErr) : Dev :=
  (d.loadRecord c e va).sendQ c tgts (errTok e (failAddr e va))

/-- A check at firing of an address that a commit effect will use (R98, R107, R192, R195, R198). -/
def Dev.checkSink (d : Dev) (c : Fx) (va : Word) (size align : Nat) (acc : Acc) (k : Dev → Nat → Leaf → Dev) : Dev :=
  let u : Use := match acc with | .write => .atomic | _ => .scalarLoad
  match d.check c.ctx va size align u with
  | (d, .error e) => d.trapAt c e.cause (failAddr e va)
  | (d, .ok (pa, l)) => k d pa l

end Sys2Proof.Machine
end

