-- ==== Sys2Proof/Machine/Control.lean ====
section
/-!
DEFINITION. Block and dataflow control instructions (R93..R107).
-/

namespace Sys2Proof.Machine

/-! ### Shared operations -/

/-- The predicate of an instruction that has kind rules of its own (R86, R87): null where it is not
selected; the first error in slot order where slot p makes it act as on an error. -/
def Dev.moves (d : Dev) (c : Fx) (m : Pred) (tgts : List Tgt) (act : Dev → Dev) : Dev :=
  match selOf m c.fr.p with
  | .no => d.send c tgts Token.null
  | .yes => act d
  | .bad t => d.send c tgts (((c.fr.a.toList ++ c.fr.b.toList).find? fun u => u.kind == .error).getD t)

/-- An exit that acts (R90, R96): a second one in the instance traps at its own index. -/
def Dev.leave (d : Dev) (c : Fx) (e : Exit) : Dev :=
  if c.x.exit.isSome then d.trapAt c .malformedStream 0
  else d.modInst c.i fun x => { x with exit := some e }

/-- Check an exit's address (R97). -/
def Dev.checkTarget (d : Dev) (c : Fx) (a : Word) (k : Dev → Dev) : Dev :=
  if a.toNat % 16 ≠ 0 then d.trapAt c .align a
  else if !canonical a then d.trapAt c .pageFault a
  else k d

/-- Note a synchronising operation of the instance (R189, R202). -/
def Dev.mark (d : Dev) (c : Fx) (f : Marks → Marks) : Dev := d.modInst c.i fun x => { x with marks := f x.marks }

/-- At most one WAITC or BAR fires in an instance (R195). -/
def Dev.oneParker (d : Dev) (c : Fx) (k : Dev → Dev) : Dev :=
  if c.fr.mode != .again && c.x.parkers != 0 then d.trapAt c .malformedStream 0
  else k (d.modInst c.i fun x => { x with parkers := 1 })

/-- A launch value as READ delivers it: k6 and k7 read as zero (R93). -/
def kReg (k : Vector Word 6) (n : Nat) : Word := k[n]?.getD 0

/-- MERGE (R100, R101): sends the token it took. -/
def Dev.mergeFire (d : Dev) (c : Fx) (m : Pred) (tgts : List Tgt) : Dev :=
  match selOf m c.fr.p with
  | .no => d.send c tgts Token.null
  | .yes => d.send c tgts (c.fr.a.getD c.b)
  | .bad t => d.send c tgts t

/-- CARRY (R101): a token at a sets or clears what is held; data at b sends it. -/
def Dev.carryFire (d : Dev) (c : Fx) (m : Pred) (tgts : List Tgt) : Dev :=
  match selOf m c.fr.p with
  | .no => d.send c tgts Token.null
  | .bad t => d.send c tgts t
  | .yes =>
    match c.fr.a with
    | some t =>
      (match t.kind with
       | .data => d.setOp c (.carry (some t))
       | .error => d.send c tgts t
       | _ => d.setOp c (.carry none))
    | none =>
      if c.b.kind = .data then
        (match c.x.opst c.idx with
         | some (.carry (some h)) => d.send c tgts h
         | _ => d)
      else d.send c tgts c.b

/-- INIT (R102): once at admission, and once for each token at p that selects it. -/
def Dev.initFire (d : Dev) (c : Fx) (m : Pred) (tgts : List Tgt) (v : Word) : Dev :=
  match selOf m c.fr.p with
  | .no => d
  | .yes => d.send c tgts (scalarTok v)
  | .bad t => d.send c tgts t

/-- STEER (R99), with the targets of the true and the false side. -/
def Dev.steerFire (d : Dev) (c : Fx) (yes no : List Tgt) : Dev :=
  let b := c.b.scalarView
  let all_ := yes ++ no
  match b.kind with
  | .data =>
    if c.a.kind = .error then d.send c all_ c.a
    else d.send c (if b.val = 0 then no else yes) c.a
  | .null => d.send c all_ Token.null
  | .error => d.send c all_ b
  | _ => d.send c all_ (errTok .grammar 0)

/-- What LVLUP and LVLDN make of a token (R106); none where nothing is sent. -/
def lvlUp (n : Nat) (t : Token) : Option Token :=
  if t.kind = .stop then
    (if t.level.toNat + n ≤ 7 then some (stopTok (t.level.toNat + n)) else some (errTok .grammar 0))
  else some t

def lvlDn (n : Nat) (t : Token) : Option Token :=
  if t.kind = .stop then (if n ≤ t.level.toNat then some (stopTok (t.level.toNat - n)) else none) else some t

/-- What STOP and DONE send for a token at a (R104). -/
def stopOf (l : Nat) (t : Token) : Token := if t.kind = .data then stopTok l else t
def doneOf (t : Token) : Token := if t.kind = .data || t.kind = .stop then doneTok else t

/-- TESTK's scalar (R105). -/
def testKind (mask : BitVec 6) (t : Token) : Word := if mask.getLsbD t.kind.num then 1 else 0

/-! ### The instructions -/

/-- NOP (R95): nothing. -/
def execNop (p : Pred) (s : State) : Res :=
  onFire s fun d c => d.plainAct c p id

/-- READ (R93): a register as it stood at admission. -/
def execRead (p : Pred) (n : BitVec 4) (file : RFile) (t1 : Tgt) (t2 : Tgt) (t3 : Tgt) (s : State) : Res :=
  onFire s fun d c => d.ordinary c p .none [t1, t2, t3] fun d =>
    d.send c [t1, t2, t3] (scalarTok (match file with
      | .g => c.x.g[n.toNat]?.getD 0
      | .k => kReg c.x.k (n.toNat % 8)))

/-- WRITE (R94): a register write, made at commit. -/
def execWrite (p : Pred) (n : BitVec 4) (s : State) : Res :=
  onFire s fun d c => d.once c fun d =>
    d.sink c p .all [] fun d => d.buffer c (.gw n.toNat c.a.val)

/-- VREAD (R93): a token register as it stood at admission. -/
def execVread (p : Pred) (n : BitVec 2) (t1 : Tgt) (t2 : Tgt) (t3 : Tgt) (s : State) : Res :=
  onFire s fun d c => d.ordinary c p .none [t1, t2, t3] fun d =>
    d.send c [t1, t2, t3] (c.x.v[n.toNat]?.getD Token.null)

/-- VWRITE (R94): a token register write, made at commit; a stop or done is stored. -/
def execVwrite (p : Pred) (n : BitVec 2) (s : State) : Res :=
  onFire s fun d c => d.once c fun d =>
    match selOf p c.fr.p with
    | .no => d
    | .yes =>
      (match c.a.kind with
       | .error => d.trapAt c (causeOfErr c.a.err) c.a.val
       | .null => d
       | _ => d.buffer c (.vw n.toNat { c.a with tag := 0 }))
    | .bad t =>
      let t := if c.a.kind = .error then c.a else t
      d.trapAt c (causeOfErr t.err) t.val

/-- MOV_S (R95): sends the token at a unchanged. -/
def execMovS (p : Pred) (t1 : Tgt) (t2 : Tgt) (s : State) : Res :=
  onFire s fun d c => d.moves c p [t1, t2] fun d => d.send c [t1, t2] c.a

/-- MOV_W (R95): sends the token at a unchanged. -/
def execMovW (p : Pred) (t1 : Tgt) (t2 : Tgt) (t3 : Tgt) (t4 : Tgt) (s : State) : Res :=
  onFire s fun d c => d.moves c p [t1, t2, t3, t4] fun d => d.send c [t1, t2, t3, t4] c.a

/-- MOVX (R95): a data token with a new format and geometry. -/
def execMovx (p : Pred) (fmt : BitVec 4) (geom : BitVec 2) (_scl : Bool) (t1 : Tgt) (t2 : Tgt) (t3 : Tgt) (s : State) : Res :=
  onFire s fun d c => d.moves c p [t1, t2, t3] fun d =>
    d.send c [t1, t2, t3] (if c.a.kind = .data then { c.a with fmt := fmt, geom := geom } else c.a)

/-- NULL_S (R95): a null token to every target. -/
def execNullS (p : Pred) (t1 : Tgt) (t2 : Tgt) (s : State) : Res :=
  onFire s fun d c => d.ordinary c p .none [t1, t2] fun d => d.send c [t1, t2] Token.null

/-- NULL_W (R95): a null token to every target. -/
def execNullW (p : Pred) (t1 : Tgt) (t2 : Tgt) (t3 : Tgt) (t4 : Tgt) (s : State) : Res :=
  onFire s fun d c => d.ordinary c p .none [t1, t2, t3, t4] fun d => d.send c [t1, t2, t3, t4] Token.null

/-- BR (R96, R97): an exit to the address at a, which is checked before R90's rule of a second exit (log 69). -/
def execBr (p : Pred) (s : State) : Res :=
  onFire s fun d c => d.once c fun d =>
    d.sink c p .all [] fun d => d.checkTarget c c.a.val fun d => d.leave c (.goto c.a.val false)

/-- BRI (R96, R97): an exit to a named block. -/
def execBri (p : Pred) (lit : BitVec 32) (s : State) : Res :=
  onFire s fun d c => d.once c fun d =>
    d.sink c p .all [] fun d => d.checkTarget c (blockDisp c.blk lit) fun d => d.leave c (.goto (blockDisp c.blk lit) false)

/-- CALL (R96, R97): an exit to a named block, whose address is checked before the return address; the block at the return
address is fetched. -/
def execCall (p : Pred) (lit : BitVec 32) (s : State) : Res :=
  onFire s fun d c => d.once c fun d =>
    d.sink c p .all [] fun d => d.checkTarget c (blockDisp c.blk lit) fun d => d.checkTarget c c.a.val fun d =>
      if c.x.exit.isSome then d.trapAt c .malformedStream 0
      else (d.buffer c (.cfetch c.a.val)).leave c (.goto (blockDisp c.blk lit) false)

/-- RET (R96, R97): an exit to the address at a, as BR. -/
def execRet (p : Pred) (s : State) : Res :=
  onFire s fun d c => d.once c fun d =>
    d.sink c p .all [] fun d => d.checkTarget c c.a.val fun d => d.leave c (.goto c.a.val false)

/-- HALT (R96): the thread retires at commit. -/
def execHalt (p : Pred) (s : State) : Res :=
  onFire s fun d c => d.once c fun d =>
    d.sink c p .all [] fun d => (d.mark c fun m => { m with halt := true }).leave c .halt

/-- YIELD (R96, R97): an exit to a named block; the thread's age restarts and its context is written out first. -/
def execYield (p : Pred) (lit : BitVec 32) (s : State) : Res :=
  onFire s fun d c => d.once c fun d =>
    d.sink c p .all [] fun d => d.checkTarget c (blockDisp c.blk lit) fun d => d.leave c (.goto (blockDisp c.blk lit) true)

/-- SPAWN (R98): a launch, buffered to commit. -/
def execSpawn (lit : BitVec 32) (s : State) : Res :=
  onFire s fun d c => d.sink c .always .all [] fun d =>
    let n := c.a.val.toNat
    let obj := c.p.val
    if n = 0 || 2 ^ 32 < n then d.trapAt c .queue obj
    else if obj.toNat % 16 ≠ 0 then d.trapAt c .align obj
    else d.checkSink c obj 16 1 .write fun d pa _ => d.buffer c (.spawn (blockDisp c.blk lit) n c.b.val obj pa)

/-- STEER_S (R99): the token at a to the side that b chooses. -/
def execSteerS (p : Pred) (t1 : Tgt) (t2 : Tgt) (s : State) : Res :=
  onFire s fun d c => d.moves c p [t1, t2] fun d => d.steerFire c [t1] [t2]

/-- STEER_W (R99): the token at a to the side that b chooses. -/
def execSteerW (p : Pred) (t1 : Tgt) (t2 : Tgt) (t3 : Tgt) (s : State) : Res :=
  onFire s fun d c => d.moves c p [t1, t2, t3] fun d => d.steerFire c [t1, t3] [t2]

/-- MERGE_S (R100): sends on the token of either slot. -/
def execMergeS (p : Pred) (t1 : Tgt) (t2 : Tgt) (s : State) : Res :=
  onFire s fun d c => d.mergeFire c p [t1, t2]

/-- MERGE_W (R100): sends on the token of either slot. -/
def execMergeW (p : Pred) (t1 : Tgt) (t2 : Tgt) (t3 : Tgt) (s : State) : Res :=
  onFire s fun d c => d.mergeFire c p [t1, t2, t3]

/-- CARRY (R101): repeats a held value for each element at b. -/
def execCarry (p : Pred) (t1 : Tgt) (t2 : Tgt) (s : State) : Res :=
  onFire s fun d c => d.carryFire c p [t1, t2]

/-- INIT_W (R102): a constant at admission and on each selecting token. -/
def execInitW (p : Pred) (v : BitVec 16) (t1 : Tgt) (t2 : Tgt) (t3 : Tgt) (s : State) : Res :=
  onFire s fun d c => d.initFire c p [t1, t2, t3] (sx v)

/-- INIT_L (R102): a constant at admission and on each selecting token. -/
def execInitL (p : Pred) (lit : BitVec 32) (t1 : Tgt) (t2 : Tgt) (t3 : Tgt) (s : State) : Res :=
  onFire s fun d c => d.initFire c p [t1, t2, t3] (sx lit)

/-- GATE (R103): the token at a, once b has come. -/
def execGate (p : Pred) (t1 : Tgt) (t2 : Tgt) (s : State) : Res :=
  onFire s fun d c => d.moves c p [t1, t2] fun d =>
    d.send c [t1, t2] (if c.b.kind = .error then c.b else c.a)

/-- STOP (R104): data becomes a stop. -/
def execStopTok (p : Pred) (lvl : BitVec 3) (t1 : Tgt) (t2 : Tgt) (t3 : Tgt) (s : State) : Res :=
  onFire s fun d c => d.moves c p [t1, t2, t3] fun d => d.send c [t1, t2, t3] (stopOf lvl.toNat c.a)

/-- DONE (R104): data and stops become done. -/
def execDoneTok (p : Pred) (t1 : Tgt) (t2 : Tgt) (s : State) : Res :=
  onFire s fun d c => d.moves c p [t1, t2] fun d => d.send c [t1, t2] (doneOf c.a)

/-- TESTK (R105): 1 if the mask holds the token's kind, else 0. -/
def execTestk (p : Pred) (mask : BitVec 6) (t1 : Tgt) (t2 : Tgt) (t3 : Tgt) (s : State) : Res :=
  onFire s fun d c => d.moves c p [t1, t2, t3] fun d =>
    d.send c [t1, t2, t3] (scalarTok (testKind mask c.a))

/-- LVLUP (R106): changes the level of a stop. -/
def execLvlup (p : Pred) (amt : BitVec 3) (t1 : Tgt) (t2 : Tgt) (t3 : Tgt) (s : State) : Res :=
  onFire s fun d c => d.moves c p [t1, t2, t3] fun d =>
    match lvlUp amt.toNat c.a with
    | some t => d.send c [t1, t2, t3] t
    | none => d

/-- LVLDN (R106): changes the level of a stop. -/
def execLvldn (p : Pred) (amt : BitVec 3) (t1 : Tgt) (t2 : Tgt) (t3 : Tgt) (s : State) : Res :=
  onFire s fun d c => d.moves c p [t1, t2, t3] fun d =>
    match lvlDn amt.toNat c.a with
    | some t => d.send c [t1, t2, t3] t
    | none => d

/-- BAR (R107, R195, R202): a barrier arrival, made at commit; its update is a tracked atomic. -/
def execBar (p : Pred) (s : State) : Res :=
  onFire s fun d c => d.sink c p .all [] fun d => d.oneParker c fun d =>
    let w := c.a.val
    let n := Nat.min (Nat.max c.b.val.toNat 1) (2 ^ 32 - 1)
    if w.toNat % 8 ≠ 0 then d.trapAt c .align w
    else d.checkSink c w 8 8 .write fun d pa l =>
      (d.arriveFx c pa 8 w true true l).andThen c (fun d _ => d) fun d pa _ =>
        (d.mark c fun m => { m with own := true }).buffer c (.bar w pa n)


end Sys2Proof.Machine
end

