-- ==== Sys2Proof/Machine/Window.lean ====
section
/-!
DEFINITION. Stream windows: the descriptor and its cache (R129..R131), the checks of stream
instructions (R136), waits (R137), tracked accesses to frames (R206) and what a commit does to a
stream (R144). Host participants act through the same operations (R149).
-/

namespace Sys2Proof.Machine

/-! ### The descriptor (R129, R130) -/

/-- A descriptor's 512 bits as the cache holds it. -/
def parseStream (v home : Nat) : Stream :=
  let e := 2 ^ nfld v 85 83
  let tail := nfld v 191 128
  let reader (j : Nat) : Reader :=
    { joined := v.testBit (103 + j), cur := tail + e * nfld v (192 + 40 * j + 39) (192 + 40 * j + 20),
      rel := tail + e * nfld v (192 + 40 * j + 19) (192 + 40 * j), host := v.testBit (113 + j) }
  { home := home, tail := tail, hwm := tail + e * nfld v 19 0,
    readers := Vector.ofFn fun j : Fin 8 => reader j,
    hpro := v.testBit 112, pj := v.testBit 111, ovu := nfld v 102 95, ovb := nfld v 94 87, mem := v.testBit 86,
    esz := nfld v 85 83, fsz := nfld v 82 78, nf := nfld v 77 66,
    fbase := nfld v 65 20, dirty := false, users := [], spans := [] }

/-- The validity of a descriptor (R130). -/
def Dev.descOk (d : Dev) (desc v : Nat) : Bool :=
  let s := parseStream v 9
  let e := s.esize
  let f := s.fsize
  s.esz ≤ 6 && e ≤ f && (if s.mem then 12 ≤ s.fsz && s.fsz ≤ 21 else 2 ≤ s.fsz && s.fsz ≤ 12) &&
    1 ≤ s.nf && (s.nf + s.ovb) * f / e ≤ 2 ^ 20 - 1 && s.ovu ≤ s.ovb &&
    (if s.mem then (match d.rangeIn s.base (s.nf * f) with | some .devreg => false | some _ => true | none => false)
     else nfld v 41 20 * 64 + s.nf * f ≤ 2 ^ 28) &&
    (s.readers.toList.all fun r => !r.joined || (r.rel ≤ r.cur && r.cur ≤ s.hwm)) &&
    nfld v 19 0 * e ≤ (s.nf + s.ovu) * f && !(s.pj && s.hpro) &&
    (s.ovu == 0 || (match tget desc d.drip with | some x => x.2.length == s.ovu | none => false)) && nfld v 127 121 == 0

/-- The 512 bits of a descriptor as a write-back stores them. Of a reader that is not joined, CURD and RELD are what
its last positions leave, 0 where TAIL has passed them (log 34). -/
def Stream.num (s : Stream) : Nat :=
  let e := s.esize
  let bit (b : Bool) (n : Nat) : Nat := if b then 2 ^ n else 0
  let rd (j : Nat) : Nat :=
    let r := s.reader j
    ((r.rel - s.tail) / e % 2 ^ 20 + (r.cur - s.tail) / e % 2 ^ 20 * 2 ^ 20) * 2 ^ (192 + 40 * j) +
      bit r.joined (103 + j) + bit r.host (113 + j)
  (s.hwm - s.tail) / e % 2 ^ 20 + s.fbase % 2 ^ 46 * 2 ^ 20 + s.nf % 2 ^ 12 * 2 ^ 66 + s.fsz % 2 ^ 5 * 2 ^ 78 +
    s.esz % 8 * 2 ^ 83 + bit s.mem 86 + s.ovb % 256 * 2 ^ 87 + s.ovu % 256 * 2 ^ 95 + bit s.pj 111 + bit s.hpro 112 +
    s.tail % 2 ^ 64 * 2 ^ 128 + ((List.range 8).map rd).sum

/-! ### The cache (R131) -/

def Dev.setStream (d : Dev) (desc : Nat) (s : Stream) : Dev := { d with streams := tput desc s d.streams }

/-- A firing of the instance waits on the stream, or has passed its checks and is to be made again (R137). -/
def Inst.waitsOn (x : Inst) (desc : Nat) : Bool :=
  (!x.blocked.isEmpty || !x.again.isEmpty) && x.ops.any fun o => match o.2 with | .spos ds _ _ => ds == desc | _ => false

/-- The stream of a buffered effect. -/
def Eff.streamOf : Eff → Option Nat
  | .swr ds _ _ => some ds
  | .spub ds _ => some ds
  | .srd ds _ _ => some ds
  | .srel ds _ _ => some ds
  | .srew ds _ _ => some ds
  | .sjoinR ds _ _ => some ds
  | .sjoinP ds => some ds
  | .sleave ds _ => some ds
  | _ => none

/-- An instance in flight waits on the stream or has buffered something for it. -/
def Dev.streamHeld (d : Dev) (desc : Nat) : Bool :=
  d.insts.any fun p => p.2.waitsOn desc || p.2.effs.any fun e => e.2.streamOf == some desc

/-- Write a descriptor back (R131). The first die to touch it afterwards is its home; operations that wait on it stand at
the home die it has, and extension frames bind it (R147, log 60). -/
def Dev.streamBack (d : Dev) (desc : Nat) : Dev :=
  match tget desc d.streams with
  | none => d
  | some s =>
    let d := d.agentWrite desc (bytesOfNat 64 s.num)
    d.setStream desc { s with home := if s.mem && s.ovu == 0 && !d.streamHeld desc then 9 else s.home, dirty := false, users := [] }

/-- A descriptor leaves the cache. -/
def Dev.streamDrop (d : Dev) (desc : Nat) : Dev :=
  let d := d.streamBack desc
  { d with streams := tdel desc d.streams }

/-- A place for a descriptor that is to have its home on a die: among the die's 4,096 entries and the package's
32,768, one that is free, or that of a descriptor on which nothing waits. `none` when every entry is held (R30, R131). -/
def Dev.streamRoom (d : Dev) (die : Nat) : Option Dev :=
  let at_ (h : Nat) := d.streams.filter fun p => p.2.home == h
  let evict (l : List (Nat × Stream)) : Option Dev := (l.find? fun p => !d.streamHeld p.1).map fun p => d.streamDrop p.1
  if die < 8 && 4096 ≤ (at_ die).length then evict (at_ die)
  else if 32768 ≤ d.streams.length then evict (at_ 9 ++ d.streams)
  else some d

/-- The end of a descriptor's lookup: an invalid descriptor (R130), one whose chunk cannot be decoded (R372), an
operation from another die than a scratch stream's home (R131), or no entry. -/
inductive StreamAt where
  | ok (d : Dev) (s : Stream)
  | bad (d : Dev)
  | cut (d : Dev)
  | far (d : Dev)
  | full (d : Dev)

/-- The cursors of a stream's readers as an instance in flight at its load saw them at its admission (R128). -/
def cursorRefs (desc : Nat) (s : Stream) : List (Nat × Nat × Option Nat) :=
  (List.range 8).map fun j => (desc, j, if (s.reader j).joined then some (s.reader j).cur else none)

/-- The cached descriptor that an operation of a die uses, loading it when it must; `none` for the host, which
belongs to no die. A descriptor that only the host has touched has home 9, no die's, and the first die to touch it
takes it among its own entries (R30, R130, R131, log 60). -/
def Dev.streamUse (d : Dev) (desc : Nat) (die : Option Nat) (span : Nat × Nat × Nat) : StreamAt :=
  let far (s : Stream) : Bool := match die with | some x => !s.mem && s.home != x | none => false
  let touch (d : Dev) (s : Stream) : StreamAt :=
    let s := { s with spans := if s.spans.contains span then s.spans else span :: s.spans }
    .ok (d.setStream desc s) s
  match tget desc d.streams with
  | some s =>
    if far s then .far d
    else match die with
      | some x =>
        if s.home ≠ 9 then touch d s
        else (match d.streamRoom x with | none => .full d | some d => touch d { s with home := x })
      | none => touch d s
  | none =>
    if d.cutAt desc 64 then .cut d else
    let v := d.num desc 64
    if !d.descOk desc v then .bad d else
    let s0 := parseStream v 9
    let home := if !s0.mem then nfld v 65 63
      else if s0.ovu = 0 then die.getD 9
      else (match d.extOf desc s0 with
        | (_, f :: _) => (match (memRow f.1).bind Mem.dieOf with | some x => x | none => 9)
        | _ => 9)
    let s := { s0 with home := home }
    if far s then .far d else
    match d.streamRoom home with
    | none => .full d
    | some d =>
      let refs := cursorRefs desc s
      touch { d with insts := d.insts.map fun p =>
        (p.1, if p.2.refs.any fun r => r.1 == desc then p.2 else { p.2 with refs := refs ++ p.2.refs }) } s

/-- Reader j's cursor as the reference of an instance's operation (R128). -/
def Inst.cursorRef (x : Inst) (desc j : Nat) (s : Stream) : Nat :=
  match x.refs.find? fun r => r.1 == desc && r.2.1 == j with
  | some (_, _, some c) => c
  | _ => (s.reader j).cur

/-! ### Checks and waits of stream instructions (R136, R137) -/

/-- The trap of an operation on an invalid descriptor, or one that cannot be decoded: its record names the descriptor's
address (R130, R372). -/
def Dev.trapDesc (d : Dev) (c : Fx) (cause : Cause) (a : Word) (desc : Nat) : Dev :=
  d.abortTrap c.i fun blk hdr => { faultInfo cause c.idx a blk hdr with raddr := BitVec.ofNat 64 desc }

/-- Who an instruction acts for. -/
inductive SRole where
  | reader | producer | any_
  deriving DecidableEq, Repr

/-- The checks of R136 in order; `align` is in bytes and 0 stands for the element size. -/
def Dev.streamPre (d : Dev) (c : Fx) (a : Word) (acc : Acc) (align : Option Nat) (small : Bool) (role : SRole)
    (k : Dev → Nat → Nat → Stream → Dev) : Dev :=
  match d.leafFor c.ctx a with
  | .error e => d.trapAt c e.cause (failAddr e a)
  | .ok l =>
    if l.nr then d.trapAt c .pageFault a
    else if !l.allows acc c.x.cr.sys || l.kind ≠ 1 then d.trapAt c .protection a
    else
      let wr := acc == .write
      let d := (d.setAD l wr).fill c.ctx a { l with a := true, d := l.d || wr }
      let j := fldN a 42 40
      match d.streamUse l.pa (some c.t.die) (c.t.part, c.t.asid, a.toNat / 2 ^ 43) with
      | .full d => d.block c .entry
      | .bad d => d.trapDesc c .protection a l.pa
      | .cut d => d.trapDesc c .lengthViolation (failAddr .decode a) l.pa
      | .far d => d.trapAt c .protection a
      | .ok d s =>
        let al := match align with | none => 1 | some 0 => s.esize | some n => n
        if a.toNat % al ≠ 0 then d.trapAt c .align a
        else if small && 3 < s.esz then d.trapAt c .protection a
        else if (role == .reader && !(s.reader j).joined) || (role == .producer && s.hpro) then d.trapAt c .protection a
        else k d l.pa j s

/-- The position a stream instruction acts at: found at its firing, and kept while it waits (R137). -/
def Dev.streamPos (d : Dev) (c : Fx) (pre : Dev → (Dev → Nat → Nat → Stream → Dev) → Dev)
    (find : Nat → Nat → Stream → Option Nat) (first : Dev → Nat → Nat → Stream → Nat → (Dev → Dev) → Dev)
    (k : Dev → Nat → Nat → Stream → Nat → Dev) (behind : Dev → Nat → Nat → Stream → Dev) : Dev :=
  match c.fr.mode, c.x.opst c.idx with
  | .again, some (.spos desc j p) =>
    (match tget desc d.streams with
     | some s => k d desc j s p
     | none => d)
  | _, _ => pre (d.clearOp c) fun d desc j s =>
    match find desc j s with
    | none => behind d desc j s
    | some p => first d desc j s p fun d => k (d.setOp c (.spos desc j p)) desc j s p

/-- A stream wait: it holds the instruction until the condition holds, and makes the instance a region
of its own (R137, R202). -/
def Dev.streamWait (d : Dev) (c : Fx) (w : Wait) (ok : Bool) (k : Dev → Dev) : Dev :=
  if ok then k d
  else (d.modInst c.i fun x => { x with marks := { x.marks with own := true, scope := .sys } }).block c w

/-- The leaf of an access that has none of its own. -/
def Leaf.none_ : Leaf :=
  { pa := 0, size := 1, rd := true, wr := true, ex := false, sys := false, gl := false, nr := false, kind := 0, cls := 1,
    view := 0, sum := false, side := 0, tag := 0, entry := 0, a := true, d := true }

/-- Tracked accesses to the frame bytes of positions, one for each frame (R206); a line that cannot be decoded aborts the
instance, as a stream instruction makes no error token (R136, R372). -/
def Dev.arriveRuns (d : Dev) (c : Fx) (desc : Nat) (s : Stream) (a : Word) (p : Nat) (wr : Bool) : List (Nat × Nat) → Got
  | [] => .ok d 0 Leaf.none_
  | (q, n) :: r =>
    let va := a + BitVec.ofNat 64 (q - p)
    if d.cutAt (d.framePa desc s q) n then .gone (d.trapAt c .lengthViolation (failAddr .decode va)) else
    match d.arriveFx c (d.framePa desc s q) n va wr false Leaf.none_ with
    | .ok d _ _ => d.arriveRuns c desc s a p wr r
    | g => g

/-- A read of stream bytes: tracked, then taken (R138, R206). -/
def Dev.streamRead (d : Dev) (c : Fx) (desc j : Nat) (s : Stream) (a : Word) (p n : Nat) (out : List Byte → Token) : Dev :=
  (d.arriveRuns c desc s a p false (frameRuns s.fsize p n)).andThen c (fun d _ => d) fun d _ _ =>
    let bs := d.streamBytes desc s p n
    let d := (frameRuns s.fsize p n).foldl (fun d r => d.noteRead (d.framePa desc s r.1) r.2) d
    (d.request c 1 false (out bs) (d.leafsAt c [a])).buffer c (.srd desc j (p + n))

/-- A write of stream bytes: tracked, its sectors reserved, and buffered to commit (R139). -/
def Dev.streamWrite (d : Dev) (c : Fx) (desc : Nat) (s : Stream) (a : Word) (p : Nat) (runs : List (Nat × Nat))
    (cells : List (Nat × Byte)) : Dev :=
  (d.arriveRuns c desc s a p true (runs.flatMap fun r => frameRuns s.fsize r.1 r.2)).andThen c (fun d _ => d) fun d _ _ =>
    match d.reserveCells c.i c.idx c.t.part c.t.rcb a (d.streamCells desc cells) 1 with
    | (d, false) => d
    | (d, true) => d.buffer c (.swr desc p cells)

/-- A claim on a stream's reader, or on its producer role for 8, is pending (R145). -/
def Dev.claimed (d : Dev) (desc j : Nat) : Bool := d.insts.any fun p => p.2.claims.contains (desc, j)

/-- Make a claim at firing. -/
def Dev.claim (d : Dev) (c : Fx) (desc j : Nat) : Dev := d.modInst c.i fun x => { x with claims := (desc, j) :: x.claims }

/-! ### Commits on a stream (R144, R149) -/

/-- Steps 2 to 7 of R144 for one effect. A join whose position the tail has passed since its firing joins at the tail,
which never decreases (R133, R134, R145, log 61). A reader that a host holds leaves by a device's SLEAVE as any other:
its HRD bit goes with its RV bit, while the host's window keeps JOIN (R146, log 62). -/
def Stream.apply (s : Stream) (step : Nat) : Eff → Stream
  | .spub _ q => if step = 2 then { s with hwm := Nat.max s.hwm q } else s
  | .sjoinR _ j p =>
    if step = 3 then s.modReader j fun r => { r with joined := true, cur := Nat.max p s.tail, rel := Nat.max p s.tail } else s
  | .sjoinP _ => if step = 3 then { s with pj := true } else s
  | .srd _ j e =>
    if step = 4 then s.modReader j fun r => if r.joined then { r with cur := Nat.max r.cur e } else r else s
  | .srel _ j q =>
    if step = 5 then s.modReader j fun r =>
      if r.joined then { r with rel := Nat.max r.rel q, cur := Nat.max r.cur q } else r else s
  | .srew _ j q =>
    if step = 6 then s.modReader j fun r => if r.joined then { r with cur := Nat.max q r.rel } else r else s
  | .sleave _ j =>
    if step = 7 then
      (if (s.reader j).joined then s.modReader j fun r => { r with joined := false, host := false }
       else { s with pj := false })
    else s
  | _ => s

/-- TAIL follows the joined readers (R134, R144). -/
def Stream.follow (s : Stream) : Stream := match s.leastRel with | some p => { s with tail := Nat.max s.tail p } | none => s

/-- The cursors after the effects of a commit, in the order of R144 and lower indices first within a step. Where no reader
was joined, TAIL is the least position joined at (R145). -/
def Stream.applyAll (s : Stream) (effs : List Eff) : Stream :=
  let steps (ks : List Nat) (s : Stream) : Stream := ks.foldl (fun (s : Stream) k => effs.foldl (fun s e => s.apply k e) s) s
  (steps [4, 5, 6, 7] (steps [2, 3] s).follow).follow

/-- Apply effects on one stream (R144). -/
def Dev.applyStream (d : Dev) (desc : Nat) (effs : List Eff) (user : Option Nat) (part rcb : Nat) : Dev :=
  match tget desc d.streams with
  | none => d
  | some s0 =>
    let cells := effs.flatMap fun e => match e with | .swr _ _ cs => cs.filter fun c => s0.tail ≤ c.1 | _ => []
    let d := if cells.isEmpty then d else (d.writeAt (d.streamCells desc cells) 1 part rcb).wake
    let s := s0.applyAll effs
    let s := { s with
      dirty := true
      users := match user with | some t => if s.users.contains t then s.users else t :: s.users | none => s.users }
    d.setStream desc s

/-- Apply the stream effects of a commit, stream by stream (R144). -/
def Dev.commitStreams (d : Dev) (effs : List (Nat × Eff)) (user part rcb : Nat) : Dev :=
  let descs := (effs.filterMap fun e => e.2.streamOf).eraseDups
  descs.foldl (fun d desc =>
    d.applyStream desc ((effs.filter fun e => e.2.streamOf == some desc).map (·.2)) (some user) part rcb) d

/-- Whether the condition of a stream wait holds (R137..R145). -/
def Dev.waitOver (d : Dev) : Wait → Bool
  | .hwm desc p => (match tget desc d.streams with | some s => p ≤ s.hwm | none => true)
  | .limit desc p => (match tget desc d.streams with | some s => p ≤ d.limitOf desc s | none => true)
  | _ => false

/-- Return the first extension frame whose ring frame is free (R147): its bytes are copied, tracked
records of them follow, and its scratch returns to the RCB charged. `none` when there is none. A frame that the tail has
passed has no bytes left to copy, and its ring frame holds a later one. -/
def Dev.extReturn (d : Dev) (desc : Nat) : Option Dev :=
  match tget desc d.streams, tget desc d.drip with
  | some s, some (n, (pa, rcb) :: r) =>
    if s.ovu = 0 || s.tail / s.fsize + s.nf ≤ n then none else
    let dest := s.base + n % s.nf * s.fsize
    let move (x : Rec) : Rec := if pa ≤ x.pa && x.pa < pa + s.fsize then { x with pa := dest + (x.pa - pa) } else x
    let d := if n < s.tail / s.fsize then d else
      let d := d.agentWrite dest (d.bytes pa s.fsize)
      { d with recs := d.recs.map move }
    let d := d.charge rcb fun u => { u with scratch := u.scratch - s.fsize }
    some (Dev.setStream { d with drip := if r.isEmpty then tdel desc d.drip else tput desc (n + 1, r) d.drip } desc
      { s with ovu := s.ovu - 1, dirty := true })
  | _, _ => none

/-- The returns that are due, at most so many. -/
def Dev.extReturns (d : Dev) (desc : Nat) : Nat → Dev
  | 0 => d
  | n + 1 => match d.extReturn desc with | some d => d.extReturns desc n | none => d

end Sys2Proof.Machine
end

