-- ==== Sys2Proof/Machine/Atomics.lean ====
section
/-!
DEFINITION. Atomics and synchronisation (R185..R189).
-/

namespace Sys2Proof.Machine

/-- Bytes of an atomic's word (R185). -/
def sizeOf_ : ASize → Nat | .w => 4 | .d => 8

/-- The word as a signed number of its size. -/
def signedWord (sz : ASize) (v : Word) : Int :=
  match sz with | .w => (v.setWidth 32).toInt | .d => v.toInt

/-- The new value of an atomic (R185, R188); `q` is ACAS's new value. -/
def atomNew (op : AOp) (sz : ASize) (old b q : Word) : Word :=
  let cut (v : Word) : Word := match sz with | .w => zx (v.setWidth 32) | .d => v
  let b := cut b
  cut (match op with
    | .add => old + b
    | .and => old &&& b
    | .or => old ||| b
    | .xor => old ^^^ b
    | .min => if signedWord sz b < signedWord sz old then b else old
    | .max => if signedWord sz old < signedWord sz b then b else old
    | .minu => if b < old then b else old
    | .maxu => if old < b then b else old
    | .xchg => b
    | .cas => if old = b then q else old
    | .fadd => zx (afadd (old.setWidth 32) (b.setWidth 32)))

/-- Hold a word at its new value for the instance (R187). -/
def Dev.hold (d : Dev) (i pa size : Nat) (v : Word) : Dev :=
  { d with holds := (d.holds.filter fun h => !(h.inst == i && h.pa == pa && h.size == size)) ++ [⟨pa, size, i, v⟩] }

/-- The synchronising marks of an order suffix (R189). -/
def orderMarks (ord : MOrder) (sc : Scope) (m : Marks) : Marks :=
  match ord with
  | .rlx => m
  | .acq => { m with acq := true }
  | .rel => { m with rel := true, scope := scopeMax m.scope sc }
  | .ar => { m with acq := true, rel := true, scope := scopeMax m.scope sc }

/-- An atomic (R185..R187): checked as a sink, applied to the word at its home and held until commit. -/
def Dev.atomicFire (d : Dev) (c : Fx) (m : Pred) (tgts : List Tgt) (op : AOp) (sz : ASize) (ord : MOrder) (sc : Scope)
    (off : BitVec 16) : Dev :=
  d.once c fun d => d.sink c m .all tgts fun d =>
    let va := c.a.val + sx off
    let n := sizeOf_ sz
    match d.check c.ctx va n n .atomic with
    | (d, .error e) => d.trapAt c e.cause (failAddr e va)
    | (d, .ok (pa, l)) =>
      if memRow pa = some .host then d.trapAt c .protection va
      else
        match d.arriveFx c pa n va true true l with
        | .err d _ => d
        | .gone d => d
        | .wait d => d.block c .atomic
        | .ok d pa l =>
          let d := d.noteRead pa n
          let (d, bs) := d.loadBytes c.i pa n
          let old := BitVec.ofNat 64 (natOfBytes bs)
          let v := atomNew op sz old c.b.val c.p.val
          match d.reserveCells c.i c.idx c.t.part c.t.rcb va (cellsAt pa (bytesOfNat n v.toNat)) l.cls with
          | (d, false) => d
          | (d, true) =>
            (((d.hold c.i pa n v).buffer c (.atomic pa n l.cls l.sideOf)).mark c (orderMarks ord sc)).request c 1 false
              (scalarTok old) [l.entry]

/-- ACQ, REL and SYNC (R189): the token at a goes on, and data synchronises. -/
def Dev.syncFire (d : Dev) (c : Fx) (m : Pred) (tgts : List Tgt) (ord : MOrder) (sc : Scope) : Dev :=
  d.ordinaryQ c m .none tgts fun d => (d.mark c (orderMarks ord sc)).sendQ c tgts c.a

/-! ### The instructions -/

/-- AADD (R185): old + b. -/
def execAadd (p : Pred) (off : BitVec 16) (sz : ASize) (ord : MOrder) (scope : Scope) (t1 : Tgt) (t2 : Tgt) (t3 : Tgt) (s : State) : Res :=
  onFire s fun d c => d.atomicFire c p [t1, t2, t3] .add sz ord scope off

/-- AAND (R185): old AND b. -/
def execAand (p : Pred) (off : BitVec 16) (sz : ASize) (ord : MOrder) (scope : Scope) (t1 : Tgt) (t2 : Tgt) (t3 : Tgt) (s : State) : Res :=
  onFire s fun d c => d.atomicFire c p [t1, t2, t3] .and sz ord scope off

/-- AOR (R185): old OR b. -/
def execAor (p : Pred) (off : BitVec 16) (sz : ASize) (ord : MOrder) (scope : Scope) (t1 : Tgt) (t2 : Tgt) (t3 : Tgt) (s : State) : Res :=
  onFire s fun d c => d.atomicFire c p [t1, t2, t3] .or sz ord scope off

/-- AXOR (R185): old XOR b. -/
def execAxor (p : Pred) (off : BitVec 16) (sz : ASize) (ord : MOrder) (scope : Scope) (t1 : Tgt) (t2 : Tgt) (t3 : Tgt) (s : State) : Res :=
  onFire s fun d c => d.atomicFire c p [t1, t2, t3] .xor sz ord scope off

/-- AMIN (R185): the lesser, signed. -/
def execAmin (p : Pred) (off : BitVec 16) (sz : ASize) (ord : MOrder) (scope : Scope) (t1 : Tgt) (t2 : Tgt) (t3 : Tgt) (s : State) : Res :=
  onFire s fun d c => d.atomicFire c p [t1, t2, t3] .min sz ord scope off

/-- AMAX (R185): the greater, signed. -/
def execAmax (p : Pred) (off : BitVec 16) (sz : ASize) (ord : MOrder) (scope : Scope) (t1 : Tgt) (t2 : Tgt) (t3 : Tgt) (s : State) : Res :=
  onFire s fun d c => d.atomicFire c p [t1, t2, t3] .max sz ord scope off

/-- AMINU (R185): the lesser, unsigned. -/
def execAminu (p : Pred) (off : BitVec 16) (sz : ASize) (ord : MOrder) (scope : Scope) (t1 : Tgt) (t2 : Tgt) (t3 : Tgt) (s : State) : Res :=
  onFire s fun d c => d.atomicFire c p [t1, t2, t3] .minu sz ord scope off

/-- AMAXU (R185): the greater, unsigned. -/
def execAmaxu (p : Pred) (off : BitVec 16) (sz : ASize) (ord : MOrder) (scope : Scope) (t1 : Tgt) (t2 : Tgt) (t3 : Tgt) (s : State) : Res :=
  onFire s fun d c => d.atomicFire c p [t1, t2, t3] .maxu sz ord scope off

/-- AXCHG (R185): b. -/
def execAxchg (p : Pred) (off : BitVec 16) (sz : ASize) (ord : MOrder) (scope : Scope) (t1 : Tgt) (t2 : Tgt) (t3 : Tgt) (s : State) : Res :=
  onFire s fun d c => d.atomicFire c p [t1, t2, t3] .xchg sz ord scope off

/-- ACAS (R185): p if the word equals b. -/
def execAcas (off : BitVec 16) (sz : ASize) (ord : MOrder) (scope : Scope) (t1 : Tgt) (t2 : Tgt) (t3 : Tgt) (s : State) : Res :=
  onFire s fun d c => d.atomicFire c .always [t1, t2, t3] .cas sz ord scope off

/-- AFADD (R185, R188): a binary32 sum. -/
def execAfadd (p : Pred) (off : BitVec 16) (ord : MOrder) (scope : Scope) (t1 : Tgt) (t2 : Tgt) (t3 : Tgt) (s : State) : Res :=
  onFire s fun d c => d.atomicFire c p [t1, t2, t3] .fadd .w ord scope off

/-- ACQ (R189): an acquire. -/
def execAcq (p : Pred) (scope : Scope) (t1 : Tgt) (t2 : Tgt) (t3 : Tgt) (s : State) : Res :=
  onFire s fun d c => d.syncFire c p [t1, t2, t3] .acq scope

/-- REL (R189): a release. -/
def execRel (p : Pred) (scope : Scope) (t1 : Tgt) (t2 : Tgt) (t3 : Tgt) (s : State) : Res :=
  onFire s fun d c => d.syncFire c p [t1, t2, t3] .rel scope

/-- SYNC (R189): an acquire and a release. -/
def execSync (p : Pred) (scope : Scope) (t1 : Tgt) (t2 : Tgt) (t3 : Tgt) (s : State) : Res :=
  onFire s fun d c => d.syncFire c p [t1, t2, t3] .ar scope


end Sys2Proof.Machine
end

