-- ==== Sys2Proof/Machine/Attention.lean ====
section
/-!
DEFINITION. Sequence tables and their stage-1 entries, and the instructions over them (R296, R297,
R300, R301, R309..R317).
-/

namespace Sys2Proof.Machine

/-! ### Sequence tables (R300, R301) -/

/-- A sequence table's header. -/
structure SeqHdr where
  len   : Nat
  ppp   : Nat
  hw    : Nat
  spare : Nat
  fcomp : Nat
  deriving DecidableEq, Repr

/-- P, the number of pages. -/
def SeqHdr.pages (h : SeqHdr) : Nat := if h.ppp = 0 then 0 else cdiv h.len h.ppp

/-- A page's bytes. -/
def SeqHdr.bytes (h : SeqHdr) : Nat := 64 * h.ppp

/-- A header that is valid (R300). -/
def seqHdr (v : Nat) : Option SeqHdr :=
  let h : SeqHdr := ⟨nfld v 63 0, nfld v 127 64, nfld v 191 128, nfld v 255 192, nfld v 319 256⟩
  if [64, 1024, 32768, 2 ^ 24].contains h.ppp && 1 ≤ h.hw && h.hw ≤ 16 && h.pages ≤ 65536 && nfld v 511 320 == 0
  then some h else none

def entV (e : Nat) : Bool := e.testBit 63
def entRmt (e : Nat) : Bool := e.testBit 62
def entPeer (e : Nat) : Nat := nfld e 61 52
def entDie (e : Nat) : Nat := nfld e 38 36
def entGbn (e : Nat) : Nat := nfld e 31 0

/-- An entry with V = 1 is well formed (R301). -/
def entOk (e : Nat) : Bool :=
  nfld e 33 32 != 3 && nfld e 51 39 == 0 && nfld e 35 34 == 0 && (entRmt e || entPeer e == 0)

/-- The address of page p's entry. -/
def entAddr (s : Word) (p : Nat) : Word := s + BitVec.ofNat 64 (64 + 8 * p)

/-! ### Reads of an instance (R170, R310) -/

/-- How a read of bytes ends. -/
inductive ReadR where
  | ok (d : Dev) (v : Nat)
  | err (d : Dev) (e : TErr)
  | wait (d : Dev)
  | gone (d : Dev)

/-- A tracked read of an instance, as a number. -/
def Dev.readRaw (d : Dev) (c : Fx) (va : Word) (n align : Nat) : ReadR :=
  match d.loadAt c va n align .tokenLoad with
  | .ok d pa _ =>
    let (d, bs) := d.loadBytes c.i pa n
    .ok d (natOfBytes bs)
  | .err d e => .err d e
  | .wait d => .wait d
  | .gone d => .gone d

/-- The same where a failure becomes an error token, with its record (R364). -/
def Dev.readAt (d : Dev) (c : Fx) (va : Word) (n align : Nat) : ReadR :=
  match d.readRaw c va n align with
  | .err d e => .err (d.loadRecord c e va) e
  | r => r

/-- Go on with what was read, or end as the instruction does. -/
def ReadR.andThen (r : ReadR) (c : Fx) (fail : Dev → TErr → Dev) (k : Dev → Nat → Dev) : Dev :=
  match r with
  | .ok d v => k d v
  | .err d e => fail d e
  | .wait d => d.block c .access
  | .gone d => d

/-- The checks of R310 on a table, for an instruction that answers with an error token of its address. -/
def Dev.seqCheck (d : Dev) (c : Fx) (tgts : List Tgt) (s : Word) (k : Dev → SeqHdr → Dev) : Dev :=
  (d.readAt c s 64 64).andThen c (fun d e => d.sendQ c tgts (errTok e s)) fun d v =>
    match seqHdr v with
    | none => d.sendQ c tgts (errTok .perm s)
    | some h => k d h

/-! ### SVGTH (R297, R312, R313) -/

/-- The page numbers of the ranks that a selection uses (R313). -/
def usedRanks (a : Token) (k : Nat) : List Nat :=
  (((List.range 8).filter fun r => a.vld (2 * r) && a.vld (2 * r + 1)).take k).map fun r => (a.lane (2 * r + 1)).toNat

/-- SVGTH's firing. -/
def Dev.svgthFire (d : Dev) (c : Fx) (tgts : List Tgt) : Dev :=
  let g := c.b.val
  (d.readAt c g 64 64).andThen c (fun d e => d.sendQ c tgts (errTok e g)) fun d v =>
    let obj := BitVec.ofNat 64 (nfld v 191 128)
    if nfld v 511 256 ≠ 0 || 8 < nfld v 255 192 || nfld v 131 128 ≠ 0 then d.sendQ c tgts (errTok .bounds g)
    else if c.a.fmt ≠ 0 then d.sendQ c tgts (errTok .format 0)
    else
      let s := BitVec.ofNat 64 (nfld v 63 0)
      d.seqCheck c tgts s fun d _ =>
        d.checkSink c obj 16 1 .write fun d pa _ =>
          let sel := usedRanks c.a (nfld v 255 192)
          (d.buffer c (.engine .gather s (BitVec.ofNat 64 (nfld v 127 64)) obj pa sel)).sendQ c tgts
            (scalarTok (BitVec.ofNat 64 sel.length))

/-! ### KVX, KVFORK and KVFREE (R315..R317) -/

/-- KVX's firing (R315). -/
def Dev.kvxFire (d : Dev) (c : Fx) (tgts : List Tgt) : Dev :=
  let s := c.a.val
  let x := c.b.val.toNat
  d.seqCheck c tgts s fun d h =>
    if h.len ≤ x then d.sendQ c tgts (errTok .bounds s)
    else
      let a := entAddr s (x / h.ppp)
      (d.readAt c a 8 8).andThen c (fun d e => d.sendQ c tgts (errTok e a)) fun d e =>
        if !entV e then d.sendQ c tgts (errTok .page a)
        else if !entOk e then d.sendQ c tgts (errTok .perm a)
        else d.request c 1 false (scalarTok (BitVec.ofNat 64 e)) (d.leafsAt c [a])

/-- KVFORK's firing (R316). A completion object that does not translate sends its record (R364). -/
def Dev.kvforkFire (d : Dev) (c : Fx) (tgts : List Tgt) : Dev :=
  let s := c.a.val
  let t := c.b.val
  d.seqCheck c tgts s fun d h =>
    d.seqCheck c tgts t fun d u =>
      let bad (d : Dev) : Dev := d.sendQ c tgts (errTok .perm t)
      if u.len ≠ 0 || u.fcomp = 0 || u.fcomp % 16 ≠ 0 ||
          (h.len % h.ppp != 0 && !(entV u.spare && entOk u.spare)) then bad d
      else
        let obj := BitVec.ofNat 64 u.fcomp
        match d.check c.ctx obj 16 1 .atomic with
        | (d, .error e) => bad (d.loadRecord c e obj)
        | (d, .ok (pa, _)) =>
          (d.buffer c (.engine .fork s t obj pa [])).sendQ c tgts (scalarTok (BitVec.ofNat 64 h.pages))

/-- KVFREE's stores: the entries' lines set to zero, collecting the entries they held; or the line at which they end. -/
def Dev.freeLines (d : Dev) (c : Fx) (s : Word) : List (Nat × Nat) → List Nat → (Word × ReadR) ⊕ (Dev × List Nat)
  | [], es => .inr (d, es)
  | (p, n) :: r, es =>
    match d.readRaw c (entAddr s p) (8 * n) 8 with
    | .ok d v =>
      (match d.storeAt c (entAddr s p) (List.replicate (8 * n) 0) 8 .tokenStore with
       | .ok d _ _ =>
         d.freeLines c s r (es ++ (List.range n).map fun k => nfld v (64 * k + 63) (64 * k))
       | .err d e => .inl (entAddr s p, .err d e)
       | .wait d => .inl (entAddr s p, .wait d)
       | .gone d => .inl (entAddr s p, .gone d))
    | x => .inl (entAddr s p, x)

/-- The first page and the number of entries of each line of a table's entries. -/
def entLines (pages : Nat) : List (Nat × Nat) :=
  (List.range (cdiv pages 8)).map fun k => (8 * k, Nat.min 8 (pages - 8 * k))

/-- KVFREE's firing (R317): LEN and every entry are stored as zero at commit, and the entries are
given to the Sieve. -/
def Dev.kvfreeFire (d : Dev) (c : Fx) : Dev :=
  let s := c.a.val
  (d.readRaw c s 64 64).andThen c (fun d e => d.trapAt c e.cause s) fun d v =>
    match seqHdr v with
    | none => d.trapAt c .protection s
    | some h =>
      (d.storeAt c s (List.replicate 8 0) 8 .tokenStore).andThen c (fun d _ => d) fun d _ _ =>
        match d.freeLines c s (entLines h.pages) [] with
        | .inr (d, es) => d.buffer c (.kvfree s (es.map fun e => BitVec.ofNat 64 e))
        | .inl r => r.2.andThen c (fun d e => d.trapAt c e.cause (failAddr e r.1)) fun d _ => d

/-! ### SVBND (R296, R308, R311) -/

/-- SVBND's firing: the query is checked, and the Sieve of the die takes it over. -/
def Dev.svbndFire (d : Dev) (c : Fx) (tgts : List Tgt) : Dev :=
  if (c.a.fmt != 0 && c.a.fmt != 1) || c.a.geom != 0 then d.sendQ c tgts (errTok .format 0)
  else
    let x := d.die c.t.die
    let full := 16 ≤ x.sieve.length
    d.setDie c.t.die { x with sieve := x.sieve ++ [⟨c.i, c.idx, c.a, c.b.val, none, [], 0, full⟩] }

/-! ### The instructions -/

/-- SVBND (R296, R311): bounds of a query's score against every page of a sequence. -/
def execSvbnd (p : Pred) (t1 : Tgt) (t2 : Tgt) (s : State) : Res :=
  onFire s fun d c => d.ordinaryQ c p ⟨false, true, true⟩ [t1, t2] fun d => d.svbndFire c [t1, t2]

/-- SVGTH (R297, R313): the number of pages selected; their gather is forked at commit. -/
def execSvgth (p : Pred) (t1 : Tgt) (t2 : Tgt) (s : State) : Res :=
  onFire s fun d c => d.ordinaryQ c p ⟨false, true, true⟩ [t1, t2] fun d => d.svgthFire c [t1, t2]

/-- KVX (R315): the stage-1 entry of a position. -/
def execKvx (p : Pred) (t1 : Tgt) (t2 : Tgt) (s : State) : Res :=
  onFire s fun d c => d.ordinaryQ c p .all [t1, t2] fun d => d.kvxFire c [t1, t2]

/-- KVFORK (R316): the parent's page count; the fork of its table is made at commit. -/
def execKvfork (p : Pred) (t1 : Tgt) (t2 : Tgt) (s : State) : Res :=
  onFire s fun d c => d.ordinaryQ c p .all [t1, t2] fun d => d.kvforkFire c [t1, t2]

/-- KVFREE (R317): a table's length and entries become zero at commit. -/
def execKvfree (p : Pred) (s : State) : Res :=
  onFire s fun d c => d.sink c p .all [] fun d => d.kvfreeFire c


end Sys2Proof.Machine
end

