-- ==== Sys2Proof/Machine/Pending.lean ====
section
/-!
DEFINITION. What of an instance can still fire, and when it is ready for its commit point (R39, R91, R92).
-/

namespace Sys2Proof.Machine

/-! ### What can still fire (R39, R91, R92) -/

/-- An instruction that may fire with fewer tokens than it has slots (R100, R101, R336, R337). -/
def Inst.flexible (x : Inst) (im : Image) (k : Nat) : Bool :=
  (match im.instr k with | some (.mergeS ..) => true | some (.mergeW ..) => true | some (.carry ..) => true | _ => false) ||
    (match im.info k with | some o => o.taking | none => false) ||
    (match x.opst k with | some (.drain ..) => true | _ => false)

/-- A token may still come to a position: one of a spill ring, one that an instruction holds, or one of a producer in `ps`. -/
def Inst.gets (x : Inst) (im : Image) (ps : List Nat) (k : Nat) (p : Slot × Bool) : Bool :=
  (x.chans.any fun c => c.idx == k && c.slot == p.1 && c.scale == p.2 && !c.spill.isEmpty) ||
    (x.held.any fun h => h.2.1.idx.toNat == k && h.2.1.slot == p.1 && h.2.2.1 == p.2) ||
    ps.any fun s => match im.instr s with
      | some i => i.targets.any fun t => t.idx.toNat == k && t.slot == p.1 && im.scaleAt i t == p.2
      | none => false

/-- An instruction can fire from what has reached it. -/
def Inst.primed (x : Inst) (im : Image) (k : Nat) : Bool :=
  x.start.contains k || (x.again.any fun f => f.idx == k) || (x.blocked.any fun b => b.1.idx == k) || contOf x k ||
    (takeOf im x k).isSome

/-- An instruction may fire once more, when the instructions `ps` may send (R84, R249). -/
def Inst.couldFire (x : Inst) (im : Image) (ps : List Nat) (k : Nat) : Bool :=
  x.primed im k ||
    (let at_ := im.positions k
     let met (p : Slot × Bool) : Bool := (x.head k p.1 p.2).isSome || x.gets im ps k p
     -- a scale is waited for only beside an element token whose GEOM is not 00
     let spared (p : Slot × Bool) : Bool := p.2 && (match x.head k p.1 false with | some t => t.geom == 0 | none => true)
     (at_.any (x.gets im ps k)) && (x.flexible im k || at_.all fun p => met p || spared p))

/-- Instructions that may still fire, closed in at most `n` rounds. -/
def Inst.mayFire (x : Inst) (im : Image) (senders : List Nat) : Nat → List Nat → List Nat
  | 0, s => s
  | n + 1, s =>
    let s' := (List.range im.instrs.length).filter fun k => s.contains k || x.couldFire im (s ++ senders) k
    if s'.length = s.length then s else x.mayFire im senders n s'

/-- Instructions whose replies are still to be sent, or that the Sieve works for. -/
def Dev.senders (d : Dev) (i : Nat) (x : Inst) : List Nat :=
  (x.reqs.map (·.idx)) ++ (d.dies.flatMap fun p => (p.2.sieve.filter fun s => s.inst == i).map (·.idx))

/-- The instructions of an instance that may still fire. -/
def Dev.pending (d : Dev) (i : Nat) (x : Inst) (im : Image) : List Nat := x.mayFire im (d.senders i x) (im.instrs.length + 1) []

/-- Writes and stores that must be produced (R39). -/
def mustMake (i : Instr) : Bool :=
  match i with
  | .write .. => true
  | .vwrite .. => true
  | i => match i.info with | some o => o.isStore | none => false

/-- The conditions of the commit point (R39, R92, R373), but for those that other parties decide. What fires at
admission (R93, R387) has fired, no token of the instance is held by an instruction of class M or in flight toward
one that can still fire (R92, R99), and every reply has returned and been sent on, whichever instructions it feeds (log 81). -/
def Dev.ready (d : Dev) (i : Nat) (x : Inst) (im : Image) : Bool :=
  let memClass (k : Nat) : Bool := match im.info k with | some o => o.cls == .m | none => false
  let pend := d.pending i x im
  x.exit.isSome && x.start.isEmpty && x.blocked.isEmpty && x.again.isEmpty &&
    ((List.range im.instrs.length).all fun k => match im.instr k with | some n => !mustMake n || x.made.contains k | none => true) &&
    !(pend.any memClass) && !(x.chans.any fun c => memClass c.idx && !(c.q.isEmpty && c.spill.isEmpty)) && !(x.held.any fun h => memClass h.2.1.idx.toNat) && (d.senders i x).isEmpty &&
    !(d.resvs.any fun r => r.who == .inst i)

end Sys2Proof.Machine
end

