-- ==== Sys2Proof/Machine/Pager.lean ====
section
/-!
DEFINITION. Bounce slots and their merge (R355, R378), and the work of an invalidation (R397, R398).
-/

namespace Sys2Proof.Machine

/-! ### Bounce slots (R378) -/

/-- Slots of a die's bounce buffer. -/
def bounceSlots : Nat := 14336

/-- Where the records of a slot's lines stand: an address of no presented memory (log 21). -/
def bouncePa (die slot : Nat) : Nat := 0x0088000000000 + die * 2 ^ 26 + 4096 * slot

/-- The first virtual address of a page number. -/
def pageVa (page : Nat) : Word := BitVec.ofNat 64 (page * 4096)

/-- How a write that needs sectors at once is answered (R373, R374). -/
inductive Room where
  | fits
  | waits (need : Nat)
  | refused
  deriving DecidableEq, Repr

/-- The sectors that bytes put over memory need in each chunk beyond those it holds or has reserved (R373): chunk and need. -/
def Dev.needs (d : Dev) (cells : List (Nat × Byte)) (cls : BitVec 2) : List (Nat × Nat) :=
  let lns := (cells.map fun c => c.1 / 64).eraseDups
  ((lns.map (· / 64)).eraseDups.filter fun c => (chunkHome c).isSome).map fun c =>
    let k := d.chunk c
    let codes := (lns.filter fun l => l / 64 == c).foldl (fun (cs : List (BitVec 4)) l =>
      codesAfter { k with codes := cs } l cls (overlay (l * 64) (d.bytes (l * 64) 64) cells)) k.full
    (c, k.projected (payloadBytes codes) - (k.secs + k.resv))

/-- Whether a write of an engine, a host or the pager has its sectors (R373): within the budget, no
earlier reservation waiting, and free in the pool. -/
def Dev.roomFor (d : Dev) (part rcb : Nat) (cells : List (Nat × Byte)) (cls : BitVec 2) : Room :=
  (d.needs cells cls).foldl (fun r x =>
    match r, chunkHome x.1 with
    | .fits, some h =>
      if x.2 = 0 then .fits
      else if rcb != 0 && !d.sectorBudget rcb x.2 then .refused
      else if d.poolGives part h x.2 then .fits
      else .waits x.2
    | r, _ => r) .fits

/-- A reservation of the claimant is in the queue. -/
def Dev.claims (d : Dev) (who : Claimant) : Bool := d.resvs.any fun r => r.who == who

/-- The records of a slot's lines move to the lines of a frame (R378). -/
def Dev.moveRecs (d : Dev) (src dst n : Nat) : Dev :=
  { d with recs := d.recs.map fun x => if src ≤ x.pa && x.pa < src + n then { x with pa := dst + (x.pa - src) } else x }

/-- The leaf under which a slot's page now translates: resident again, or none. -/
def Dev.slotLeaf (d : Dev) (b : Bounce) : Option Leaf :=
  match d.walk b.asid b.part (pageVa b.page) with
  | .ok l => if l.nr then none else some l
  | .error _ => none

/-- OUT_OF_SPACE counts on the pool whose sectors a write has lacked; the count saturates (R371, R377). -/
def Dev.countFail (d : Dev) (part chunk : Nat) : Dev :=
  match chunkHome chunk with
  | none => d
  | some h =>
    let p := d.pool part h
    d.setPool part h { p with fails := Nat.min (p.fails + 1) (2 ^ 32 - 1) }

/-- Who landed a slot's bytes, as far as its RCB tells: the fault domain (R353). -/
def Dev.bounceParty (d : Dev) (b : Bounce) : Party :=
  ⟨0, 0, 0, b.asid, b.part, ioDie, b.rcb, d.effFdom b.rcb, false, 0⟩

/-- A merge that cannot be made, for want of sectors or since the chunk or the side entry cannot be decoded (log 78): NR is set
again, the slot is kept, and a record goes (R378). -/
def Dev.mergeFail (d : Dev) (b : Bounce) (cause : Cause := .outOfSpace) : Dev :=
  match d.walk b.asid b.part (pageVa b.page) with
  | .ok l =>
    let e := d.num (l.entry + 7) 1
    (d.agentWrite (l.entry + 7) [BitVec.ofNat 8 (e ||| 2 ^ 5)]).agentRecord b.part b.asid cause (pageVa b.page) (some (d.bounceParty b))
  | .error _ => d

/-- A chunk that was cut off can be decoded again: a write of all of it has replaced it (R372). -/
def Dev.mendChunk (d : Dev) (c : Nat) : Dev := d.putChunk c { d.chunk c with cut := false }

/-- Put a slot's bytes into the frame and free it (R378). -/
def Dev.mergeInto (d : Dev) (die slot : Nat) (b : Bounce) (l : Leaf) : Dev :=
  let pa := l.at (pageVa b.page)
  let d := { d with bounce := tdel (die, slot) d.bounce }
  let d := d.moveRecs (bouncePa die slot) pa 4096
  let d := (d.writeLeaf (b.cells.map fun c => (pa + c.1, c.2)) l.cls l.sideOf b.part b.rcb).wake
  if b.cells.length < 4096 then d else d.mendChunk (pa / 4096)

/-- A slot's bytes cannot be put over a chunk or a side entry that was cut off (R372); a slot that holds the whole chunk
replaces it. -/
def Dev.mergeCut (d : Dev) (b : Bounce) (l : Leaf) : Bool :=
  let pa := l.at (pageVa b.page)
  (l.sum && d.cutAt l.side 64) || (b.cells.length < 4096 && b.cells.any fun c => d.cutAt (pa + c.1) 1)

/-- The pager's merge of a slot (R378): `none` while its page is not resident or its sectors are waited for. -/
def Dev.mergeSlot (d : Dev) (die slot : Nat) : Option Dev :=
  match tget (die, slot) d.bounce with
  | none => none
  | some b =>
    match d.slotLeaf b with
    | none => none
    | some l =>
      if d.claims (.pager die slot) then none else
      if d.mergeCut b l then some (d.mergeFail b .lengthViolation) else
      let pa := l.at (pageVa b.page)
      match d.roomFor b.part b.rcb (b.cells.map fun c => (pa + c.1, c.2)) l.cls with
      | .fits => some (d.mergeInto die slot b l)
      | .waits n => some (d.queueResv b.part b.rcb (pa / 4096) n (.pager die slot) (pageVa b.page))
      | .refused => some ((d.countFail b.part (pa / 4096)).mergeFail b)

/-! ### Invalidation (R397, R398) -/

/-- A stream's views overlap a range of virtual addresses in an ASID. -/
def spanHit (part : Nat) (asid : Option Nat) (range : Option (Nat × Nat)) (x : Nat × Nat × Nat) : Bool :=
  x.1 == part && (match asid with | none => true | some a => x.2.1 == a) &&
    (match range with | none => true | some (lo, hi) => x.2.2 * 2 ^ 43 < hi && lo < (x.2.2 + 1) * 2 ^ 43)

/-- A bounce slot's page lies in a range. -/
def slotHit (part : Nat) (asid : Option Nat) (range : Option (Nat × Nat)) (b : Bounce) : Bool :=
  b.part == part && (match asid with | none => true | some a => b.asid == a) &&
    (match range with | none => true | some (lo, hi) => b.page * 4096 < hi && lo < (b.page + 1) * 4096)

/-- The work of an invalidation: translations go, stream descriptors are written back, and bounce slots
of resident pages are merged (R397). -/
def Dev.invalidate (d : Dev) (part : Nat) (asid : Option Nat) (range : Option (Nat × Nat)) : Dev :=
  let d := d.dropTlb part asid range
  let ss := (d.streams.filter fun p => p.2.spans.any (spanHit part asid range)).map (·.1)
  let d := ss.foldl (fun d k => if d.streamHeld k then d.streamBack k else d.streamDrop k) d
  let bs := (d.bounce.filter fun p => slotHit part asid range p.2).map (·.1)
  bs.foldl (fun d k => (d.mergeSlot k.1 k.2).getD d) d

def Eff.isXlinv : Eff → Bool | .xlinv .. => true | _ => false

/-- An instance has reached its commit point but for the work of an XLINV of its own (R397). -/
def Dev.waitsXlinv (d : Dev) (i : Nat) (x : Inst) : Bool :=
  (x.effs.any fun e => e.2.isXlinv) && (match d.region x.reg with | some r => d.ready i x r.image | none => false)

/-- An instance has an access outstanding by a translation that an invalidation of a range has removed. -/
def Inst.holdsBack (x : Inst) (part : Nat) (asid : Option Nat) (range : Option (Nat × Nat)) : Bool :=
  x.tlb.any fun t => t.stale && x.usesLeaf t.leaf && t.hit part asid range

/-- The XLINV of an instance, which has done all else, waits for an access of another. -/
def Dev.xlWaitsOn (d : Dev) (x : Nat × Inst) (y : Inst) : Bool :=
  d.waitsXlinv x.1 x.2 && x.2.effs.any fun e => match e.2 with
    | .xlinv a g => (match d.thread x.2.tid with | some t => y.holdsBack t.part a g | none => false)
    | _ => false

/-- Instances whose XLINVs wait for one of some instances, directly or through one another. -/
def Dev.xlBehind (d : Dev) : Nat → List Nat → List Nat
  | 0, l => l
  | n + 1, l => d.xlBehind n ((d.insts.filter fun p =>
      l.contains p.1 || d.insts.any fun q => l.contains q.1 && q.1 != p.1 && d.xlWaitsOn p q.2).map (·.1))

/-- An invalidation is complete (R397): no covered slot of a resident page is left, and no instance but `me` has an access
outstanding by a covered translation that was removed. Of instances whose XLINVs wait for one another the one admitted first
is not held back by the others, which then end (log 22). The caches hold nothing from before it: `Dev.invalidate` has emptied
them, and `Dev.fill` enters only what a walk has given since. -/
def Dev.invalidDone (d : Dev) (me : Option Nat) (part : Nat) (asid : Option Nat) (range : Option (Nat × Nat)) : Bool :=
  (d.bounce.all fun p => !slotHit part asid range p.2 || (d.slotLeaf p.2).isNone) &&
    d.insts.all fun p =>
      some p.1 == me || !p.2.holdsBack part asid range || (match me with
        | some i => i < p.1 && (d.xlBehind d.insts.length [i]).contains p.1
        | none => false)

end Sys2Proof.Machine
end

