-- ==== Sys2Proof/Machine/Blocks.lean ====
section
/-!
DEFINITION. Block tables and stage 2 (R302), reference counts (R316, R317), and what stage-1 entries name.
-/

namespace Sys2Proof.Machine

/-- A block as its table entry gives it (R302). -/
structure Block where
  /-- physical address of the entry -/
  pa   : Nat
  k    : Nat
  v    : Nat
  side : Nat
  refs : Nat
  deriving DecidableEq, Repr

/-- KVBTB and KVBTN of a die, as they stand (R302). -/
def Dev.blockTab (d : Dev) (die : Nat) : Word × Word := ((d.die die).kvbtb, (d.die die).kvbtn)

/-- The block table that an instance's lookup at a die reads: on its own die by the registers as they were at its admission
(R392), elsewhere by the owner's. -/
def Fx.blockTab (c : Fx) (d : Dev) (die : Nat) : Word × Word :=
  if die = c.t.die then (c.x.cr.kvbtb, c.x.cr.kvbtn) else d.blockTab die

/-- The physical address of a block's entry (R302). -/
def blockAt (tab : Word × Word) (gbn : Nat) : Nat := nfld tab.1.toNat 51 6 * 64 + 32 * gbn

/-- Reserved fields of a block-table entry are zero. -/
def blockOk (v : Nat) : Bool :=
  nfld v 255 230 == 0 && nfld v 191 174 == 0 && nfld v 127 104 == 0 && nfld v 63 40 == 0

/-- The block that a table entry gives, in use or free (R302). -/
def Dev.blockOf (d : Dev) (gbn part : Nat) (tab : Word × Word) : Option Block :=
  let pa := blockAt tab gbn
  let v := d.num pa 32
  if tab.2.toNat ≤ gbn || d.cutAt pa 32 || nfld v 229 224 ≠ part || !blockOk v then none
  else some ⟨pa, nfld v 39 0 * 4096, nfld v 103 64 * 4096, nfld v 173 128 * 64, nfld v 223 192⟩

/-- Stage 2 at a die of this package (R302): the block is in use. -/
def Dev.stage2 (d : Dev) (die gbn part : Nat) (tab : Word × Word := d.blockTab die) : Option Block :=
  (d.blockOf gbn part tab).filter fun b => b.refs != 0

/-- A peer's link is up. -/
def Dev.peer (d : Dev) (p : Nat) : Peer := (tget p d.peers).getD Peer.reset
def Dev.reach (d : Dev) (p : Nat) : Bool := !(d.peer p).down

/-- Something leaves the module. -/
def Dev.emit (d : Dev) (o : Out) : Dev := { d with out := o :: d.out }

/-- A side entry reset to empty (R303): every minimum +∞, every maximum −∞. -/
def emptySide : List Byte :=
  ((List.range 16).flatMap fun _ => bytesOfNat 2 0x7F80) ++ (List.range 16).flatMap fun _ => bytesOfNat 2 0xFF80

/-- REFS of a block plus 1, as an access that the caller has recorded. -/
def Dev.refsUp (d : Dev) (b : Block) : Dev := d.agentWrite (b.pa + 24) (bytesOfNat 4 ((b.refs + 1) % 2 ^ 32))

/-- REFS of a block minus 1, as an access that the caller has recorded (R317): at 0 the side entry is reset first. -/
def Dev.refsDown (d : Dev) (b : Block) : Dev :=
  let d := if b.refs = 1 then d.agentWrite b.side emptySide else d
  d.agentWrite (b.pa + 24) (bytesOfNat 4 (b.refs - 1))

/-- A decrement that a device agent makes (R204, R317) for the thread or engine `who`. A count of 0 stays 0, with a record; an
entry that fails stage 2 likewise, and `ok` is what another package's owner answers. -/
def Dev.refsDrop (d : Dev) (asid part : Nat) (e : Nat) (addr : Word) (who : Option Party) (ok : Bool := true) : Dev :=
  if entRmt e then
    let d := d.emit (.peerRefs (entPeer e) (entGbn e) part false)
    if ok then d else d.agentRecord part asid .queue addr who
  else match d.stage2 (entDie e) (entGbn e) part with
    | some b => (d.agentMust ⟨.agent, b.pa + 24, 4, true, true, 0⟩).refsDown b
    | none => d.agentRecord part asid .queue addr who

end Sys2Proof.Machine
end

