-- ==== Sys2Proof/Machine/Engine.lean ====
section
/-!
DEFINITION. How an engine reads and writes (R171, R194, R206, R210, R355, R370, R372, R373, R378), piece
by piece within a 64-byte line.
-/

namespace Sys2Proof.Machine

/-- How an engine's read ends: bytes, a stop after a prefix, or a wait. -/
inductive EngR where
  | ok (d : Dev) (bs : List Byte)
  | stop (d : Dev) (bs : List Byte) (cause : Cause) (addr : Word)
  | wait

def Dev.modOp (d : Dev) (op : Nat) (f : EngOp → EngOp) : Dev := { d with ops := tmod op f d.ops }

/-- An operation's access conflicts with records of others: its record will name one of them (R210). -/
def Dev.meetsFoe (d : Dev) (op : Nat) (os : List Owner) : Dev :=
  let foe := (os.head?.bind d.nameOf).map fun o => (o, false)
  d.modOp op fun e => { e with foe := foe }

/-- A tracked read of bytes that have passed their checks; a conflict stops it at its first byte (R210). -/
def Dev.engTake (d : Dev) (op pa n : Nat) (va : Word) : EngR :=
  match d.arrive ⟨.engine op, pa, n, false, false, va⟩ with
  | .ok d => .ok (d.noteRead pa n) (d.bytes pa n)
  | .wait => .wait
  | .retry _ => .wait
  | .raise d low os =>
    let d := d.meetsFoe op os
    let m := low - pa
    if m = 0 then .stop d [] .memoryModel va
    else match d.arrive ⟨.engine op, pa, m, false, false, va⟩ with
      | .ok d => .stop (d.noteRead pa m) (d.bytes pa m) .memoryModel (va + BitVec.ofNat 64 m)
      | _ => .wait

/-- A read of bytes in one line. -/
def Dev.engReadLine (d : Dev) (op : Nat) (e : EngOp) (va : Word) (n : Nat) : EngR :=
  match d.check e.who.ctx va n 1 .engineRead with
  | (d, .error t) => .stop d [] t.cause (failAddr t va)
  | (d, .ok (pa, l)) =>
    if d.inRefresh l pa then .wait
    else if l.kind = 2 then .ok d (d.bytes pa n)
    else d.engTake op pa n va

/-- A range cut into pieces that lie in one line each: offset and length. -/
def linePieces (a n : Nat) : List (Nat × Nat) :=
  if n = 0 then [] else
  (List.range ((a + n - 1) / 64 + 1 - a / 64)).map fun k =>
    let lo := Nat.max a ((a / 64 + k) * 64)
    (lo - a, Nat.min (a + n) ((a / 64 + k + 1) * 64) - lo)

/-- A read of any length in ascending order. -/
def Dev.engRead (d : Dev) (op : Nat) (e : EngOp) (va : Word) (n : Nat) : EngR :=
  (linePieces va.toNat n).foldl (fun r p =>
    match r with
    | .ok d bs =>
      (match d.engReadLine op e (va + BitVec.ofNat 64 p.1) p.2 with
       | .ok d x => .ok d (bs ++ x)
       | .stop d x c a => .stop d (bs ++ x) c a
       | .wait => .wait)
    | r => r) (.ok d [])

/-- A read by physical address within one line (R313, R316). -/
def Dev.engReadPa (d : Dev) (op : Nat) (pa n : Nat) : EngR :=
  let va := BitVec.ofNat 64 pa
  match d.rangeIn pa n with
  | none => .stop d [] .protection va
  | some .devreg => .stop d [] .protection va
  | some _ =>
    if d.ringAt pa n then .stop d [] .protection va
    else if d.cutAt pa n then .stop d [] .lengthViolation va
    else d.engTake op pa n va

/-- How an engine's write ends; `n` is the prefix written before a stop. -/
inductive EngW where
  | ok (d : Dev)
  | stop (d : Dev) (n : Nat) (cause : Cause) (addr : Word)
  | wait
  /-- its sectors are waited for -/
  | queued (d : Dev)

/-- The fault record of an engine operation (R194, R353); that of a MEMORY_MODEL names the other party (R210). -/
def Dev.engRecord (d : Dev) (op : Nat) (e : EngOp) (bnc : Bool) (cause : Cause) (thread : Nat) (addr : Word) : Dev :=
  let r : FRec := {
    cause := cause, src := 1, bnc := bnc, reason := 0, part := e.who.part, asid := e.who.asid, fdom := e.who.fdom,
    launch := e.who.launch, thread := thread, info := e.comp.toNat, addr := addr,
    other := if cause = .memoryModel then e.foe else none }
  d.faultRecord r (.engine op)

/-- Return the sectors granted to an operation after a wait, for the write they were asked for (R373). -/
def Dev.useResv (d : Dev) (op : Nat) (e : EngOp) : Dev :=
  (e.resv.foldl (fun d (x : Nat × Nat × Nat) =>
    match chunkHome x.1 with
    | none => d
    | some h =>
      let k := d.chunk x.1
      let d := d.moveSectors k.part h e.who.rcb 0 x.2.1
      d.putChunk x.1 { k with resv := k.resv - x.2.1, grow := k.grow - x.2.2 }) d).modOp op fun e => { e with resv := [] }

/-- Put bytes at a frame once their sectors are there (R304, R373). -/
def Dev.engPut (d : Dev) (op : Nat) (e : EngOp) (cells : List (Nat × Byte)) (cls : BitVec 2) (side : Option Nat) (pa : Nat) (va : Word) : EngW :=
  if !e.resv.isEmpty then .ok (((d.useResv op e).writeLeaf cells cls side e.who.part e.who.rcb).wake)
  else match d.roomFor e.who.part e.who.rcb cells cls with
    | .fits => .ok (d.writeLeaf cells cls side e.who.part e.who.rcb).wake
    | .waits n => .queued (d.queueResv e.who.part e.who.rcb (pa / 4096) n (.engine op) va)
    | .refused => .stop (d.countFail e.who.part (pa / 4096)) 0 .outOfSpace va

/-- A tracked write, with the prefix before a conflict (R210), of which a `whole` write makes nothing; `put` makes it. -/
def Dev.engArrive (d : Dev) (op pa : Nat) (va : Word) (bs : List Byte) (put : Dev → List Byte → EngW) (whole : Bool := false) : EngW :=
  match d.arrive ⟨.engine op, pa, bs.length, true, false, va⟩ with
  | .ok d => put d bs
  | .wait => .wait
  | .retry _ => .wait
  | .raise d low os =>
    let d := d.meetsFoe op os
    let m := low - pa
    let at_ := va + BitVec.ofNat 64 m
    if m = 0 || whole then .stop d 0 .memoryModel at_
    else match d.arrive ⟨.engine op, pa, m, true, false, va⟩ with
      | .ok d =>
        (match put d (bs.take m) with
         | .ok d => .stop d m .memoryModel at_
         | w => w)
      | _ => .wait

/-- The bounce slot of a page, or the lowest free one (R378); none when the buffer is full. -/
def Dev.slotFor (d : Dev) (e : EngOp) (page : Nat) : Option Nat :=
  match d.bounce.find? fun b => b.1.1 == e.who.die && b.2.asid == e.who.asid && b.2.part == e.who.part && b.2.page == page with
  | some b => some b.1.2
  | none => (List.range bounceSlots).find? fun s => (tget (e.who.die, s) d.bounce).isNone

/-- The value of the lane at an address of a frame whose page is not resident: what has landed in its slot, over what the frame
holds (log 64). -/
def Dev.landedLane (d : Dev) (cells : List Host.Cell) (a : Nat) : BitVec 32 :=
  BitVec.ofNat 32 (natOfBytes ((List.range 4).map fun k => (tget (a % 4096 + k) cells).getD (d.byte (a + k))))

/-- Land bytes for a page that is not resident (R194, R355, R378). The summary of the page is widened as they land, before they
count as completed (R304). -/
def Dev.land (d : Dev) (op : Nat) (e : EngOp) (l : Leaf) (va : Word) (bs : List Byte) (whole : Bool := false) : EngW :=
  let page := va.toNat / 4096
  match d.slotFor e page with
  | none => .stop d 0 .pageFault va
  | some s =>
    if l.sum && d.cutAt l.side 64 then .stop d 0 .lengthViolation (failAddr .decode va) else
    d.engArrive op (bouncePa e.who.die s + va.toNat % 4096) va bs (whole := whole) fun d bs =>
      let d := d.setAD l true
      let b := (tget (e.who.die, s) d.bounce).getD ⟨e.who.asid, e.who.part, page, e.who.rcb, []⟩
      let cells := (cellsAt (va.toNat % 4096) bs).foldl (fun c x => tput x.1 x.2 c) b.cells
      let d := { d with bounce := tput (e.who.die, s) { b with cells := cells } d.bounce }
      let d := match l.sideOf with | some x => d.widenBy x (d.landedLane cells) (cellsAt (l.at va) bs) | none => d
      if e.bnc.contains page then .ok d
      else .ok ((d.engRecord op e true .pageFault (64 * s) va).modOp op fun e => { e with bnc := page :: e.bnc })

/-- A write to a shelf whose seal was committed before the operation was forked (R199). -/
def Dev.sealedFor (d : Dev) (op : Nat) (l : Leaf) (pa : Nat) : Bool :=
  l.kind == 2 && (match d.shelf (shelfOf pa) with | .pending n => n ≤ op | _ => false)

/-- The leaf of a destination: resident or not, it must permit the write by order 5 of R364 (R194). -/
def Dev.dstLeaf (d : Dev) (op : Nat) (e : EngOp) (va : Word) : Except TErr Leaf :=
  match d.leafFor e.who.ctx va with
  | .error t => .error t
  | .ok l =>
    if !l.allows .write e.who.sys then .error .perm
    else match d.kindErr l (l.at va) .engineWrite with
      | some t => .error t
      | none => if d.sealedFor op l (l.at va) then .error .sealed else .ok l

/-- A write of bytes in one line (R194); a `whole` one is made of all its bytes or none. -/
def Dev.engWrite (d : Dev) (op : Nat) (e : EngOp) (va : Word) (bs : List Byte) (whole : Bool := false) : EngW :=
  match d.dstLeaf op e va with
  | .error t => .stop d 0 t.cause (failAddr t va)
  | .ok l =>
    if l.nr then d.land op e l va bs whole
    else match d.check e.who.ctx va bs.length 1 .engineWrite with
      | (d, .error t) => .stop d 0 t.cause (failAddr t va)
      | (d, .ok (pa, l)) => d.engArrive op pa va bs (fun d bs => d.engPut op e (cellsAt pa bs) l.cls l.sideOf pa va) whole

/-- A write by physical address (R316), encoded transparent (R369); `side` is the summary it widens. It lies within one line, or
writes the `whole` of a chunk, which replaces one that was cut off (R372). -/
def Dev.engWritePa (d : Dev) (op : Nat) (e : EngOp) (pa : Nat) (side : Option Nat) (bs : List Byte) (whole : Bool := false) : EngW :=
  let va := BitVec.ofNat 64 pa
  match d.rangeIn pa bs.length with
  | none => .stop d 0 .protection va
  | some .devreg => .stop d 0 .protection va
  | some _ =>
    if d.ringAt pa bs.length then .stop d 0 .protection va
    else if (!whole && d.cutAt pa bs.length) || side.any fun s => d.cutAt s 64 then .stop d 0 .lengthViolation va
    else d.engArrive op pa va bs (whole := whole) fun d bs =>
      match d.engPut op e (cellsAt pa bs) noClass side pa va with
      | .ok d => .ok (if whole then d.mendChunk (pa / 4096) else d)
      | w => w

/-! ### One piece of a copy -/

/-- Where a run reads. -/
inductive RunSrc where
  | va (a : Word)
  | pa (a : Nat)
  | data (bs : List Byte)
  deriving DecidableEq, Repr

/-- How a piece ends: source and destination bytes done; source bytes kept as a part of a packed image; a stop after source
bytes; a wait. -/
inductive Piece where
  | go (d : Dev) (src dst : Nat)
  | part (d : Dev) (bs : List Byte)
  | stop (d : Dev) (n : Nat) (cause : Cause) (addr : Word)
  | wait
  | queued (d : Dev)

/-- Write what a read has given, then stop where the read did. -/
def EngR.into (r : EngR) (write : Dev → List Byte → EngW) : Piece :=
  match r with
  | .wait => .wait
  | .ok d bs =>
    (match write d bs with
     | .ok d => .go d bs.length bs.length
     | .stop d n c a => .stop d n c a
     | .wait => .wait
     | .queued d => .queued d)
  | .stop d [] c a => .stop d 0 c a
  | .stop d bs c a =>
    match write d bs with
    | .ok d => .stop d bs.length c a
    | .stop d n c' a' => .stop d n c' a'
    | .wait => .wait
    | .queued d => .queued d

/-- Read a run's next bytes. -/
def Dev.runRead (d : Dev) (op : Nat) (e : EngOp) (s : RunSrc) (n : Nat) : EngR :=
  match s with
  | .va a => d.engRead op e a n
  | .pa a => d.engReadPa op a n
  | .data bs => .ok d bs

/-- Bytes of a run's source that lie in one line. -/
def RunSrc.line (s : RunSrc) : Nat :=
  match s with
  | .va a => 64 - a.toNat % 64
  | .pa a => 64 - a % 64
  | .data bs => bs.length

/-- The lines of a packed image (R370): the codes' payloads one after another. -/
def unpackLines : List (BitVec 4) → List Byte → List Byte
  | [], _ => []
  | c :: r, pl => (decodeLine c pl).getD [] ++ unpackLines r (pl.drop (codeBytes c))

/-- The codes in an image's header. -/
def imageCodes (h : Nat) : List (BitVec 4) := (List.range 64).map fun i => BitVec.ofNat 4 (nfld h (4 * i + 3) (4 * i))

/-- An image's header is right: codes up to 8, their payload's length, and zeros (R370). -/
def imageOk (h : Nat) : Bool :=
  ((imageCodes h).all fun c => c.toNat ≤ 8) && nfld h 287 256 == payloadBytes (imageCodes h) && nfld h 511 288 == 0

/-- Give a chunk the codes and lines of an image (R370). -/
def Dev.putImage (d : Dev) (e : EngOp) (pa : Nat) (l : Leaf) (codes : List (BitVec 4)) (lines : List Byte) : Dev :=
  let d := { d with mem := memPutList d.mem pa lines }.setCodes (pa / 4096) codes l.cls e.who.part e.who.rcb true
  let d := d.mirror (linesOf pa 4096) true
  (match l.sideOf with | some s => d.widen s (cellsAt pa lines) | none => d).wake

/-- Write an image whose bytes have been read and checked. -/
def Dev.importImage (d : Dev) (op : Nat) (e : EngOp) (l : Leaf) (va : Word) (codes : List (BitVec 4)) (payload : List Byte) : EngW :=
  let lines := unpackLines codes payload
  if l.nr then d.land op e l va lines
  else
    let pa := l.at va
    d.engArrive op pa va lines fun d lines =>
      if lines.length ≠ 4096 then .ok d else
      if l.sum && d.cutAt l.side 64 then .stop d 0 .lengthViolation (failAddr .decode va) else
      let d := d.setAD l true
      let k := d.chunk (pa / 4096)
      let need := k.projected (payloadBytes codes) - (k.secs + k.resv)
      if !e.resv.isEmpty then .ok ((d.useResv op e).putImage e pa l codes lines)
      else match chunkHome (pa / 4096) with
        | none => .ok (d.putImage e pa l codes lines)
        | some h =>
          if need = 0 then .ok (d.putImage e pa l codes lines)
          else if e.who.rcb != 0 && !d.sectorBudget e.who.rcb need then .stop (d.countFail e.who.part (pa / 4096)) 0 .outOfSpace va
          else if d.poolGives e.who.part h need then .ok (d.putImage e pa l codes lines)
          else .queued (d.queueResv e.who.part e.who.rcb (pa / 4096) need (.engine op) va)

/-- Read a part of a run's source that may span lines. -/
def Dev.runReadAll (d : Dev) (op : Nat) (e : EngOp) (s : RunSrc) (off n : Nat) : EngR :=
  match s with
  | .va a => d.engRead op e (a + BitVec.ofNat 64 off) n
  | .pa a =>
    (linePieces (a + off) n).foldl (fun r p =>
      match r with
      | .ok d bs =>
        (match d.engReadPa op (a + off + p.1) p.2 with
         | .ok d x => .ok d (bs ++ x)
         | .stop d x c y => .stop d (bs ++ x) c y
         | .wait => .wait)
      | r => r) (.ok d [])
  | .data bs => .ok d ((bs.drop off).take n)

/-- The bytes of an image, header and padding, by its header (R370). -/
def imageSize (h : Nat) : Nat := 64 + cdiv (nfld h 287 256) 64 * 64

/-- Write an image once all its bytes are there: `n` source bytes of them came with this piece (R370). -/
def Dev.imageDone (d : Dev) (op : Nat) (e : EngOp) (l : Leaf) (dst : Word) (img : List Byte) (n : Nat) : Piece :=
  let h := natOfBytes (img.take 64)
  let len := nfld h 287 256
  if !((img.drop (64 + len)).all (· == 0)) then .stop d 0 .lengthViolation dst
  else match d.importImage op e l dst (imageCodes h) ((img.drop 64).take len) with
    | .ok d => .go d n 4096
    | .stop d _ c x => .stop d 0 c x
    | .wait => .wait
    | .queued d => .queued d

/-- One image of a packed import: all of it, or nothing (R370). Bytes that a peer sends come in pieces, which the engine
keeps until the image is whole. -/
def Dev.packedPiece (d : Dev) (op : Nat) (e : EngOp) (src : RunSrc) (l : Leaf) (dst : Word) (left : Nat) : Piece :=
  let all_ := e.img.length + left
  let bad (d : Dev) : Piece := .stop d 0 .lengthViolation dst
  if dst.toNat % 4096 ≠ 0 || all_ < 64 then bad d else
  match src with
  | .data bs =>
    let img := e.img ++ bs
    if img.length < 64 then .part d bs
    else
      let h := natOfBytes (img.take 64)
      if !imageOk h || all_ < imageSize h || imageSize h < img.length then bad d
      else if img.length < imageSize h then .part d bs
      else d.imageDone op e l dst img bs.length
  | s =>
    match d.runReadAll op e s 0 64 with
    | .wait => .wait
    | .stop d _ c x => .stop d 0 c x
    | .ok d hb =>
      let h := natOfBytes hb
      if !imageOk h || left < imageSize h then bad d
      else match d.runReadAll op e s 64 (imageSize h - 64) with
        | .wait => .wait
        | .stop d _ c x => .stop d 0 c x
        | .ok d pb => d.imageDone op e l dst (hb ++ pb) (imageSize h)

/-- A write of all 64 lines replaces a chunk that was cut off (R372). -/
def Dev.writeChunk (d : Dev) (op : Nat) (e : EngOp) (l : Leaf) (dst : Word) (bs : List Byte) : EngW :=
  if bs.length < 4096 then .stop d 0 .lengthViolation dst
  else if l.nr then d.land op e l dst bs
  else
    let pa := l.at dst
    d.engArrive op pa dst bs (whole := true) fun d bs =>
      if l.sum && d.cutAt l.side 64 then .stop d 0 .lengthViolation (failAddr .decode dst) else
      match (d.setAD l true).engPut op e (cellsAt pa bs) l.cls l.sideOf pa dst with
      | .ok d => .ok (d.mendChunk (pa / 4096))
      | w => w

/-- All 64 lines of a chunk that was cut off (R372). Bytes that a peer sends come in pieces, which the engine keeps until the
chunk is whole. -/
def Dev.chunkPiece (d : Dev) (op : Nat) (e : EngOp) (src : RunSrc) (l : Leaf) (dst : Word) : Piece :=
  match src with
  | .data bs =>
    if e.img.length + bs.length < 4096 then .part d bs
    else (match d.writeChunk op e l dst (e.img ++ bs) with
      | .ok d => .go d bs.length 4096
      | .stop d _ c a => .stop d 0 c a
      | .wait => .wait
      | .queued d => .queued d)
  | s => (d.runReadAll op e s 0 4096).into fun d bs => d.writeChunk op e l dst bs

/-- A page of class packed import. -/
def Leaf.packed (l : Leaf) : Bool := l.kind == 0 && l.cls == 2

/-- One piece of a run: `dpos` destination bytes of it are written, and `left` source bytes remain. Where the source's byte and
the destination's both fail, the source's failure stands (log 79). -/
def Dev.copyPiece (d : Dev) (op : Nat) (e : EngOp) (src : RunSrc) (dst : Word) (dpos left : Nat) : Piece :=
  let after := dst.toNat % 4096 = 0 && dpos ≠ 0 &&
    (match d.dstLeaf op e (dst - 1) with | .ok l => l.packed | .error _ => false)
  match d.dstLeaf op e dst with
  | .ok l =>
    if l.packed then d.packedPiece op e src l dst left
    else if after then .stop d 0 .lengthViolation dst
    else
      let n := Nat.min left (Nat.min src.line (64 - dst.toNat % 64))
      let whole := dst.toNat % 4096 = 0 &&
        (!e.img.isEmpty || (!l.nr && (d.chunk (l.at dst / 4096)).stops 63 && 4096 ≤ left))
      if whole then d.chunkPiece op e src l dst
      else (d.runRead op e src n).into fun d bs => d.engWrite op e dst bs
  | .error _ =>
    if after then .stop d 0 .lengthViolation dst
    else (d.runRead op e src (Nat.min left (Nat.min src.line (64 - dst.toNat % 64)))).into fun d bs => d.engWrite op e dst bs

/-! ### Starting, going on and stopping -/

/-- An operation has an engine (R192). -/
def EngOp.begun (e : EngOp) : Bool := e.start.isSome || e.seqh.isSome || e.ended

/-- An operation may start: an engine of its die is free, and no earlier one waits (R192). -/
def Dev.engFree (d : Dev) (op : Nat) (e : EngOp) : Bool :=
  let mine := d.ops.filter fun p => p.2.who.die == e.who.die
  (mine.filter fun p => p.2.begun).length < 16 && (match mine.find? fun p => !p.2.begun with | some p => p.1 == op | none => false)

/-- An operation stops after bytes more (R194): its status and one record. -/
def Dev.engStop (d : Dev) (op n : Nat) (cause : Cause) (addr : Word) : Dev :=
  match tget op d.ops with
  | none => d
  | some e =>
    let d := d.modOp op fun e => { e with ended := true, cause := some cause, bytes := e.bytes + n }
    let d : Dev := { d with resvs := d.resvs.filter fun r => r.who != .engine op }
    d.engRecord op e false cause e.who.tidx addr

/-- A piece's effect on its operation; runs are `len` source bytes long. -/
def Piece.apply (p : Piece) (op len : Nat) (stop : Dev → Nat → Cause → Word → Dev) : Option Dev :=
  match p with
  | .wait => none
  | .queued d => some d
  | .stop d n c a => some (stop d n c a)
  | .part d bs => some (d.modOp op fun e => { e with pos := e.pos + bs.length, img := e.img ++ bs })
  | .go d s t => some (d.modOp op fun e =>
      let pos := e.pos + s
      { e with pos := pos, bytes := e.bytes + e.img.length + s, img := [], dpos := if pos % len = 0 then 0 else e.dpos + t })

/-- The operation has moved everything. -/
def Dev.engDone (d : Dev) (op : Nat) : Dev := d.modOp op fun e => { e with ended := true }

/-- An engine's step on an operation of a kind: a teardown or another party's raise stops it (R194, R210),
its sectors may be waited for, and an operation that has no engine yet starts. -/
def Dev.engStep (d : Dev) (op : Nat) (kind : EngKind) (cur : EngOp → Word) (stop : Dev → Nat → Cause → Word → Dev)
    (start go : Dev → EngOp → Option Dev) : Option Dev :=
  match tget op d.ops with
  | none => none
  | some e =>
    if e.kind ≠ kind || e.ended then none
    else if e.torn then some (stop d 0 .contextGone (cur e))
    else if e.struck then some (stop d 0 .memoryModel (cur e))
    else if d.claims (.engine op) || (!e.begun && !d.engFree op e) then none
    else if e.begun then go d e else start d e

end Sys2Proof.Machine
end

