-- ==== Sys2Proof/Machine/EngineOps.lean ====
section
/-!
DEFINITION. The operations of the engines (R192..R194, R313, R314, R316), their finish (R191), the task
walker's enqueues (R198), shelves that become sealed (R199) and refresh windows (R200).
-/

namespace Sys2Proof.Machine

/-! ### Commands (R193) -/

/-- A command's fields. -/
structure Cmd where
  src    : Word
  dst    : Word
  /-- LEN, or ROWLEN -/
  len    : Nat
  rows   : Nat
  spitch : Nat
  dpitch : Nat
  peer   : Nat
  op     : Nat
  deriving DecidableEq, Repr

/-- The command of an operation that has started, as its kind reads it. -/
def EngOp.command (e : EngOp) : Cmd :=
  let v := (e.start.getD 0).toNat
  let lo := BitVec.ofNat 64 (nfld v 63 0)
  let hi := BitVec.ofNat 64 (nfld v 127 64)
  match e.kind with
  | .copy2d => ⟨lo, hi, nfld v 159 128, nfld v 191 160, nfld v 223 192, nfld v 255 224, 0, 0⟩
  | .xfer => ⟨lo, hi, nfld v 167 128, 1, 0, 0, nfld v 201 192, nfld v 171 168⟩
  | _ => ⟨lo, hi, nfld v 191 128, 1, 0, 0, 0, 0⟩

/-- Bytes in all. -/
def Cmd.total (c : Cmd) : Nat := c.len * c.rows

/-- The bytes from the first of row 0 to the last of the last row. -/
def Cmd.extent (c : Cmd) (pitch : Nat) : Nat := if c.total = 0 then 0 else (c.rows - 1) * pitch + c.len

/-- Source and destination overlap (R194). -/
def Cmd.overlaps (c : Cmd) : Bool :=
  (2 ≤ c.rows && c.dpitch < c.len) ||
    (c.total ≠ 0 && c.src.toNat < c.dst.toNat + c.extent c.dpitch && c.dst.toNat < c.src.toNat + c.extent c.spitch)

/-- The element size of an XFER's operation: 4 and 2 for PUTADD, 1 for the others. -/
def Cmd.elem (c : Cmd) : Nat := match c.op with | 1 => 4 | 2 => 2 | _ => 1

/-- What is wrong with a command at its start (R194), with the address of its record (log 80). -/
def EngOp.badStart (e : EngOp) : Option (Cause × Word) :=
  let v := (e.start.getD 0).toNat
  let c := e.command
  match e.kind with
  | .copy =>
    if nfld v 255 192 ≠ 0 || 2 ^ 40 < c.len then some (.queue, e.comp)
    else if c.overlaps then some (.protection, c.dst) else none
  | .copy2d => if c.overlaps then some (.protection, c.dst) else none
  | .xfer =>
    if nfld v 255 202 ≠ 0 || nfld v 191 172 ≠ 0 || 3 < c.op || c.len % c.elem ≠ 0 then some (.queue, e.comp) else none
  | .gatherList => if nfld v 255 224 ≠ 0 || 65536 < nfld v 223 192 then some (.queue, e.comp) else none
  | _ => none

/-- Read a command of 32 bytes and check it; `more` goes on with a good one. One that fails at its start stops as any other
does, with a record (log 80). -/
def Dev.engBegin (d : Dev) (op : Nat) (e : EngOp) (more : Dev → EngOp → Option Dev) : Option Dev :=
  match d.engRead op e e.cmd 32 with
  | .wait => none
  | .stop d _ c a => some (d.engStop op 0 c a)
  | .ok d bs =>
    let start := some (BitVec.ofNat 256 (natOfBytes bs))
    let d := d.modOp op fun e => { e with start := start }
    let e := { e with start := start }
    match e.badStart with
    | some (c, a) => some (d.engStop op 0 c a)
    | none => more d e

/-! ### COPY and COPY2D -/

/-- The source of an operation's next byte, or its command's address before it has started. -/
def EngOp.cursor (e : EngOp) : Word :=
  if e.start.isNone then e.cmd else
  let c := e.command
  c.src + BitVec.ofNat 64 (e.pos / Nat.max c.len 1 * c.spitch + e.pos % Nat.max c.len 1)

/-- One piece of a COPY or COPY2D, or its end. -/
def Dev.copyGo (d : Dev) (op : Nat) (e : EngOp) : Option Dev :=
  let c := e.command
  if c.total ≤ e.pos then some (d.engDone op)
  else
    let dst := c.dst + BitVec.ofNat 64 (e.pos / c.len * c.dpitch + e.dpos)
    (d.copyPiece op e (.va e.cursor) dst e.dpos (c.len - e.pos % c.len)).apply op c.len fun d n k a => d.engStop op n k a

/-! ### XFER (R193, R408) -/

/-- A link that is down stops a transfer (R194, R408). -/
def Dev.linked (d : Dev) (op : Nat) (e : EngOp) (go : Dev → Option Dev) : Option Dev :=
  if d.reach e.command.peer then go d else some (d.engStop op 0 .contextGone e.cursor)

/-- PUT and PUTADD: bytes are read here and sent to the peer, each piece in one line here and there; a PUTADD moves whole
elements. `ok` is the peer's completion:
bytes count once it has acknowledged them (R320), and an error completion stops the operation before them (R194, R409). -/
def Dev.putGo (d : Dev) (op : Nat) (e : EngOp) (ok : Bool) (out : Nat → Word → List Byte → Out) : Option Dev :=
  let c := e.command
  if c.total ≤ e.pos then some (d.engDone op)
  else d.linked op e fun d =>
    let a := e.cursor
    let remote := c.dst + BitVec.ofNat 64 e.pos
    let room := Nat.min (64 - a.toNat % 64) (64 - remote.toNat % 64)
    let n := Nat.min (c.len - e.pos) (Nat.max c.elem (room / c.elem * c.elem))
    let send (d : Dev) (bs : List Byte) : Dev := if bs.isEmpty then d else d.emit (out c.peer remote bs)
    match d.engRead op e a n with
    | .wait => none
    | .ok d bs =>
      if ok then (Piece.go (send d bs) n n).apply op c.len fun d n k a => d.engStop op n k a
      else some ((send d bs).engStop op 0 .protection remote)
    | .stop d bs k a =>
      let bs := bs.take (bs.length / c.elem * c.elem)
      if bs.isEmpty || ok then some ((send d bs).engStop op bs.length k a)
      else some ((send d bs).engStop op 0 .protection remote)

/-- The bytes of a GET's next piece: it lies in one line of the peer's memory, of the destination, and of the image under
way (R370). -/
def EngOp.getPiece (e : EngOp) : Nat :=
  let c := e.command
  let here := (c.src + BitVec.ofNat 64 e.dpos).toNat
  let there := (c.dst + BitVec.ofNat 64 e.pos).toNat
  Nat.min (c.len - e.pos) (Nat.min (64 - there % 64) (if e.img.isEmpty then 64 - here % 64 else 64 - e.img.length % 64))

/-- GET: a piece of the peer's bytes is written here; none of them is an error completion, which stops the operation at the
byte that the peer cannot give (log 23). -/
def Dev.getGo (d : Dev) (op : Nat) (e : EngOp) (data : List Byte) : Option Dev :=
  let c := e.command
  if c.total ≤ e.pos then some (d.engDone op)
  else d.linked op e fun d =>
    let dst := c.src + BitVec.ofNat 64 e.dpos
    let remote := c.dst + BitVec.ofNat 64 e.pos
    let n := e.getPiece
    let d := d.emit (.peerRead c.peer remote n)
    if data.isEmpty then some (d.engStop op 0 .protection remote)
    else if data.length ≠ n then none
    else (d.copyPiece op e (.data data) dst e.dpos (c.len - e.pos)).apply op c.len fun d n k a => d.engStop op n k a

/-- An XFER of one operation; a command with another one is not carried out by it. -/
def Dev.xferStep (d : Dev) (op num : Nat) (go : Dev → EngOp → Option Dev) : Option Dev :=
  d.engStep op .xfer EngOp.cursor (fun d n c a => d.engStop op n c a)
    (fun d e => d.engBegin op e fun d e => if e.command.op = num then some d else none)
    (fun d e => if e.command.op = num then go d e else none)

/-! ### Gathers (R313, R314) -/

/-- The sequence table, the destination and the number of ranks of a gather. -/
def EngOp.table (e : EngOp) : Word := if e.kind = .gatherList then e.command.src else e.cmd
def EngOp.into (e : EngOp) : Word := if e.kind = .gatherList then e.command.dst else e.dst
def EngOp.ranks (e : EngOp) : Nat := if e.kind = .gatherList then nfld (e.start.getD 0).toNat 223 192 else e.sel.length

/-- Read a sequence header; an invalid one stops the operation (R313). -/
def Dev.readTable (d : Dev) (op : Nat) (e : EngOp) : Option Dev :=
  let s := e.table
  if s.toNat % 64 ≠ 0 then some (d.engStop op 0 .protection s) else
  match d.engRead op e s 64 with
  | .wait => none
  | .stop d _ c a => some (d.engStop op 0 c a)
  | .ok d bs =>
    match seqHdr (natOfBytes bs) with
    | none => some (d.engStop op 0 .protection s)
    | some h => some (d.modOp op fun e => { e with seqh := some (h.len, h.ppp, h.hw) })

/-- The block that an entry names, or a stop (R302, R313); `remote` is none where an owner's stage 2 fails. A `spare` is a block
that nobody uses yet: it needs no stage 2, only its entry of the table (R316). -/
def Dev.findBlock (d : Dev) (part : Nat) (ent : Nat) (remote : Option (List Byte)) (spare : Bool := false) : Dev × Except Cause BlkAt :=
  if !entOk ent then (d, .error .protection)
  else if entRmt ent then
    if !d.reach (entPeer ent) then (d, .error .contextGone)
    else
      let d := d.emit (.peerLookup (entPeer ent) (entGbn ent) part)
      (d, if remote.isNone then .error .protection else .ok (.peer (entPeer ent) (entGbn ent)))
  else match (if spare then d.blockOf (entGbn ent) part (d.blockTab (entDie ent)) else d.stage2 (entDie ent) (entGbn ent) part) with
    | none => (d, .error .protection)
    | some b => (d, .ok (.here b.k b.v b.side))

/-- Look up the block of rank j (R313). -/
def Dev.gatherFind (d : Dev) (op : Nat) (e : EngOp) (j len ppp : Nat) (remote : Option (List Byte)) : Option Dev :=
  let stop (d : Dev) (c : Cause) (a : Word) : Option Dev := some (d.engStop op 0 c a)
  let page : EngR :=
    if e.kind = .gatherList then
      d.engRead op e (BitVec.ofNat 64 (nfld (e.start.getD 0).toNat 191 128) + BitVec.ofNat 64 (4 * j)) 4
    else .ok d (bytesOfNat 4 (e.sel.getD j 0))
  match page with
  | .wait => none
  | .stop d _ c a => stop d c a
  | .ok d ub =>
    let u := natOfBytes ub
    let a := entAddr e.table u
    match d.engRead op e a 8 with
    | .wait => none
    | .stop d _ c a => stop d c a
    | .ok d eb =>
      let ent := natOfBytes eb
      if cdiv len ppp ≤ u then stop d .protection a
      else if !entV ent then stop d .pageFault a
      else match d.findBlock e.who.part ent remote with
        | (d, .error c) => stop d c a
        | (d, .ok b) => some (d.modOp op fun e => { e with blk := [b] })

/-- Copy the next piece of a rank's pages (R313). -/
def Dev.gatherCopy (d : Dev) (op : Nat) (e : EngOp) (at_ : BlkAt) (b : Nat) (remote : Option (List Byte)) : Option Dev :=
  let q := e.pos % (2 * b)
  let off := q % b
  let dst := e.into + BitVec.ofNat 64 (e.pos / b * b + e.dpos)
  let stop (d : Dev) (n : Nat) (c : Cause) (a : Word) : Dev := d.engStop op n c a
  let turn (d : Dev) : Dev := d.modOp op fun e => if e.pos % (2 * b) = 0 then { e with blk := [] } else e
  match at_ with
  | .here k v _ =>
    ((d.copyPiece op e (.pa (if q < b then k + off else v + off)) dst e.dpos (b - off)).apply op b stop).map turn
  | .peer p _ =>
    if !d.reach p then some (d.engStop op 0 .contextGone dst)
    else match remote with
      | none => none
      | some [] => some (d.engStop op 0 .protection dst)
      | some bs =>
        if bs.length ≠ Nat.min (b - off) (64 - dst.toNat % 64) then none
        else ((d.copyPiece op e (.data bs) dst e.dpos (b - off)).apply op b stop).map turn

/-- A gather goes on. -/
def Dev.gatherGo (d : Dev) (op : Nat) (e : EngOp) (remote : Option (List Byte)) : Option Dev :=
  match e.seqh with
  | none => d.readTable op e
  | some (len, ppp, _) =>
    let b := 64 * ppp
    if e.ranks * (2 * b) ≤ e.pos then some (d.engDone op)
    else match e.blk with
      | [] => d.gatherFind op e (e.pos / (2 * b)) len ppp remote
      | x :: _ => d.gatherCopy op e x b remote

/-- The address that a stop of a gather or fork names when it is not at a piece of its own. -/
def EngOp.tableAt (e : EngOp) : Word := if e.kind = .gatherList && e.start.isNone then e.cmd else e.table

/-! ### Forks (R316) -/

/-- A stop of a fork: the REFS that it raised are lowered again. -/
def Dev.forkStop (d : Dev) (op n : Nat) (c : Cause) (a : Word) : Dev :=
  match tget op d.ops with
  | none => d
  | some e =>
    let d := e.raised.foldl (fun d ent => d.refsDrop e.who.asid e.who.part ent a (some e.who)) d
    (d.modOp op fun e => { e with raised := [] }).engStop op n c a

/-- How raising a block's REFS ends. -/
inductive Raise where
  | ok (d : Dev)
  | stop (d : Dev) (c : Cause)
  | wait

/-- REFS of an entry's block plus 1, as a tracked atomic of the operation (R316). -/
def Dev.raiseRefs (d : Dev) (op part ent : Nat) (remote : Option (List Byte)) : Raise :=
  if !entOk ent then .stop d .protection
  else if entRmt ent then
    if !d.reach (entPeer ent) then .stop d .contextGone
    else if remote.isNone then .stop d .protection
    else .ok (d.emit (.peerRefs (entPeer ent) (entGbn ent) part true))
  else match d.stage2 (entDie ent) (entGbn ent) part with
    | none => .stop d .protection
    | some b =>
      match d.arrive ⟨.engine op, b.pa + 24, 4, true, true, 0⟩ with
      | .ok d => .ok (d.refsUp b)
      | .raise d _ os => .stop (d.meetsFoe op os) .memoryModel
      | _ => .wait

/-- A write of a fork to the child's table; `k` goes on after it, and a write that waits for sectors
leaves the rest of the step unmade. -/
def Dev.forkWrite (d0 d : Dev) (op : Nat) (e : EngOp) (va : Word) (bs : List Byte) (k : Dev → Dev) : Option Dev :=
  match d.engWrite op e va bs true with
  | .ok d => some (k d)
  | .stop d _ c a => some (d.forkStop op 0 c a)
  | .wait => none
  | .queued _ => (match d0.engWrite op e va bs true with | .queued d => some d | _ => none)

/-- Share page p with the child. -/
def Dev.forkShare (d : Dev) (op : Nat) (e : EngOp) (p : Nat) (remote : Option (List Byte)) : Option Dev :=
  match d.engRead op e (entAddr e.cmd p) 8 with
  | .wait => none
  | .stop d _ c a => some (d.forkStop op 0 c a)
  | .ok d eb =>
    let ent := natOfBytes eb
    let next (d : Dev) : Dev := d.modOp op fun e => { e with pos := p + 1 }
    if !entV ent then d.forkWrite d op e (entAddr e.dst p) eb next
    else match d.raiseRefs op e.who.part ent remote with
      | .wait => none
      | .stop d c => some (d.forkStop op 0 c (entAddr e.cmd p))
      | .ok d1 => d.forkWrite (d1.modOp op fun e => { e with raised := ent :: e.raised }) op e (entAddr e.dst p) eb next

/-- The tail page's block and the child's spare block. -/
def Dev.forkFind (d : Dev) (op : Nat) (e : EngOp) (t : Nat) (remote : Option (List Byte)) : Option Dev :=
  let stop (d : Dev) (c : Cause) (a : Word) : Option Dev := some (d.forkStop op 0 c a)
  let find (d : Dev) (a : Word) (spare : Bool) (k : Dev → BlkAt → Option Dev) : Option Dev :=
    match d.engRead op e a 8 with
    | .wait => none
    | .stop d _ c x => stop d c x
    | .ok d eb =>
      let ent := natOfBytes eb
      if !entV ent then stop d .pageFault a
      else match d.findBlock e.who.part ent remote spare with
        | (d, .error c) => stop d c a
        | (d, .ok b) => k d b
  find d (entAddr e.cmd t) false fun d b => find d (e.dst + 24) true fun d s => some (d.modOp op fun e => { e with blk := [b, s] })

/-- Where a fork's copy is written in the spare block, and whether it writes all 64 lines of a chunk that was cut off there
(R372): the bytes from `off` on of its keys or values. -/
def Dev.forkInto (d : Dev) (e : EngOp) (s : BlkAt) (value : Bool) (off half : Nat) : Nat × Bool :=
  match s with
  | .here k v _ =>
    let pa := (if value then v else k) + off
    (pa, pa % 4096 = 0 && (!e.img.isEmpty || (4096 ≤ half - off && (d.chunk (pa / 4096)).stops 63)))
  | .peer .. => (0, false)

/-- Copy the next line of the tail page's first `half` bytes of keys and of values, by physical address. -/
def Dev.forkCopy (d : Dev) (op : Nat) (e : EngOp) (b s : BlkAt) (half : Nat) (remote : Option (List Byte)) : Option Dev :=
  let q := e.bytes
  let off := q % half
  let value := half ≤ q
  let (dest, whole) := d.forkInto e s value off half
  let from_ := off + e.img.length
  let n := Nat.min (half - from_) 64
  let gone : Option Dev := some (d.forkStop op 0 .contextGone e.dst)
  let src : Option EngR :=
    match b with
    | .here k v _ =>
      let a := (if value then v else k) + off
      some (if whole then d.runReadAll op e (.pa a) 0 4096 else d.engReadPa op a n)
    | .peer p _ =>
      if !d.reach p then none
      else match remote with
        | none => some .wait
        | some [] => some (.stop d [] .protection e.cmd)
        | some bs => some (if bs.length = n then .ok d bs else .wait)
  let write (d : Dev) (bs : List Byte) : EngW :=
    match s with
    | .here _ _ side => d.engWritePa op e dest (if value then none else some side) (e.img ++ bs)
      (whole && e.img.length + bs.length = 4096)
    | .peer p g => .ok (d.emit (.peerBlock p g e.who.part value off bs))
  if (match s with | .peer p _ => !d.reach p | _ => false) then gone else
  match src with
  | none => gone
  | some r =>
    let part : Option Dev := match r with
      | .ok d bs => if whole && e.img.length + bs.length < 4096 then some (d.modOp op fun e => { e with img := e.img ++ bs }) else none
      | _ => none
    match part with
    | some d => some d
    | none =>
      match r.into write with
      | .wait => none
      | .queued d => some d
      | .part .. => none
      | .stop d n c a => some (d.forkStop op n c a)
      | .go d n _ => some (d.modOp op fun e => { e with bytes := e.bytes + e.img.length + n, img := [] })

/-- The tail page (R316): found, copied, entered in the child's table, and its spare taken. -/
def Dev.forkTail (d : Dev) (op : Nat) (e : EngOp) (t half : Nat) (remote : Option (List Byte)) : Option Dev :=
  match e.blk with
  | [b, s] =>
    if e.bytes < 2 * half then d.forkCopy op e b s half remote
    else if e.dpos = 0 then
      match d.engRead op e (e.dst + 24) 8 with
      | .wait => none
      | .stop d _ c a => some (d.forkStop op 0 c a)
      | .ok d eb => d.forkWrite d op e (entAddr e.dst t) eb fun d => d.modOp op fun e => { e with dpos := 1 }
    else d.forkWrite d op e (e.dst + 24) (List.replicate 8 0) fun d => d.modOp op fun e => { e with pos := t + 1 }
  | _ => d.forkFind op e t remote

/-- A fork goes on. The header is written last: HW, then PPP, then LEN, each in a step of its own (R316). -/
def Dev.forkGo (d : Dev) (op : Nat) (e : EngOp) (remote : Option (List Byte)) : Option Dev :=
  match e.seqh with
  | none => d.readTable op e
  | some (len, ppp, hw) =>
    let pages := cdiv len ppp
    if e.pos < pages then
      if len % ppp ≠ 0 && e.pos = len / ppp then d.forkTail op e e.pos (len % ppp * 64) remote
      else d.forkShare op e e.pos remote
    else
      let next (d : Dev) : Dev := d.modOp op fun e => { e with pos := e.pos + 1 }
      if e.pos = pages then d.forkWrite d op e (e.dst + 16) (bytesOfNat 8 hw) next
      else if e.pos = pages + 1 then d.forkWrite d op e (e.dst + 8) (bytesOfNat 8 ppp) next
      else d.forkWrite d op e e.dst (bytesOfNat 8 len) fun d => d.engDone op

/-! ### Finish (R191, R198, R210) -/

/-- An operation finishes: its region ends, and its object or node is updated. -/
def Dev.engFinish (d : Dev) (op : Nat) (e : EngOp) : Dev :=
  let d := d.useResv op e
  let d : Dev := { d with recs := d.recs.filter fun r => r.owner != .engine op, ops := tdel op d.ops }
  let cause := match e.cause with | some c => c.num | none => 0
  match e.node with
  | some (die, rec) => d.nodeFinish die e.who rec e.bytes cause
  | none => d.compDo e.who.asid e.who.part e.comp e.bytes cause (some e.who)

/-- The walker takes a TASK (R198). -/
def Dev.taskTake (d : Dev) (die : Nat) (who : Party) (rec : Word) : Dev :=
  match d.recordAt who rec with
  | (d, none) => d
  | (d, some (pa, l)) =>
    let v := d.num pa 8
    if nfld v 5 4 = 1 then d.agentRecord who.part who.asid .queue rec (some who)
    else
      let d := d.putRecord pa l who.part (withState v 0)
      let d := { d with nodes := tput pa ⟨who, 0, false⟩ d.nodes }
      if nfld v 63 32 = 0 then d.nodeLaunch die who rec else d

/-- The ranges by address that an operation under way has still to write. -/
def EngOp.dests (e : EngOp) : List (Word × Nat) :=
  let c := e.command
  match e.kind with
  | .copy => [(c.dst + BitVec.ofNat 64 e.dpos, c.len - e.pos)]
  | .copy2d => if c.len = 0 then [] else
      ((List.range c.rows).filter fun r => e.pos / c.len ≤ r).map fun r => (c.dst + BitVec.ofNat 64 (r * c.dpitch), c.len)
  | .xfer => if c.op = 3 then [(c.src + BitVec.ofNat 64 e.dpos, c.len - e.pos)] else []
  | .fork => [(e.dst, 64 + 8 * cdiv (e.seqh.getD (0, 1, 0)).1 (e.seqh.getD (0, 1, 0)).2.1)]
  | _ => [(e.into + BitVec.ofNat 64 e.pos, e.ranks * (128 * (e.seqh.getD (0, 1, 0)).2.1) - e.pos)]

/-- An operation may still write a shelf (R199): it has not read its command or header, or a page of what it has still to
write is one of the shelf's. -/
def Dev.mayWriteShelf (d : Dev) (e : EngOp) (shelf : Nat) : Bool :=
  let unread := match e.kind with
    | .copy => e.start.isNone
    | .copy2d => e.start.isNone
    | .xfer => e.start.isNone
    | _ => e.seqh.isNone
  let here (va : Word) : Bool := match d.leafFor e.who.ctx va with
    | .ok l => l.kind == 2 && shelfOf (l.at va) == shelf
    | .error _ => false
  let frames := e.blk.any fun b => match b with | .here k v _ => shelfOf k == shelf || shelfOf v == shelf | .peer .. => false
  !e.ended && (unread || (e.kind == .fork && frames) || e.dests.any fun r =>
    (List.range ((r.1.toNat % 4096 + r.2 + 4095) / 4096)).any fun k => here (r.1 + BitVec.ofNat 64 (4096 * k)))

/-! ### The events -/

/-- COPY_OPERATION (R194). -/
def execCopyOperation (op : Nat) (s : State) : Host.Outcome State Fault Refusal :=
  onEvent s "COPY_OPERATION" fun d =>
    d.engStep op .copy EngOp.cursor (fun d n c a => d.engStop op n c a)
      (fun d e => d.engBegin op e fun d _ => some d) (fun d e => d.copyGo op e)

/-- COPY2D_OPERATION (R194). -/
def execCopy2dOperation (op : Nat) (s : State) : Host.Outcome State Fault Refusal :=
  onEvent s "COPY2D_OPERATION" fun d =>
    d.engStep op .copy2d EngOp.cursor (fun d n c a => d.engStop op n c a)
      (fun d e => d.engBegin op e fun d _ => some d) (fun d e => d.copyGo op e)

/-- XFER_PUT (R193), with the peer's completion of the piece. -/
def execXferPut (op : Nat × Bool) (s : State) : Host.Outcome State Fault Refusal :=
  onEvent s "XFER_PUT" fun d => d.xferStep op.1 0 fun d e => d.putGo op.1 e op.2 .peerWrite

/-- XFER_PUTADD_F32 (R193), with the peer's completion of the piece. -/
def execXferPutaddF32 (op : Nat × Bool) (s : State) : Host.Outcome State Fault Refusal :=
  onEvent s "XFER_PUTADD_F32" fun d => d.xferStep op.1 1 fun d e => d.putGo op.1 e op.2 fun p a bs => .peerAdd p a false bs

/-- XFER_PUTADD_BF16 (R193), with the peer's completion of the piece. -/
def execXferPutaddBf16 (op : Nat × Bool) (s : State) : Host.Outcome State Fault Refusal :=
  onEvent s "XFER_PUTADD_BF16" fun d => d.xferStep op.1 2 fun d e => d.putGo op.1 e op.2 fun p a bs => .peerAdd p a true bs

/-- XFER_GET (R193), with the bytes that the peer has returned for the next piece. -/
def execXferGet (op : Nat) (data : List Byte) (s : State) : Host.Outcome State Fault Refusal :=
  onEvent s "XFER_GET" fun d => d.xferStep op 3 fun d e => d.getGo op e data

/-- GATHER_OPERATION (R313), with what a remote owner answers. -/
def execGatherOperation (op : Nat) (remote : Option (List Byte)) (s : State) : Host.Outcome State Fault Refusal :=
  onEvent s "GATHER_OPERATION" fun d =>
    d.engStep op .gather EngOp.tableAt (fun d n c a => d.engStop op n c a)
      (fun d e => d.readTable op e) (fun d e => d.gatherGo op e remote)

/-- GATHER_LIST_OPERATION (R314), with what a remote owner answers. -/
def execGatherListOperation (op : Nat) (remote : Option (List Byte)) (s : State) : Host.Outcome State Fault Refusal :=
  onEvent s "GATHER_LIST_OPERATION" fun d =>
    d.engStep op .gatherList EngOp.tableAt (fun d n c a => d.engStop op n c a)
      (fun d e => d.engBegin op e fun d _ => some d) (fun d e => d.gatherGo op e remote)

/-- FORK_OPERATION (R316), with what a remote owner answers. -/
def execForkOperation (op : Nat) (remote : Option (List Byte)) (s : State) : Host.Outcome State Fault Refusal :=
  onEvent s "FORK_OPERATION" fun d =>
    d.engStep op .fork EngOp.tableAt (fun d n c a => d.forkStop op n c a)
      (fun d e => d.readTable op e) (fun d e => d.forkGo op e remote)

/-- ENGINE_OPERATION_FINISH (R191, R198): the operation has ended, and its records, which are writes of its region, are
written (R354). -/
def execEngineOperationFinish (op : Nat) (s : State) : Host.Outcome State Fault Refusal :=
  onEvent s "ENGINE_OPERATION_FINISH" fun d =>
    match tget op d.ops with
    | some e => if e.ended && !(d.recq.any fun r => r.2 == .engine op) then some (d.engFinish op e) else none
    | none => none

/-- WALKER_ENQUEUE (R198): the walker of a die takes what was enqueued first, a TASK or a record due to launch. -/
def execWalkerEnqueue (die : Nat) (s : State) : Host.Outcome State Fault Refusal :=
  onEvent s "WALKER_ENQUEUE" fun d =>
    match (d.die die).walk with
    | [] => none
    | (who, rec, k) :: r =>
      let d := d.modDie die fun x => { x with walk := r }
      some (if k = 0 then d.taskTake die who rec else d.nodeLaunch die who rec)

/-- SHELF_SEAL_COMPLETE (R199): no operation that was forked before the seal can still write the shelf. -/
def execShelfSealComplete (shelf : Nat) (s : State) : Host.Outcome State Fault Refusal :=
  onEvent s "SHELF_SEAL_COMPLETE" fun d =>
    match d.shelf shelf with
    | .pending n =>
      if d.ops.any fun p => p.1 < n && d.mayWriteShelf p.2 shelf then none
      else some { d with shelves := tput shelf .sealed d.shelves }
    | _ => none

/-- A refresh window begins: the announced one, or a first one of length `len`; the next is announced (R200). -/
def Die.openWin (x : Die) (cycle len gap : Nat) : Die :=
  { x with inWin := true, winEnd := cycle + (if x.winGap = 0 then len else x.winLen), nextWin := cycle + gap, winLen := len, winGap := gap }

/-- An announced window begins in its cycle whether an event names the next one or not: the next then comes after the same
distance and is as long (R200, log 65). -/
def Dev.openWindows (d : Dev) : Dev :=
  { d with dies := d.dies.map fun p =>
      if p.2.winGap != 0 && p.2.nextWin == d.cycle then (p.1, p.2.openWin d.cycle p.2.winLen p.2.winGap) else p }

/-- REFRESH_WINDOW (R200): a window begins in the cycle announced for it, with the distance and the length of the next, or
it is over. -/
def execRefreshWindow (die : Nat) (begins : Bool) (len gap : Nat) (s : State) : Host.Outcome State Fault Refusal :=
  onEvent s "REFRESH_WINDOW" fun d =>
    let x := d.die die
    if 8 ≤ die then none
    else if begins then
      if (x.winGap ≠ 0 && d.cycle ≠ x.nextWin) || 640 < len || gap ≤ 640 then none
      else some (d.setDie die (x.openWin d.cycle len gap))
    else if x.inWin && x.winEnd ≤ d.cycle then some (d.setDie die { x with inWin := false }) else none

end Sys2Proof.Machine
end

