-- ==== Sys2Proof/Machine/HostStreams.lean ====
section
/-!
DEFINITION. Host participants of streams (R148, R149): joining, leaving, advancing and rewinding through a
function's stream window registers.
-/

namespace Sys2Proof.Machine

/-- The context of a host or peer access: no SYS page lets it in (R362). -/
def hostCtx (asid part : Nat) : XCtx := ⟨asid, part, ioDie, false, none, none, false⟩

/-- The cause of a failed host access: PAGE_FAULT or PROTECTION, or LENGTH_VIOLATION for a chunk that was cut
off (R372, R406). -/
def hostCause (e : TErr) : Cause := match e with | .page => .pageFault | .decode => .lengthViolation | _ => .protection

def Dev.window (d : Dev) (fn w : Nat) : Window := (tget (fn, w) d.windows).getD Window.reset
def Dev.modWindow (d : Dev) (fn w : Nat) (f : Window → Window) : Dev :=
  { d with windows := tput (fn, w) (f (d.window fn w)) d.windows }

/-- The span address that a window names: its region's start and its view (R127, R148). -/
def Window.addr (w : Window) : Word :=
  sx ((BitVec.ofNat 14 (w.span / 8)) ++ (BitVec.ofNat 3 w.view) ++ (0 : BitVec 40))

/-- The fields of a WCTL write but JOIN, which are ignored while JOIN reads 1; ERR is cleared by writing 1 (R148). -/
def Window.set (w : Window) (v : Word) : Window :=
  if w.join then w
  else { w with
    asid := fldN v 63 52, span := fldN v 51 38 * 8, view := fldN v 34 32, role := v.getLsbD 8, err := w.err && !v.getLsbD 1 }

/-- The stream that a window names, for the host; none where an operation on it would fault, or would wait for an entry of
the descriptor cache (R131, R149). A translation that fails sends its record (R364), as does a descriptor that cannot be decoded
(R372). -/
def Dev.windowStream (d : Dev) (fn : Nat) (w : Window) : Dev × Option (Nat × Stream) :=
  if !d.asidIn fn w.asid then (d, none) else
  let c := hostCtx w.asid fn
  let fail (e : TErr) : Dev × Option (Nat × Stream) := (d.hostRecord fn w.asid (hostCause e) (failAddr e w.addr), none)
  match d.leafFor c w.addr with
  | .error e => fail e
  | .ok l =>
    if l.nr then fail .page
    else if !l.allows (if w.role then .write else .read) false then fail .perm
    else if l.kind ≠ 1 then (d, none)
    else
      let d := (d.setAD l w.role).fill c w.addr { l with a := true, d := l.d || w.role }
      match d.streamUse l.pa none (fn, w.asid, w.addr.toNat / 2 ^ 43) with
      | .ok d s => (d, some (l.pa, s))
      | .full d => (d, none)
      | .bad d => (d, none)
      | .cut d => (d.hostRecord fn w.asid .lengthViolation (failAddr .decode w.addr), none)
      | .far d => (d, none)

/-- A stream as a commit of the host leaves it: TAIL follows the joined readers (R144, R149). -/
def Dev.hostCommit (d : Dev) (desc : Nat) (s : Stream) : Dev :=
  d.setStream desc { s.follow with dirty := true }

/-- A join (R149). It is refused where the window's view cannot be reached, and while a device's claim on the reader or on
the role is pending (log 62). -/
def Dev.hostJoin (d : Dev) (fn k : Nat) : Dev :=
  let w := d.window fn k
  let bad (d : Dev) : Dev := d.modWindow fn k fun w => { w with err := true }
  match d.windowStream fn w with
  | (d, none) => bad d
  | (d, some (desc, s)) =>
    let good (d : Dev) : Dev := d.modWindow fn k fun w => { w with join := true, desc := desc }
    if w.role then
      if s.pj || s.hpro || d.claimed desc 8 then bad d else good (d.hostCommit desc { s with hpro := true })
    else if (s.reader w.view).joined || d.claimed desc w.view then bad d
    else good (d.hostCommit desc (s.modReader w.view fun _ => ⟨true, s.hwm, s.hwm, true⟩))

/-- A leave (R149): of the stream that was joined, whatever the window's addresses translate to by now. -/
def Dev.hostLeave (d : Dev) (fn k : Nat) : Dev :=
  let w := d.window fn k
  if !w.join then d else
  let d := d.modWindow fn k fun w => { w with join := false, desc := 0 }
  match d.streamUse w.desc none (fn, w.asid, w.addr.toNat / 2 ^ 43) with
  | .ok d s =>
    d.hostCommit w.desc (if w.role then { s with hpro := false }
      else s.modReader w.view fun r => { r with joined := false, host := false })
  | .full d => d.mustWait
  | .bad d => d
  | .cut d => d
  | .far d => d

/-- WPOS of a window: a reader's HWM, a producer's LIMIT; 0 while not joined (R148). -/
def Dev.wpos (d : Dev) (fn k : Nat) : Nat :=
  let w := d.window fn k
  let s := (tget w.desc d.streams).getD (parseStream (d.num w.desc 64) 9)
  if !w.join then 0 else if w.role then d.limitOf w.desc s else s.hwm

/-- WCUR of a window: a reader's released position, a producer's HWM; 0 while not joined (R148). -/
def Dev.wcur (d : Dev) (fn k : Nat) : Nat :=
  let w := d.window fn k
  let s := (tget w.desc d.streams).getD (parseStream (d.num w.desc 64) 9)
  if !w.join then 0 else if w.role then s.hwm else (s.reader w.view).rel

/-- WCTL as it reads (R148). -/
def Window.ctl (w : Window) : Nat :=
  w.asid % 4096 * 2 ^ 52 + w.span / 8 % 2 ^ 14 * 2 ^ 38 + w.view % 8 * 2 ^ 32 + (if w.role then 2 ^ 8 else 0) +
    (if w.err then 2 else 0) + (if w.join then 1 else 0)

/-- An operation on a stream of wider elements than 8 bytes would fault (R136 check 5, R149). -/
def Stream.wide (s : Stream) : Bool := 3 < s.esz

/-- A write to WADV (R148, R149). -/
def Dev.hostAdvance (d : Dev) (fn k q : Nat) : Dev :=
  let w := d.window fn k
  let bad (d : Dev) : Dev := d.modWindow fn k fun w => { w with err := true }
  if !w.join then bad d else
  match d.windowStream fn w with
  | (d, none) => bad d
  | (d, some (desc, s)) =>
    if s.wide || q % s.esize ≠ 0 || !(if w.role then s.hpro else (s.reader w.view).joined) then bad d
    else if w.role then
      if d.limitOf desc s < q then bad d else d.hostCommit desc { s with hwm := Nat.max s.hwm q }
    else if s.hwm < q then bad d
    else d.hostCommit desc (s.modReader w.view fun r => { r with rel := Nat.max r.rel q, cur := Nat.max r.cur q })

/-- A write to WREW (R148, R149). -/
def Dev.hostRewind (d : Dev) (fn k q : Nat) : Dev :=
  let w := d.window fn k
  let bad (d : Dev) : Dev := d.modWindow fn k fun w => { w with err := true }
  if w.role then d
  else if !w.join then bad d
  else match d.windowStream fn w with
    | (d, none) => bad d
    | (d, some (desc, s)) =>
      if s.wide || q % s.esize ≠ 0 || !(s.reader w.view).joined || q < (s.reader w.view).rel || s.hwm < q then bad d
      else d.hostCommit desc (s.modReader w.view fun r => { r with cur := q })

/-- A function and one of its 256 windows. -/
def windowIs (fn w : Nat) : Bool := fn < 64 && w < 256

/-! ### The events -/

/-- HOST_STREAM_JOIN (R149): a write of WCTL with JOIN = 1. -/
def execHostStreamJoin (fn w : Nat) (v : Word) (s : State) : Host.Outcome State Fault Refusal :=
  onFn s fn "HOST_STREAM_JOIN" fun d =>
    if !windowIs fn w || !v.getLsbD 0 then none
    else
      let was := (d.window fn w).join
      let d := d.modWindow fn w fun x => x.set v
      some (if was then d else d.hostJoin fn w)

/-- HOST_STREAM_LEAVE (R149): a write of WCTL.JOIN = 0. -/
def execHostStreamLeave (fn w : Nat) (s : State) : Host.Outcome State Fault Refusal :=
  onFn s fn "HOST_STREAM_LEAVE" fun d => if !windowIs fn w then none else some (d.hostLeave fn w)

/-- HOST_STREAM_ERR_CLEAR (R148): writing 1 to WCTL.ERR, which is ignored while JOIN reads 1. -/
def execHostStreamErrClear (fn w : Nat) (s : State) : Host.Outcome State Fault Refusal :=
  onFn s fn "HOST_STREAM_ERR_CLEAR" fun d =>
    if !windowIs fn w then none else some (d.modWindow fn w fun x => { x with err := x.err && x.join })

/-- HOST_STREAM_ADVANCE (R148): a write to WADV. -/
def execHostStreamAdvance (fn w : Nat) (q : Word) (s : State) : Host.Outcome State Fault Refusal :=
  onFn s fn "HOST_STREAM_ADVANCE" fun d => if !windowIs fn w then none else some (d.hostAdvance fn w q.toNat)

/-- HOST_STREAM_REWIND (R148): a write to WREW. -/
def execHostStreamRewind (fn w : Nat) (q : Word) (s : State) : Host.Outcome State Fault Refusal :=
  onFn s fn "HOST_STREAM_REWIND" fun d => if !windowIs fn w then none else some (d.hostRewind fn w q.toNat)

end Sys2Proof.Machine
end

