-- ==== Sys2Proof/Machine/Digest.lean ====
section
/-!
DEFINITION. The digests the device computes: CRC-32C over a block (R71), SHA3-256 for placed images
(R232) and SHA3-384 for images, keys and measurements (R413, R414, R419).
-/

namespace Sys2Proof.Machine

/-! ### CRC-32C (R71): polynomial 0x1EDC_6F41, reflected -/

/-- Eight steps of the reflected division. -/
def crcBits : Nat → BitVec 32 → BitVec 32
  | 0, c => c
  | n + 1, c => crcBits n (if c.getLsbD 0 then (c >>> 1) ^^^ 0x82F63B78#32 else c >>> 1)

/-- One byte into the remainder. -/
def crcByte (c : BitVec 32) (b : Byte) : BitVec 32 := crcBits 8 (c ^^^ b.zeroExtend 32)

/-- CRC-32C of a byte sequence. -/
def crc32c (bs : List Byte) : BitVec 32 := (bs.foldl crcByte 0xFFFFFFFF#32) ^^^ 0xFFFFFFFF#32

/-! ### SHA3

The sponge over 1,600 bits, as 25 lanes of 64 bits. Round constants and rotations are generated, not tabled. -/

/-- The shift register that generates the round constants: x^8 + x^6 + x^5 + x^4 + 1 over GF(2). -/
def shiftReg (r : Byte) : Byte := if r.getLsbD 7 then (r <<< 1) ^^^ 0x71#8 else r <<< 1

/-- A round constant: bit 2^j - 1 is the register's output at step j of seven; with the register after them. -/
def roundConst : Nat → Nat → Byte → Word × Byte
  | 0, _, r => (0, r)
  | n + 1, j, r =>
    let rest := roundConst n (j + 1) (shiftReg r)
    (if r.getLsbD 0 then rest.1 ||| BitVec.twoPow 64 (2 ^ j - 1) else rest.1, rest.2)

/-- The parity of the column x of a state. -/
def columnParity (s : List Word) (x : Nat) : Word :=
  ([0, 5, 10, 15, 20].map fun y => s.getD (x + y) 0).foldl (· ^^^ ·) 0

/-- Theta: every lane takes in the parities of the two columns beside its own. -/
def thetaStep (s : List Word) : List Word :=
  s.zipIdx.map fun (w, i) => w ^^^ columnParity s ((i + 4) % 5) ^^^ (columnParity s ((i + 1) % 5)).rotateLeft 1

/-- Rho and pi as one walk over the 24 lanes beside lane (0, 0): the lane carried goes to (y, 2x + 3y), rotated
by the t-th triangular number, and takes up the lane that stood there. -/
def rhoPi : Nat → Nat → Nat → Nat → Word → List Word → List Word
  | 0, _, _, _, _, s => s
  | n + 1, t, x, y, carry_, s =>
    let x' := y
    let y' := (2 * x + 3 * y) % 5
    let at_ := x' + 5 * y'
    rhoPi n (t + 1) x' y' (s.getD at_ 0) (s.set at_ (carry_.rotateLeft (t * (t + 1) / 2)))

/-- Chi on one row of five lanes. -/
def chiRow (r : List Word) : List Word :=
  r.zipIdx.map fun (w, x) => w ^^^ (~~~(r.getD ((x + 1) % 5) 0) &&& r.getD ((x + 2) % 5) 0)

/-- Chi on `n` rows. -/
def chiRows : Nat → List Word → List Word
  | 0, _ => []
  | n + 1, s => chiRow (s.take 5) ++ chiRows n (s.drop 5)

/-- The permutation's rounds; the register goes on from round to round. -/
def permute : Nat → Byte → List Word → List Word
  | 0, _, s => s
  | n + 1, r, s =>
    let k := roundConst 7 0 r
    let th := thetaStep s
    permute n k.2 ((chiRows 5 (rhoPi 24 1 1 0 (th.getD 1 0) th)).modifyHead (· ^^^ k.1))

/-- The 64-bit lanes of a block of bytes. -/
def lanesOf : Nat → List Byte → List Word
  | 0, _ => []
  | n + 1, bs => BitVec.ofNat 64 (natOfBytes (bs.take 8)) :: lanesOf n (bs.drop 8)

/-- Absorb whole blocks of `rate` bytes. -/
def absorb (rate : Nat) : Nat → List Byte → List Word → List Word
  | 0, _, s => s
  | n + 1, bs, s =>
    let blk := lanesOf (rate / 8) (bs.take rate)
    absorb rate n (bs.drop rate) (permute 24 1 (s.zipIdx.map fun (w, i) => w ^^^ blk.getD i 0))

/-- SHA3 padding to a whole number of blocks. -/
def sha3Pad (rate : Nat) (bs : List Byte) : List Byte :=
  let k := rate - bs.length % rate
  if k = 1 then bs ++ [0x86] else bs ++ [0x06] ++ List.replicate (k - 2) 0 ++ [0x80]

/-- SHA3 with a digest of `n` bytes. -/
def sha3 (n : Nat) (bs : List Byte) : List Byte :=
  let rate := 200 - 2 * n
  let p := sha3Pad rate bs
  let s := absorb rate (p.length / rate) p (List.replicate 25 0)
  (s.flatMap fun w => bytesOfNat 8 w.toNat).take n

/-- SHA3-256. -/
def sha3_256 (bs : List Byte) : List Byte := sha3 32 bs

/-- SHA3-384. -/
def sha3_384 (bs : List Byte) : List Byte := sha3 48 bs

end Sys2Proof.Machine
end

