-- ==== Sys2Proof/Machine/Regions.lean ====
section
/-!
DEFINITION. Regions on a die's sites: footprints (R17, R18), loading, shrinking, eviction and release
(R235..R239, R244), and budgets of sites (R46, R52).
-/

namespace Sys2Proof.Machine

/-! ### Sites (R17, R18, R237) -/

/-- The alignment of a footprint (R18). -/
def footAligned (foot s : Nat) : Bool :=
  match foot with
  | 1 => true
  | 2 => s % 2 == 0
  | _ => s % 2 == 0 && s / 8 % 2 == 0

/-- Sites in use on a die. -/
def Dev.usedSites (d : Dev) (die : Nat) : List Nat :=
  (d.regions.filter fun p => p.2.die == die).flatMap fun p => footSites p.2.foot p.2.site

/-- The lowest-numbered free group of sites of a footprint, when the sites `used` are taken (R228). -/
def freeGroup (used : List Nat) (foot : Nat) : Option Nat :=
  (List.range 128).find? fun s =>
    footAligned foot s && (footSites foot s).all fun x => x < 128 && !used.contains x

/-! ### Headers (R71) -/

def hdrDrain (h : BitVec 128) : Bool := h.getLsbD 80
def hdrPin (h : BitVec 128) : Bool := h.getLsbD 81
def hdrTds (h : BitVec 128) : Bool := h.getLsbD 82
def hdrGwr (h : BitVec 128) : BitVec 16 := h.extractLsb' 40 16
def hdrVwr (h : BitVec 128) : BitVec 4 := h.extractLsb' 56 4
def hdrFoot (h : BitVec 128) : Nat := 2 ^ (h.extractLsb' 78 2).toNat

/-! ### Release (R234, R239, R244) -/

/-- Instances in flight in a region. -/
def Dev.instsOf (d : Dev) (reg : Nat) : List (Nat × Inst) := d.insts.filter fun p => p.2.reg == reg

/-- Free a spill ring: its lines hold zero, and its bytes return to the RCB charged (R212, R244). -/
def Dev.freeRing (d : Dev) (g : Ring) : Dev :=
  { d with mem := memPutList d.mem g.pa (List.replicate g.size 0) }.charge g.rcb fun u => { u with scratch := u.scratch - g.size }

/-- Finish the CFGINVs whose last covered region has been released (R399). -/
def Dev.finishComps (d : Dev) (cs : List (Nat × Nat × Nat × Word)) : Dev :=
  cs.foldl (fun d c =>
    if d.regions.any fun p => p.2.comps.contains c then d else d.compDo c.2.1 c.2.2.1 c.2.2.2 0 0) d

/-- Release a region: its sites return to the RCB charged, its rings are freed. -/
def Dev.freeRegion (d : Dev) (reg : Nat) : Dev :=
  match d.region reg with
  | none => d
  | some r =>
    let d := r.rings.foldl (fun d g => d.freeRing g) d
    let d := d.charge r.rcb fun u => { u with sites := u.sites - r.foot }
    Dev.finishComps { d with regions := tdel reg d.regions } r.comps

/-- Abort the instances of a region that have not reached their commit points (R43, R238, R239). -/
def Dev.clearInsts (d : Dev) (reg : Nat) : Dev :=
  ((d.instsOf reg).filter fun p => !p.2.atPoint).foldl (fun d p => d.abortRequeue p.1) d

/-- Release a region as soon as no instance of it is in flight. -/
def Dev.closeRegion (d : Dev) (reg : Nat) : Dev :=
  if (d.instsOf reg).isEmpty then d.freeRegion reg
  else d.modRegion reg fun r => { r with phase := .closing, active := d.cycle }

/-- Evict a region (R239): its instances abort, and it is released. -/
def Dev.evict (d : Dev) (reg : Nat) : Dev := (d.clearInsts reg).closeRegion reg

/-- The config tokens of a load (R235): KIND config, the PE's index in TAG, and its configuration words. One goes to each PE of
the footprint (log 82). -/
def configTokens (im : Image) (foot : Nat) : List Token :=
  (List.range (32 * foot)).map fun pe =>
    { Token.null with kind := .config, tag := BitVec.ofNat 8 pe, payload := Config.configWords im.digest foot pe }

/-- The smaller placement of a shrunk region is loaded onto the sites it keeps, and the vacated
sites return (R237). -/
def Dev.reload (d : Dev) (reg foot : Nat) : Dev :=
  match d.region reg with
  | none => d
  | some r =>
    let d := r.rings.foldl (fun d g => d.freeRing g) d
    let d := d.charge r.rcb fun u => { u with sites := u.sites - (r.foot - foot) }
    d.modRegion reg fun r => { r with foot := foot, phase := .loading d.cycle, cfg := configTokens r.image foot, loaded := d.cycle, rings := [], active := d.cycle }

/-- Begin a shrink (R237, R238), which restarts the region's quiescence count (R245). A region that is still loading
abandons its load and is released (R236). One that drains already goes on draining from the cycle in which it began, and one
that a CFGINV releases is not loaded again (R234). -/
def Dev.shrink (d : Dev) (reg foot : Nat) : Dev :=
  match d.region reg with
  | none => d
  | some r =>
    match r.phase with
    | .loading _ => d.freeRegion reg
    | .closing => d
    | _ =>
      let d := if hdrDrain r.image.hdr then d else d.clearInsts reg
      let (began, foot) := match r.phase with | .draining b f => (b, Nat.min f foot) | _ => (d.cycle, foot)
      if (d.instsOf reg).isEmpty then d.reload reg foot
      else d.modRegion reg fun r => { r with phase := .draining began foot, active := d.cycle }

/-- Regions whose old work has ended go on: closing ones are released, draining ones reloaded. -/
def Dev.settleRegions (d : Dev) : Dev :=
  d.regions.foldl (fun d p =>
    if !(d.instsOf p.1).isEmpty then d else
    match p.2.phase with
    | .closing => d.freeRegion p.1
    | .draining _ foot => d.reload p.1 foot
    | _ => d) d

/-! ### Loading (R228, R235) -/

/-- Pinned sites of a die (R231). -/
def Dev.pinnedSites (d : Dev) (die : Nat) : Nat :=
  ((d.regions.filter fun p => p.2.die == die && p.2.pinned).map fun p => p.2.foot).sum

/-- Start the load of an image as a region: its sites are charged from here on (R228, R231, R235). -/
def Dev.loadRegion (d : Dev) (die site foot asid : Nat) (blk : Word) (rcb : Nat) (im : Image) : Dev :=
  let pin := hdrPin im.hdr && d.pinnedSites die + foot ≤ 96
  let r : Region := {
    die := die, site := site, foot := foot, asid := asid, part := im.part, blk := blk, rcb := rcb, image := im,
    phase := .loading d.cycle, cfg := configTokens im foot, loaded := d.cycle, pinned := pin, tds := pin && hdrTds im.hdr && d.effDclass rcb == 3,
    gens := Vector.replicate 32 0, idle := d.cycle, bare := d.cycle, active := d.cycle, clear := d.cycle,
    rings := [], comps := [] }
  let d := d.charge rcb fun u => { u with sites := u.sites + foot }
  { d with regions := d.regions ++ [(d.nextRegion, r)], nextRegion := d.nextRegion + 1 }

/-- Another region's old work is still under way on a region's sites (R235 step 2). -/
def Dev.oldWork (d : Dev) (reg : Nat) (r : Region) : Bool :=
  d.regions.any fun p => p.1 != reg && p.2.die == r.die &&
    (footSites p.2.foot p.2.site).any (footSites r.foot r.site).contains

/-- Config tokens of a region arrive behind the last of the old work: in each cycle one is taken by its PE (R235 step 3, log 82). -/
def Dev.takeConfig (d : Dev) : Dev :=
  if d.regions.all fun p => p.2.cfg.isEmpty then d else
  { d with regions := d.regions.map fun p =>
      if p.2.cfg.isEmpty || d.oldWork p.1 p.2 then p else (p.1, { p.2 with cfg := p.2.cfg.drop 1 }) }

/-! ### CFGINV (R234, R399) -/

/-- Block addresses that a CFGINV covers. -/
def covers (base len : Nat) (b : Word) : Bool := base ≤ b.toNat && b.toNat < base + len

/-- An image of a die's configuration cache is in use: a region of it is resident (R234). A pinned block's region is
resident for as long as it is pinned. -/
def Dev.imageUsed (d : Dev) (die : Nat) (im : Image) : Bool :=
  d.regions.any fun r => r.2.die == die && r.2.image.digest == im.digest && r.2.part == im.part

/-- Carry out a CFGINV of a partition over the ASIDs `as` (none for all): every image tagged with a covered pair leaves the
cache, or loses its covered tags while it is in use (R234), rejection records and fetches go, and covered regions are
released once their instances have ended. -/
def Dev.cfginv (d : Dev) (part : Nat) (as : Option Nat) (base len asid : Nat) (comp : Word) : Dev :=
  let hit (p a : Nat) (b : Word) : Bool := p == part && (match as with | none => true | some x => x == a) && covers base len b
  let inPart (a : Nat) : Bool := d.asidIn part a
  let tag := (d.nextOrd, asid, part, comp)
  let regs := (d.regions.filter fun p => hit p.2.part p.2.asid p.2.blk).map (·.1)
  let d := { d with
    nextOrd := d.nextOrd + 1
    rejPair := d.rejPair.filter fun p => !(inPart p.1.1 && hit part p.1.1 (BitVec.ofNat 64 p.1.2))
    fetches := d.fetches.filter fun f => !hit f.part f.asid f.blk
    dies := d.dies.map fun x => (x.1, { x.2 with
      cache := x.2.cache.filterMap fun c =>
        let left := c.pairs.filter fun q => !hit c.image.part q.1 (BitVec.ofNat 64 q.2)
        if left.length = c.pairs.length then some c
        else if d.imageUsed x.1 c.image then some { c with pairs := left } else none })
    regions := d.regions.map fun p => if regs.contains p.1 && comp != 0 then (p.1, { p.2 with comps := tag :: p.2.comps }) else p }
  let d := if regs.isEmpty then d.compDo asid part comp 0 0 else d
  regs.foldl (fun d k =>
    match d.region k with
    | none => d
    | some r => (match r.phase with | .loading _ => d.freeRegion k | _ => d.closeRegion k)) d

end Sys2Proof.Machine
end

