-- ==== Sys2Proof/Machine/Mapper.lean ====
section
/-!
DEFINITION. Fetching a block (R59, R61, R81), the mapper's checks (R71, R72, R76, R79, R121, R180),
rejection (R80) and placement (R44, R45, R232).
-/

namespace Sys2Proof.Machine

/-! ### Fetching (R61, R81) -/

/-- Pieces of [va, va + n) that lie in one 4 KiB page each: address and length. -/
def pagePieces (va : Word) (n : Nat) : List (Word × Nat) :=
  if n = 0 then [] else
  let a := va.toNat
  (List.range ((a + n - 1) / 4096 + 1 - a / 4096)).map fun k =>
    let lo := Nat.max a ((a / 4096 + k) * 4096)
    (BitVec.ofNat 64 lo, Nat.min (a + n) ((a / 4096 + k + 1) * 4096) - lo)

/-- The first byte of a range that cannot be fetched with a privilege, and its cause: PAGE_FAULT for a
page that is not valid, PROTECTION otherwise (R61). R171 has no column for a fetch: plain and shelf pages are fetched
from, stream and device pages are refused with PROTECTION (log 58). -/
def Dev.fetchFail (d : Dev) (c : XCtx) (va : Word) (n : Nat) : Option (Cause × Word) :=
  (pagePieces va n).findSome? fun p =>
    if !canonical p.1 then some (.pageFault, p.1) else
    match d.leafFor c p.1 with
    | .error .page => some (.pageFault, p.1)
    | .error _ => some (.protection, p.1)
    | .ok l =>
      if l.nr then some (.pageFault, p.1)
      else if !l.allows .exec c.sys || (l.kind != 0 && l.kind != 2) || d.ringAt (l.at p.1) p.2 || d.cutAt (l.at p.1) p.2 then some (.protection, p.1)
      else none

/-- The bytes of a range that can be fetched. -/
def Dev.fetchBytes (d : Dev) (c : XCtx) (va : Word) (n : Nat) : List Byte :=
  (pagePieces va n).flatMap fun p =>
    match d.leafFor c p.1 with
    | .ok l => d.bytes (l.at p.1) p.2
    | .error _ => List.replicate p.2 0

/-- The leaves that a fetch uses are cached, with A set (R365, R366). The fetch itself is not tracked (R206). -/
def Dev.fetchReads (d : Dev) (c : XCtx) (va : Word) (n : Nat) : Dev :=
  (pagePieces va n).foldl (fun d p => (d.translate c p.1 .exec).1) d

/-- Threads queued at a block of an ASID, on one die or on any (R225). -/
def Dev.queuedAt (d : Dev) (die : Option Nat) (asid : Nat) (b : Word) : List (Nat × Thread) :=
  d.threads.filter fun p => p.2.st == .queued && p.2.asid == asid && p.2.pc == b &&
    (match die with | none => true | some x => p.2.die == x)

/-- Words of a block, from its header (R59, R71). -/
def hdrWords (h : BitVec 128) : Nat := (h.extractLsb' 11 9).toNat

/-- The header in a block's first bytes. -/
def hdrOf (bs : List Byte) : BitVec 128 := BitVec.ofNat 128 (natOfBytes (bs.take 16))

/-- Trap the threads of a list whose fetch failed at a byte (R61). -/
def Dev.trapFetch (d : Dev) (ts : List (Nat × Thread)) (b : Word) (hdr : BitVec 128) (f : Cause × Word) : Dev :=
  ts.foldl (fun d p => d.trapThread p.1 (faultInfo f.1 0 f.2 b hdr)) d

/-- Fetch a range for the threads queued at `b`: those whose privilege fails trap. It answers the
context with which the bytes were read, or none when no thread is left that can fetch them. A fetch
that a hint asked for, with no thread queued, is made without SYS. A is set for every page translated, and for those
before one that fails (R365). -/
def Dev.fetchFor (d : Dev) (die asid part : Nat) (b va : Word) (n : Nat) (hdr : BitVec 128) : Dev × Option XCtx :=
  let ts := d.queuedAt (some die) asid b
  let ctx (s : Bool) : XCtx := ⟨asid, part, die, s, none, none, false⟩
  let one (e : Dev) (s : Bool) : Dev × Bool :=
    let mine := ts.filter fun p => d.effSys p.2.rcb == s
    if mine.isEmpty && !(ts.isEmpty && !s) then (e, false)
    else match e.fetchFail (ctx s) va n with
      | none => (e, true)
      | some f => ((e.fetchReads (ctx s) va (f.2 - va).toNat).trapFetch mine b hdr f, false)
  let (d1, user) := one d false
  let (d, sys) := one d1 true
  if user then (d.fetchReads (ctx false) va n, some (ctx false))
  else if sys then (d.fetchReads (ctx true) va n, some (ctx true))
  else (d, none)

/-! ### The mapper's checks (R79) -/

/-- What the check of a block ends in. -/
inductive Check where
  | ok (instrs : List Instr) (starts : List Nat) (luts : List (Nat × List Byte)) (descs : List (Nat × BitVec 512))
  | reject (r : RejRec) (luts : List (Nat × List Byte)) (descs : List (Nat × BitVec 512))
  | fault (idx : Nat) (f : Cause × Word)

/-- First words of the instructions that can be walked to, for the slot check of later consumers (R79). -/
def headWords : Nat → List Word32 → List Word32
  | 0, _ => []
  | n + 1, ws =>
    match ws with
    | [] => []
    | w :: _ =>
      match formOf w with
      | none => []
      | some f => w :: headWords n (ws.drop f.words)

/-- The slot exists at its consumer, as far as the consumer can be decoded (R67, R79). -/
def slotExists (heads : List Word32) (t : Target) : Bool :=
  match heads[t.idx.toNat]? with
  | none => true
  | some w =>
    let f := fieldsOfWords .s w 0 0
    match opInfo f.opcode.toNat with
    | none => true
    | some o =>
      if f.pred = 3 || ((o.pData || o.taking) && f.pred != 0) then true
      else match t.slot with
        | .a => o.hasA
        | .b => o.hasB
        | .p => o.pData || f.pred != 0

/-- The access size of an affine descriptor (R179); none for a reserved value. -/
def descSize (v : Nat) : Option Nat :=
  match nfld v 367 365 with
  | 0 => some 1 | 1 => some 2 | 2 => some 4 | 3 => some 8 | 6 => some 64 | _ => none

def descStr (v k : Nat) : Int := (BitVec.ofNat 32 (nfld v (128 + 32 * k + 31) (128 + 32 * k))).toInt
def descCnt (v k : Nat) : Nat := nfld v (256 + 16 * k + 15) (256 + 16 * k)

/-- The conditions on an affine descriptor (R179, R180). -/
def affineOk (v : Nat) (agenx : Bool) : Bool :=
  match descSize v with
  | none => false
  | some s =>
    let nd := nfld v 361 360
    let len := nfld v 127 64
    let x := nfld v 351 320
    let offs := (List.range (nd + 1)).map fun k => Int.ofNat (descCnt v k) * descStr v k
    let least := (offs.map fun o => min o 0).foldl (· + ·) 0
    let most := (offs.map fun o => max o 0).foldl (· + ·) 0
    nfld v 511 368 == 0 && nfld v 359 352 == 0 && v.testBit 362 == agenx && 1 ≤ len && len ≤ 2 ^ 48 &&
      (if agenx then
        nd == 0 && nfld v 319 256 == 0 && x != 0 && 0 ≤ descStr v 0 && (Int.ofNat x - 1) * descStr v 0 + Int.ofNat s ≤ Int.ofNat len
      else
        x == 0 && nfld v 63 0 == 0 && !v.testBit 363 && ((List.range 4).all fun k => k ≤ nd || descCnt v k == 0) &&
          0 ≤ least && most + Int.ofNat s ≤ Int.ofNat len)

/-- The affine descriptor that an instruction names (R179), as a displacement from the block. -/
def descOf : Instr → Option (BitVec 32 × Bool)
  | .agen _ lit .. => some (lit, false)
  | .agenx _ lit .. => some (lit, true)
  | _ => none

/-- The LUT table that an instruction names (R121). -/
def lutOf : Instr → Option Nat
  | .lutb _ t .. => some t.toNat
  | _ => none

/-- Stage 2 of R79: the scan of instructions 0..COUNT. `fetch` gives the 64 bytes at an address or why
they cannot be fetched; `tables` are the LUT tables that the image defines. A descriptor that two instructions name is listed
once for each, a LUT table once (log 86). -/
def scanBlock (fetch : Word → Except (Cause × Word) (List Byte)) (b : Word) (tables : List (Nat × List Byte))
    (heads : List Word32) (count : Nat) :
    Nat → Nat → List Word32 → List Instr → List Nat → List (Nat × List Byte) → List (Nat × BitVec 512) → Check
  | 0, _, ws, is, ss, ls, ds =>
    if ws.isEmpty then .ok is.reverse ss.reverse ls.reverse ds.reverse else .reject ⟨0x0E, count - 1⟩ ls.reverse ds.reverse
  | n + 1, pos, ws, is, ss, ls, ds =>
    let idx := count - (n + 1)
    let no (r : BitVec 8) : Check := .reject ⟨r, idx⟩ ls.reverse ds.reverse
    match takeFields ws with
    | .error e => no e.code
    | .ok (f, rest) =>
      let lutBad := f.opcode == 0x58 && (tget f.imm.toNat tables).isNone
      match decodeFields f with
      | .error .target => if lutBad then no 0x0C else no 0x0D
      | .error e => no e.code
      | .ok i =>
        if lutBad then no 0x0C
        else if !(distinctTargets i.targets && i.targets.all fun t => t.idx.toNat < count && slotExists heads t) then no 0x0D
        else
          let ls := match lutOf i with
            | some t => if ls.any (fun x => x.1 == t) then ls else (t, (tget t tables).getD []) :: ls
            | none => ls
          let go := fun ds => scanBlock fetch b tables heads count n (pos + f.form.words) rest (i :: is) (pos :: ss) ls ds
          match descOf i with
          | none => go ds
          | some (lit, agenx) =>
            match fetch (b + sx lit) with
            | .error e => .fault idx e
            | .ok bs =>
              let v := natOfBytes bs
              let ds := (idx, BitVec.ofNat 512 v) :: ds
              if affineOk v agenx then go ds else .reject ⟨0x0C, idx⟩ ls.reverse ds.reverse

/-- The slots an instruction consumes (R72, R84). -/
def slotsNeeded (i : Instr) : List Slot :=
  match i.info with
  | some o => (if o.hasA then [.a] else []) ++ (if o.hasB then [.b] else []) ++ (if o.pData || predOf i != .always then [.p] else [])
  | none => []

/-- Lowest index, with its instruction, that meets a condition. -/
def firstIdx (is : List Instr) (f : Nat → Instr → Bool) : Option Nat :=
  (List.range is.length).find? fun k => match is[k]? with | some i => f k i | none => false

/-- The registers an instruction names: file (0 g, 1 k, 2 v read; 3 g, 4 v written) and number (R72). -/
def regNamed : Instr → Option (Nat × Nat)
  | .read _ n .g .. => some (0, n.toNat)
  | .read _ n .k .. => some (1, n.toNat)
  | .vread _ n .. => some (2, n.toNat)
  | .write _ n => some (3, n.toNat)
  | .vwrite _ n => some (4, n.toNat)
  | _ => none

/-- The mask of a header for a file of `regNamed`. -/
def hdrMask (h : BitVec 128) (file : Nat) : Nat :=
  match file with
  | 0 => (hdrGrd h).toNat
  | 1 => (h.extractLsb' 70 8).toNat
  | 2 => (hdrVrd h).toNat
  | 3 => (hdrGwr h).toNat
  | _ => (hdrVwr h).toNat

/-- Reason 0x10 (R72): the lowest instruction that disagrees, 0 for a mask bit that none names. -/
def maskFault (h : BitVec 128) (is : List Instr) : Option Nat :=
  let bad := firstIdx is fun k i =>
    match regNamed i with
    | none => false
    | some (f, n) => !(hdrMask h f).testBit n || (3 ≤ f && (is.take k).any fun j => regNamed j == some (f, n))
  match bad with
  | some k => some k
  | none =>
    if [(0, 16), (1, 8), (2, 4), (3, 16), (4, 4)].any fun x =>
      (List.range x.2).any fun n => (hdrMask h x.1).testBit n && !(is.any fun i => regNamed i == some (x.1, n))
    then some 0 else none

def isInit : Instr → Bool
  | .initW .. => true
  | .initL .. => true
  | _ => false

/-- Consumers of an instruction that are no INIT. -/
def flowOn (is : List Instr) (k : Nat) : List Nat :=
  match is[k]? with
  | none => []
  | some i => (i.targets.map fun t => t.idx.toNat).filter fun j => match is[j]? with | some c => !isInit c | none => false

/-- Instructions reached from a list by dataflow without INIT. -/
def flowReach (is : List Instr) : Nat → List Nat → List Nat → List Nat
  | 0, seen, _ => seen
  | n + 1, seen, new_ =>
    match new_ with
    | [] => seen
    | k :: r =>
      if seen.contains k then flowReach is n seen r
      else flowReach is n (k :: seen) (flowOn is k ++ r)

/-- The lowest index that lies on a dataflow cycle without an INIT (R56). -/
def cycleAt (is : List Instr) : Option Nat :=
  firstIdx is fun k i => !isInit i && (flowReach is 1024 [] (flowOn is k)).contains k

/-- Reason 0x14 (R76). -/
def needsSysb (i : Instr) : Bool :=
  (match i.info with | some o => o.isSys | none => false) ||
    (match i with
     | .crrd _ n .. => crSysRead n.toNat
     | .crwr _ n => crSysWrite n.toNat
     | _ => false)

/-! ### Placement (R21, R44, R45, R429) -/

/-- PEs of a footprint and instructions on each (R21). -/
def footPes (foot : Nat) : Nat := 32 * foot
def footPer (foot : Nat) : Nat := 4 / foot

/-- The instructions of a class. -/
def classIdxs (is : List Instr) (c : Cls) : List Nat :=
  (List.range is.length).filter fun k => match is[k]? with | some i => (match i.info with | some o => o.cls == c | none => false) | none => false

/-- PEs that the instructions of a class need at a footprint. -/
def classPes (is : List Instr) (c : Cls) (foot : Nat) : Nat := cdiv (classIdxs is c).length (footPer foot)

/-- Placement succeeds at a footprint (R45). -/
def placeFits (is : List Instr) (foot : Nat) : Bool :=
  classPes is .m foot + classPes is .a foot + classPes is .p foot ≤ footPes foot

/-- The lowest index of the first class, in the order M, A, P, that does not fit (reason 0x15). -/
def misfit (is : List Instr) (foot : Nat) : Nat :=
  let m := classPes is .m foot
  let a := classPes is .a foot
  let c := if footPes foot < m then Cls.m else if footPes foot < m + a then .a else .p
  (classIdxs is c).headD 0

/-- The footprints an image carries, the largest first (R45). -/
def carried (is : List Instr) (foot : Nat) : List Nat := ([4, 2, 1].filter fun f => f ≤ foot).filter (placeFits is)

/-- An assignment of instructions to PEs that R44 and R45 allow at a footprint. -/
def placeOk (is : List Instr) (foot : Nat) (pes : List Nat) : Bool :=
  let cls (k : Nat) : Option Cls := (is[k]?.bind Instr.info).map (·.cls)
  pes.length == is.length && pes.all (· < footPes foot) &&
    (pes.all fun p => (pes.filter (· == p)).length ≤ footPer foot) &&
    (List.range pes.length).all fun k => (List.range k).all fun j => pes[k]? != pes[j]? || cls k == cls j

/-- The assignment that fills PEs class by class, in the order M, A, P. -/
def placeGreedy (is : List Instr) (foot : Nat) : List Nat :=
  let per := footPer foot
  let base (c : Cls) : Nat := match c with
    | .m => 0
    | .a => classPes is .m foot
    | .p => classPes is .m foot + classPes is .a foot
  (List.range is.length).map fun k =>
    match (is[k]?.bind Instr.info).map (·.cls) with
    | some c => base c + ((classIdxs is c).idxOf k) / per
    | none => 0

/-! ### The check as a whole (R71, R72, R79) -/

/-- Stage 3 of R79. -/
def blockChecks (h : BitVec 128) (is : List Instr) : Option RejRec :=
  let named := is.flatMap Instr.targets
  let stores := firstIdx is fun _ i => match i.info with | some o => o.isStore | none => false
  let nstores := (is.filter fun i => match i.info with | some o => o.isStore | none => false).length
  let exits := firstIdx is fun _ i => match i.info with | some o => o.isExit | none => false
  let nexits := (is.filter fun i => match i.info with | some o => o.isExit | none => false).length
  match firstIdx is fun k i => (slotsNeeded i).any fun s => !(named.any fun t => t.idx.toNat == k && t.slot == s) with
  | some k => some ⟨0x0F, k⟩
  | none =>
    match maskFault h is with
    | some k => some ⟨0x10, k⟩
    | none =>
      if nstores ≠ (h.extractLsb' 60 7).toNat then some ⟨0x11, stores.getD 0⟩
      else if nexits ≠ (h.extractLsb' 67 3).toNat + 1 then some ⟨0x12, exits.getD 0⟩
      else
        match cycleAt is with
        | some k => some ⟨0x13, k⟩
        | none =>
          match (if hdrSysb h then none else firstIdx is fun _ i => needsSysb i) with
          | some k => some ⟨0x14, k⟩
          | none => if placeFits is (hdrFoot h) then none else some ⟨0x15, misfit is (hdrFoot h)⟩

/-- Stage 1 of R79. -/
def headerCheck (bs : List Byte) : Option RejRec :=
  let h := hdrOf bs
  let w := hdrWords h
  if h.extractLsb' 0 4 ≠ 1 then some ⟨0x01, 0⟩
  else if w = 0 || 384 < w then some ⟨0x02, 0⟩
  else if h.extractLsb' 96 32 ≠ crc32c (bs.take 12 ++ (bs.drop 16).take (4 * w)) then some ⟨0x03, 0⟩
  else if h.extractLsb' 78 2 = 3 || (hdrTds h && !hdrPin h) then some ⟨0x04, 0⟩
  else if h.extractLsb' 84 12 ≠ 0 then some ⟨0x05, 0⟩
  else none

/-- The check of a fetched block (R79). -/
def checkBlock (fetch : Word → Except (Cause × Word) (List Byte)) (b : Word) (tables : List (Nat × List Byte))
    (bs : List Byte) : Check :=
  match headerCheck bs with
  | some r => .reject r [] []
  | none =>
    let h := hdrOf bs
    let ws := wordsOfBytes (bs.drop 16)
    let count := (h.extractLsb' 4 7).toNat + 1
    match scanBlock fetch b tables (headWords count ws) count count 0 ws [] [] [] [] with
    | .ok is ss ls ds =>
      (match blockChecks h is with
       | some r => .reject r ls ds
       | none => .ok is ss ls ds)
    | o => o

/-- The digest of a placed image (R232). -/
def imageDigest (bs : List Byte) (luts : List (Nat × List Byte)) (descs : List (Nat × BitVec 512)) : Nat :=
  natOfBytes (sha3_256 (bs ++ luts.flatMap (·.2) ++ descs.flatMap fun x => bytesOfNat 64 x.2.toNat))

/-- The tables of a section: a count, then entries of a number and `n` bytes (log 24). -/
def Dev.tables (d : Dev) (pa n : Nat) : List (Nat × List Byte) :=
  if pa = 0 then [] else
  (List.range (Nat.min (d.num pa 8) 256)).map fun k =>
    let a := pa + 8 + k * (8 + n)
    (d.num a 8 % 256, d.bytes (a + 8) n)

/-- LUT tables of the image whose registered range holds a block, as memory holds them when the block is placed (R121, R420). -/
def Dev.lutsFor (d : Dev) (part asid : Nat) (b : Word) : List (Nat × List Byte) :=
  (d.regImgs.filter fun r => r.part == part && r.asid == asid && r.base ≤ b.toNat && b.toNat < r.base + r.len).flatMap
    fun r => d.tables r.lutPa 64

/-- Instruction `k` among the words of a block. -/
def wordsInstr : Nat → List Word32 → Option Instr
  | k, ws =>
    match takeFields ws, k with
    | .ok (f, _), 0 => (decodeFields f).toOption
    | .ok (_, rest), k + 1 => wordsInstr k rest
    | .error _, _ => none

/-- The descriptors that a check has read leave their translations cached and A set, as the block's own pages do (R180). -/
def Dev.descReads (d : Dev) (c : XCtx) (b : Word) (bs : List Byte) (idxs : List Nat) : Dev :=
  idxs.foldl (fun d k =>
    match (wordsInstr k (wordsOfBytes (bs.drop 16))).bind descOf with
    | some (lit, _) => d.fetchReads c (b + sx lit) 64
    | none => d) d

/-- The instructions whose descriptors a check has read. -/
def Check.read : Check → List Nat
  | .ok _ _ _ ds => ds.map (·.1)
  | .reject _ _ ds => ds.map (·.1)
  | .fault idx _ => List.range idx

/-- Reject a block (R80): both records, and BAD_BLOCK for every thread queued at it. -/
def Dev.rejectBlock (d : Dev) (asid : Nat) (b : Word) (digest : Nat) (r : RejRec) : Dev :=
  let d := { d with
    rejPair := tput (asid, b.toNat) r d.rejPair
    rejDig := tput digest r d.rejDig
    fetches := d.fetches.filter fun f => !(f.asid == asid && f.blk == b) }
  (d.queuedAt none asid b).foldl (fun d p => d.trapThread p.1 (badBlockInfo b r)) d

/-- Threads without SYS queued at a system block trap at its entry (R76). -/
def Dev.trapNonSys (d : Dev) (die asid : Nat) (b : Word) (hdr : BitVec 128) : Dev :=
  if !hdrSysb hdr then d else
  ((d.queuedAt (some die) asid b).filter fun p => !d.effSys p.2.rcb).foldl (fun d p =>
    d.trapThread p.1 (faultInfo .protection 0 b b hdr)) d

/-- The image of a checked block with its placements (R232). -/
def mkImage (part : Nat) (bs : List Byte) (is : List Instr) (luts : List (Nat × List Byte)) (descs : List (Nat × BitVec 512))
    (digest : Nat) (places : List Placement) (cap lat : Nat) : Image :=
  let ws := wordsOfBytes (bs.drop 16)
  let lens := is.map fun i => match i.fields with | some f => f.form.words | none => 0
  { digest := digest, part := part, hdr := hdrOf bs, words := ws,
    starts := (List.range is.length).map fun k => (lens.take k).sum, instrs := is, luts := luts, descs := descs,
    places := places, cap := cap, lat := lat }

/-! ### The events -/

/-- Bytes of a block up to the end of the line in which its fetch stands, of `total` when `n` are read. -/
def fetchPiece (b : Word) (n total : Nat) : Nat := Nat.min (64 - (b.toNat + n) % 64) (total - n)

/-- How far a fetch of `total` bytes has come. -/
def fetchState (bs : List Byte) (total : Nat) : FetchSt := if bs.length < total then .lines bs else .fetched bs

/-- The next line of a block whose fetch is under way, one access of its own (R81). -/
def Dev.fetchLine (d : Dev) (f : Fetch) (bs : List Byte) : Dev :=
  let h := hdrOf bs
  let total := 16 + 4 * hdrWords h
  let va := f.blk + BitVec.ofNat 64 bs.length
  let n := fetchPiece f.blk bs.length total
  match d.fetchFor f.die f.asid f.part f.blk va n h with
  | (d, none) => { d with fetches := d.fetches.filter fun g => g != f }
  | (d, some c) =>
    { d with fetches := d.fetches.map fun g => if g = f then { f with st := fetchState (bs ++ d.fetchBytes c va n) total } else g }

/-- BLOCK_FETCH (R61, R81): a block that a queued thread or a hint asks for, with neither a region nor an
image nor a rejection known, is fetched: its pages are checked and its first line is read, and each further event reads one
line more. Where the header itself cannot be fetched the captured set is empty; INDEX is 0 in either case (log 59). -/
def execBlockFetch (die asid : Nat) (b : Word) (s : State) : Host.Outcome State Fault Refusal :=
  onEvent s "BLOCK_FETCH" fun d =>
    match d.fetches.find? fun f => f.die == die && f.asid == asid && f.blk == b with
    | some f => (match f.st with | .lines bs => some (d.fetchLine f bs) | _ => none)
    | none =>
    let ts := d.queuedAt (some die) asid b
    let want := (d.die die).want.find? fun w => w.1 == asid && w.2.2 == b
    match (ts.head?.map fun p => p.2.part).or (want.map (·.2.1)) with
    | none => none
    | some part =>
      if (d.regions.any fun p => p.2.die == die && p.2.asid == asid && p.2.blk == b) ||
          ((d.die die).cache.any fun c => c.image.part == part && c.pairs.contains (asid, b.toNat)) ||
          (tget (asid, b.toNat) d.rejPair).isSome || b.toNat % 16 != 0 then none
      else
        let d := d.modDie die fun x => { x with want := x.want.filter fun w => !(w.1 == asid && w.2.2 == b) }
        match d.fetchFor die asid part b b 16 0 with
        | (d, none) => some d
        | (d, some c) =>
          let h := hdrOf (d.fetchBytes c b 16)
          let total := 16 + 4 * hdrWords h
          match d.fetchFor die asid part b b total h with
          | (d, none) => some d
          | (d, some c) =>
            some { d with fetches := d.fetches ++
              [(⟨die, asid, part, b, fetchState (d.fetchBytes c b (fetchPiece b 0 total)) total, false⟩ : Fetch)] }

end Sys2Proof.Machine
end

