-- ==== Sys2Proof/Machine/System.lean ====
section
/-!
DEFINITION. Trap and system instructions (R387..R402) and the control registers they reach (R392..R394).
-/

namespace Sys2Proof.Machine

/-! ### Control registers (R392..R394) -/

/-- The view of the thread that TSTATUS returns (R394). -/
def tstatus (t : Thread) (cr : CrSnap) : Word :=
  BitVec.ofNat 64 (t.die % 8 + (if cr.sys then 2 ^ 3 else 0) + cr.prio % 8 * 2 ^ 4 + cr.dclass % 4 * 2 ^ 7 + cr.ten.toNat * 2 ^ 9 +
    cr.fdom % 65536 * 2 ^ 12 + t.asid % 4096 * 2 ^ 28 + t.part % 64 * 2 ^ 40)

/-- The cycles until a die's next refresh window, and its length (R200). -/
def Dev.wsref (d : Dev) (die : Nat) : Word :=
  let x := d.die die
  BitVec.ofNat 64 ((x.nextWin - d.cycle) % 2 ^ 32 * 2 ^ 32 + x.winLen % 2 ^ 32)

/-- Scope of a control register: a module or die register belongs to partition 0 (R392, R393). -/
def crGlobal (n : Nat) : Bool := [0x004, 0x080, 0x081, 0x082, 0x083].contains n

/-- The value of a control register as CRRD returns it (R392, R393): from the instance's admission,
but for WSREF and CYCLE. -/
def Dev.crRead (d : Dev) (c : Fx) (n : Nat) : Word :=
  let cr := c.x.cr
  if crGlobal n && c.t.part != 0 then 0
  else match n with
    | 0x000 => tstatus c.t cr
    | 0x001 => zx c.t.tcause
    | 0x002 => zx cr.flags
    | 0x003 => cr.pfcnt
    | 0x004 => d.wsref c.t.die
    | 0x005 => BitVec.ofNat 64 d.cycle
    | 0x040 => cr.rseed
    | 0x041 => cr.tvec
    | 0x042 => cr.trcb
    | 0x043 => cr.thctl
    | 0x044 => cr.tframe
    | 0x045 => cr.fqtb
    | 0x080 => cr.asidtb
    | 0x081 => cr.kvbtb
    | 0x082 => cr.kvbtn
    | 0x083 => cr.migs
    | 0x0C0 => zx (cr.sec ++ (0 : BitVec 2) ++ cr.dbg)
    | _ => 0

/-- The writable bits of a control register (R8, R393). -/
def crMask (n : Nat) : Word :=
  match n with
  | 0x041 => 0xFFFFFFFFFFFFFFF0#64
  | 0x042 => 0xFFFFFFFFFFFFFF80#64
  | 0x043 => 0x1FFF#64
  | 0x044 => 0xFFFFFFFFFFFFFE0F#64
  | 0x045 => 0xFFFFFFFFFFFFFFF8#64
  | 0x081 => 0x000FFFFFFFFFFFC0#64
  | _ => 0xFFFFFFFFFFFFFFFF#64

/-- Threads of a partition that a write of SPREL selects return from SPACE to QUEUED (R391). -/
def Dev.spaceRelease (d : Dev) (part : Nat) (v : Word) : Dev :=
  let a := v.toNat % 4096
  let sel (t : Thread) : Bool := t.st == .space && t.part == part && (v.getLsbD 63 || t.asid == a)
  if !v.getLsbD 63 && !d.asidIn part a then d
  else (d.threads.filter fun p => sel p.2).foldl (fun d p => d.enqueue p.1) d

/-- A control register's write at commit (R392, R393); FPFLAGS is part of the context and is written there. -/
def Dev.crWrite (d : Dev) (t : Thread) (n : Nat) (v : Word) : Dev :=
  let v' := v &&& crMask n
  match n with
  | 0x003 => d.count t.rcb fun u => { u with iss := 0, use := 0, late := 0, unu := 0 }
  | 0x040 => d.modPart t.part fun p => { p with rseed := v' }
  | 0x041 => d.modPart t.part fun p => { p with tvec := v' }
  | 0x042 => d.modPart t.part fun p => { p with trcb := v' }
  | 0x043 => d.modPart t.part fun p => { p with thctl := v' }
  | 0x044 => d.modPart t.part fun p => { p with tframe := v' }
  | 0x045 => d.modPart t.part fun p => { p with fqtb := v' }
  | 0x046 => d.spaceRelease t.part v
  | 0x080 => { d with asidtb := v' }
  | 0x081 => d.modDie t.die fun x => { x with kvbtb := v' }
  | 0x082 => d.modDie t.die fun x => { x with kvbtn := v' }
  | 0x083 => { d with migsettle := v'.toNat }
  | _ => d

/-- A saturated sum of the prefetch counters (R184). -/
def sat16 (n : Nat) : Nat := Nat.min n 0xFFFF

/-- PFCNT of an RCB (R184). -/
def Dev.pfcnt (d : Dev) (rcb : Nat) : Word :=
  let u := d.rcbUse rcb
  BitVec.ofNat 64 (sat16 u.iss * 2 ^ 48 + sat16 u.use * 2 ^ 32 + sat16 u.late * 2 ^ 16 + sat16 u.unu)

/-! ### Shared operations -/

/-- TRAP and an invasive DBGBRK: BREAK with a code (R387, R388). -/
def Dev.breakAt (d : Dev) (c : Fx) (code : BitVec 16) (kind : BitVec 2) : Dev :=
  d.abortTrap c.i fun blk hdr => { faultInfo .brk c.idx 0 blk hdr with code := code, kind := kind }

/-- The debug state of a partition. -/
def RoT.dbgOf (r : RoT) (part : Nat) : Dbg := (tget part r.dbg).getD .off

/-- A command read by XLINV or CFGINV (R396). -/
def Dev.command (d : Dev) (c : Fx) (n : Nat) (k : Dev → Nat → Dev) : Dev :=
  let a := c.a.val
  if a.toNat % n ≠ 0 then d.trapAt c .align a
  else
    (d.loadAt c a n 1 .tokenLoad).andThen c (fun d e => d.trapAt c e.cause (failAddr e a)) fun d pa _ =>
      let (d, bs) := d.loadBytes c.i pa n
      k d (natOfBytes bs)

/-- The bits of a frame that TRET checks: STATE, ACT and the reserved fields, those of the side words among them (R35, R386,
R390). -/
def frameOk (v : Nat) : Bool :=
  nfld v 3683 3682 == 1 && nfld v 3629 3628 < 2 && nfld v 4095 3684 == 0 && !v.testBit 3607 &&
    (List.range 4).all fun n => nfld v (3135 + 64 * n) (3112 + 64 * n) == 0

/-- F names a frame of a TFRAME array (R386, R390). -/
def frameOf (tframe f : Word) : Bool :=
  let off := (f - (tframe &&& 0xFFFFFFFFFFFFFE00#64)).toNat
  off % 512 == 0 && off / 512 < 2 ^ nfld tframe.toNat 3 0

/-- TRET (R390): the frame is read and checked, and its STATE is stored 0 at commit. -/
def Dev.tretFire (d : Dev) (c : Fx) : Dev :=
  let f := c.a.val
  if c.x.exit.isSome then d.trapAt c .malformedStream 0
  else if !frameOf c.x.cr.tframe f then d.trapAt c .protection f
  else
    (d.loadAt c f 512 1 .tokenLoad).andThen c (fun d e => d.trapAt c e.cause (d.failLine c.ctx e f 512)) fun d pa _ =>
      let (d, bs) := d.loadBytes c.i pa 512
      let v := natOfBytes bs
      let rpc := BitVec.ofNat 64 (nfld v 3391 3328)
      if !frameOk v then d.trapAt c .protection f
      else if nfld v 3629 3628 = 0 && rpc.toNat % 16 ≠ 0 then d.trapAt c .align rpc
      else if nfld v 3629 3628 = 0 && !canonical rpc then d.trapAt c .pageFault rpc
      else
        (d.storeAt c (f + 460) [BitVec.ofNat 8 (nfld v 3681 3680)] 1 .tokenStore).andThen c (fun d _ => d) fun d _ _ =>
          (d.mark c fun m => { m with halt := true }).leave c (.tret f pa)

/-- XLINV (R396, R397). -/
def Dev.xlinvFire (d : Dev) (c : Fx) : Dev :=
  d.command c 16 fun d v =>
    let all_ := v.testBit 108
    let asid := nfld v 107 96
    let va := BitVec.ofNat 64 (nfld v 63 0)
    let npg := nfld v 95 64
    if nfld v 127 109 ≠ 0 || (!all_ && !d.asidIn c.t.part asid) || va.toNat % 4096 ≠ 0 || !canonical va
    then d.trapAt c .protection c.a.val
    else
      let as := if all_ then none else some asid
      let range := if npg = 0 then none else some (va.toNat, va.toNat + 4096 * npg)
      (((d.mark c fun m => { m with acq := true, rel := true, own := true, scope := .sys }).buffer c (.xlinv as range)).invalidate
        c.t.part as range)

/-- CFGINV (R396, R399). -/
def Dev.cfginvFire (d : Dev) (c : Fx) : Dev :=
  d.command c 32 fun d v =>
    let all_ := v.testBit 140
    let asid := nfld v 139 128
    let comp := BitVec.ofNat 64 (nfld v 255 192)
    let base := nfld v 63 0
    if nfld v 191 141 ≠ 0 || (!all_ && !d.asidIn c.t.part asid) || comp.toNat % 16 ≠ 0 || base % 16 ≠ 0
    then d.trapAt c .protection c.a.val
    else d.buffer c (.cfginv all_ asid base (nfld v 127 64) comp)

/-! ### The instructions -/

/-- TRAP (R387): BREAK with a code. -/
def execTrap (p : Pred) (code : BitVec 16) (s : State) : Res :=
  onFire s fun d c => d.plainAct c p fun d => d.breakAt c code 1

/-- TRET (R390): returns from a trap: the frame named at a is restored at commit. -/
def execTret (p : Pred) (s : State) : Res :=
  onFire s fun d c => d.once c fun d =>
    d.sink c p .all [] fun d => d.tretFire c

/-- CRRD (R392): reads a control register. -/
def execCrrd (p : Pred) (n : BitVec 12) (t1 : Tgt) (t2 : Tgt) (t3 : Tgt) (s : State) : Res :=
  onFire s fun d c => d.ordinary c p .none [t1, t2, t3] fun d =>
    d.send c [t1, t2, t3] (scalarTok (d.crRead c n.toNat))

/-- CRWR (R392): a control-register write, made at commit. -/
def execCrwr (p : Pred) (n : BitVec 12) (s : State) : Res :=
  onFire s fun d c => d.sink c p .all [] fun d =>
    if crGlobal n.toNat && c.t.part != 0 then d.trapAt c .protection 0
    else d.buffer c (.crwr n.toNat c.a.val)

/-- XLINV (R396, R397): removes translations; the commit point waits for its work. -/
def execXlinv (p : Pred) (s : State) : Res :=
  onFire s fun d c => d.sink c p .all [] fun d => d.xlinvFire c

/-- CFGINV (R396, R399): removes configurations at commit. -/
def execCfginv (p : Pred) (s : State) : Res :=
  onFire s fun d c => d.sink c p .all [] fun d => d.cfginvFire c

/-- QPOST (R400): a tail-pointer write, made at commit. -/
def execQpost (p : Pred) (s : State) : Res :=
  onFire s fun d c => d.sink c p .all [] fun d =>
    if (d.func c.t.part).qcnt ≤ c.a.val.toNat then d.trapAt c .queue 0
    else d.buffer c (.qpost c.a.val.toNat c.b.val)

/-- DBGBRK (R388): off: nothing; observe: a debug event at commit; invasive: as TRAP. -/
def execDbgbrk (p : Pred) (tag : BitVec 16) (s : State) : Res :=
  onFire s fun d c => d.plainAct c p fun d =>
    match s.rot.dbgOf c.t.part with
    | .off => d
    | .observe => d.buffer c (.dbg tag)
    | .invasive => d.breakAt c tag 2

/-- HINT (R389): a hint, acted on at commit. -/
def execHint (p : Pred) (code : BitVec 8) (s : State) : Res :=
  onFire s fun d c => d.plainAct c p fun d => d.buffer c (.hint code)


end Sys2Proof.Machine
end

