-- ==== Sys2Proof/Machine/Scheduler.lean ====
section
/-!
DEFINITION. The block scheduler of a die (R225..R241): candidates and their ranking, sites and
victims, the configuration cache, loads, and the admission of threads (R46, R47).
-/

namespace Sys2Proof.Machine

/-! ### Candidates (R225..R227) -/

/-- A candidate: the threads queued at one block of one ASID on a die (R225). -/
structure Cand where
  asid : Nat
  part : Nat
  blk  : Word
  /-- W -/
  w    : Nat
  /-- P -/
  prio : Nat
  /-- A -/
  age  : Nat
  /-- the charged RCB -/
  rcb  : Nat
  deriving DecidableEq, Repr

/-- The order of an entry queue: the time of entry, then launch id, then k0 (R225). -/
def queueKey (t : Thread) : Nat := (t.since * 2 ^ 32 + (t.k[5]).toNat % 2 ^ 32) * 2 ^ 32 + (t.k[0]).toNat % 2 ^ 32

/-- A function is suspended (R402). -/
def Dev.suspended (d : Dev) (fn : Nat) : Bool := (d.func fn).susp

/-- The candidate that a die keeps for a block and ASID with QUEUED threads (R225). Threads of a suspended function
take no part (R402), and a region on its way out is no longer resident for it (log 83). -/
def Dev.candAny (d : Dev) (die asid : Nat) (b : Word) : Option Cand :=
  let ts := ((d.queuedAt (some die) asid b).map (·.2)).filter fun t => !d.suspended t.part
  let nres := (d.regions.filter fun p => p.2.die == die && p.2.asid == asid && p.2.blk == b && p.2.phase != .closing).length
  let prio := (ts.map fun t => d.effPrio t.rcb).foldl Nat.max 0
  match leastBy queueKey ts, leastBy queueKey (ts.filter fun t => d.effPrio t.rcb == prio) with
  | some old, some lead =>
    some ⟨asid, lead.part, b, Nat.min (ts.length - 64 * nres) 4095, prio, Nat.min ((d.cycle - old.since) / 1024) (2 ^ 32 - 1), lead.rcb⟩
  | _, _ => none

/-- The candidate of a block and ASID as far as it takes part in ranking: while W is at least 1 (R225). -/
def Dev.candOf (d : Dev) (die asid : Nat) (b : Word) : Option Cand := (d.candAny die asid b).filter fun c => c.w != 0

/-- S (R226). -/
def Cand.score (c : Cand) : Nat := (c.prio + 1) * (c.w + c.age)

/-- The rank of R227 as one number: score, priority, W, then the lower ASID and the lower address. -/
def Cand.rank (c : Cand) : Nat :=
  (((c.score * 8 + c.prio) * 4096 + c.w) * 4096 + (4095 - c.asid)) * 2 ^ 64 + (2 ^ 64 - 1 - c.blk.toNat)

/-- The candidates of a die, best first. Threads of a suspended function take no part (R402). -/
def Dev.candidates (d : Dev) (die : Nat) : List Cand :=
  let keys := ((d.threads.filter fun p => p.2.st == .queued && p.2.die == die && !d.suspended p.2.part).map fun p =>
    (p.2.asid, p.2.pc)).eraseDups
  (sortBy Cand.rank (keys.filterMap fun k => d.candOf die k.1 k.2)).reverse

/-! ### The configuration cache (R232..R234) -/

/-- The image of a block in a die's configuration cache (step 1 of R233). -/
def Dev.cachedImage (d : Dev) (die asid part : Nat) (b : Word) : Option Image :=
  ((d.die die).cache.find? fun c => c.image.part == part && c.pairs.contains (asid, b.toNat)).map (·.image)

/-- An image that the configuration cache never evicts: one with a resident region, or of a block with PIN set (R231, R234). -/
def Dev.imageHeld (d : Dev) (die : Nat) (im : Image) : Bool := d.imageUsed die im || hdrPin im.hdr

/-- Room for one image more: a free entry, or the least recently used one that is not held; `none`
when every entry is held (R234). -/
def Dev.cacheRoom (d : Dev) (die : Nat) : Option (List Cached) :=
  let cs := (d.die die).cache
  if cs.length < 256 then some cs
  else (leastBy Cached.used (cs.filter fun c => !d.imageHeld die c.image)).map fun v => cs.filter fun c => c != v

/-- Enter an image under a pair, tagging the entry that already holds it. One that no load has used yet counts as used when it
entered (log 88). -/
def Dev.cacheImage (d : Dev) (die asid : Nat) (b : Word) (im : Image) : Option Dev :=
  let cs := (d.die die).cache
  if cs.any fun c => c.image.digest == im.digest && c.image.part == im.part then
    some (d.modDie die fun x => { x with cache := x.cache.map fun c =>
      if c.image.digest = im.digest && c.image.part = im.part then { c with pairs := (asid, b.toNat) :: c.pairs } else c })
  else (d.cacheRoom die).map fun cs =>
    { d.modDie die (fun x => { x with cache := cs ++ [⟨im, [(asid, b.toNat)], d.nextOrd⟩] }) with nextOrd := d.nextOrd + 1 }

/-- Note the use of an image for a load. -/
def Dev.useImage (d : Dev) (die : Nat) (im : Image) : Dev :=
  { d.modDie die (fun x => { x with cache := x.cache.map fun c =>
      if c.image.digest = im.digest && c.image.part = im.part then { c with used := d.nextOrd } else c }) with
    nextOrd := d.nextOrd + 1 }

/-! ### Victims (R229, R230) -/

/-- The region's queue on its die is empty and no instance of it is in flight. -/
def Dev.regionQuiet (d : Dev) (reg : Nat) (r : Region) : Bool :=
  (d.instsOf reg).isEmpty && (d.queuedAt (some r.die) r.asid r.blk).isEmpty

/-- Keep the times since which regions have had no instance in flight and an empty entry queue (R230). -/
def Dev.noteIdle (d : Dev) : Dev :=
  { d with regions := d.regions.map fun p => (p.1, { p.2 with
      idle := if (d.instsOf p.1).isEmpty then p.2.idle else d.cycle
      bare := if (d.queuedAt (some p.2.die) p.2.asid p.2.blk).isEmpty then p.2.bare else d.cycle }) }

/-- A region has been idle for `more` cycles and may be released: with no instance in flight and its queue empty for
1,024 cycles it became idle (R230, R231). -/
def Dev.idleFree (d : Dev) (reg : Nat) (r : Region) (more : Nat) : Bool :=
  !r.pinned && r.phase == .open_ && d.regionQuiet reg r && Nat.max r.idle (r.bare + 1024) + more ≤ d.cycle

/-- A winner's class may pre-empt a region's (R55, R229). -/
def mayPreempt (winner victim : Nat) : Bool := victim < winner && victim < 3

/-- A region that is being released: every instance it still has is at its commit point, and commits (R43, R239). -/
def Dev.doomed (d : Dev) (p : Nat × Region) : Bool := p.2.phase == .closing && (d.instsOf p.1).all fun q => q.2.atPoint

/-- The footprint that a region keeps: the one it is shrinking to (R237). -/
def Region.keptFoot (r : Region) : Nat := match r.phase with | .draining _ f => f | _ => r.foot

/-- The sites that a region keeps once its old work has ended (R235, R237, R239). -/
def Dev.keptSites (d : Dev) (p : Nat × Region) : List Nat := if d.doomed p then [] else footSites p.2.keptFoot p.2.site

/-- A region may serve as a victim (R229). -/
def Dev.eligible (d : Dev) (die winner : Nat) (p : Nat × Region) : Bool :=
  p.2.die == die && !d.doomed p && mayPreempt winner (d.effDclass p.2.rcb) &&
    (winner == 3 || p.2.loaded + 8192 ≤ d.cycle)

/-- The score of a region: its own candidate's, or 0 (R229). -/
def Dev.regionScore (d : Dev) (r : Region) : Nat :=
  match d.candAny r.die r.asid r.blk with | some c => c.score | none => 0

/-- A step of a pre-emption: a region shrunk to a footprint, or evicted. -/
abbrev Victim := Nat × Option Nat

/-- The next smaller placement that an image carries. -/
def Image.smaller (im : Image) (foot : Nat) : Option Nat := ((im.places.map (·.foot)).filter fun f => f < foot).max?

/-- Shrink one region, size by size, until a group is free (R229). `foots` are the regions' sites as the
plan leaves them: region, site and footprint. -/
def shrinkPlan (want : Nat) (reg : Nat) (im : Image) (other : List Nat) (site : Nat) : Nat → Nat → List Nat × Option Nat
  | 0, foot => (footSites foot site, none)
  | n + 1, foot =>
    match im.smaller foot with
    | none => (footSites foot site, none)
    | some f =>
      let used := other ++ footSites f site
      if (freeGroup used want).isSome then (footSites f site, some f)
      else
        let (s, g) := shrinkPlan want reg im other site n f
        (s, some (g.getD f))

/-- The plan of R229: shrinks first, lowest score first, then evictions; `none` when it frees no group. Sites whose
regions are on their way out count as free (R235, log 74); a region that a CFGINV releases can be evicted, but is not shrunk,
which would load it again (R234). -/
def Dev.victimPlan (d : Dev) (die want : Nat) (vs : List (Nat × Region)) : Option (List Victim) :=
  let all_ : List (Nat × List Nat) := (d.regions.filter fun p => p.2.die == die).map fun p => (p.1, d.keptSites p)
  let flat (l : List (Nat × List Nat)) : List Nat := l.flatMap (·.2)
  let free (l : List (Nat × List Nat)) : Bool := (freeGroup (flat l) want).isSome
  let (l1, p1) := vs.foldl (fun (acc : List (Nat × List Nat) × List Victim) v =>
    if free acc.1 || v.2.phase == .closing then acc else
    let other := flat (acc.1.filter fun x => x.1 != v.1)
    let (s, f) := shrinkPlan want v.1 v.2.image other v.2.site 2 v.2.keptFoot
    match f with
    | none => acc
    | some f => (acc.1.map fun x => if x.1 = v.1 then (x.1, s) else x, acc.2 ++ [(v.1, some f)])) (all_, [])
  let (l2, p2) := vs.foldl (fun (acc : List (Nat × List Nat) × List Victim) v =>
    if free acc.1 then acc
    else (acc.1.filter fun x => x.1 != v.1, (acc.2.filter fun x => x.1 != v.1) ++ [(v.1, none)])) (l1, p1)
  if free l2 then some p2 else none

/-- Carry out a plan. -/
def Dev.preempt (d : Dev) (plan : List Victim) : Dev :=
  plan.foldl (fun d v =>
    match v.2 with
    | some f => d.shrink v.1 f
    | none => (match d.region v.1 with
      | some r => (match r.phase with | .loading _ => d.freeRegion v.1 | _ => d.evict v.1)
      | none => d)) d

/-! ### Giving a winner a region (R228) -/

/-- The first carried footprint, the largest down, with a free group that the budget allows; and
whether some footprint had a free group at all. -/
def Dev.siteFor (d : Dev) (die rcb : Nat) : List Nat → Option (Nat × Nat) × Bool
  | [] => (none, false)
  | f :: r =>
    match freeGroup (d.usedSites die) f with
    | none => d.siteFor die rcb r
    | some s => if d.siteBudget rcb f then (some (f, s), true) else ((d.siteFor die rcb r).1, true)

/-- Give a winner a region of an image (R228, R229): whether it got one. On sites that victims vacate, its load begins with
the end of their old work (R235, log 74). The budget for the smallest footprint is tested after idle regions have gone and
before any victim is touched (log 84); idle regions, and victims of equal scores, come in the order of their loads (log 85). -/
def Dev.giveRegion (d : Dev) (die : Nat) (c : Cand) (im : Image) : Dev × Bool :=
  let feet := im.places.map (·.foot)
  let load (d : Dev) (f s : Nat) : Dev × Bool := ((d.loadRegion die s f c.asid c.blk c.rcb im).useImage die im, true)
  match d.siteFor die c.rcb feet with
  | (some (f, s), _) => load d f s
  | (none, true) => (d, false)
  | (none, false) =>
    match feet.min? with
    | none => (d, false)
    | some f =>
      let idle := (d.regions.filter fun p => p.2.die == die && d.idleFree p.1 p.2 0).map (·.1)
      let d := idle.foldl (fun d k => if (freeGroup (d.usedSites die) f).isSome then d else d.freeRegion k) d
      if !d.siteBudget c.rcb f then (d, false) else
      match freeGroup (d.usedSites die) f with
      | some s => load d f s
      | none =>
        let vs := sortBy (fun p => d.regionScore p.2) (d.regions.filter (d.eligible die (d.effDclass c.rcb)))
        match d.victimPlan die f vs with
        | none => (d, false)
        | some plan =>
          let d := d.preempt plan
          match freeGroup ((d.regions.filter fun p => p.2.die == die).flatMap d.keptSites) f with
          | some s => load d f s
          | none => (d, false)

/-- Try a winner (R227, R233): whether the decision is used up. With no image on the die, the decision it wins stands for
the load that follows the lookup, and is used up by it; a block that has won before, or whose fetch has not begun, is passed over. -/
def Dev.tryWinner (d : Dev) (die : Nat) (c : Cand) : Dev × Bool :=
  match d.cachedImage die c.asid c.part c.blk with
  | some im => d.giveRegion die c im
  | none =>
    let mine (f : Fetch) : Bool := f.die == die && f.asid == c.asid && f.blk == c.blk && !f.won
    ({ d with fetches := d.fetches.map fun f => if mine f then { f with won := true } else f }, d.fetches.any mine)

/-- Winners in rank, up to eight, until one uses the decision up: a decision starts at most one load (R227). -/
def Dev.tryWinners (d : Dev) (die : Nat) : List Cand → Dev
  | [] => d
  | c :: r =>
    match d.tryWinner die c with
    | (d, true) => d
    | (d, false) => d.tryWinners die r

/-- The load that a won decision stands for, once the image is on the die (R233). -/
def Dev.loadWon (d : Dev) (die asid : Nat) (b : Word) (won : Bool) : Dev :=
  if !won then d else
  match d.candOf die asid b with
  | none => d
  | some c => (d.tryWinner die c).1

/-! ### The events -/

/-- BLOCK_CHECK (R79, R80, R233 step 2): the mapper accepts a fetched block or rejects it. -/
def execBlockCheck (die asid : Nat) (b : Word) (s : State) : Res :=
  onEvent s "BLOCK_CHECK" fun d =>
    match d.fetches.find? fun f => f.die == die && f.asid == asid && f.blk == b with
    | none => none
    | some f =>
      match f.st with
      | .checked .. => none
      | .lines _ => none
      | .fetched bs =>
        let h := hdrOf bs
        let ts := d.queuedAt (some die) asid b
        let ctx : XCtx := ⟨asid, f.part, die, !ts.isEmpty && ts.all fun p => d.effSys p.2.rcb, none, none, false⟩
        let fetch (a : Word) : Except (Cause × Word) (List Byte) :=
          match d.fetchFail ctx a 64 with
          | some e => .error e
          | none => .ok (d.fetchBytes ctx a 64)
        let check := checkBlock fetch b (d.lutsFor f.part asid b) bs
        let d := d.descReads ctx b bs check.read
        match check with
        | .fault _ e => some (Dev.trapFetch { d with fetches := d.fetches.filter fun g => g != f } ts b h e)
        | .reject r ls ds => some (d.rejectBlock asid b (imageDigest bs ls ds) ((tget (imageDigest bs ls ds) d.rejDig).getD r))
        | .ok is _ ls ds =>
          let dig := imageDigest bs ls ds
          match tget dig d.rejDig with
          | some r => some (d.rejectBlock asid b dig r)
          | none =>
            let d := d.trapNonSys die asid b h
            match (d.die die).cache.find? fun c => c.image.digest == dig && c.image.part == f.part with
            | some c =>
              ({ d with fetches := d.fetches.filter fun g => g != f }.cacheImage die asid b c.image).map fun (d : Dev) =>
                d.loadWon die asid b f.won
            | none => some { d with fetches := d.fetches.map fun g => if g = f then { f with st := .checked bs is ls ds dig } else g }

/-- SCHEDULER_DECISION (R227): one decision of a die, every 16 cycles. -/
def execSchedulerDecision (die : Nat) (s : State) : Res :=
  onEvent s "SCHEDULER_DECISION" fun d =>
    if 8 ≤ die || d.cycle / 16 < (d.die die).decided then none else
    let d := d.settleRegions.noteIdle.modDie die fun x => { x with decided := d.cycle / 16 + 1 }
    some (d.tryWinners die ((d.candidates die).take 8))

/-- A placed image carries placements of a block that R44, R45 and R84 allow. -/
def Image.placesFit (im : Image) (is : List Instr) (foot : Nat) : Bool :=
  im.places.map (·.foot) == carried is foot && (im.places.all fun p => placeOk is p.foot p.pes) && 8 ≤ im.cap && im.cap ≤ 64

/-- IMAGE_LOOKUP_COMPLETE (R233 steps 3 and 4): the image comes from the mapper's placed-image cache, or
from a placement that assigns PEs by `pes`, sizes its FIFOs by `cap` and has the latency `lat`. A full cache drops the image
that entered first (log 87). -/
def execImageLookupComplete (die asid : Nat) (b : Word) (pes : List (List Nat)) (cap lat : Nat) (s : State) : Res :=
  onEvent s "IMAGE_LOOKUP_COMPLETE" fun d =>
    match d.fetches.find? fun f => f.die == die && f.asid == asid && f.blk == b with
    | none => none
    | some f =>
      match f.st with
      | .fetched _ => none
      | .lines _ => none
      | .checked bs is ls ds dig =>
        let d := { d with fetches := d.fetches.filter fun g => g != f }
        match d.placed.find? fun im => im.digest == dig && im.placesFit is (hdrFoot (hdrOf bs)) with
        | some im =>
          (d.cacheImage die asid b (mkImage f.part bs is ls ds dig im.places im.cap im.lat)).map fun (d : Dev) => d.loadWon die asid b f.won
        | none =>
          let feet := carried is (hdrFoot (hdrOf bs))
          if pes.length ≠ feet.length || !((feet.zip pes).all fun x => placeOk is x.1 x.2) || cap < 8 || 64 < cap then none
          else
            let im := mkImage f.part bs is ls ds dig ((feet.zip pes).map fun x => ⟨x.1, x.2⟩) cap lat
            let d := { d with placed := (if d.placed.length < 8192 then d.placed else d.placed.drop 1) ++ [im] }
            (d.cacheImage die asid b im).map fun (d : Dev) => d.loadWon die asid b f.won

/-- CONFIG_LOAD_COMPLETE (R235): the old work on the region's sites has ended, every PE has taken its last config token, and
the gates open. -/
def execConfigLoadComplete (reg : Nat) (s : State) : Res :=
  onEvent s "CONFIG_LOAD_COMPLETE" fun d =>
    match d.region reg with
    | none => none
    | some r =>
      match r.phase with
      | .loading _ =>
        if d.oldWork reg r || !r.cfg.isEmpty then none
        else some (d.modRegion reg fun r => { r with phase := .open_, idle := d.cycle, active := d.cycle })
      | _ => none

/-- DRAIN_TIMEOUT (R238): what is still in flight 16,384 cycles after a draining shrink began aborts. -/
def execDrainTimeout (reg : Nat) (s : State) : Res :=
  onEvent s "DRAIN_TIMEOUT" fun d =>
    match d.region reg with
    | none => none
    | some r =>
      match r.phase with
      | .draining began _ => if d.cycle < began + 16384 then none else some (d.clearInsts reg).settleRegions
      | _ => none

/-- IDLE_RELEASE (R230): an unpinned region idle for 65,536 cycles is released. -/
def execIdleRelease (reg : Nat) (s : State) : Res :=
  onEvent s "IDLE_RELEASE" fun d =>
    match d.region reg with
    | none => none
    | some r => if d.idleFree reg r 65536 then some (d.freeRegion reg) else none

/-! ### Admission (R38, R47, R93, R392) -/

/-- The control registers as an instance samples them at admission (R392). -/
def State.snap (s : State) (t : Thread) : CrSnap :=
  let d := s.dev
  let p := d.part t.part
  let x := d.die t.die
  { flags := t.flags, ten := d.effTen t.rcb, rseed := p.rseed, pfcnt := d.pfcnt t.rcb, tvec := p.tvec, trcb := p.trcb,
    thctl := p.thctl, tframe := p.tframe, fqtb := p.fqtb, asidtb := d.asidtb, kvbtb := x.kvbtb, kvbtn := x.kvbtn,
    migs := BitVec.ofNat 64 d.migsettle, fdom := d.effFdom t.rcb, dclass := d.effDclass t.rcb, prio := d.effPrio t.rcb,
    sys := d.effSys t.rcb,
    dbg := match s.rot.dbgOf t.part with | .off => 0 | .observe => 1 | .invasive => 2,
    sec := match s.rot.sec with | .unprovisioned => 0 | .locked => 1 | .ownerDebug => 2 | .returned => 3 }

/-- Instructions that fire at admission: those without slots (R84), and every INIT (R102). -/
def Image.starters (im : Image) : List Nat :=
  (List.range im.instrs.length).filter fun k => match im.instrs[k]? with | some i => (slotsNeeded i).isEmpty || isInit i | none => false

/-- A new instance of a region in a slot (R39, R47). -/
def newInst (d : Dev) (reg slot : Nat) (r : Region) (tid : Nat) (t : Thread) (cr : CrSnap) : Inst :=
  { reg := reg, slot := slot, tag := (r.gens[slot]?.getD 0) ++ BitVec.ofNat 5 slot, tid := tid, at_ := d.cycle, g := t.g, v := t.v,
    k := t.k, cr := cr, chans := [], start := r.image.starters, ops := [], once := [], effs := [], made := [], exit := none,
    raised := 0, held := [], reqs := [], blocked := [], again := [], tlb := [], marks := Marks.none, atPoint := false, ptOrd := 0,
    claims := [], resv := [], parkers := 0, refs := d.streams.flatMap fun p => cursorRefs p.1 p.2 }

/-- A free instance slot of a region (R47). -/
def Dev.instSlot (d : Dev) (reg : Nat) : Option Nat :=
  let used := (d.instsOf reg).map fun p => p.2.slot
  (List.range 32).find? fun s => !used.contains s

/-- The thread at the front of a region's entry queue: the first whose context is resident (R37, R47). -/
def Dev.nextFor (d : Dev) (r : Region) : Option (Nat × Thread) :=
  leastBy (fun p => queueKey p.2) ((d.queuedAt (some r.die) r.asid r.blk).filter fun p => p.2.slot.isSome && !d.suspended p.2.part)

/-- INSTANCE_ADMISSION (R47): an open region admits the thread at the front of its queue. A thread
marked MEMORY_MODEL traps instead (R210). -/
def execInstanceAdmission (reg tid : Nat) (s : State) : Res :=
  onEvent s "INSTANCE_ADMISSION" fun d =>
    match d.region reg with
    | none => none
    | some r =>
      match d.nextFor r, d.instSlot reg with
      | some (k, t), some slot =>
        if k ≠ tid || r.phase ≠ .open_ then none
        else match t.mark with
          | some (a, by_) => some ((d.modThread tid fun t => { t with mark := none }).trapThread tid { faultInfo .memoryModel 0 a r.blk r.image.hdr with other := some (by_, true) })
          | none =>
            let d := d.modThread tid fun t => { t with st := .running, before := t.since }
            some { d.modRegion reg (fun r => { r with active := d.cycle, idle := d.cycle }) with
              insts := d.insts ++ [(d.nextInst, newInst d reg slot r tid t (s.snap t))]
              nextInst := d.nextInst + 1 }
      | _, _ => none

end Sys2Proof.Machine
end

