-- ==== Sys2Proof/Machine/Queues.lean ====
section
/-!
DEFINITION. Work queues and the dispatcher (R153..R165), teardown (R54, R166), the division among
functions (R168) and their suspension (R402).
-/

namespace Sys2Proof.Machine

/-! ### Queues (R153..R159) -/

def Dev.queue (d : Dev) (g : Nat) : Queue := (tget g d.queues).getD Queue.reset
def Dev.modQueue (d : Dev) (g : Nat) (f : Queue → Queue) : Dev := { d with queues := tput g (f (d.queue g)) d.queues }

/-- N (R153). -/
def Queue.size (q : Queue) : Nat := 2 ^ q.log2n

/-- The address of a sequence's slot (R153). -/
def Queue.slotVa (q : Queue) (n : Nat) : Word := q.base + BitVec.ofNat 64 (64 * (n % q.size))

/-- The global queue of a function's local one (R168); none beyond QCNT. -/
def Dev.globalQ (d : Dev) (fn q : Nat) : Option Nat :=
  let f := d.func fn
  if fn < 64 && q < f.qcnt then some (f.qbas + q) else none

/-- The function that a global queue belongs to (R168). -/
def Dev.fnOfQ (d : Dev) (g : Nat) : Nat :=
  match d.funcs.find? fun p => p.2.qbas ≤ g && g < p.2.qbas + p.2.qcnt with | some p => p.1 | none => 0

/-- Set ERR, with the sequence and reason; MSI-X vector 1 is signalled (R157, R165, R404). -/
def Dev.queueErr (d : Dev) (g seq : Nat) (reason : BitVec 8) : Dev :=
  (d.modQueue g fun q => { q with err := true, reason := reason, seq := seq % 2 ^ 48 }).msix (d.fnOfQ g) 1

/-- A value written to QTAIL (R159). A poll is due after it (R161). -/
def Dev.postTail (d : Dev) (g : Nat) (v : Word) : Dev :=
  d.modQueue g fun q =>
    let m := 2 * q.size
    let k := (v.toNat + (m - q.t % m)) % m
    let q := { q with polled := 0 }
    if q.en && 1 ≤ k && k ≤ q.size then { q with t := (q.t + k) % 2 ^ 64 } else q

/-- The checks of R158 for enabling. -/
def Dev.queueOk (d : Dev) (fn : Nat) (q : Queue) : Bool :=
  4 ≤ q.log2n && q.log2n ≤ 16 && d.asidIn fn q.asid && q.prio ≤ (d.func fn).maxprio && canonical q.base

/-- The fields of a QCTL write: ERR is cleared by writing 1; the others are taken while EN = 0 (R157, R158). -/
def Queue.ctl (q : Queue) (v : Word) : Queue :=
  let q := if v.getLsbD 1 then { q with err := false } else q
  if q.en then q
  else { q with asid := fldN v 47 36, log2n := fldN v 24 20, prio := fldN v 18 16 }

/-- QCTL as it reads (R157). -/
def Queue.ctlRead (q : Queue) : Nat :=
  q.asid % 4096 * 2 ^ 36 + q.log2n % 32 * 2 ^ 20 + q.prio % 8 * 2 ^ 16 + (if q.err then 2 else 0) + (if q.en then 1 else 0)

/-- QSTAT as it reads (R157). -/
def Queue.stat (q : Queue) : Nat := q.seq % 2 ^ 48 * 2 ^ 16 + q.reason.toNat * 2 ^ 8 + (if q.stall then 1 else 0)

/-- A register of a queue as it reads, by its offset in the queue's set (R157). -/
def Queue.read (q : Queue) (off : Nat) : Nat :=
  match off with
  | 0x00 => q.ctlRead
  | 0x08 => q.base.toNat
  | 0x10 => q.rcb.toNat
  | 0x18 => q.mir.toNat
  | 0x20 => q.t
  | 0x28 => q.h
  | 0x30 => q.stat
  | _ => 0

/-- A read at an offset of a function's queue registers; beyond its assigned queues it reads zero (R157). -/
def Dev.queueRead (d : Dev) (fn off : Nat) : Nat :=
  match d.globalQ fn (off / 0x40) with
  | some g => (d.queue g).read (off % 0x40)
  | none => 0

/-! ### Polling and consuming (R160, R161) -/

/-- A poll of the stamp at the head (R161, and reason 0x08 of R165). -/
def Dev.pollStamp (d : Dev) (g : Nat) : Dev :=
  let q := d.queue g
  let f := d.fnOfQ g
  let va := q.slotVa q.h
  match d.agentXlate q.asid f va .read 8 with
  | (d, .error e) =>
    let d := d.modQueue g fun q => { q with stall := true, polled := d.cycle + 1 }
    (d.queueErr g q.h 0x08).agentRecord f q.asid e.cause va
  | (d, .ok l) => d.modQueue g fun q => { q with stall := false, polled := d.cycle + 1, found := d.num (l.at va) 8 == q.h }

/-- A queue is ready (R160); the dispatcher starts nothing of a suspended function (R402). -/
def Dev.queueReady (d : Dev) (g : Nat) : Bool :=
  let q := d.queue g
  q.en && q.h < q.t && !q.stall && q.found && (q.last == 0 || q.last + 3 ≤ d.cycle) && !d.suspended (d.fnOfQ g)

/-- The ready queue that the dispatcher serves next (R164): the highest level, then the first at or after
its pointer, cyclically. -/
def Dev.nextQueue (d : Dev) : Option Nat :=
  let ready := (d.queues.map (·.1)).filter d.queueReady
  match (ready.map fun g => (d.queue g).prio).max? with
  | none => none
  | some p =>
    let r := d.rr[p]?.getD 0
    leastBy (fun g => (g + 8192 - r) % 8192) (ready.filter fun g => (d.queue g).prio == p)

/-! ### Launches that start nothing (R53, R163, R165, R166) -/

/-- A task node by its record, for a launch of its ASID. -/
def Dev.nodeOf (d : Dev) (asid part : Nat) (rec : Word) : Option (Nat × Node) :=
  d.nodes.find? fun p => (d.walk asid part rec).toOption.any fun (l : Leaf) => l.at rec == p.1

/-- A launch starts nothing: its node finishes as failed, or its object is written; `note` sends a record. -/
def Dev.launchNothing (d : Dev) (q : DevLaunch) (cause : Cause) (reason : BitVec 8) (note : Bool) : Dev :=
  let d := match q.node with
    | some (die, rec) =>
      (match d.nodeOf q.asid q.part rec with
       | some (_, n) => d.nodeFinish die n.who rec 0 cause.num
       | none => d)
    | none => if q.obj then d.compSet q.asid q.part q.comp 0 cause.num 0 q.who else d
  if note then d.launchRecord q cause reason else d

/-- A teardown of a launch's context has reached the dispatcher in this cycle (R166). -/
def Dev.tornDown (d : Dev) (q : DevLaunch) : Bool := d.tears.any fun x => x.covers q.asid q.part (d.effFdom q.rcb)

/-- The checks of R163 on a device-side launch: the first reason that fails. -/
def Dev.devReason (d : Dev) (q : DevLaunch) : Option (BitVec 8) :=
  if q.n = 0 || 2 ^ 32 < q.n then some 0x02
  else if q.node.isSome && (q.entry.toNat % 16 ≠ 0 || !canonical q.entry) then some 0x04
  else if 8 < q.die then some 0x05
  else if !d.rcbOk q.rcb then some 0x06
  else none

/-! ### Entries (R155, R162, R165) -/

/-- A completion object that an entry may name (reason 0x03). -/
def Dev.compOk (d : Dev) (asid part : Nat) (c : Word) : Bool :=
  c == 0 || (c.toNat % 16 == 0 && (match d.leafFor (agentCtx asid part) c with
    | .ok l => !l.nr && l.allows .write true && l.kind == 0
    | .error _ => false))

/-- The launch that an entry names. -/
def Queue.launch (q : Queue) (part e : Nat) : DevLaunch :=
  { die := nfld e 323 320, rcb := if nfld e 447 384 = 0 then q.rcb.toNat else nfld e 447 384, asid := q.asid, part := part,
    entry := BitVec.ofNat 64 (nfld e 191 128), n := nfld e 255 192, arg := BitVec.ofNat 64 (nfld e 127 64),
    comp := BitVec.ofNat 64 (nfld e 319 256), obj := nfld e 319 256 != 0, node := none, parent := none, who := none,
    forkAt := 0, tcause := 0 }

/-- The reason for which an entry is refused (R165); `torn` are the teardowns that came while it waited for its turn. -/
def Dev.entryReason (d : Dev) (l : DevLaunch) (e : Nat) (torn : List Tear) : Option (BitVec 8) :=
  if nfld e 511 448 ≠ 0 || nfld e 383 324 ≠ 0 then some 0x01
  else if l.n = 0 || 2 ^ 32 < l.n then some 0x02
  else if !d.compOk l.asid l.part l.comp then some 0x03
  else if l.entry.toNat % 16 ≠ 0 || !canonical l.entry then some 0x04
  else if 8 < l.die then some 0x05
  else if !d.rcbOk l.rcb then some 0x06
  else if d.tornDown l || torn.any fun x => x.covers l.asid l.part (d.effFdom l.rcb) then some 0x07
  else none

/-- Start a launch (R162). -/
def Dev.startLaunch (d : Dev) (l : DevLaunch) : Dev :=
  let d := if l.obj then d.compSet l.asid l.part l.comp l.n 0 0 else d
  d.createThreads { l with die := d.pickDie l.die }

/-- Write the head mirror (R160, and reason 0x09 of R165). -/
def Dev.headMirror (d : Dev) (g f : Nat) (q : Queue) : Dev :=
  if q.mir = 0 then d else
  match d.agentXlate q.asid f q.mir .write 8 with
  | (d, .error e) => (d.queueErr g q.h 0x09).agentRecord f q.asid e.cause q.mir
  | (d, .ok l) =>
    let pa := l.at q.mir
    let d := d.agentMust ⟨.agent, pa, 8, true, true, q.mir⟩
    (d.putLeaf pa (bytesOfNat 8 ((q.h + 1) % 2 ^ 64)) l f).wake

/-- Consume the head entry of a queue (R160, R162, R165). A slot whose stamp is no longer the sequence is not taken: it is
polled again (R155, R161). -/
def Dev.consume (d : Dev) (g : Nat) : Dev :=
  let q := d.queue g
  let f := d.fnOfQ g
  let va := q.slotVa q.h
  match d.agentXlate q.asid f va .read 64 with
  | (d, .error _) => (d.modQueue g fun q => { q with found := false, torn := [] }).pollStamp g
  | (d, .ok l) =>
    if d.num (l.at va) 8 ≠ q.h then d.modQueue g fun q => { q with found := false, polled := d.cycle + 1, torn := [] } else
    let d := d.agentMust ⟨.agent, l.at va, 64, false, false, va⟩
    let e := d.num (l.at va) 64
    let d := d.modQueue g fun q => { q with h := (q.h + 1) % 2 ^ 64, found := false, last := d.cycle + 1, polled := 0, torn := [] }
    let d := { d with rr := d.rr.setIfInBounds q.prio ((g + 1) % 8192) }
    let d := d.headMirror g f q
    let ln := q.launch f e
    match d.entryReason ln e q.torn with
    | none => d.startLaunch ln
    | some r =>
      let d := d.queueErr g q.h r
      if r = 0x07 then d.launchNothing ln .contextGone 0 true
      else d.launchNothing { ln with obj := ln.obj && d.compOk ln.asid f ln.comp } .queue r true

/-! ### Retirement and teardown (R48, R54, R131, R166) -/

/-- Write back every stream that a thread's instances changed (R131). -/
def Dev.flushStreams (d : Dev) (tid : Nat) : Dev :=
  ((d.streams.filter fun p => p.2.users.contains tid).map (·.1)).foldl (fun d k => d.streamBack k) d

/-- What TRET's frame does at commit (R390): the named thread, if it still exists and is trapped, resumes at RPC with
its registers restored, or retires: its streams are written back (R131) and its launch's object takes the frame's
cause by R191. -/
def Dev.returnTo (d : Dev) (f : Nat) : Dev :=
  let tid := nfld f 3519 3456
  match d.thread tid with
  | none => d
  | some t =>
    if t.st ≠ .trapped then d else
    if nfld f 3629 3628 = 0 then
      let d := d.modThread tid fun t => { t.restore f with
        pc := BitVec.ofNat 64 (nfld f 3391 3328), trap := none }
      d.enqueue tid
    else
      let d := (d.modThread tid fun t => { t with st := .retired, trap := none }).flushStreams tid
      (d.countThread tid (nfld f 3599 3584) false).getD d.mustWait

/-- Launches that reached the dispatcher in a cycle in which a teardown of their context did start nothing (R166), before
the cycle ends. -/
def Dev.endTears : Nat → Dev → Dev
  | 0, d => d
  | n + 1, d =>
    match d.devq.find? d.tornDown with
    | none => { d with tears := [] }
    | some q =>
      let e := Dev.launchNothing { d with devq := d.devq.erase q } q .contextGone 0 true
      if e.balk then d else e.endTears n

/-- A poll of a queue's stamp is due: after a write to QTAIL, and 256 cycles after the last (R161). -/
def Dev.pollIsDue (d : Dev) (q : Queue) : Bool :=
  q.en && q.h < q.t && !q.found && (q.polled == 0 || (!q.stall && q.polled + 255 ≤ d.cycle))

/-- The polls that are due are made (R161). -/
def Dev.pollQueues (d : Dev) : Dev :=
  ((d.queues.filter fun p => d.pollIsDue p.2).map (·.1)).foldl Dev.pollStamp d

/-- Count a retired thread and free it; an object's update that must wait holds the event back. -/
def Dev.retire (d : Dev) (tid cause : Nat) : Dev :=
  let d := d.flushStreams tid
  (d.countThread tid cause).getD d.mustWait

/-- Threads of a region's block on its die: queued at it or in its instances. -/
def Dev.threadsAt (d : Dev) (r : Region) : List Thread :=
  (d.threads.filter fun p => p.2.die == r.die && p.2.asid == r.asid && p.2.pc == r.blk && (p.2.st == .queued || p.2.st == .running)).map (·.2)

/-- A teardown that reaches a region (R231, R236): it leaves when it is pinned or still loading and all its
threads go. -/
def Dev.regionGoes (d : Dev) (sel : Thread → Bool) (selR : Region → Bool) (r : Region) : Bool :=
  let ts := d.threadsAt r
  (r.pinned || (match r.phase with | .loading _ => true | _ => false)) && ts.all sel && (ts.any sel || selR r)

/-- A teardown has reached the dispatcher: an entry that waits for its turn at the head of a ready queue has not started, and
will start nothing if the teardown covers it (R166, log 41). -/
def Dev.tearQueues (d : Dev) (x : Tear) : Dev :=
  { d with queues := d.queues.map fun p =>
      if p.2.en && p.2.h < p.2.t && p.2.found then (p.1, { p.2 with torn := x :: p.2.torn }) else p }

/-- A teardown (R54, R166) of the threads, launches, engine operations and regions that it covers; `none` while an instance
of theirs is at its commit point (R43). Launches that wait for their turn, or that reach the dispatcher in the same cycle, start
nothing either. -/
def Dev.teardown (d : Dev) (x : Tear) : Option Dev :=
  let sel (t : Thread) : Bool := x.covers t.asid t.part (d.effFdom t.rcb)
  let selL (l : DevLaunch) : Bool := x.covers l.asid l.part (d.effFdom l.rcb)
  let selE (e : EngOp) : Bool := x.covers e.who.asid e.who.part e.who.fdom
  let selR (r : Region) : Bool := x.covers r.asid r.part (d.effFdom r.rcb)
  let d : Dev := { d with tears := x :: d.tears }.tearQueues x
  let ts := (d.threads.filter fun p => sel p.2 && p.2.st != .retired).map (·.1)
  let is := (d.insts.filter fun p => ts.contains p.2.tid).map (·.1)
  if d.insts.any fun p => is.contains p.1 && p.2.atPoint then none else
  let regs := (d.regions.filter fun p => d.regionGoes sel selR p.2).map (·.1)
  let d := is.foldl (fun d i => d.dropInst i) d
  let d := ts.foldl (fun d t => (d.endRegion t .sys).modThread t fun t => { t with st := .retired, trap := none }) d
  let d : Dev := { d with ops := d.ops.map fun p => if selE p.2 then (p.1, { p.2 with torn := true }) else p }
  let ls := d.devq.filter selL
  let d := ls.foldl (fun d q => d.launchNothing q .contextGone 0 true) { d with devq := d.devq.filter fun q => !selL q }
  let d := ts.foldl (fun d t => d.retire t Cause.contextGone.num) d
  let d := regs.foldl (fun d k =>
    match d.region k with
    | some r => (match r.phase with | .loading _ => d.freeRegion k | _ => d.closeRegion k)
    | none => d) d
  some d.settleRegions

/-- Suspend a function (R402). -/
def Dev.suspend (d : Dev) (fn : Nat) : Dev :=
  let d := d.modFunc fn fun f => { f with susp := true }
  let rs := (d.regions.filter fun p => p.2.part == fn).map (·.1)
  (rs.foldl (fun d k =>
    match d.region k with
    | some r => (match r.phase with | .loading _ => d.freeRegion k | _ => d.evict k)
    | none => d) d).settleRegions

/-- FNRUN.QUIET (R402): no region of the function is resident and no instance of it in flight; a launch starts within one
event, so none is starting between steps. -/
def Dev.fnQuiet (d : Dev) (fn : Nat) : Bool :=
  !(d.regions.any fun p => p.2.part == fn) && !(d.insts.any fun p => (d.thread p.2.tid).any fun t => t.part == fn)

/-- FNRUN as it reads (R402). -/
def Dev.fnrun (d : Dev) (fn : Nat) : Nat := (if d.fnQuiet fn then 2 else 0) + (if d.suspended fn then 1 else 0)

/-- Resume a function (R402). -/
def Dev.resume (d : Dev) (fn : Nat) : Dev := d.modFunc fn fun f => { f with susp := false }

/-- Ranges overlap. -/
def rangesMeet (a n b m : Nat) : Bool := n != 0 && m != 0 && a < b + m && b < a + n

/-- Function f has a queue enabled or a thread live (R168). -/
def Dev.fnBusy (d : Dev) (fn : Nat) : Bool :=
  (d.queues.any fun p => p.2.en && d.fnOfQ p.1 == fn) || d.threads.any fun p => p.2.part == fn

/-! ### The events -/

/-- QUEUE_CONSUME (R160, R162..R165): the queue that arbitration serves, when no device-side launch waits. -/
def execQueueConsume (q : Nat) (s : State) : Res :=
  onEvent s "QUEUE_CONSUME" fun d =>
    if (d.devq.any fun l => !d.suspended l.part) || d.nextQueue ≠ some q then none else some (d.consume q)

/-- STAMP_POLL (R161): a stalled queue is polled again only after a write to QTAIL (R165). -/
def execStampPoll (q : Nat) (s : State) : Res :=
  onEvent s "STAMP_POLL" fun d =>
    let x := d.queue q
    if !x.en || x.t ≤ x.h || x.found || (x.stall && x.polled != 0) then none else some (d.pollStamp q)

/-- DEVICE_LAUNCH_START (R163): the first waiting device-side launch of a function that runs. -/
def execDeviceLaunchStart (s : State) : Res :=
  onEvent s "DEVICE_LAUNCH_START" fun d =>
    match d.devq.find? fun l => !d.suspended l.part with
    | none => none
    | some l =>
      let d := { d with devq := d.devq.erase l }
      if d.tornDown l then some (d.launchNothing l .contextGone 0 true) else
      match d.devReason l with
      | some r => some (d.launchNothing l .queue r (r == 0x06 || l.node.isNone))
      | none => some (d.createThreads { l with die := d.pickDie l.die })

/-- FAULT_DOMAIN_TEARDOWN (R54, R166). -/
def execFaultDomainTeardown (part fdom : Nat) (s : State) : Res :=
  onEvent s "FAULT_DOMAIN_TEARDOWN" fun d => d.teardown (.domain part fdom)

/-- ASID_RELEASE (R166). -/
def execAsidRelease (asid : Nat) (s : State) : Res :=
  onEvent s "ASID_RELEASE" fun d => d.teardown (.space asid)

/-- FUNCTION_RESET (R149, R158, R166). -/
def execFunctionReset (fn : Nat) (s : State) : Res :=
  onEvent s "FUNCTION_RESET" fun d =>
    if 64 ≤ fn then none else
    let d : Dev := { d with queues := d.queues.map fun p => if d.fnOfQ p.1 == fn then (p.1, { p.2 with en := false, found := false, torn := [] }) else p }
    let d := (d.windows.filter fun p => p.1.1 == fn && p.2.join).foldl (fun d p => d.hostLeave fn p.1.2) d
    d.teardown (.function fn)

/-- A write of EN = 1 (R158). A refused configuration leaves the queue as it is but for ERR and REASON: SEQ keeps its value (R165, log 73). -/
def Dev.enableQueue (d : Dev) (fn g : Nat) (v : Word) : Dev :=
  let q := (d.queue g).ctl v
  if q.en then d.modQueue g fun _ => q
  else if d.queueOk fn q then d.modQueue g fun _ => { q with en := true, t := q.h, found := false, polled := 0, torn := [] }
  else (d.modQueue g fun x => { x with err := true, reason := 0x0A }).msix fn 1

/-- QUEUE_ENABLE (R158): a QCTL write with EN = 1. -/
def execQueueEnable (fn q : Nat) (v : Word) (s : State) : Res :=
  onFn s fn "QUEUE_ENABLE" fun d =>
    if !v.getLsbD 0 then none else
    match d.globalQ fn q with
    | none => some d
    | some g => some (d.enableQueue fn g v)

/-- QUEUE_DISABLE (R158): a QCTL write with EN = 0. -/
def execQueueDisable (fn q : Nat) (v : Word) (s : State) : Res :=
  onFn s fn "QUEUE_DISABLE" fun d =>
    if v.getLsbD 0 then none else
    match d.globalQ fn q with
    | none => some d
    | some g => some (d.modQueue g fun x => { x.ctl v with en := false, found := false, torn := [] })

/-- QUEUE_ERR_CLEAR (R157). -/
def execQueueErrClear (fn q : Nat) (s : State) : Res :=
  onFn s fn "QUEUE_ERR_CLEAR" fun d =>
    match d.globalQ fn q with
    | none => some d
    | some g => some (d.modQueue g fun x => { x with err := false })

/-- QTAIL_WRITE (R159). -/
def execQtailWrite (fn q : Nat) (v : Word) (s : State) : Res :=
  onFn s fn "QTAIL_WRITE" fun d =>
    match d.globalQ fn q with
    | none => some d
    | some g => some (d.postTail g v)

/-- FNQ_WRITE (R168). -/
def execFnqWrite (fn : Nat) (v : Word) (s : State) : Res :=
  onEvent s "FNQ_WRITE" fun d =>
    if 64 ≤ fn then none else
    let n := fldN v 45 32
    let b := fldN v 12 0
    if d.fnBusy fn || 8192 < b + n || (d.funcs.any fun p => p.1 != fn && rangesMeet p.2.qbas p.2.qcnt b n) then some d
    else some (d.modFunc fn fun f => { f with maxprio := fldN v 58 56, qcnt := n, qbas := b })

/-- FNA_WRITE (R168). -/
def execFnaWrite (fn : Nat) (v : Word) (s : State) : Res :=
  onEvent s "FNA_WRITE" fun d =>
    if 64 ≤ fn then none else
    let n := fldN v 28 16
    let b := fldN v 11 0
    if d.fnBusy fn || 4096 < b + n || (d.funcs.any fun p => p.1 != fn && rangesMeet p.2.abas p.2.acnt b n) then some d
    else some (d.modFunc fn fun f => { f with acnt := n, abas := b })

/-- The module is in P2 or on its way there: every function is held whatever its SUSP (R417). -/
def RoT.holdsAll (r : RoT) : Bool := r.entering || r.power == .p2

/-- FUNCTION_SUSPEND (R402): FNRUN.SUSP := 1. In P2 the function then stays suspended after the wake (R418). -/
def execFunctionSuspend (fn : Nat) (s : State) : Res :=
  onState s "FUNCTION_SUSPEND" fun s =>
    if 64 ≤ fn then none
    else if s.rot.holdsAll then some { s with rot := { s.rot with suspd := s.rot.suspd.filter (· != fn) } }
    else some { s with dev := s.dev.suspend fn }

/-- FUNCTION_RESUME (R402): FNRUN.SUSP := 0. In P2 the function resumes with the wake (R418). -/
def execFunctionResume (fn : Nat) (s : State) : Res :=
  onState s "FUNCTION_RESUME" fun s =>
    if 64 ≤ fn then none
    else if s.rot.holdsAll then some { s with rot := { s.rot with suspd := fn :: s.rot.suspd.filter (· != fn) } }
    else some { s with dev := s.dev.resume fn }

end Sys2Proof.Machine
end

