-- ==== Sys2Proof/Machine/HostIf.lean ====
section
/-!
DEFINITION. The host's and the peers' way in: the aperture (R406, R149), peer requests (R408, R409), links,
registers without a row of their own (R7, R157, R371, R405, R415), host invalidation (R398) and the
registration of images (R420).
-/

namespace Sys2Proof.Machine

/-! ### Accesses of hosts and peers (R204, R209, R406) -/

/-- What an access of `n` bytes at an address meets. -/
inductive HostAcc where
  | ok (d : Dev) (pa : Nat) (l : Leaf)
  /-- lines that a spill ring has withdrawn (R212) -/
  | ring
  | err (d : Dev) (e : TErr)
  | stream (l : Leaf)

/-- Translate and check an access (R364, R406); the host passes no SYS page (R362). A is set, and D for a write, once the
translation has passed (R365), whether or not the chunk can be decoded (R372). -/
def Dev.hostCheck (d : Dev) (asid part : Nat) (va : Word) (n : Nat) (wr : Bool) : HostAcc :=
  let c := hostCtx asid part
  if !canonical va then .err d .page else
  match d.leafFor c va with
  | .error e => .err d e
  | .ok l =>
    let pa := l.at va
    if l.nr then .err d .page
    else if !l.allows (if wr then .write else .read) false then .err d .perm
    else if l.kind = 1 then .stream l
    else match d.kindErr l pa (if wr then .hostWrite else .hostRead) with
      | some e => .err d e
      | none =>
        if d.ringAt pa n then .ring
        else
          let d := (d.setAD l wr).fill c va { l with a := true, d := l.d || wr }
          if d.cutAt pa n || (wr && l.sum && d.cutAt l.side 64) then .err d .decode else .ok d pa l

/-- A host or peer reads bytes; `none` while it must wait. -/
def Dev.hostLoad (d : Dev) (pa n : Nat) (l : Leaf) (va : Word) : Option (Dev × List Byte) :=
  if isWindow pa then some ({ d with freeSeq := d.freeSeq + 1 }, bytesOfNat n (Config.freeBytes d.freeSeq).toNat)
  else if d.inRefresh l pa then none
  else if l.kind = 2 then some (d, d.bytes pa n)
  else (d.agentTry ⟨.host, pa, n, false, false, va⟩).map fun d => (d.noteRead pa n, d.bytes pa n)

/-- Bytes of a host or peer are put at their places. -/
def Dev.hostPut (d : Dev) (part : Nat) (cells : List (Nat × Byte)) (l : Leaf) : Dev :=
  if cells.any fun x => isWindow x.1 then d else (d.writeLeaf cells l.cls l.sideOf part 0).wake

/-- A host or peer writes bytes; without sectors it waits behind its reservation (R373). `sure` says that
they have been granted. -/
def Dev.hostStore (d : Dev) (who part : Nat) (cells : List (Nat × Byte)) (l : Leaf) (pa : Nat) (va : Word) (sure : Bool)
    (again : HeldWrite) : Option Dev :=
  if isWindow pa then some d else
  match (if sure then .fits else d.roomFor part 0 cells l.cls) with
  | .waits n => some { d.queueResv part 0 (pa / 4096) n (.host who) va with pend := d.pend ++ [again] }
  | _ => (d.agentTry ⟨.host, pa, cells.length, true, false, va⟩).map fun d => d.hostPut part cells l

/-! ### Stream bytes (R149) -/

/-- The joined window of a function through which the host reaches stream bytes: a reader's own view, or any view of a
stream whose producer it is (R127, R149). -/
def Dev.windowFor (d : Dev) (fn asid : Nat) (va : Word) (wr : Bool) : Option Nat :=
  (d.windows.find? fun p => p.1.1 == fn && p.2.join && p.2.asid == asid && p.2.role == wr &&
    p.2.addr.toNat / 2 ^ 43 == va.toNat / 2 ^ 43 && (wr || p.2.view == fldN va 42 40)).map fun p => p.1.2

/-- An access to stream bytes in a role that the host has not joined is refused: the windows by which it takes part in
the stream set ERR, and a record goes where there is none (R148, R149, log 62). -/
def Dev.strRefuse (d : Dev) (fn asid : Nat) (va : Word) : Dev :=
  let ws := d.windows.filter fun p => p.1.1 == fn && p.2.join && p.2.asid == asid && p.2.addr.toNat / 2 ^ 43 == va.toNat / 2 ^ 43
  if ws.isEmpty then d.hostRecord fn asid .protection va
  else ws.foldl (fun d p => d.modWindow fn p.1.2 fun x => { x with err := true }) d

/-- The first of some runs of a stream's frames that cannot be decoded (R372). -/
def Dev.cutRun (d : Dev) (desc : Nat) (s : Stream) (runs : List (Nat × Nat)) : Option Nat :=
  (runs.find? fun r => d.cutAt (d.framePa desc s r.1) r.2).map (·.1)

/-- The frame accesses of a host participant; `none` while one must wait. -/
def Dev.hostRuns (d : Dev) (desc : Nat) (s : Stream) (va : Word) (p : Nat) (wr : Bool) : List (Nat × Nat) → Option Dev
  | [] => some d
  | (q, n) :: r =>
    match d.agentTry ⟨.host, d.framePa desc s q, n, wr, false, va + BitVec.ofNat 64 (q - p)⟩ with
    | none => none
    | some d => d.hostRuns desc s va p wr r

/-- How a host's access to stream bytes ends. -/
inductive HostStr where
  | ok (d : Dev) (bs : List Byte)
  | bad (d : Dev)
  | wait

/-- The host's access to stream bytes (R149): `data` is none for a read of `n` bytes. -/
def Dev.hostStream (d : Dev) (fn asid : Nat) (va : Word) (n : Nat) (data : Option (List Byte)) (l : Leaf) (sure : Bool)
    (again : HeldWrite) : HostStr :=
  let wr := data.isSome
  match d.windowFor fn asid va wr with
  | none => .bad (d.strRefuse fn asid va)
  | some w =>
    let err (d : Dev) : HostStr := .bad (d.modWindow fn w fun x => { x with err := true })
    let cut (d : Dev) (va : Word) : HostStr := err (d.hostRecord fn asid .lengthViolation (failAddr .decode va))
    let d := (d.setAD l wr).fill (hostCtx asid fn) va { l with a := true, d := l.d || wr }
    match d.streamUse l.pa none (fn, asid, va.toNat / 2 ^ 43) with
    | .full _ => .wait
    | .bad d => err d
    | .cut d => cut d va
    | .far d => err d
    | .ok d s =>
      let j := fldN va 42 40
      match data with
      | none =>
        (match resolvePos va (s.reader j).cur with
         | none => err d
         | some p =>
           if p < (s.reader j).rel || s.hwm < p + n then err d
           else match d.cutRun l.pa s (frameRuns s.fsize p n) with
             | some q => cut d (va + BitVec.ofNat 64 (q - p))
             | none =>
               match d.hostRuns l.pa s va p false (frameRuns s.fsize p n) with
               | none => .wait
               | some d => .ok d (d.streamBytes l.pa s p n))
      | some bs =>
        (match resolvePos va s.hwm with
         | none => err d
         | some p =>
           if p < s.tail || d.limitOf l.pa s < p + n then err d
           else match d.cutRun l.pa s (frameRuns s.fsize p n) with
           | some q => cut d (va + BitVec.ofNat 64 (q - p))
           | none =>
             let cells := d.streamCells l.pa (cellsAt p bs)
             match (if sure then .fits else d.roomFor fn 0 cells 1) with
             | .waits k =>
               .ok { d.queueResv fn 0 (d.framePa l.pa s p / 4096) k (.host fn) va with pend := d.pend ++ [again] } []
             | _ =>
               match d.hostRuns l.pa s va p true (frameRuns s.fsize p n) with
               | none => .wait
               | some d => .ok (d.writeAt cells 1 fn 0).wake [])

/-! ### The aperture (R406) -/

/-- The virtual address of an aperture offset. -/
def Func.apAddr (f : Func) (off : Nat) : Word := sx (BitVec.ofNat 57 (f.apbase * 2 ^ 36 + off))

/-- A piece lies in one line of the aperture. -/
def pieceOk (off n : Nat) : Bool := 1 ≤ n && off % 64 + n ≤ 64 && off + n ≤ 2 ^ 36

/-- The aperture of a function is open to accesses. -/
def Dev.apOpen (d : Dev) (fn : Nat) : Bool := (d.func fn).apen && d.asidIn fn (d.func fn).apasid

/-- A read piece. -/
def Dev.apRead (d : Dev) (fn off n : Nat) : Option Dev :=
  let f := d.func fn
  let reply (d : Dev) (bs : List Byte) : Dev := d.emit (.hostRead fn bs)
  let ones := List.replicate n (0xFF : Byte)
  if !d.apOpen fn then some (reply d ones) else
  let va := f.apAddr off
  match d.hostCheck f.apasid fn va n false with
  | .ring => some (reply d ones)
  | .err d e => some (reply (d.hostRecord fn f.apasid (hostCause e) (failAddr e va)) ones)
  | .stream l =>
    (match d.hostStream fn f.apasid va n none l false (.aperture fn off []) with
     | .wait => none
     | .bad d => some (reply d ones)
     | .ok d bs => some (reply d bs))
  | .ok d pa l => (d.hostLoad pa n l va).map fun r => reply r.1 r.2

/-- A write piece. -/
def Dev.apWrite (d : Dev) (fn off : Nat) (bs : List Byte) (sure : Bool) : Option Dev :=
  let f := d.func fn
  if !d.apOpen fn then some d else
  let va := f.apAddr off
  let again : HeldWrite := .aperture fn off bs
  match d.hostCheck f.apasid fn va bs.length true with
  | .ring => some d
  | .err d e => some (d.hostRecord fn f.apasid (hostCause e) (failAddr e va))
  | .stream l =>
    (match d.hostStream fn f.apasid va bs.length (some bs) l sure again with
     | .wait => none
     | .bad d => some d
     | .ok d _ => some d)
  | .ok d pa l => d.hostStore fn fn (cellsAt pa bs) l pa va sure again

/-! ### Peers (R408, R409) -/

/-- The number under which a peer's accesses wait for sectors. -/
def peerWho (p : Nat) : Nat := 64 + p

/-- The pieces of a peer's range with their places; none when any of it fails, which sends the record of a translation that
failed or of a chunk that cannot be decoded, as a host's access does (R364, R372, R409). -/
def Dev.peerParts (d : Dev) (p : Nat) (a : Word) (n : Nat) (wr : Bool) : Dev × Option (List (Nat × Nat × Nat × Leaf)) :=
  let e := d.peer p
  let fail (d : Dev) (t : TErr) (va : Word) : Dev × Option (List (Nat × Nat × Nat × Leaf)) :=
    (d.hostRecord e.part e.asid (hostCause t) (failAddr t va), none)
  if !e.en then (d, none) else
  (linePieces a.toNat n).foldl (fun (r : Dev × Option (List (Nat × Nat × Nat × Leaf))) x =>
    match r.2 with
    | none => r
    | some ps =>
      let va := a + BitVec.ofNat 64 x.1
      (match r.1.hostCheck e.asid e.part va x.2 wr with
       | .ok d pa l => (d, some (ps ++ [(x.1, x.2, pa, l)]))
       | .err d t => fail d t va
       | .stream _ => fail r.1 .perm va
       | .ring => (r.1, none))) (d, some [])

/-- An error completion. -/
def Dev.peerError (d : Dev) (p : Nat) : Dev := d.emit (.peerReply p false [])

/-- A peer's write or add; `new` makes the bytes from the old ones. -/
def Dev.peerStore (d : Dev) (p : Nat) (a : Word) (n : Nat) (sure : Bool) (new_ : List Byte → List Byte) (again : HeldWrite) : Option Dev :=
  match d.peerParts p a n true with
  | (d, none) => some (d.peerError p)
  | (d, some ps) =>
    let old := ps.flatMap fun x => d.bytes x.2.2.1 x.2.1
    let bs := new_ old
    let part := (d.peer p).part
    let cellsOf (x : Nat × Nat × Nat × Leaf) : List (Nat × Byte) := cellsAt x.2.2.1 ((bs.drop x.1).take x.2.1)
    let waits := if sure then none else ps.findSome? fun x =>
      match d.roomFor part 0 (cellsOf x) x.2.2.2.cls with | .waits k => some (x, k) | _ => none
    match waits with
    | some (x, k) => some { d.queueResv part 0 (x.2.2.1 / 4096) k (.host (peerWho p)) a with pend := d.pend ++ [again] }
    | none =>
      (ps.foldl (fun (r : Option Dev) x =>
        r.bind fun d => d.agentTry ⟨.host, x.2.2.1, x.2.1, true, false, a + BitVec.ofNat 64 x.1⟩) (some d)).map fun d =>
          (ps.foldl (fun (d : Dev) x => d.hostPut part (cellsOf x) x.2.2.2) d).emit (.peerReply p true [])

/-- A BF16 sum, rounded to nearest even in its own format (R193). -/
def bf16Add (a b : Nat) : Nat :=
  (fBf16.put .rne 0 ((fBf16.decode a).add (fBf16.decode b)).1).code

/-- Each element of memory plus the element that comes in (R193). -/
def addElems (bf16 : Bool) (old new_ : List Byte) : List Byte :=
  if bf16 then ((elems 2 (old.length / 2) old).zip (elems 2 (new_.length / 2) new_)).flatMap fun x => bytesOfNat 2 (bf16Add x.1 x.2)
  else ((elems 4 (old.length / 4) old).zip (elems 4 (new_.length / 4) new_)).flatMap fun x =>
    bytesOfNat 4 (afadd (BitVec.ofNat 32 x.1) (BitVec.ofNat 32 x.2)).toNat

/-- A peer's read. -/
def Dev.peerLoad (d : Dev) (p : Nat) (a : Word) (n : Nat) : Option Dev :=
  match d.peerParts p a n false with
  | (d, none) => some (d.peerError p)
  | (d, some ps) =>
    (ps.foldl (fun (r : Option (Dev × List Byte)) x =>
      r.bind fun y => (y.1.hostLoad x.2.2.1 x.2.1 x.2.2.2 (a + BitVec.ofNat 64 x.1)).map fun z => (z.1, y.2 ++ z.2))
      (some (d, []))).map fun y => y.1.emit (.peerReply p true y.2)

/-- A write made again once its sectors are granted (R373). -/
def Dev.redo (d : Dev) : HeldWrite → Option Dev
  | .aperture fn off data => d.apWrite fn off data true
  | .peer p a data => d.peerStore p a data.length true (fun _ => data) (.peer p a data)
  | .peerAdd p a bf data => d.peerStore p a data.length true (fun old => addElems bf old data) (.peerAdd p a bf data)

/-- Who a write waits as. -/
def HeldWrite.who : HeldWrite → Nat
  | .aperture fn _ _ => fn
  | .peer p _ _ => peerWho p
  | .peerAdd p _ _ _ => peerWho p

/-- The write of a claimant that waits. -/
def Dev.waitingOf (d : Dev) (who : Nat) : Option HeldWrite := d.pend.find? fun i => i.who == who

/-- A host or peer write that gets no sectors is dropped (R377): a host's with a record, a peer's with an
error completion. -/
def Dev.dropWrite (d : Dev) (who : Nat) : Dev :=
  match d.waitingOf who with
  | none => d
  | some i =>
    let d : Dev := { d with pend := d.pend.erase i }
    match i with
    | .aperture fn off _ => d.hostRecord fn (d.func fn).apasid .outOfSpace ((d.func fn).apAddr off)
    | .peer p _ _ => d.peerError p
    | .peerAdd p _ _ _ => d.peerError p

/-! ### Registers without a row of their own (R7, R8) -/

/-- A register in BAR2 as it reads: APCTL, the stream windows and the queue registers; any other place reads zero (R7, R405,
R406). -/
def Dev.bar2Read (d : Dev) (fn off : Nat) : Nat :=
  let f := d.func fn
  if off = 0 then f.apasid % 4096 * 2 ^ 52 + f.apbase % 2 ^ 21 * 2 ^ 31 + (if f.apen then 1 else 0)
  else if 0x10000 ≤ off && off < 0x14000 then
    let k := (off - 0x10000) / 0x40
    (match off % 0x40 with
     | 0x00 => (d.window fn k).ctl
     | 0x08 => d.wpos fn k
     | 0x10 => d.wcur fn k
     | _ => 0)
  else if 0x100000 ≤ off && off < 0x200000 then d.queueRead fn (off - 0x100000)
  else 0

/-- A register in BAR0 as it reads (R7, R168, R371, R380, R398, R402, R409, R415, R417); write-only and reserved places read
zero, and so does every place for a virtual function, which has no BAR0 (R405). -/
def State.bar0Read (s : State) (off : Nat) : Nat :=
  let d := s.dev
  let r := s.rot
  if 0x2000 ≤ off && off < 0x2400 then
    let f := d.func ((off - 0x2000) / 0x10)
    (match off % 0x10 with
     | 0x0 => f.maxprio % 8 * 2 ^ 56 + f.qcnt % 2 ^ 14 * 2 ^ 32 + f.qbas % 2 ^ 13
     | 0x8 => f.acnt % 2 ^ 13 * 2 ^ 16 + f.abas % 2 ^ 12
     | _ => 0)
  else if 0x3000 ≤ off && off < 0x3200 && off % 8 = 0 then d.fnrun ((off - 0x3000) / 8)
  else if 0x30000 ≤ off && off < 0x30380 then
    let h := (off - 0x30000) / 0x40
    (match off % 0x40 with
     | 0x00 => (tget h d.pres).getD 0
     | 0x08 => Config.sectors h
     | _ => 0)
  else if 0x40000 ≤ off && off < 0x50000 then
    let k := (off - 0x40000) / 0x40
    let p := d.pool (k / 16) (k % 16)
    if 14 ≤ k % 16 then 0 else
    (match off % 0x40 with
     | 0x00 => p.quota
     | 0x08 => p.held
     | 0x10 => p.low
     | 0x18 => p.blBase
     | 0x20 => p.blTail * 2 ^ 32 + p.blHead
     | 0x28 => p.hcBase
     | 0x30 => p.hcTail * 2 ^ 32 + p.hcHead
     | 0x38 => p.fails * 2 ^ 32 + p.lstate
     | _ => 0)
  else if 0x80000 ≤ off && off < 0x82000 && off % 8 = 0 then
    let p := d.peer ((off - 0x80000) / 8)
    (if p.en then 2 ^ 63 else 0) + p.part % 64 * 2 ^ 12 + p.asid % 4096
  else match off with
    | 0x60000 => r.rtbuf + r.rtop % 256 * 2 ^ 4
    | 0x60008 => r.result.num * 2 ^ 8 + (if r.busy then 1 else 0)
    | 0x70000 => r.power.num * 2 ^ 8 + r.req.num
    | 0xA0008 => d.xldone
    | 0xA0010 => (if d.xlerr then 2 else 0) + (if d.xlbusy then 1 else 0)
    | _ => 0

/-- What a host's read of a register returns (R7). Reads change nothing, and are served in P2 too (R418). An offset that is
not a multiple of 8 reads zero; the spec does not say what such an access does (log 89). -/
def State.registerRead (s : State) (fn bar off : Nat) : Nat :=
  if 64 ≤ fn || off % 8 ≠ 0 || (s.rot.sec == .returned && fn != 0) then 0
  else if bar = 0 then (if fn = 0 then s.bar0Read off else 0)
  else if bar = 2 then s.dev.bar2Read fn off
  else 0

/-- A write in BAR2 (R148, R157). -/
def Dev.bar2Write (d : Dev) (fn off : Nat) (v : Word) : Option Dev :=
  if 0x10000 ≤ off && off < 0x14000 then
    let k := (off - 0x10000) / 0x40
    if off % 0x40 ≠ 0 then (if off % 0x40 = 0x18 || off % 0x40 = 0x20 then none else some d)
    else if v.getLsbD 0 || (d.window fn k).join then none
    else some (d.modWindow fn k fun w => w.set v)
  else if 0x100000 ≤ off && off < 0x200000 then
    match d.globalQ fn ((off - 0x100000) / 0x40) with
    | none => some d
    | some g =>
      let set (f : Queue → Queue) : Option Dev := some (if (d.queue g).en then d else d.modQueue g f)
      match off % 0x40 with
      | 0x00 => none
      | 0x08 => set fun q => { q with base := v &&& 0xFFFFFFFFFFFFFFC0#64 }
      | 0x10 => set fun q => { q with rcb := v &&& 0xFFFFFFFFFFFFFF80#64 }
      | 0x18 => set fun q => { q with mir := v &&& 0xFFFFFFFFFFFFFFF8#64 }
      | 0x20 => none
      | 0x28 => set fun q => { q with h := v.toNat, found := false }
      | _ => some d
  else if off < 8 then none
  else some d

/-- A write in BAR0's peer table, pool blocks and RTCMD without GO (R371, R409, R415). -/
def State.bar0Write (s : State) (off : Nat) (v : Word) : Option State :=
  let d := s.dev
  if 0x80000 ≤ off && off < 0x82000 then
    let p := (off - 0x80000) / 8
    let e : Peer := { d.peer p with en := v.getLsbD 63, part := fldN v 17 12, asid := fldN v 11 0 }
    some { s with dev := { d with peers := tput p e d.peers } }
  else if 0x40000 ≤ off && off < 0x50000 then
    let k := (off - 0x40000) / 0x40
    let f := k / 16
    let h := k % 16
    let set (g : Pool → Pool) : Option State := some (if 14 ≤ h then s else { s with dev := d.setPool f h (g (d.pool f h)) })
    match off % 0x40 with
    | 0x00 => none
    | 0x10 => set fun p => { p with low := fldN v 32 0 }
    | 0x18 => set fun p => { p with blBase := fldN v 51 3 * 8 }
    | 0x20 => none
    | 0x28 => set fun p => { p with hcBase := fldN v 51 3 * 8 }
    | 0x30 => none
    | _ => some s
  else if off = 0x60000 then
    if v.getLsbD 0 && 1 ≤ fldN v 11 4 && fldN v 11 4 ≤ 8 then none
    else if v.getLsbD 0 && s.rot.busy then some s
    else some { s with rot := { s.rot with rtbuf := fldN v 63 12 * 4096, rtop := fldN v 11 4 } }
  else if (0x2000 ≤ off && off < 0x2400) || (0x3000 ≤ off && off < 0x3200) || (0x30000 ≤ off && off < 0x30380 && off % 0x40 = 0) ||
      (0x50000 ≤ off && off < 0x50040) || off = 0x70000 || off = 0x90000 || off = 0xA0000 then none
  else if off = 0xA0010 then some { s with dev := { d with xlerr := d.xlerr && !v.getLsbD 1 } }
  else some s

/-! ### Host invalidation (R398) -/

/-- Commands that may wait: 64 behind the one under way, which may not have been taken yet. -/
def Dev.xlRoom (d : Dev) : Bool := d.xlq.length < (if d.xlbusy && d.xlcur.isNone then 65 else 64)

/-- A host command is dealt with. -/
def Dev.xlNext (d : Dev) : Dev := { d with xldone := (d.xldone + 1) % 2 ^ 64, xlcur := none, xlbusy := !d.xlq.isEmpty }

/-- The IO die takes a host command. -/
def Dev.xlTake (d : Dev) (a : Nat) : Dev :=
  let v := d.num (2 ^ 51 + a % 2 ^ 51) 32
  let part := nfld v 133 128
  let all_ := v.testBit 108
  let asid := nfld v 107 96
  let va := BitVec.ofNat 64 (nfld v 63 0)
  let npg := nfld v 95 64
  if nfld v 127 109 ≠ 0 || nfld v 255 134 ≠ 0 || (!all_ && !d.asidIn part asid) || !canonical va then
    { d with xlerr := true }.xlNext
  else
    let as := if all_ then none else some asid
    let lo := va.toNat / 4096 * 4096
    let range := if npg = 0 then none else some (lo, lo + 4096 * npg)
    { d.invalidate part as range with xlcur := some (part, as, range) }

/-! ### Images (R420) -/

/-- The digests of section 7: a count, then 32 bytes each (log 24). -/
def Dev.preloadOrder (d : Dev) (pa : Nat) : List Nat :=
  if pa = 0 then [] else (List.range (d.num pa 8)).map fun k => d.num (pa + 8 + 32 * k) 32

/-- The placed images of section 2: a count, then for each its digest, its size in bytes and its bytes (log 24). -/
def Dev.placedIn (d : Dev) : Nat → Nat → List (Nat × List Byte)
  | 0, _ => []
  | n + 1, a =>
    let size := d.num (a + 32) 8
    (d.num a 32, d.bytes (a + 40) (Nat.min size (2 ^ 20))) :: d.placedIn n (a + 40 + size)

/-- Enter the placed images of a Glevis image into the mapper's cache, in the preload order, up to 8,192; a digest that
section 2 lacks is skipped (R233, R420). What the block itself gives is taken from it when it is looked up. -/
def Dev.preload (d : Dev) (part sec2 sec7 : Nat) : Dev :=
  let ims := if sec2 = 0 then [] else d.placedIn (d.num sec2 8) (sec2 + 8)
  (d.preloadOrder sec7).foldl (fun d dig =>
    match tget dig ims with
    | none => d
    | some bs =>
      if 8192 ≤ d.placed.length || d.placed.any (fun im => im.digest == dig) then d else
      let x := Config.placedImage bs
      let im : Image := {
        digest := dig, part := part, hdr := 0, words := [], starts := [], instrs := [], luts := [], descs := [],
        places := x.1.map fun q => ⟨q.1, q.2⟩, cap := x.2.1, lat := x.2.2 }
      { d with placed := d.placed ++ [im] }) d

/-- A registration record: partition, ASID, virtual base and length, and sections 2, 5, 6 and 7 (log 24). The frequency
tables are loaded (R288) and the placed images preloaded; the LUT section is read at each placement (R121). -/
def Dev.register (d : Dev) (pa : Nat) : Dev :=
  let w (k : Nat) : Nat := d.num (pa + 8 * k) 8
  let part := w 0 % 64
  Dev.preload { d with
    regImgs := ⟨part, w 1 % 4096, w 2, w 3, w 5⟩ :: d.regImgs
    ropes := (d.tables (w 6) 64).foldl (fun t x =>
      tput (part, x.1) ((elems 8 8 x.2).map fun e => BitVec.ofNat 64 e) t) d.ropes } part (w 4) (w 7)

/-! ### The events -/

/-- APCTL_WRITE (R406): it takes effect after every earlier request of the host (R404). -/
def execApctlWrite (fn : Nat) (v : Word) (s : State) : Host.Outcome State Fault Refusal :=
  onFn s fn "APCTL_WRITE" fun d =>
    if 64 ≤ fn then none
    else if v.getLsbD 0 && !d.asidIn fn (fldN v 63 52) then some d
    else some (d.modFunc fn fun f => { f with apasid := fldN v 63 52, apbase := fldN v 51 31, apen := v.getLsbD 0 })

/-- APERTURE_READ (R406): one piece, within one line. -/
def execApertureRead (fn off len : Nat) (s : State) : Host.Outcome State Fault Refusal :=
  onFn s fn "APERTURE_READ" fun d =>
    if 64 ≤ fn || !pieceOk off len then none else some ((d.apRead fn off len).getD d.mustWait)

/-- APERTURE_WRITE (R406): one piece, within one line. -/
def execApertureWrite (fn off : Nat) (data : List Byte) (s : State) : Host.Outcome State Fault Refusal :=
  onFn s fn "APERTURE_WRITE" fun d =>
    if 64 ≤ fn || !pieceOk off data.length then none else some ((d.apWrite fn off data false).getD d.mustWait)

/-- PEER_WRITE (R409). -/
def execPeerWrite (peer : Nat) (raddr : Word) (data : List Byte) (s : State) : Host.Outcome State Fault Refusal :=
  onEvent s "PEER_WRITE" fun d =>
    if 1024 ≤ peer then none
    else d.peerDo peer (d.peerStore peer raddr data.length false (fun _ => data) (.peer peer raddr data))

/-- PEER_READ (R409). -/
def execPeerRead (peer : Nat) (raddr : Word) (len : Nat) (s : State) : Host.Outcome State Fault Refusal :=
  onEvent s "PEER_READ" fun d =>
    if 1024 ≤ peer || 4096 < len then none else d.peerDo peer (d.peerLoad peer raddr len)

/-- PEER_ADD (R193, R408): whole elements; a request with a part of one is of no kind that the module serves, and receives
an error completion. -/
def execPeerAdd (peer : Nat) (raddr : Word) (bf16 : Bool) (data : List Byte) (s : State) : Host.Outcome State Fault Refusal :=
  onEvent s "PEER_ADD" fun d =>
    if 1024 ≤ peer then none
    else d.peerDo peer (if data.length % (if bf16 then 2 else 4) ≠ 0 then some (d.peerError peer)
      else d.peerStore peer raddr data.length false (fun old => addElems bf16 old data) (.peerAdd peer raddr bf16 data))

/-- LINK_DOWN (R194, R408): every transfer across the link stops. -/
def execLinkDown (peer : Nat) (s : State) : Host.Outcome State Fault Refusal :=
  onEvent s "LINK_DOWN" fun d =>
    if 1024 ≤ peer || (d.peer peer).down then none
    else
      let d : Dev := { d with peers := tput peer { d.peer peer with down := true } d.peers }
      let ops := (d.ops.filter fun p => p.2.kind == .xfer && !p.2.ended && p.2.start.isSome && p.2.command.peer == peer)
      some (ops.foldl (fun d p => d.engStop p.1 0 .contextGone p.2.cursor) d)

/-- LINK_RETURN (R317): the decrements held toward the owner are made, or dropped with those still to be made when it has been
reset meanwhile, which the flag says. -/
def execLinkReturn (peer : Nat × Bool) (s : State) : Host.Outcome State Fault Refusal :=
  onEvent s "LINK_RETURN" fun d =>
    let (peer, reset) := peer
    if 1024 ≤ peer || !(d.peer peer).down then none
    else
      let mine (x : Decr) : Bool := entRmt x.entry.toNat && entPeer x.entry.toNat == peer
      let d : Dev := { d with
        peers := tput peer { d.peer peer with down := false } d.peers
        dies := d.dies.map fun p => (p.1, { p.2 with decrs := (if reset then [] else p.2.held.filter mine) ++ p.2.decrs.filter fun x => !(reset && mine x), held := p.2.held.filter fun x => !mine x }) }
      some d

/-- XLPOST_WRITE (R398). -/
def execXlpostWrite (v : Word) (s : State) : Host.Outcome State Fault Refusal :=
  onEvent s "XLPOST_WRITE" fun d =>
    if d.xlRoom then some { d with xlq := d.xlq ++ [fldN v 63 5 * 32], xlbusy := true } else some { d with xlerr := true }

/-- HOST_XLINV_COMMAND (R398). -/
def execHostXlinvCommand (s : State) : Host.Outcome State Fault Refusal :=
  onEvent s "HOST_XLINV_COMMAND" fun d =>
    match d.xlcur, d.xlq with
    | none, a :: r => some ({ d with xlq := r }.xlTake a)
    | _, _ => none

/-- HOST_XLINV_COMPLETE (R397, R398). -/
def execHostXlinvComplete (s : State) : Host.Outcome State Fault Refusal :=
  onEvent s "HOST_XLINV_COMPLETE" fun d =>
    match d.xlcur with
    | none => none
    | some (part, asid, range) => if d.invalidDone none part asid range then some d.xlNext else none

/-- XLSTAT_ERR_CLEAR (R398). -/
def execXlstatErrClear (s : State) : Host.Outcome State Fault Refusal :=
  onEvent s "XLSTAT_ERR_CLEAR" fun d => some { d with xlerr := false }

/-- IMAGE_REGISTRATION (R288, R420). -/
def execImageRegistration (pa : Word) (s : State) : Host.Outcome State Fault Refusal :=
  onEvent s "IMAGE_REGISTRATION" fun d => some (d.register (pa.toNat % 2 ^ 52))

/-- REGISTER_WRITE (R7, R8): a register that has no row of its own stores its writable fields; a write to a
reserved or read-only place is ignored, and so is one at an offset that is not a multiple of 8, of which the spec says nothing
(log 89). BAR0 is the physical function's (R405). It takes effect in arrival order (R404), and a
virtual function has no registers in Returned (R410). -/
def execRegisterWrite (fn bar off : Nat) (v : Word) (s : State) : Host.Outcome State Fault Refusal :=
  onState s "REGISTER_WRITE" fun s =>
    if 64 ≤ fn || (s.rot.sec == .returned && fn != 0) then none
    else if s.dev.hostHeld then some { s with dev := s.dev.mustWait }
    else if off % 8 ≠ 0 then (if bar = 0 || bar = 2 then some s else none)
    else if bar = 2 then (s.dev.bar2Write fn off v).map fun d => { s with dev := d }
    else if bar = 0 then (if fn = 0 then s.bar0Write off v else some s)
    else none

end Sys2Proof.Machine
end

