-- ==== Sys2Proof/Machine/Migration.lean ====
section
/-!
DEFINITION. Frames in use by transfers (R379) and the migration of pages (R380..R382).
-/

namespace Sys2Proof.Machine

/-! ### In-flight counts (R379) -/

/-- The frame, as a chunk number, behind an address of a party. -/
def Dev.frameOf (d : Dev) (who : Party) (va : Word) : List Nat :=
  match d.leafFor who.ctx va with | .ok l => [l.at va / 4096] | .error _ => []

/-- Frames that an engine operation's transfer under way reads or writes: those at its present positions. -/
def Dev.opFrames (d : Dev) (e : EngOp) : List Nat :=
  if !e.begun || e.ended then [] else
  let blocks := e.blk.flatMap fun b => match b with | .here k v _ => [k / 4096, v / 4096] | .peer .. => []
  let c := e.command
  match e.kind with
  | .copy => d.frameOf e.who e.cursor ++ d.frameOf e.who (c.dst + BitVec.ofNat 64 e.dpos)
  | .copy2d =>
    d.frameOf e.who e.cursor ++ d.frameOf e.who (c.dst + BitVec.ofNat 64 (e.pos / Nat.max c.len 1 * c.dpitch + e.dpos))
  | .xfer => d.frameOf e.who e.cursor
  | .fork => blocks ++ d.frameOf e.who e.cmd ++ d.frameOf e.who e.dst
  | _ => blocks ++ d.frameOf e.who e.table ++ d.frameOf e.who (e.into + BitVec.ofNat 64 e.pos)

/-- Frames that a migration moves: the old one's until its end, and the new one's until the switch. -/
def Mig.holds (m : Mig) (c : Nat) : Bool :=
  (m.old / 4096 ≤ c && c < (m.old + m.size) / 4096) || (!m.switched && m.new_ / 4096 ≤ c && c < (m.new_ + m.size) / 4096)

/-- The in-flight count of a frame is not zero, the migration `me` apart. -/
def Dev.inFlight (d : Dev) (me : Option Nat) (c : Nat) : Bool :=
  (d.ops.any fun p => (d.opFrames p.2).contains c) ||
    (d.migs.any fun p => some p.1 != me && p.2.holds c) ||
    d.bounce.any fun b => match d.slotLeaf b.2 with | some l => l.at (pageVa b.2.page) / 4096 == c | none => false

/-- A chunk becomes all-zero and its sectors are freed, charged to no RCB (R373..R376). -/
def Dev.zeroChunk (d : Dev) (c : Nat) : Dev :=
  match chunkHome c with
  | none => d
  | some _ => { d with mem := memPutList d.mem (c * 4096) (List.replicate 4096 0) }.setCodes c [] (d.chunk c).cls (d.chunk c).part 0 true

/-- Every chunk of a frame. -/
def Dev.zeroFrame (d : Dev) (pa size : Nat) : Dev :=
  (List.range (size / 4096)).foldl (fun d k => d.zeroChunk (pa / 4096 + k)) d

/-! ### Where a leaf stands (R359, R360) -/

/-- The nodes of a table from a root of a level down: each with its level. -/
def Dev.nodesUnder (d : Dev) : Nat → Nat → List (Nat × Nat)
  | 0, node => [(node, 0)]
  | l + 1, node =>
    (node, l + 1) :: (List.range 512).flatMap fun i =>
      let e := d.num (node + 16 * i) 16
      if e.testBit 63 && e.testBit 62 && tableOk e then d.nodesUnder l (nfld e 45 0 * 64) else []

/-- The level of a leaf entry and the partition whose tables hold it (log 25): the entry alone does not
tell the page's size. -/
def Dev.leafPlace (d : Dev) (entry : Nat) : Option (Nat × Nat) :=
  (List.range 4096).findSome? fun a =>
    let part := nfld (d.num (d.asidtb.toNat + 16 * a) 16) 69 64
    match d.asidRoot a part with
    | .error _ => none
    | .ok root =>
      ((d.nodesUnder 4 root).find? fun x => x.1 ≤ entry && entry < x.1 + 8192 && (entry - x.1) % 16 == 0 && x.2 ≤ 2).map fun x =>
        (x.2, part)

/-! ### Commands (R380, R382) -/

/-- A migration command. -/
structure MigCmd where
  comp : Nat
  new_ : Nat
  leaf : Nat
  bad  : Bool
  deriving DecidableEq, Repr

/-- The command at a physical address. -/
def Dev.migCmd (d : Dev) (pa : Nat) : MigCmd :=
  let v := d.num pa 32
  let comp := nfld v 255 192
  let new_ := nfld v 191 128
  let leaf := nfld v 127 64
  ⟨comp / 16 * 16 % 2 ^ 52, new_ % 2 ^ 52 / 4096 * 4096, leaf,
    nfld v 63 0 != 0 || comp % 16 != 0 || new_ % 4096 != 0 || 2 ^ 52 ≤ new_ || leaf % 16 != 0 || 2 ^ 52 ≤ leaf⟩

/-- A command finishes on its object. -/
def Dev.migComp (d : Dev) (comp bytes cause : Nat) : Dev := (d.compUpdatePa comp bytes cause).getD d.mustWait

/-- The migration that a command asks for, if the home arbiter accepts it (R380); `came` is the cycle of its arrival. -/
def Dev.migOf (d : Dev) (die : Nat) (c : MigCmd) (came : Nat) : Option Mig :=
  let e := d.num c.leaf 16
  if c.bad || !e.testBit 63 || e.testBit 62 || e.testBit 61 || nfld e 55 54 ≠ 0 || nfld e 53 52 = 2 then none
  else match d.leafPlace c.leaf with
    | none => none
    | some (level, part) =>
      let sum := e.testBit 51
      let slot := nfld e 45 1 * 128
      let size := leafSize level (level == 0 && d.leafC64 e)
      let cls := nfld e 53 52
      let old := if sum then nfld (d.num (slot + 64) 8) 51 12 * 4096 else nfld e 45 6 * 4096
      match d.rangeIn c.new_ size with
      | none => none
      | some m =>
        if c.new_ % size ≠ 0 || m == .devreg || (cls ≠ 0 && m.home.isNone) then none
        else some {
          die := die, leaf := c.leaf, old := old, new_ := c.new_, size := size, comp := c.comp,
          slot := if sum then some slot else none, part := part, cls := BitVec.ofNat 2 cls, copied := [], switched := false,
          failed := false, host := m == .host, at_ := came }

/-- Start a migration. -/
def Dev.migStart (d : Dev) (m : Mig) : Dev := { d with migs := d.migs ++ [(d.nextMig, m)], nextMig := d.nextMig + 1 }

/-- Stop a migration before its switch: the new frame's sectors are freed (R381, R382). -/
def Dev.migStop (d : Dev) (k : Nat) (m : Mig) (cause : Cause) : Dev :=
  let d : Dev := { d with migs := tdel k d.migs, resvs := d.resvs.filter fun r => r.who != .mig k }
  (d.zeroFrame m.new_ m.size).migComp m.comp 0 cause.num

/-- The interval in which host commands for a page lose (R382). -/
def Dev.settled (d : Dev) (leaf : Nat) : Bool := match tget leaf d.settle with | some e => d.cycle < e | none => false

/-- A page's migration runs. -/
def Dev.migRuns (d : Dev) (leaf : Nat) : Bool := d.migs.any fun p => p.2.leaf == leaf

/-- A command that waits for a page's migration arrived in a cycle and goes toward the host, or toward the device. -/
def Dev.migRival (d : Dev) (leaf came : Nat) (host : Bool) (q : Nat × Nat × Nat) : Bool :=
  q.2.2 == came && (d.migCmd q.2.1).leaf == leaf && (d.migOf q.1 (d.migCmd q.2.1) came).any fun m => m.host == host

/-- Commands toward the host that met one toward the device in their cycle lose: the one that runs and those that wait finish
with QUEUE, and the interval of R382 begins. -/
def Dev.hostLoses (d : Dev) (leaf came : Nat) : Dev :=
  let mine (p : Nat × Mig) : Bool := p.2.leaf == leaf && p.2.at_ == came && p.2.host && !p.2.switched
  let qs := d.migq.filter (d.migRival leaf came true)
  let ms := d.migs.filter mine
  if qs.isEmpty && ms.isEmpty then d else
  let d := ms.foldl (fun d p => d.migStop p.1 p.2 .queue) d
  let d := qs.foldl (fun d q => d.migComp (d.migCmd q.2.1).comp 0 Cause.queue.num) { d with migq := d.migq.filter fun q => !qs.contains q }
  { d with settle := tput leaf (d.cycle + d.migsettle) d.settle }

/-- A command that has arrived at its page's home arbiter, in a cycle, is served (R380, R382): a host's that falls in the
interval loses, and one that finds a migration of the page under way waits for it. -/
def Dev.migServe (d : Dev) (die cmd came : Nat) : Dev :=
  let c := d.migCmd cmd
  match d.migOf die c came with
  | none => d.migComp c.comp 0 Cause.protection.num
  | some m =>
    if m.host && d.settled c.leaf then d.migComp m.comp 0 Cause.queue.num
    else if d.migRuns c.leaf then { d with migq := d.migq ++ [(die, cmd, came)] }
    else d.migStart m

/-- A command reaches its page's home arbiter (R380, R382). Of commands toward the host and toward the device that arrive in
one cycle the device's stands, whether it runs or waits for another migration of the page. -/
def Dev.migTake (d : Dev) (die cmd : Nat) : Dev :=
  let c := d.migCmd cmd
  match d.migOf die c d.cycle with
  | none => d.migServe die cmd d.cycle
  | some m =>
    if m.host then
      if (d.migs.any fun p => p.2.leaf == c.leaf && p.2.at_ == d.cycle && !p.2.host) || d.migq.any (d.migRival c.leaf d.cycle false) then
        { d.migComp m.comp 0 Cause.queue.num with settle := tput c.leaf (d.cycle + d.migsettle) d.settle }
      else d.migServe die cmd d.cycle
    else (d.hostLoses c.leaf d.cycle).migServe die cmd d.cycle

/-! ### Copying and the switch (R381) -/

/-- An address of the old frame as one of the new. -/
def Mig.moved (m : Mig) (a : Nat) : Nat := if m.old ≤ a && a < m.old + m.size then m.new_ + (a - m.old) else a

/-- A buffered effect forwarded to the new frame. -/
def Eff.moved (m : Mig) : Eff → Eff
  | .store bytes cls side => .store (bytes.map fun c => (m.moved c.1, c.2)) cls side
  | .atomic pa size cls side => .atomic (m.moved pa) size cls side
  | .spawn e n a c pa => .spawn e n a c (m.moved pa)
  | .engine k c t o pa sel => .engine k c t o (m.moved pa) sel
  | .task r pa => .task r (m.moved pa)
  | .bar va pa n => .bar va (m.moved pa) n
  | .waitc va pa => .waitc va (m.moved pa)
  | e => e

/-- A block that an engine works on, forwarded to the new frame. -/
def BlkAt.moved (m : Mig) : BlkAt → BlkAt
  | .here k v side => .here (m.moved k) (m.moved v) (m.moved side)
  | b => b

/-- Accesses already translated to the old frame are forwarded to the new one, and so is all that the device keeps by an
address in it: task records, blocks of engines, and frames that the Ladle has still to reclaim. -/
def Dev.forward (d : Dev) (m : Mig) : Dev :=
  { d with
    insts := d.insts.map fun p => (p.1, { p.2 with
      effs := p.2.effs.map fun e => (e.1, e.2.moved m)
      exit := match p.2.exit with | some (.tret f pa) => some (.tret f (m.moved pa)) | x => x })
    ops := d.ops.map fun p => (p.1, { p.2 with blk := p.2.blk.map fun b => b.moved m })
    recs := d.recs.map fun r => { r with pa := m.moved r.pa }
    nodes := d.nodes.foldl (fun t p => tput (m.moved p.1) p.2 t) []
    names := d.names.foldl (fun t p => tput (m.moved p.1) p.2 t) []
    pools := d.pools.map fun p => (p.1, { p.2 with hcPass := p.2.hcPass.map fun q => (q.1, m.moved q.2.1, q.2.2) })
    holds := d.holds.map fun h => { h with pa := m.moved h.pa }
    threads := d.threads.map fun p => (p.1, { p.2 with wpa := m.moved p.2.wpa }) }

/-- The entry of a migrated page: its ADDR, unless a summary slot holds it, and its TIER (log 26). -/
def Dev.entryAfter (d : Dev) (m : Mig) : Nat :=
  let e := d.num m.leaf 8
  let tier := match d.memAt m.new_ with | some x => x.tier | none => 0
  let e := e - nfld e 47 46 * 2 ^ 46 + tier * 2 ^ 46
  if m.slot.isSome then e else e - nfld e 45 6 * 2 ^ 6 + m.new_ / 4096 * 2 ^ 6

/-- The switch: NEWF into the leaf or its summary slot, and every cached translation removed. -/
def Dev.migSwitch (d : Dev) (k : Nat) (m : Mig) : Dev :=
  let d := match m.slot with
    | some s => d.agentWrite (s + 64) (bytesOfNat 8 (nfld (d.num (s + 64) 8) 11 0 + m.new_))
    | none => d
  let d := (d.agentWrite m.leaf (bytesOfNat 8 (d.entryAfter m))).dropLeaf m.leaf
  (Dev.forward { d with migs := tmod k (fun m => { m with switched := true }) d.migs } m).wake

/-- A line of the old frame has sectors reserved by an instance or asked for: the switch comes after them. -/
def Dev.frameAsked (d : Dev) (m : Mig) : Bool :=
  let inOld (c : Nat) : Bool := m.old / 4096 ≤ c && c < (m.old + m.size) / 4096
  (d.insts.any fun p => p.2.resv.any fun r => inOld (r.1 / 64)) || (d.ops.any fun p => p.2.resv.any fun r => inOld r.1) ||
    d.resvs.any fun r => inOld r.chunk

/-- The lowest line of a migration that has not been copied. -/
def Mig.nextLine (m : Mig) : Option Nat := (List.range (m.size / 64)).find? fun i => !m.copied.contains i

/-- The home copies a line, or switches once every line is copied. -/
def Dev.migLine (d : Dev) (k : Nat) (m : Mig) : Option Dev :=
  if m.switched || d.claims (.mig k) then none else
  let turn (d : Dev) (m : Mig) : Dev := if m.nextLine.isNone && !d.frameAsked m then d.migSwitch k m else d
  match m.nextLine with
  | none => if d.frameAsked m then none else some (d.migSwitch k m)
  | some i =>
    match d.copyNeed m i with
    | some n => some (d.queueResv m.part 0 ((m.new_ + 64 * i) / 4096) n (.mig k) 0 i)
    | none =>
      let d := d.copyLine k m i
      some (match tget k d.migs with | some m => turn d m | none => d)

/-- Commands that wait for a page are served in order, until one of them runs. -/
def Dev.migServeAll (d : Dev) (leaf : Nat) : Nat → Dev
  | 0 => d
  | n + 1 =>
    if d.migRuns leaf then d else
    match d.migq.find? fun q => (d.migCmd q.2.1).leaf == leaf with
    | none => d
    | some q => (Dev.migServe { d with migq := d.migq.erase q } q.1 q.2.1 q.2.2).migServeAll leaf n

/-- A page's migration has ended: commands that wait for it come next (R380). -/
def Dev.migNext (d : Dev) (leaf : Nat) : Dev := d.migServeAll leaf d.migq.length

/-! ### The events -/

/-- MIGRATION_POST (R380, R382): a write of MIGPOST of a die, in the physical function's BAR0 or the device
register window. Two commands toward the host and toward the device meet in one cycle when they are posted by
moves next to each other. -/
def execMigrationPost (die cmd : Nat) (s : State) : Host.Outcome State Fault Refusal :=
  onEvent s "MIGRATION_POST" fun d => if 8 ≤ die then none else some (d.migTake die (cmd % 2 ^ 52))

/-- MIGRATION_LINE_COPY (R381). -/
def execMigrationLineCopy (mig : Nat) (s : State) : Host.Outcome State Fault Refusal :=
  onEvent s "MIGRATION_LINE_COPY" fun d =>
    match tget mig d.migs with
    | none => none
    | some m => d.migLine mig m

/-- MIGRATION_FINISH (R381): after the switch, once nothing transfers to or from the old frame. -/
def execMigrationFinish (mig : Nat) (s : State) : Host.Outcome State Fault Refusal :=
  onEvent s "MIGRATION_FINISH" fun d =>
    match tget mig d.migs with
    | none => none
    | some m =>
      if !m.switched || ((List.range (m.size / 4096)).any fun k => d.inFlight (some mig) (m.old / 4096 + k)) then none
      else
        let d : Dev := { d with migs := tdel mig d.migs }
        some (((d.zeroFrame m.old m.size).migComp m.comp m.size 0).migNext m.leaf)

/-- MIGSETTLE_EXPIRY (R382). -/
def execMigsettleExpiry (page : Nat) (s : State) : Host.Outcome State Fault Refusal :=
  onEvent s "MIGSETTLE_EXPIRY" fun d =>
    match tget page d.settle with
    | none => none
    | some e => if e ≤ d.cycle then some { d with settle := tdel page d.settle } else none

end Sys2Proof.Machine
end

