-- ==== Sys2Proof/Machine/Ladle.lean ====
section
/-!
DEFINITION. Grants of sectors and the Ladle (R373..R377), the decode watchdog (R372), merges (R378), page
walks (R366) and the home and pool registers (R371).
-/

namespace Sys2Proof.Machine

/-! ### Grants (R373, R374) -/

/-- Sectors are granted to a chunk: held by the pool and reserved in the chunk. -/
def Dev.giveSectors (d : Dev) (r : Resv) : Dev :=
  let d := d.moveSectors r.part r.home r.rcb r.need 0
  let k := d.chunk r.chunk
  { d with chunks := tput r.chunk { k with resv := k.resv + r.need, part := if k.secs = 0 && k.resv = 0 then r.part else k.part } d.chunks }

/-- Sectors granted to an engine, whose write comes at its next step: the growth that they cover stays in the chunk's
projected size until then (R373). -/
def Dev.giveEngine (d : Dev) (r : Resv) (op : Nat) : Dev :=
  let d := d.giveSectors r
  let k := d.chunk r.chunk
  let grow := (k.secs + k.resv - 1) * 512 + 1 - (payloadBytes k.full + k.grow)
  (d.putChunk r.chunk { k with grow := k.grow + grow }).modOp op fun e => { e with resv := e.resv ++ [(r.chunk, r.need, grow)] }

/-- What a reservation needs by now: the chunk of a merge or of a migration's line may have changed since it was asked
for. -/
def Dev.needNow (d : Dev) (r : Resv) : Nat :=
  match r.who with
  | .pager die slot =>
    (match tget (die, slot) d.bounce with
     | none => r.need
     | some b =>
       match d.slotLeaf b with
       | none => r.need
       | some l => ((tget r.chunk (d.needs (b.cells.map fun c => (l.at (pageVa b.page) + c.1, c.2)) l.cls)).getD r.need))
  | .mig k =>
    (match tget k d.migs with
     | none => r.need
     | some m => d.lineNeed ((m.new_ + 64 * r.idx) / 64) m.cls (d.bytes (m.old + 64 * r.idx) 64))
  | _ => r.need

/-- An instance's reservation of a chunk takes the sectors it waited for. -/
def fillResv (chunk need : Nat) : List (Nat × Nat × Nat) → List (Nat × Nat × Nat)
  | [] => []
  | (ln, more, n) :: r => if ln / 64 = chunk && n = 0 then (ln, more, need) :: r else (ln, more, n) :: fillResv chunk need r

/-- The oldest reservation is granted to the party that waits. -/
def Dev.grant (d : Dev) (r : Resv) : Option Dev :=
  let d : Dev := { d with resvs := d.resvs.erase r }
  match r.who with
  | .inst i => some ((d.giveSectors r).modInst i fun x => { x with resv := fillResv r.chunk r.need x.resv })
  | .engine op => some (d.giveEngine r op)
  | .host who =>
    (match d.waitingOf who with
     | none => some d
     | some w => Dev.redo { d with pend := d.pend.erase w } w)
  | .pager die slot =>
    (match tget (die, slot) d.bounce with
     | none => some d
     | some b => (match d.slotLeaf b with | some l => some (d.mergeInto die slot b l) | none => some d))
  | .mig k =>
    (match tget k d.migs with
     | none => some d
     | some m => some (if m.copied.contains r.idx then d else d.copyLine k m r.idx))

/-! ### The Ladle (R374..R377) -/

/-- The zero chunks of a pool. -/
def Dev.zerosOf (d : Dev) (home part : Nat) : List Nat := ((tget home d.zeros).getD []).filter fun c => (d.chunk c).part == part

/-- A chunk leaves its home's zero list. -/
def Dev.dropZero (d : Dev) (home c : Nat) : Dev := { d with zeros := tput home (((tget home d.zeros).getD []).erase c) d.zeros }

/-- ZERO: the first of the pool's zero chunks that no transfer uses is checked again and freed. -/
def Dev.ladleZero (d : Dev) (home part : Nat) : Option Dev :=
  let p := d.pool part home
  let cs := d.zerosOf home part
  if cs.isEmpty then some (d.setPool part home { p with lstate := 2 })
  else match cs.find? fun c => !d.inFlight none c with
    | none => none
    | some c =>
      let d := d.dropZero home c
      let k := d.chunk c
      if k.cls ≠ 1 && k.secs ≠ 0 && (d.bytes (c * 4096) 4096).all (· == 0) then some (d.zeroChunk c) else some d

/-- The ASID under which the Ladle records what it finds wrong: the partition's first one (log 27). -/
def Dev.ladleRecord (d : Dev) (part : Nat) (addr : Nat) : Dev := d.agentRecord part (d.func part).abas .queue (BitVec.ofNat 64 addr)

/-- HEAD moves over the entries that are consumed: each by its number in the list, HEAD's own first (R375, R379). -/
def headOver : Nat → Nat → List Nat → Nat × List Nat
  | 0, head, done => (head, done)
  | n + 1, head, done => if done.contains head then headOver n ((head + 1) % 2 ^ 32) (done.erase head) else (head, done)

/-- The entries of a list from HEAD to TAIL that are neither consumed nor passed over, in order. -/
def entriesLeft (head tail : Nat) (done pass : List Nat) : List Nat :=
  ((List.range ((tail + 2 ^ 32 - head) % 2 ^ 32)).map fun k => (head + k) % 2 ^ 32).filter fun k =>
    !done.contains k && !pass.contains k

/-- A balloon entry is consumed. -/
def Dev.balloonDone (d : Dev) (part home k : Nat) : Dev :=
  let p := d.pool part home
  let x := headOver (p.blDone.length + 1) p.blHead (k :: p.blDone)
  d.setPool part home { p with blHead := x.1, blDone := x.2, blPass := p.blPass.erase k }

/-- BALLOON: the next entry is consumed (R375). One whose chunk a transfer uses is passed over and taken again after
every other (R379). -/
def Dev.ladleBalloon (d : Dev) (home part : Nat) : Option Dev :=
  let p := d.pool part home
  let word (k : Nat) : Nat := d.num (p.blBase + 8 * k) 8
  if p.blHead = p.blTail then some (d.setPool part home { p with lstate := 3 })
  else match entriesLeft p.blHead p.blTail p.blDone p.blPass with
    | k :: _ =>
      let v := word k
      if nfld v 63 52 ≠ 0 || nfld v 11 0 ≠ 0 || ((d.memAt v).bind Mem.home) ≠ some home then
        some ((d.ladleRecord part (p.blBase + 8 * k)).balloonDone part home k)
      else if d.inFlight none (v / 4096) then some (d.setPool part home { p with blPass := p.blPass ++ [k] })
      else some ((d.zeroChunk (v / 4096)).balloonDone part home k)
    | [] =>
      match p.blPass.find? fun k => !d.inFlight none (word k / 4096) with
      | none => none
      | some k => some ((d.zeroChunk (word k / 4096)).balloonDone part home k)

/-- The frame and size of the page that a leaf entry names, with R376's checks passed. -/
def Dev.hostCopyFrame (d : Dev) (leaf : Nat) : Option (Nat × Nat) :=
  let e := d.num leaf 16
  if !e.testBit 63 || e.testBit 62 || e.testBit 61 || nfld e 55 54 ≠ 0 || !e.testBit 48 || e.testBit 49 then none
  else (d.leafPlace leaf).map fun x =>
    (if e.testBit 51 then nfld (d.num (nfld e 45 1 * 128 + 64) 8) 51 12 * 4096 else nfld e 45 6 * 4096,
      leafSize x.1 (x.1 == 0 && d.leafC64 e))

/-- Nothing holds back the reclaim of a frame (R376 step 3): no load translated by the leaf at `leaf` is outstanding, and
no transfer uses a frame of the page. -/
def Dev.pageQuiet (d : Dev) (leaf pa size : Nat) : Bool :=
  !(d.insts.any fun p => p.2.reqs.any fun q => !q.back && q.leafs.contains leaf) &&
    (List.range (size / 4096)).all fun k => !d.inFlight none (pa / 4096 + k)

/-- A host-copy entry is consumed. -/
def Dev.hostCopyDone (d : Dev) (part home k : Nat) : Dev :=
  let p := d.pool part home
  let x := headOver (p.hcDone.length + 1) p.hcHead (k :: p.hcDone)
  d.setPool part home { p with hcHead := x.1, hcDone := x.2, hcPass := p.hcPass.filter fun q => q.1 != k }

/-- HOST: the next host-copy entry (R376). NR is set and the page's translations are removed at once; a page that is then
still in use is passed over, and reclaimed after every other entry (R379). An entry with a bit outside [51:4] is consumed
with nothing reclaimed and nothing reported (log 66). -/
def Dev.ladleHost (d : Dev) (home part : Nat) : Option Dev :=
  let p := d.pool part home
  let word (k : Nat) : Nat := d.num (p.hcBase + 8 * k) 8
  if p.hcHead = p.hcTail then some (d.setPool part home { p with lstate := 4 })
  else match entriesLeft p.hcHead p.hcTail p.hcDone (p.hcPass.map (·.1)) with
    | k :: _ =>
      let v := word k
      if nfld v 63 52 ≠ 0 || nfld v 3 0 ≠ 0 then some (d.hostCopyDone part home k)
      else match d.hostCopyFrame v with
        | none => some (d.hostCopyDone part home k)
        | some (pa, size) =>
          let d := (d.agentWrite (v + 7) [BitVec.ofNat 8 (d.num (v + 7) 1 ||| 2 ^ 5)]).dropLeaf v
          if d.pageQuiet v pa size then some ((d.zeroFrame pa size).hostCopyDone part home k)
          else
            let p := d.pool part home
            some (d.setPool part home { p with hcPass := p.hcPass ++ [(k, pa, size)] })
    | [] =>
      match p.hcPass.find? fun q => d.pageQuiet (word q.1) q.2.1 q.2.2 with
      | none => none
      | some (k, pa, size) => some ((d.zeroFrame pa size).hostCopyDone part home k)

/-- A waiting reservation fails (R377). -/
def Dev.failResv (d : Dev) (r : Resv) : Dev :=
  let d : Dev := { d with resvs := d.resvs.erase r }
  match r.who with
  | .inst i => d.outOfSpace i r.part r.home r.idx r.va
  | .engine op =>
    let d := d.countFail r.part r.chunk
    (match tget op d.ops with
     | some e => if e.kind = .fork then d.forkStop op 0 .outOfSpace r.va else d.engStop op 0 .outOfSpace r.va
     | none => d)
  | .host who => (d.countFail r.part r.chunk).dropWrite who
  | .pager die slot =>
    let d := d.countFail r.part r.chunk
    (match tget (die, slot) d.bounce with | some b => d.mergeFail b | none => d)
  | .mig k =>
    let d := d.countFail r.part r.chunk
    (match tget k d.migs with | some m => (d.migStop k m .outOfSpace).migNext m.leaf | none => d)

/-- The needs of the reservations that wait, as they are by now. -/
def Dev.freshNeeds (d : Dev) : Dev := { d with resvs := d.resvs.map fun r => { r with need := d.needNow r } }

/-- A Ladle at rest leaves IDLE where a reservation waits and the pool has less than its mark and the waiting needs, whatever
took the sectors (R374). -/
def Dev.callLadles (d : Dev) : Dev :=
  d.resvs.foldl (fun d r =>
    if (d.pool r.part r.home).free < (d.pool r.part r.home).low + d.waitNeed r.part r.home then d.wakeLadle r.part r.home true else d) d

/-- The Ladle's state of a pool, for an event of one of its states. -/
def Dev.ladleIn (d : Dev) (home part st : Nat) (k : Dev → Option Dev) : Option Dev :=
  if 14 ≤ home || (d.pool part home).lstate ≠ st then none else (k d).map fun d => d.ladleRest part home

/-! ### The events -/

/-- PAGE_WALK (R365, R366): a die's walker makes a translation for an access. -/
def execPageWalk (die asid : Nat) (va : Word) (wr : Bool) (s : State) : Host.Outcome State Fault Refusal :=
  onEvent s "PAGE_WALK" fun d =>
    if 8 < die || 4096 ≤ asid then none else
    let part := nfld (d.num (d.asidtb.toNat + 16 * asid) 16) 69 64
    some (d.translate ⟨asid, part, die, true, none, none, false⟩ va (if wr then .write else .read)).1

/-- RESERVATION_GRANT (R374): the oldest reservation of a pool, when its need fits. One that its budget no longer allows,
since another was granted meanwhile, fails (R52, R373). -/
def execReservationGrant (home part : Nat) (s : State) : Host.Outcome State Fault Refusal :=
  onEvent s "RESERVATION_GRANT" fun d =>
    match d.resvs.find? fun r => r.home == home && r.part == part with
    | none => none
    | some r =>
      let need := d.needNow r
      if need ≠ 0 && r.rcb ≠ 0 && !d.sectorBudget r.rcb need then some ((d.failResv r).ladleRest part home)
      else if (d.pool part home).free < need then none
      else (Dev.grant { d with resvs := d.resvs.map fun x => if x = r then { r with need := need } else x } { r with need := need }).map fun d =>
        (d.wakeLadle part home false).ladleRest part home

/-- LADLE_ZERO (R374). -/
def execLadleZero (home part : Nat) (s : State) : Host.Outcome State Fault Refusal :=
  onEvent s "LADLE_ZERO" fun d => d.ladleIn home part 1 fun d => d.ladleZero home part

/-- LADLE_BALLOON (R375). -/
def execLadleBalloon (home part : Nat) (s : State) : Host.Outcome State Fault Refusal :=
  onEvent s "LADLE_BALLOON" fun d => d.ladleIn home part 2 fun d => d.ladleBalloon home part

/-- LADLE_HOST_COPY (R376). -/
def execLadleHostCopy (home part : Nat) (s : State) : Host.Outcome State Fault Refusal :=
  onEvent s "LADLE_HOST_COPY" fun d => d.ladleIn home part 3 fun d => d.ladleHost home part

/-- LADLE_FAIL (R377): every waiting reservation of the pool fails, in arrival order. -/
def execLadleFail (home part : Nat) (s : State) : Host.Outcome State Fault Refusal :=
  onEvent s "LADLE_FAIL" fun d => d.ladleIn home part 4 fun d =>
    let rs := d.resvs.filter fun r => r.part == part && r.home == home
    let d := rs.foldl (fun d r => if d.resvs.contains r then d.failResv r else d) d
    some (d.setPool part home { d.pool part home with lstate := 0 })

/-- DECODE_WATCHDOG (R372): a chunk that holds sectors can no longer be decoded. -/
def execDecodeWatchdog (chunk : Nat) (s : State) : Host.Outcome State Fault Refusal :=
  onEvent s "DECODE_WATCHDOG" fun d =>
    let k := d.chunk chunk
    if (chunkHome chunk).isNone || k.secs = 0 || k.cut then none
    else some { d with chunks := tput chunk { k with cut := true } d.chunks }

/-- PAGER_MERGE (R378). -/
def execPagerMerge (die slot : Nat) (s : State) : Host.Outcome State Fault Refusal :=
  onEvent s "PAGER_MERGE" fun d => d.mergeSlot die slot

/-- HPRES_WRITE (R371). -/
def execHpresWrite (home : Nat) (v : Word) (s : State) : Host.Outcome State Fault Refusal :=
  onEvent s "HPRES_WRITE" fun d =>
    if 14 ≤ home then none else
    let n := fldN v 31 0
    let used := (d.pools.filter fun p => p.1.2 == home).any fun p => p.2.held != 0
    if used || Nat.min ((homeWindow home).2 / 4096) (Config.sectors home / 4) < n then some d
    else some { d with pres := tput home n d.pres }

/-- PQUOTA_WRITE (R371). -/
def execPquotaWrite (fn home : Nat) (v : Word) (s : State) : Host.Outcome State Fault Refusal :=
  onEvent s "PQUOTA_WRITE" fun d =>
    if 64 ≤ fn || 14 ≤ home then none else
    let n := fldN v 32 0
    let p := d.pool fn home
    let others := ((d.pools.filter fun q => q.1.2 == home && q.1.1 != fn).map fun q => q.2.quota).sum
    if Config.sectors home < others + n || n < p.held then some d else some (d.setPool fn home { p with quota := n })

/-- BLIDX_WRITE (R371): HEAD is taken only while it equals TAIL. -/
def execBlidxWrite (fn home : Nat) (v : Word) (s : State) : Host.Outcome State Fault Refusal :=
  onEvent s "BLIDX_WRITE" fun d =>
    if 64 ≤ fn || 14 ≤ home then none else
    let p := d.pool fn home
    some (d.setPool fn home { p with blTail := fldN v 63 32, blHead := if p.blHead = p.blTail then fldN v 31 0 else p.blHead })

/-- HCIDX_WRITE (R371): HEAD is taken only while it equals TAIL. -/
def execHcidxWrite (fn home : Nat) (v : Word) (s : State) : Host.Outcome State Fault Refusal :=
  onEvent s "HCIDX_WRITE" fun d =>
    if 64 ≤ fn || 14 ≤ home then none else
    let p := d.pool fn home
    some (d.setPool fn home { p with hcTail := fldN v 63 32, hcHead := if p.hcHead = p.hcTail then fldN v 31 0 else p.hcHead })

end Sys2Proof.Machine
end

