-- ==== Sys2Proof/Machine/Streams.lean ====
section
/-!
DEFINITION. Stream instructions (R135..R146).
-/

namespace Sys2Proof.Machine

/-- Trap STREAM_BEHIND at the span address. -/
def Dev.behind (d : Dev) (c : Fx) (a : Word) : Dev := d.trapAt c .streamBehind a

/-- SRD and SRDV (R138): `n` is 0 for the element size. -/
def Dev.srdFire (d : Dev) (c : Fx) (n : Nat) (out : List Byte → Token) : Dev :=
  let a := c.a.val
  d.streamPos c (fun d k => d.streamPre c a .read (some n) (n == 0) .reader k)
    (fun ds j s => resolvePos a (c.x.cursorRef ds j s))
    (fun d _ j s q k => if q < (s.reader j).rel then d.behind c a else k d)
    (fun d ds j s q =>
      let m := if n = 0 then s.esize else n
      d.streamWait c (.hwm ds (q + m)) (q + m ≤ s.hwm) fun d =>
        if q < (s.reader j).rel then d.behind c a else d.streamRead c ds j s a q m out)
    (fun d _ _ _ => d.behind c a)

/-- SWR and SWRV (R139): `runs` and `cells` are what is written at a position. A write waits for LIMIT, so in the first
program prod 12 retires only after rdr 4 has released its frame, though R34 calls the earlier retirement allowed (log 63). -/
def Dev.swrFire (d : Dev) (c : Fx) (n : Nat) (runs : Nat → Nat → List (Nat × Nat)) (cells : Nat → Nat → List (Nat × Byte)) : Dev :=
  let a := c.a.val
  d.streamPos c (fun d k => d.streamPre c a .write (some n) (n == 0) .producer k)
    (fun _ _ s => resolvePos a s.hwm)
    (fun d _ _ s q k => if q < s.tail then d.behind c a else k d)
    (fun d ds _ s q =>
      let m := if n = 0 then s.esize else n
      d.streamWait c (.limit ds (q + m)) (q + m ≤ d.limitOf ds s) fun d => d.streamWrite c ds s a q (runs q m) (cells q m))
    (fun d _ _ _ => d.behind c a)

/-- SRD (R138): reads an element at the address, waiting until it is published. -/
def execSrd (p : Pred) (t1 : Tgt) (t2 : Tgt) (s : State) : Res :=
  onFire s fun d c => d.ordinaryQ c p .all [t1, t2] fun d =>
    d.srdFire c 0 fun bs => scalarTok (BitVec.ofNat 64 (natOfBytes bs))

/-- SRDV (R138): reads 64 bytes as a token. -/
def execSrdv (p : Pred) (t1 : Tgt) (t2 : Tgt) (s : State) : Res :=
  onFire s fun d c => d.ordinaryQ c p .all [t1, t2] fun d =>
    d.srdFire c 64 fun bs => tokenOfBytes bs 0 0

/-- SWR (R139): writes an element at commit, waiting for room. -/
def execSwr (p : Pred) (s : State) : Res :=
  onFire s fun d c => d.once c fun d => d.sink c p .all [] fun d =>
    d.swrFire c 0 (fun q m => [(q, m)]) fun q m => cellsAt q (bytesOfNat m c.b.val.toNat)

/-- SWRV (R139): writes a token's valid lanes at commit. -/
def execSwrv (p : Pred) (s : State) : Res :=
  onFire s fun d c => d.once c fun d => d.sink c p ⟨true, false, true⟩ [] fun d =>
    d.swrFire c 64 (fun q _ => laneRuns c.b q) fun q _ => laneCells c.b q

/-- SPUB (R140): publishes up to a position at commit. -/
def execSpub (p : Pred) (s : State) : Res :=
  onFire s fun d c => d.sink c p .all [] fun d =>
    let a := c.a.val
    d.streamPos c (fun d k => d.streamPre c a .write (some 0) true .producer k) (fun _ _ s => resolvePos a s.hwm)
      (fun d _ _ _ _ k => k (d.modInst c.i fun x => { x with marks := { x.marks with rel := true, scope := .sys } }))
      (fun d ds _ s q => d.streamWait c (.limit ds q) (q ≤ d.limitOf ds s) fun d => d.buffer c (.spub ds q))
      (fun d _ _ _ => d.modInst c.i fun x => { x with marks := { x.marks with rel := true, scope := .sys } })

/-- SREL (R141): releases a reader up to a position at commit. -/
def execSrel (p : Pred) (s : State) : Res :=
  onFire s fun d c => d.sink c p .all [] fun d =>
    let a := c.a.val
    d.streamPos c (fun d k => d.streamPre c a .read (some 0) true .reader k)
      (fun ds j s => resolvePos a (c.x.cursorRef ds j s))
      (fun d _ _ _ _ k => k (d.modInst c.i fun x => { x with marks := { x.marks with rel := true, scope := .sys } }))
      (fun d ds j s q => d.streamWait c (.hwm ds q) (q ≤ s.hwm) fun d => d.buffer c (.srel ds j q))
      (fun d _ _ _ => d.modInst c.i fun x => { x with marks := { x.marks with rel := true, scope := .sys } })

/-- SREW (R142): moves a reader's cursor at commit. -/
def execSrew (p : Pred) (s : State) : Res :=
  onFire s fun d c => d.sink c p .all [] fun d =>
    let a := c.a.val
    d.streamPos c (fun d k => d.streamPre c a .read (some 0) true .reader k)
      (fun ds j s => resolvePos a (c.x.cursorRef ds j s))
      (fun d _ j s q k => if q < (s.reader j).rel then d.behind c a else k d)
      (fun d ds j s q => d.streamWait c (.hwm ds q) (q ≤ s.hwm) fun d => d.buffer c (.srew ds j q))
      (fun d _ _ _ => d.behind c a)

/-- SPOS (R143): the high-water mark as it stands. -/
def execSpos (p : Pred) (t1 : Tgt) (t2 : Tgt) (s : State) : Res :=
  onFire s fun d c => d.ordinaryQ c p .all [t1, t2] fun d =>
    d.streamPre c c.a.val .read none false .any_ fun d _ _ s => d.sendQ c [t1, t2] (scalarTok (BitVec.ofNat 64 s.hwm))

/-- SJOIN (R145): claims a reader or the producer role; the join is made at commit. -/
def execSjoin (p : Pred) (role : JoinRole) (s : State) : Res :=
  onFire s fun d c => d.sink c p .all [] fun d =>
    let a := c.a.val
    match role with
    | .rdr =>
      d.streamPos c (fun d k => d.streamPre c a .read (some 0) true .any_ k) (fun _ _ s => resolvePos a s.tail)
        (fun d ds j s q k =>
          if (s.reader j).joined || d.claimed ds j then d.trapAt c .protection a
          else if q < s.tail then d.behind c a
          else k (d.claim c ds j))
        (fun d ds j s q => d.streamWait c (.hwm ds q) (q ≤ s.hwm) fun d => d.buffer c (.sjoinR ds j q))
        (fun d ds j s => if (s.reader j).joined || d.claimed ds j then d.trapAt c .protection a else d.behind c a)
    | .pro =>
      d.streamPre c a .write (some 0) true .producer fun d ds _ s =>
        if s.pj || s.hpro || d.claimed ds 8 then d.trapAt c .protection a
        else (d.claim c ds 8).buffer c (.sjoinP ds)

/-- SLEAVE (R146): a reader or the producer leaves at commit. -/
def execSleave (p : Pred) (s : State) : Res :=
  onFire s fun d c => d.sink c p .all [] fun d =>
    d.streamPre c c.a.val .read none false .any_ fun d ds j s =>
      if !(s.reader j).joined && !s.pj then d.trapAt c .protection c.a.val else d.buffer c (.sleave ds j)


end Sys2Proof.Machine
end

