-- ==== Sys2Proof/Machine/Commit.lean ====
section
/-!
DEFINITION. The commit point and the commit of an instance (R39..R41, R91, R144, R202, R269), waits and
replies (R137, R183, R187, R209), contexts (R37), retirement (R48) and traps being taken (R385).
-/

namespace Sys2Proof.Machine

/-- The work of the XLINVs of an instance is complete (R397). -/
def Dev.xlinvReady (d : Dev) (i : Nat) (x : Inst) (part : Nat) : Bool :=
  x.effs.all fun e => match e.2 with | .xlinv a range => d.invalidDone (some i) part a range | _ => true

/-- The instance is at its commit point: ready, its XLINVs done, and, in a TDS region, at its latency (R241). -/
def Dev.commitable (d : Dev) (i : Nat) (x : Inst) (r : Region) (t : Thread) : Bool :=
  d.ready i x r.image && d.xlinvReady i x t.part && (!r.tds || x.at_ + r.image.lat ≤ d.cycle)

/-! ### The parts of a commit (R40, R41, R144, R172, R202, R269) -/

/-- A committing instance: its number, the instance as it stood, its thread, region and image. -/
structure Done where
  i   : Nat
  x   : Inst
  tid : Nat
  t   : Thread
  r   : Region
  deriving DecidableEq, Repr

/-- Effects in index order. -/
def Inst.sorted (x : Inst) : List (Nat × Eff) := sortBy (·.1) x.effs

/-- Registers and FLAGS (R40, R269). -/
def Done.registers (c : Done) (t : Thread) : Thread :=
  let es := c.x.sorted
  let fl := (es.filterMap fun e => match e.2 with | .crwr 2 v => some v | _ => none).getLast?
  { t with
    g := es.foldl (fun (g : Vector Word 16) e => match e.2 with | .gw n v => g.setIfInBounds n v | _ => g) t.g
    v := es.foldl (fun (g : Vector Token 4) e => match e.2 with | .vw n v => g.setIfInBounds n v | _ => g) t.v
    flags := flagsAfter c.x.cr.flags fl c.x.raised }

/-- A region that the instance begins: its thread's earlier one ends, and its records belong to the new one (R189, R202). -/
def Dev.beginRegion (d : Dev) (c : Done) : Dev :=
  if !c.x.marks.acq && !c.x.marks.own then d else
  let d := d.endRegion c.tid .sys
  match d.thread c.tid with
  | none => d
  | some t => { d with recs := d.recs.map fun r => if r.inst = some c.i then { r with owner := .region c.tid t.seq } else r }

/-- The instance's records become committed, and a release ends the region (R202, R208). -/
def Dev.commitRecs (d : Dev) (c : Done) : Dev :=
  let d : Dev := { d with recs := d.recs.map fun r => if r.inst = some c.i then { r with inst := none, stamp := d.commits } else r }
  let m := c.x.marks
  if m.own || m.waitc || m.halt then d.endRegion c.tid .sys
  else if m.rel then d.endRegion c.tid m.scope c.x.reg else d

/-- The words that the instance's atomics hold become final (R187). -/
def Dev.commitHolds (d : Dev) (c : Done) : Dev :=
  (d.holds.filter fun h => h.inst == c.i).foldl (fun d h =>
    let e := c.x.effs.findSome? fun e => match e.2 with
      | .atomic pa size cls side => if pa = h.pa && size = h.size then some (cls, side) else none
      | _ => none
    d.writeLeaf (cellsAt h.pa (bytesOfNat h.size h.cur.toNat)) (e.getD (1, none)).1 (e.getD (1, none)).2 c.t.part c.t.rcb) d

/-- MIGPOST in the device register window (R380): a doubleword stored by a thread of a system RCB (log 11). -/
def migCell (cells : List (Nat × Byte)) : Option (Nat × Nat) :=
  match cells with
  | c :: _ =>
    let off := c.1 - 0xB0000000000
    if 0xB0000050000 ≤ c.1 && off < 0x50040 && off % 8 = 0 && cells.length = 8 then
      some ((off - 0x50000) / 8, natOfBytes (cells.map (·.2)))
    else none
  | [] => none

/-- Stores in index order (R172). A store to the device register window acts on no memory. -/
def Dev.commitStores (d : Dev) (c : Done) : Dev :=
  c.x.sorted.foldl (fun d e =>
    match e.2 with
    | .store cells cls side =>
      if cells.any fun x => isWindow x.1 then
        (match migCell cells with
         | some (die, v) => if c.x.cr.sys then d.migTake die (v % 2 ^ 52) else d
         | none => d)
      else d.writeLeaf cells cls side c.t.part c.t.rcb
    | _ => d) d

/-- Control registers: the highest index of each register wins (R392). -/
def Dev.commitCrs (d : Dev) (c : Done) : Dev :=
  let ws := c.x.sorted.filterMap fun e => match e.2 with | .crwr n v => some (n, v) | _ => none
  (ws.map (·.1)).eraseDups.foldl (fun d n =>
    match (ws.filter fun w => w.1 == n).getLast? with
    | some w => d.crWrite c.t n w.2
    | none => d) d

/-- The class and side entry under which the thread writes an address. -/
def Dev.clsFor (d : Dev) (c : Done) (va : Word) : BitVec 2 × Option Nat :=
  match d.leafFor (d.ctxOf c.t none) va with | .ok l => (l.cls, l.sideOf) | .error _ => (1, none)

/-- A small update of the device's own under the thread's leaf; charged to no RCB (R373, log 42). -/
def Dev.ownWrite (d : Dev) (c : Done) (va : Word) (pa : Nat) (bs : List Byte) : Dev :=
  let k := d.clsFor c va
  (d.writeLeaf (cellsAt pa bs) k.1 k.2 c.t.part 0).wake

/-- BAR's barrier word (R107): whether its round is complete; the threads parked on it go on. -/
def Dev.barrier (d : Dev) (c : Done) (va : Word) (pa n : Nat) : Dev × Bool :=
  let v := d.num pa 8
  let cnt := nfld v 31 0 + 1
  if n ≤ cnt then
    let d := d.ownWrite c va pa (bytesOfNat 8 ((nfld v 63 32 + 1) % 2 ^ 32 * 2 ^ 32))
    ((d.threads.filter fun p => p.2.st == .parkB && p.2.wpa == pa).foldl (fun d p => d.enqueue p.1) d, true)
  else (d.ownWrite c va pa (bytesOfNat 8 (nfld v 63 32 * 2 ^ 32 + cnt % 2 ^ 32)), false)

/-- What an access of the committing thread's own device work meets: not the thread's own records (R208). -/
def Dev.hiding (d : Dev) (tid : Nat) (f : Dev → Dev) : Dev :=
  let mine (r : Rec) : Bool := match r.owner with | .region t _ => t == tid | .engine _ => false
  let kept := d.recs.filter mine
  let d := f { d with recs := d.recs.filter fun r => !mine r }
  { d with recs := d.recs ++ kept }

/-- PEND of an object plus 1 (R192, R399). -/
def Dev.pendUp (d : Dev) (c : Done) (va : Word) (pa : Nat) : Dev :=
  d.hiding c.tid fun d =>
    let d := d.agentMust ⟨.agent, pa, 16, true, true, va⟩
    d.ownWrite c va pa (bytesOfNat 5 ((d.num pa 5 + 1) % 2 ^ 40))

/-- The trace record of an observed DBGBRK, placed in the partition's ring unless it is full (R411, R416). -/
def State.trace (s : State) (c : Done) (code : BitVec 16) : State :=
  match tget c.t.part s.rot.traces with
  | none => s
  | some r =>
    let d := s.dev
    let base := 2 ^ 51 + r.bus % 2 ^ 51
    let w := d.num base 8
    if 2 ^ r.log2 ≤ (w + 2 ^ 64 - d.num (base + 8) 8) % 2 ^ 64 then s
    else
      let bs := bytesOfNat 2 code.toNat ++ bytesOfNat 2 c.t.part ++ bytesOfNat 4 (c.t.k[5]).toNat ++ bytesOfNat 4 (c.t.k[0]).toNat ++
        bytesOfNat 4 0 ++ bytesOfNat 8 c.r.blk.toNat ++ bytesOfNat 8 d.cycle
      let d := (d.agentWrite (base + 64 + 32 * (w % 2 ^ r.log2)) bs).agentWrite base (bytesOfNat 8 ((w + 1) % 2 ^ 64))
      { s with dev := d }

/-- A change of a shelf's state (R199). A seal waits for the operations forked so far: those of the same commit with it. -/
def Dev.shelfDo (d : Dev) (pa : Nat) (close : Bool) : Dev :=
  let n := shelfOf pa
  match d.shelf n, close with
  | .opened, true => { d with shelves := tput n (.pending d.nextOp) d.shelves }
  | .sealed, false => { d with shelves := tput n .opened d.shelves }
  | _, _ => d

/-- Ask for the fetch of a block (R96, R389). -/
def Dev.wantBlock (d : Dev) (c : Done) (b : Word) : Dev :=
  d.modDie c.t.die fun x => { x with want := if x.want.contains (c.t.asid, c.t.part, b) then x.want else x.want ++ [(c.t.asid, c.t.part, b)] }

/-- HINT at commit (R389). -/
def Dev.hintDo (d : Dev) (c : Done) (code : BitVec 8) : Dev :=
  match code.toNat with
  | 1 => d.modThread c.tid fun t => { t with pref := .keep }
  | 2 => d.modThread c.tid fun t => { t with pref := .cold }
  | 3 => (match c.x.exit with | some (.goto a _) => d.wantBlock c a | _ => d)
  | _ => d

/-- CFGINV at commit (R399). -/
def Dev.cfginvDo (d : Dev) (c : Done) (all_ : Bool) (asid base len : Nat) (comp : Word) : Dev :=
  let d := if comp = 0 then d else
    (match d.leafFor (agentCtx c.t.asid c.t.part) comp with
     | .ok l => if l.nr || !l.allows .write true || l.kind ≠ 0 then d else d.pendUp c comp (l.at comp)
     | .error _ => d)
  d.hiding c.tid fun d => d.cfginv c.t.part (if all_ then none else some asid) base len c.t.asid comp

/-- What an effect does beyond registers, memory and streams: forks, launches, enqueues, posts (R40). -/
def State.effect (s : State) (c : Done) (e : Eff) : State :=
  let d := s.dev
  let on (d : Dev) : State := { s with dev := d }
  match e with
  | .engine kind cmd dst comp pa sel => on ((d.pendUp c comp pa).forkEngine (d.partyOf c.tid c.t) kind cmd dst comp none sel)
  | .cfginv all_ asid base len comp => on (d.cfginvDo c all_ asid base len comp)
  | .spawn entry n arg comp _ =>
    let who := d.partyOf c.tid c.t
    let d := d.hiding c.tid fun d => d.compSet c.t.asid c.t.part comp n 0 0 (some who)
    let q : DevLaunch := {
      die := c.t.die, rcb := c.t.rcb, asid := c.t.asid, part := c.t.part, entry := entry, n := n, arg := arg, comp := comp,
      obj := true, node := none, parent := some c.tid, who := some who, forkAt := d.commits, tcause := 0 }
    on { d with devq := d.devq ++ [q] }
  | .task rec _ => on (d.modDie c.t.die fun x => { x with walk := x.walk ++ [(d.partyOf c.tid c.t, rec, 0)] })
  | .shelf pa close => on (d.shelfDo pa close)
  | .kvfree s es =>
    let ds := (es.zipIdx.filter fun p => entV p.1.toNat).map fun p => (⟨c.t.asid, c.t.part, p.1, entAddr s p.2, some (d.partyOf c.x.tid c.t)⟩ : Decr)
    on (d.modDie c.t.die fun x => { x with decrs := x.decrs ++ ds })
  | .qpost q v => on (match d.globalQ c.t.part q with | some g => d.postTail g v | none => d)
  | .cfetch q => on (d.wantBlock c q)
  | .hint code => on (d.hintDo c code)
  | .dbg code => s.trace c code
  | _ => s

/-- The thread's next state (R41, R48, R96, R390). `f` is TRET's frame as the instance read it. A thread that halts or
returns is retired also where its instance holds a WAITC or BAR whose condition is not met (log 67). -/
def Dev.commitExit (d : Dev) (c : Done) (f : Nat) (met : Bool) : Dev :=
  match c.x.exit with
  | none => d
  | some .halt => d.modThread c.tid fun t => { t with st := .retired }
  | some (.tret _ _) => (d.returnTo f).modThread c.tid fun t => { t with st := .retired }
  | some (.goto a yield) =>
    let d := d.modThread c.tid fun t => { t with pc := a, pref := if yield then .cold else t.pref }
    let park (st : TState) (va : Word) (pa : Nat) : Dev := d.modThread c.tid fun t => { t with st := st, waddr := va, wpa := pa }
    let waits := c.x.sorted.findSome? fun e => match e.2 with
      | .waitc va pa => if d.num pa 5 ≠ 0 then some (TState.parkC, va, pa) else none
      | .bar va pa _ => if met then none else some (TState.parkB, va, pa)
      | _ => none
    match waits with
    | some (st, va, pa) => park st va pa
    | none => d.enqueue c.tid

/-- Words that a BAR of the instance updates and that another instance holds (R187): the holder aborts, or
the commit waits for it. -/
def Dev.barHolds (d : Dev) (c : Done) : Option Dev :=
  let ws := c.x.effs.filterMap fun e => match e.2 with | .bar _ pa _ => some pa | _ => none
  let hs := d.holds.filter fun h => h.inst != c.i && ws.any fun w => h.pa < w + 8 && w < h.pa + h.size
  if hs.any fun h => match d.inst h.inst with | some y => y.atPoint | none => false then none
  else some (hs.foldl (fun d h => d.abortRequeue h.inst) d)

/-- The commit of an instance (R40): every buffered effect as one. -/
def State.commit (s : State) (c : Done) : Option State :=
  (s.dev.barHolds c).map fun d =>
    let f := match c.x.exit with | some (.tret _ pa) => natOfBytes (d.loadBytes c.i pa 512).2 | _ => 0
    let d : Dev := { d with commits := d.commits + 1 }
    let d := (d.beginRegion c).modThread c.tid c.registers
    let d := (d.freeResv c.x c.t.rcb).modInst c.i fun x => { x with resv := [] }
    let d := ((d.commitHolds c).commitStores c).commitStreams c.x.sorted c.tid c.t.part c.t.rcb
    let d := d.commitCrs c
    let (d, met) := match c.x.sorted.findSome? fun e => match e.2 with | .bar va pa n => some (va, pa, n) | _ => none with
      | some (va, pa, n) => d.barrier c va pa n
      | none => (d, true)
    let d := (d.commitRecs c).dropInst c.i
    let isShelf (e : Nat × Eff) : Bool := match e.2 with | .shelf .. => true | _ => false
    let es := c.x.sorted
    let s := (es.filter (!isShelf ·) ++ es.filter isShelf).foldl (fun s e => s.effect c e.2) { s with dev := d }
    { s with dev := ((s.dev.commitExit c f met).settleRegions).wake }

/-- An instance with its thread and region. -/
def Dev.doneOf (d : Dev) (i : Nat) : Option Done :=
  match d.inst i with
  | none => none
  | some x => match d.thread x.tid, d.region x.reg with | some t, some r => some ⟨i, x, x.tid, t, r⟩ | _, _ => none

/-! ### Stalls (R91) -/

/-- Instructions that hold a part of their operands. -/
def Inst.partials (x : Inst) (im : Image) : List Nat :=
  (List.range im.instrs.length).filter fun k => x.chans.any fun c => c.idx == k && !c.q.isEmpty

/-- The lowest-numbered exit of a block. -/
def Image.firstExit (im : Image) : Nat :=
  ((List.range im.instrs.length).find? fun k => match im.info k with | some o => o.isExit | none => false).getD 0

/-- The information of a DEADLOCK: the index and the list of waiting instructions, `ws` of which wait on a stream. -/
def deadlockInfo (idxs ws : List Nat) (exit : Nat) (blk : Word) (hdr : BitVec 128) : TrapInfo :=
  let idx := idxs.headD exit
  let l := if idxs.isEmpty then [BitVec.ofNat 8 exit]
    else (idxs.take 8).map fun k => BitVec.ofNat 8 (k + if ws.contains k then 128 else 0)
  { faultInfo .deadlock idx 0 blk hdr with list := l }

/-- An instance stalls (R91). -/
def Dev.stalled (d : Dev) (c : Done) : Bool :=
  (d.pending c.i c.x c.r.image).isEmpty && c.x.held.isEmpty && c.x.blocked.isEmpty && c.x.again.isEmpty &&
    (d.senders c.i c.x).isEmpty && !(d.resvs.any fun r => r.who == .inst c.i) && !c.x.atPoint && !d.ready c.i c.x c.r.image

/-! ### Waits and replies -/

/-- Blocked firings of an instruction whose wait satisfies a test are to be made again. -/
def Dev.unblock (d : Dev) (i idx : Nat) (sel : Wait → Bool) : Option Dev :=
  match d.inst i with
  | none => none
  | some x =>
    let mine (b : Firing × Wait) : Bool := b.1.idx == idx && sel b.2
    if !x.blocked.any mine then none
    else
      let d := d.modInst i fun x => { x with
        blocked := x.blocked.filter fun b => !mine b, again := x.again ++ ((x.blocked.filter mine).map (·.1)) }
      some (d.modRegion x.reg fun r => { r with active := d.cycle })

/-- A wait for a place in a die's stream cache is over. -/
def Dev.entryFree (d : Dev) (i : Nat) : Bool :=
  match (d.inst i).bind fun x => d.thread x.tid with | some t => (d.streamRoom t.die).isSome | none => false

/-- The oldest trapped thread of a partition that waits for a frame (R385). -/
def Dev.nextTrap (d : Dev) (part : Nat) : Option Nat :=
  (leastBy (fun p => p.2.trapOrd) (d.threads.filter fun p => p.2.st == .trapped && p.2.part == part &&
    (match p.2.trap with | some i => i.frame.isNone && !i.stuck | none => false))).map (·.1)

/-- A context that the context store may write out (R37). -/
def Thread.writable (t : Thread) : Bool :=
  t.slot.isSome && (match t.st with | .queued => true | .parkC => true | .parkB => true | .trapped => true | .space => true | _ => false)

/-! ### The events -/

/-- Another instance of the region has reached its commit point before this one (R47). -/
def Dev.commitsAfter (d : Dev) (c : Done) : Bool :=
  (d.instsOf c.x.reg).any fun p => p.1 != c.i && p.2.atPoint && (!c.x.atPoint || p.2.ptOrd < c.x.ptOrd)

/-- INSTANCE_COMMIT (R39..R43, R47): the instance reaches its commit point, where it may stay while its commit is
under way (`hold`), and commits, in the order in which the instances of its region reached theirs. -/
def execInstanceCommit (inst : Nat) (hold : Bool) (s : State) : Host.Outcome State Fault Refusal :=
  onState s "INSTANCE_COMMIT" fun s =>
    match s.dev.doneOf inst with
    | none => none
    | some c =>
      if !c.x.atPoint && !s.dev.commitable inst c.x c.r c.t then none
      else if hold then
        (if c.x.atPoint then none
         else
          let d := s.dev.modInst inst fun x => { x with atPoint := true, ptOrd := s.dev.nextOrd }
          some { s with dev := { d with nextOrd := d.nextOrd + 1 } })
      else if s.dev.commitsAfter c then none
      else s.commit c

/-- RETIREMENT_COUNT (R48, R198): a thread that has halted is counted and freed. -/
def execRetirementCount (tid : Nat) (s : State) : Host.Outcome State Fault Refusal :=
  onEvent s "RETIREMENT_COUNT" fun d =>
    match d.thread tid with
    | none => none
    | some t => if t.st = .retired then some (d.retire tid 0) else none

/-- INSTANCE_STALL (R91). -/
def execInstanceStall (inst : Nat) (s : State) : Host.Outcome State Fault Refusal :=
  onEvent s "INSTANCE_STALL" fun d =>
    match d.doneOf inst with
    | none => none
    | some c =>
      if !d.stalled c then none
      else some (d.abortTrap inst (deadlockInfo (c.x.partials c.r.image) [] c.r.image.firstExit)).settleRegions

/-- CONTEXT_WRITE_OUT (R37, R203). -/
def execContextWriteOut (tid : Nat) (s : State) : Host.Outcome State Fault Refusal :=
  onEvent s "CONTEXT_WRITE_OUT" fun d =>
    match d.thread tid with
    | none => none
    | some t =>
      if !t.writable then none
      else some (((d.endRegion tid .sys).modThread tid fun t => { t with slot := none }).charge t.rcb fun u => { u with slots := u.slots - 1 })

/-- CONTEXT_READ_BACK (R37, R52). -/
def execContextReadBack (tid : Nat) (s : State) : Host.Outcome State Fault Refusal :=
  onEvent s "CONTEXT_READ_BACK" fun d =>
    match d.thread tid with
    | none => none
    | some t =>
      if t.slot.isSome || t.st = .retired || t.st = .running then none
      else
        let d := d.takeSlot tid
        match d.thread tid with
        | some t => if t.slot.isSome then some d else none
        | none => none

/-- MEMORY_REPLY (R183): the oldest reply still out of an instruction returns. -/
def execMemoryReply (inst idx : Nat) (s : State) : Host.Outcome State Fault Refusal :=
  onEvent s "MEMORY_REPLY" fun d =>
    match d.inst inst with
    | none => none
    | some x =>
      match x.reqs.find? fun q => q.idx == idx && !q.back with
      | none => none
      | some q =>
        let rec mark : List Req → List Req
          | [] => []
          | y :: r => if y = q then { y with back := true } :: r else y :: mark r
        let d := (d.modInst inst fun x => { x with reqs := mark x.reqs }).modRegion x.reg fun r => { r with active := d.cycle }
        some (d.flush inst idx)

/-- TRACKED_ACCESS_ARRIVAL (R200, R209): an access that waits at its home is made again. -/
def execTrackedAccessArrival (inst idx : Nat) (s : State) : Host.Outcome State Fault Refusal :=
  onEvent s "TRACKED_ACCESS_ARRIVAL" fun d => d.unblock inst idx fun w => w == .access

/-- ATOMIC_ARRIVAL (R187): an atomic that waits at its unit is made again. -/
def execAtomicArrival (inst idx : Nat) (s : State) : Host.Outcome State Fault Refusal :=
  onEvent s "ATOMIC_ARRIVAL" fun d => d.unblock inst idx fun w => w == .atomic

/-- STREAM_WAIT_END (R131, R137): the condition of a stream wait holds. -/
def execStreamWaitEnd (inst idx : Nat) (s : State) : Host.Outcome State Fault Refusal :=
  onEvent s "STREAM_WAIT_END" fun d => d.unblock inst idx fun w =>
    match w with
    | .access => false
    | .atomic => false
    | .entry => d.entryFree inst
    | w => d.waitOver w

/-- EXTENSION_FRAME_RETURN (R147). -/
def execExtensionFrameReturn (desc : Nat) (s : State) : Host.Outcome State Fault Refusal :=
  onEvent s "EXTENSION_FRAME_RETURN" fun d => d.extReturn desc

/-- TRAP_CAPTURE (R385): the frame is taken and the record sent in a suspended function too, whose launches alone are held
(R402). Taking the exception of the thread that has waited longest for a frame. -/
def execTrapCapture (tid : Nat) (s : State) : Host.Outcome State Fault Refusal :=
  onEvent s "TRAP_CAPTURE" fun d =>
    match d.thread tid with
    | none => none
    | some t =>
      match t.trap with
      | none => none
      | some i => if d.nextTrap t.part ≠ some tid then none else d.takeException tid t i

/-- SYSTEM_END (R208): every store of a released region has reached its home. -/
def execSystemEnd (tid seq : Nat) (s : State) : Host.Outcome State Fault Refusal :=
  onEvent s "SYSTEM_END" fun d =>
    let mine (r : Rec) : Bool := r.owner == .region tid seq && r.ended.isSome
    if d.recs.any mine then some { d with recs := d.recs.filter fun r => !mine r } else none

end Sys2Proof.Machine
end

