-- ==== Sys2Proof/Machine/Elementary.lean ====
section
/-!
DEFINITION. The special functions and VROPE's rotation (R280, R287), correctly rounded. Each is
evaluated in fixed point with 400 fraction bits, its last bit made odd to mark an inexact value, and
rounded once. The rounding is the exact function's unless the function's value lies within 2^−380 of
a rounding boundary without lying on it (log 20).
-/

namespace Sys2Proof.Machine

/-- Fraction bits of the fixed point. -/
def fxP : Nat := 400

/-- One in the fixed point. -/
def fxOne : Int := Int.ofNat (2 ^ fxP)

def fxMul (a b : Int) : Int := a * b / fxOne
def fxDiv (a b : Int) : Int := a * fxOne / b

/-- Σ t_k with t_(k+1) = t_k × y / d(k), for series of the exponential kind. -/
def serGo (y : Int) (d : Nat → Int) : Nat → Nat → Int → Int → Int
  | 0, _, _, acc => acc
  | n + 1, k, t, acc =>
    let t' := fxMul t y / d k
    serGo y d n (k + 1) t' (acc + t')

/-- e^y for |y| at most 1. -/
def fxExp (y : Int) : Int := serGo y (fun k => Int.ofNat (k + 1)) 100 0 fxOne fxOne

/-- cos y and sin y for |y| at most 1. -/
def fxCos (y : Int) : Int :=
  serGo (-(fxMul y y)) (fun k => Int.ofNat ((2 * k + 1) * (2 * k + 2))) 50 0 fxOne fxOne

def fxSin (y : Int) : Int :=
  serGo (-(fxMul y y)) (fun k => Int.ofNat ((2 * k + 2) * (2 * k + 3))) 50 0 y y

/-- Σ y^(2k+1) / (2k+1), signs alternating when `alt`. -/
def oddGo (y2 : Int) : Nat → Nat → Int → Int → Int
  | 0, _, _, acc => acc
  | n + 1, k, t, acc => oddGo y2 n (k + 1) (fxMul t y2) (acc + t / Int.ofNat (2 * k + 1))

/-- artanh y, for |y| at most 1/3. -/
def fxAtanh (y : Int) : Int := oddGo (fxMul y y) 140 0 y 0

/-- arctan y, for |y| at most 1/5. -/
def fxAtan (y : Int) : Int := oddGo (-(fxMul y y)) 100 0 y 0

/-- ln 2 = 2 artanh (1/3). -/
def fxLn2 : Int := 2 * fxAtanh (fxOne / 3)

/-- π = 16 arctan (1/5) − 4 arctan (1/239). -/
def fxPi : Int := 16 * fxAtan (fxOne / 5) - 4 * fxAtan (fxOne / 239)

/-- A fixed-point value as an inexact number, scaled by 2^k. -/
def fxDy (v : Int) (k : Int) : Dy :=
  let d := dyOf (2 * v) (k - Int.ofNat fxP - 1)
  { d with m := d.m + 1 }

/-- A number in the fixed point, for one whose fraction it can hold. -/
def dyFx (d : Dy) : Int :=
  let s := d.e + Int.ofNat fxP
  let n := if 0 ≤ s then Int.ofNat (d.m <<< s.toNat) else Int.ofNat (d.m >>> (-s).toNat)
  if d.neg then -n else n

/-- 2^x for a fixed-point x, as a fixed-point value in [1, 2) and an exponent. -/
def fxExp2 (x : Int) : Int × Int :=
  let n := x / fxOne
  let f := x - n * fxOne
  (fxExp (fxMul f fxLn2), n)

/-- An integer value, when the number is one. -/
def Dy.int? (d : Dy) : Option Int :=
  if 0 ≤ d.e then some (d.at 0)
  else if d.m % 2 ^ (-d.e).toNat = 0 then
    some (let n := Int.ofNat (d.m >>> (-d.e).toNat); if d.neg then -n else n)
  else none

/-- The magnitude is at least 2^k. -/
def Dy.atLeast (d : Dy) (k : Int) : Bool := d.m != 0 && decide (k ≤ d.top)

def fOne : BitVec 32 := 0x3F800000

/-- VEXP2 (R280). -/
def fExp2 (a : BitVec 32) : LaneR :=
  match fp32 a with
  | .nan => (qnan, 0)
  | .inf n => (if n then 0 else pinf, 0)
  | .num d =>
    if d.m = 0 then (fOne, 0)
    else if d.atLeast 8 then
      -- 2^x is above every finite value, or below half the least subnormal
      laneOf (round32 (if d.neg then ⟨false, 3, -300⟩ else ⟨false, 3, 300⟩))
    else match d.int? with
      | some n => laneOf (round32 ⟨false, 1, n⟩)
      | none =>
        let v := fxExp2 (dyFx d)
        laneOf (round32 (fxDy v.1 v.2))

/-- VLOG2 (R280). -/
def fLog2 (a : BitVec 32) : LaneR :=
  match fp32 a with
  | .nan => (qnan, 0)
  | .inf n => if n then (qnan, flNV) else (pinf, 0)
  | .num d =>
    if d.m = 0 then (ninf, flDZ)
    else if d.neg then (qnan, flNV)
    else if d.m = 2 ^ d.m.log2 then laneOf (round32 (dyOf d.top 0))
    else
      let m := Int.ofNat (d.m <<< (fxP - d.m.log2))
      let y := fxDiv (m - fxOne) (m + fxOne)
      let l := fxDiv (2 * fxAtanh y) fxLn2
      laneOf (round32 (fxDy (l + d.top * fxOne) 0))

/-- VRCP (R280). -/
def fRcp (a : BitVec 32) : LaneR :=
  match fp32 a with
  | .nan => (qnan, 0)
  | .inf n => (if n then 0x80000000 else 0, 0)
  | .num d => if d.m = 0 then (infOf d.neg, flDZ) else laneOf (round32 (dyDiv ⟨false, 1, 0⟩ d 64))

/-- VRSQ (R280): the root of 1/x is formed with the sticky bit of the quotient kept. -/
def fRsq (a : BitVec 32) : LaneR :=
  match fp32 a with
  | .nan => (qnan, 0)
  | .inf n => if n then (qnan, flNV) else (0, 0)
  | .num d =>
    if d.m = 0 then (infOf d.neg, flDZ)
    else if d.neg then (qnan, flNV)
    else laneOf (round32 (dySqrt (dyDiv ⟨false, 1, 0⟩ d 200) 200))

/-- e^−|x| as a fixed-point value in [1, 2) and an exponent. -/
def fxExpNeg (x : Int) : Int × Int := fxExp2 (-(fxDiv x fxLn2))

/-- VTANH (R280). -/
def fTanh (a : BitVec 32) : LaneR :=
  match fp32 a with
  | .nan => (qnan, 0)
  | .inf n => (if n then 0xBF800000 else fOne, 0)
  | .num d =>
    if d.m = 0 then (a, 0)
    else
      let r : Dy :=
        if d.atLeast 6 then fxDy (fxOne - 2 ^ 300) 0
        else if !d.atLeast (-60) then ⟨false, d.m * 2 ^ 100 - 1, d.e - 100⟩
        else
          let v := fxExpNeg (2 * dyFx { d with neg := false })
          let e := v.1 >>> (-v.2).toNat
          fxDy (fxDiv (fxOne - e) (fxOne + e)) 0
      laneOf (round32 { r with neg := d.neg })

/-- VSIGM (R280). -/
def fSigm (a : BitVec 32) : LaneR :=
  match fp32 a with
  | .nan => (qnan, 0)
  | .inf n => (if n then 0 else fOne, 0)
  | .num d =>
    if d.m = 0 then (0x3F000000, 0)
    else
      let r : Dy :=
        if d.atLeast 8 then (if d.neg then ⟨false, 3, -300⟩ else fxDy (fxOne - 2 ^ 300) 0)
        else
          let v := fxExpNeg (dyFx { d with neg := false })
          let n := (-v.2).toNat
          let E := v.1
          -- E × 2^−n is e^−|x|
          let big := fxOne * 2 ^ n + E
          if d.neg then fxDy (E * fxOne * 2 ^ 300 / big) (-300)
          else fxDy (fxOne * fxOne * 2 ^ n / big) 0
      laneOf (round32 r)

/-- sin πf and cos πf of a fixed-point f with |f| at most 1/4. -/
def sinPi (f : Int) : Int := fxSin (fxMul f fxPi)
def cosPi (f : Int) : Int := fxCos (fxMul f fxPi)

/-- sin πf of a fixed-point f in [0, 1]. -/
def sinPi1 (f : Int) : Int :=
  let g := if f ≤ fxOne / 2 then f else fxOne - f
  if g ≤ fxOne / 4 then sinPi g else cosPi (fxOne / 2 - g)

/-- VSINC (R280). -/
def fSinc (a : BitVec 32) : LaneR :=
  match fp32 a with
  | .nan => (qnan, 0)
  | .inf _ => (0, 0)
  | .num d =>
    if d.m = 0 then (fOne, 0)
    else if d.int?.isSome then (0, 0)
    else if !d.atLeast (-60) then laneOf (round32 (fxDy (fxOne - 2 ^ 200) 0))
    else
      let x := dyFx { d with neg := false }
      let n := x / fxOne
      let s := sinPi1 (x - n * fxOne)
      let q := fxDiv s (fxMul x fxPi)
      let r := fxDy q 0
      laneOf (round32 (if n % 2 = 0 then r else { r with neg := true }))

/-- cos and sin of 2π × th / 2^64, rounded to FP32; exact zeros are +0 (R287). -/
def ropeSin (th : Nat) : BitVec 32 :=
  let h := th % 2 ^ 63
  let v : Dy :=
    if h = 0 then Dy.zero
    else if h = 2 ^ 62 then ⟨false, 1, 0⟩
    else fxDy (sinPi1 (Int.ofNat (h <<< (fxP - 63)))) 0
  BitVec.ofNat 32 (round32 { v with neg := decide (2 ^ 63 ≤ th) && v.m != 0 }).code

def ropeCos (th : Nat) : BitVec 32 := ropeSin ((th + 2 ^ 62) % 2 ^ 64)

/-- x × c + y × s with one rounding, by the rules of the fused expressions (R287). -/
def fDot2 (x c y s : FV) : LaneR :=
  if x.isNan || y.isNan then (qnan, 0)
  else
    let p := x.mul c
    let q := y.mul s
    if p.2 || q.2 then (qnan, flNV) else finish (p.1.add q.1)

end Sys2Proof.Machine
end

