-- ==== Sys2Proof/Machine/Vector.lean ====
section
/-!
DEFINITION. Vector and special-function instructions (R272..R289): lanes, formats, conversion,
packing, movement, reductions and selection.
-/

namespace Sys2Proof.Machine

/-- The FP32 class of operands: FMT 0 or 1, GEOM 00 (R272). -/
def fpOk (t : Token) : Bool := (t.fmt == 0 || t.fmt == 1) && t.geom == 0

/-- A token from sixteen lanes, each valid or not; an invalid lane has a zero payload (R273). -/
def laneTok (ls : List (Bool × BitVec 32)) (fmt : BitVec 4) (geom : BitVec 2) : Token :=
  dataTok (ls.map fun l => if l.1 then l.2 else 0) (validOf (ls.map (·.1))) fmt geom

/-- The sixteen lanes with their valid bits. -/
def Token.lanesV (t : Token) : List (Bool × BitVec 32) := (List.range 16).map fun i => (t.vld i, t.lane i)

/-- Lane results: the token, and the flags that valid lanes raise (R273). -/
def laneResult (ls : List (Bool × LaneR)) (fmt : BitVec 4) : Token × BitVec 6 :=
  (laneTok (ls.map fun l => (l.1, l.2.1)) fmt 0,
    ls.foldl (fun f l => if l.1 then f ||| l.2.2 else f) 0)

def map1 (f : BitVec 32 → LaneR) (fmt : BitVec 4) (a : Token) : Token × BitVec 6 :=
  laneResult ((List.range 16).map fun i => (a.vld i, if a.vld i then f (a.lane i) else (0, 0))) fmt

def map2 (f : BitVec 32 → BitVec 32 → LaneR) (fmt : BitVec 4) (a b : Token) : Token × BitVec 6 :=
  laneResult ((List.range 16).map fun i =>
    let v := a.vld i && b.vld i
    (v, if v then f (a.lane i) (b.lane i) else (0, 0))) fmt

def map3 (f : BitVec 32 → BitVec 32 → BitVec 32 → LaneR) (fmt : BitVec 4) (a b q : Token) : Token × BitVec 6 :=
  laneResult ((List.range 16).map fun i =>
    let v := a.vld i && b.vld i && q.vld i
    (v, if v then f (a.lane i) (b.lane i) (q.lane i) else (0, 0))) fmt

/-- Send a result and raise its flags, or trap (R270, R273). -/
def Dev.sendR (d : Dev) (c : Fx) (tgts : List Tgt) (r : Token × BitVec 6) : Dev :=
  d.raise c r.2 fun d => d.send c tgts r.1

/-- FORMAT with value 0 (R272). -/
def Dev.badFmt (d : Dev) (c : Fx) (tgts : List Tgt) : Dev := d.send c tgts (errTok .format 0)

/-- One, two and three FP32 operands (R272, R277). -/
def Dev.vec1 (d : Dev) (c : Fx) (m : Pred) (tgts : List Tgt) (f : BitVec 32 → LaneR) : Dev :=
  d.ordinary c m .none tgts fun d =>
    if fpOk c.a then d.sendR c tgts (map1 f 1 c.a) else d.badFmt c tgts

def Dev.vec2 (d : Dev) (c : Fx) (m : Pred) (tgts : List Tgt) (fmt : BitVec 4) (f : BitVec 32 → BitVec 32 → LaneR) : Dev :=
  d.ordinary c m .none tgts fun d =>
    if fpOk c.a && fpOk c.b then d.sendR c tgts (map2 f fmt c.a c.b) else d.badFmt c tgts

def Dev.vec3 (d : Dev) (c : Fx) (tgts : List Tgt) (f : BitVec 32 → BitVec 32 → BitVec 32 → LaneR) : Dev :=
  d.ordinary c .always .none tgts fun d =>
    if fpOk c.a && fpOk c.b && fpOk c.p then d.sendR c tgts (map3 f 1 c.a c.b c.p) else d.badFmt c tgts

/-- The mask a comparison gives (R279). -/
def maskOf (b : Bool) : LaneR := (if b then 0xFFFFFFFF else 0, 0)

/-- A reduction of the valid lanes to lane 0 (R281). -/
def Dev.vecRed (d : Dev) (c : Fx) (m : Pred) (tgts : List Tgt) (f : List (BitVec 32) → LaneR) : Dev :=
  d.ordinary c m .none tgts fun d =>
    if fpOk c.a then
      let xs := (c.a.lanesV.filter (·.1)).map (·.2)
      let r := if xs.isEmpty then (0, 0) else f xs
      d.sendR c tgts (dataTok [r.1] (if xs.isEmpty then 0 else 1) 1 0, r.2)
    else d.badFmt c tgts

/-- The greatest or least lane, −0 below +0; NaN when any lane is (R281). -/
def pickLane (f : BitVec 32 → BitVec 32 → LaneR) : List (BitVec 32) → LaneR
  | [] => (0, 0)
  | x :: r => ((r.foldl (fun acc y => (f acc y).1) (fMax x x).1), 0)

/-- Inclusive prefix sums of the valid lanes (R281). -/
def scanLanes (a : Token) : Token × BitVec 6 :=
  laneResult ((List.range 16).map fun i =>
    (a.vld i, if a.vld i then sumLanes (((a.lanesV.take (i + 1)).filter (·.1)).map (·.2)) else (0, 0))) 1

/-- Pack codes of width e < 32 into lanes, a packed lane valid when all its sources are; the lanes
above are zero and valid (R253, R282). -/
def packLanes (e : Nat) (ys : List (Bool × Nat)) : List (Bool × BitVec 32) :=
  let per := 32 / e
  (List.range 16).map fun l =>
    if l < e / 2 then
      let part := (ys.drop (l * per)).take per
      (part.all (·.1), BitVec.ofNat 32 (part.foldr (fun y acc => y.2 % 2 ^ e + 2 ^ e * acc) 0))
    else (true, 0)

/-- A lane of an FMT 0 or FMT 1 token as a value (R282). -/
def srcValue (fmt : BitVec 4) (x : BitVec 32) : FV := decodeElem fmt.toNat x.toNat

/-- VCVT's result and flags (R282). -/
def convert (c : Fx) (f : BitVec 4) (g : BitVec 2) (rm : Rounding) (a : Token) : Token × BitVec 6 :=
  -- from FMT 0 to raw32 every bit of the payload stays, those of invalid lanes among them
  if a.fmt = 0 && f = 0 then ({ a with geom := g }, 0) else
  let one (i : Nat) : Rnd :=
    let x := a.lane i
    let r := if rm = .rs then stochR c.x.cr.rseed c.x.k[0] c.x.k[5] c.blk c.idx i (zx x) else 0
    putFmt f.toNat rm r (srcValue a.fmt x)
  let ys := (List.range 16).map fun i => (a.vld i, if a.vld i then one i else ⟨0, 0⟩)
  let fl := ys.foldl (fun acc y => acc ||| y.2.flags) 0
  let e := fmtWidth f.toNat
  if e = 32 then (laneTok (ys.map fun y => (y.1, BitVec.ofNat 32 y.2.code)) f g, fl)
  else (laneTok (packLanes e (ys.map fun y => (y.1, y.2.code))) f g, fl)

/-- VPACK's result (R283). -/
def packTok (f : BitVec 4) (a : Token) : Token :=
  let e := fmtWidth f.toNat
  if e = 32 then { a with fmt := f, geom := 0, level := 0, tag := 0, err := 0 }
  else laneTok (packLanes e (a.lanesV.map fun l => (l.1, l.2.toNat))) f 0

/-- Element k of a token of width e (R253). -/
def Token.elem (t : Token) (e k : Nat) : Nat := (t.payload.extractLsb' (k * e) e).toNat

/-- Whether the lane that holds element k is valid. -/
def Token.elemV (t : Token) (e k : Nat) : Bool := t.vld (k * e / 32)

/-- VUNPK's tokens and flags, or none for FORMAT (R284). -/
def unpack (f : BitVec 4) (a : Token) : Option (List (Token × BitVec 6)) :=
  let sf := a.fmt.toNat
  let e := fmtWidth sf
  if 12 ≤ sf then none
  else if f = 0 && sf = 1 then none
  else
    let one (k : Nat) : LaneR :=
      let x := a.elem e k
      if f = 1 then lane32 (decodeElem sf x)
      else if sf = 7 || sf = 8 || sf = 10 then (BitVec.ofInt 32 (signedOf e x), 0)
      else (BitVec.ofNat 32 x, 0)
    some ((List.range (32 / e)).map fun j =>
      laneResult ((List.range 16).map fun i =>
        let k := 16 * j + i
        (a.elemV e k, if a.elemV e k then one k else (0, 0))) f)

/-- A lane and its valid bit. -/
def Token.at (t : Token) (i : Nat) : Bool × BitVec 32 := (t.vld i, t.lane i)

/-- A token whose lanes come from elsewhere, with a's FMT and GEOM (R285). -/
def moved (a : Token) (f : Nat → Bool × BitVec 32) : Token := laneTok ((List.range 16).map f) a.fmt a.geom

/-- Where VSHUF's lane i comes from (R285). -/
def shufSrc (h : Shuf) (a b : Token) (i : Nat) : Bool × BitVec 32 :=
  match h with
  | .lo => if i % 2 = 0 then a.at (i / 2) else b.at (i / 2)
  | .hi => if i % 2 = 0 then a.at (8 + i / 2) else b.at (8 + i / 2)
  | .ev => if i < 8 then a.at (2 * i) else b.at (2 * (i - 8))
  | .od => if i < 8 then a.at (2 * i + 1) else b.at (2 * (i - 8) + 1)

/-- Width of an integer lane element (R286). -/
def laneBits : LaneW → Nat | .i32 => 32 | .i16 => 16 | .i8 => 8

/-- Apply an element operation to every element of two lanes (R286). -/
def intLane (w : LaneW) (f : Nat → Nat → Nat → Nat) (x y : BitVec 32) : BitVec 32 :=
  let n := laneBits w
  BitVec.ofNat 32 ((List.range (32 / n)).foldr (fun j acc =>
    f n ((x.extractLsb' (n * j) n).toNat) ((y.extractLsb' (n * j) n).toNat) % 2 ^ n * 2 ^ (n * j) + acc) 0)

/-- An integer vector instruction (R286): any format, FMT 0 and GEOM 00 out, no flags. -/
def Dev.vecInt (d : Dev) (c : Fx) (m : Pred) (tgts : List Tgt) (w : LaneW) (f : Nat → Nat → Nat → Nat) : Dev :=
  d.ordinary c m .none tgts fun d =>
    d.send c tgts (map2 (fun x y => (intLane w f x y, 0)) 0 c.a c.b).1

/-- A lane instruction that forms its token from its operands (R285). -/
def Dev.vecMove (d : Dev) (c : Fx) (m : Pred) (tgts : List Tgt) (sc : Scalars) (f : Token → Token → Token) : Dev :=
  d.ordinary c m sc tgts fun d => d.send c tgts (f c.a c.b)

/-- VROPE's eight pairs (R287). -/
def ropeTok (tbl : List Word) (pos : Nat) (a : Token) : Token × BitVec 6 :=
  laneResult ((List.range 16).map fun l =>
    let i := l / 2
    let v := a.vld (2 * i) && a.vld (2 * i + 1)
    let th := pos * (tbl.getD i 0).toNat % 2 ^ 64
    let cs := fp32 (ropeCos th)
    let sn := fp32 (ropeSin th)
    let x := fp32 (a.lane (2 * i))
    let y := fp32 (a.lane (2 * i + 1))
    (v, if !v then (0, 0)
        else if l % 2 = 0 then fDot2 x cs y sn.flip else fDot2 x sn y cs)) 1

/-- Whether pair x ranks before pair y: higher score, zeros equal, then lower index (R289). -/
def ranksBefore (x y : BitVec 32 × BitVec 32) : Bool :=
  match fCmp x.1 y.1 with
  | some .gt => true
  | some .eq => decide (x.2 < y.2)
  | _ => false

/-- Insert a pair in rank order, after its equals. -/
def rankIn (x : BitVec 32 × BitVec 32) : List (BitVec 32 × BitVec 32) → List (BitVec 32 × BitVec 32)
  | [] => [x]
  | y :: r => if ranksBefore x y then x :: y :: r else y :: rankIn x r

/-- The selection after two data tokens (R289). -/
def topkAdd (k : Nat) (sel : List (BitVec 32 × BitVec 32)) (a b : Token) : List (BitVec 32 × BitVec 32) :=
  ((List.range 16).foldl (fun sel i =>
    if a.vld i && b.vld i && !(fp32 (a.lane i)).isNan then rankIn (a.lane i, b.lane i) sel else sel) sel).take k

/-- Token j of an emission (R289). -/
def topkTok (sel : List (BitVec 32 × BitVec 32)) (j : Nat) : Token :=
  laneTok ((List.range 16).map fun l =>
    match sel[8 * j + l / 2]? with
    | some x => (true, if l % 2 = 0 then x.1 else x.2)
    | none => (false, 0)) 0 0

/-- The selection VTOPK holds. -/
def Fx.sel (c : Fx) : List (BitVec 32 × BitVec 32) := match c.x.opst c.idx with | some (.vtopk b) => b | _ => []

/-- VADD (R277): lanewise a + b. -/
def execVadd (p : Pred) (t1 : Tgt) (t2 : Tgt) (s : State) : Res :=
  onFire s fun d c => d.vec2 c p [t1, t2] 1 fAdd

/-- VSUB (R277): lanewise a − b. -/
def execVsub (p : Pred) (t1 : Tgt) (t2 : Tgt) (s : State) : Res :=
  onFire s fun d c => d.vec2 c p [t1, t2] 1 fSub

/-- VMUL (R277): lanewise a × b. -/
def execVmul (p : Pred) (t1 : Tgt) (t2 : Tgt) (s : State) : Res :=
  onFire s fun d c => d.vec2 c p [t1, t2] 1 fMul

/-- VDIV (R277): lanewise a / b. -/
def execVdiv (p : Pred) (t1 : Tgt) (t2 : Tgt) (s : State) : Res :=
  onFire s fun d c => d.vec2 c p [t1, t2] 1 fDiv

/-- VMIN (R278): lanewise lesser. -/
def execVmin (p : Pred) (t1 : Tgt) (t2 : Tgt) (s : State) : Res :=
  onFire s fun d c => d.vec2 c p [t1, t2] 1 fMin

/-- VMAX (R278): lanewise greater. -/
def execVmax (p : Pred) (t1 : Tgt) (t2 : Tgt) (s : State) : Res :=
  onFire s fun d c => d.vec2 c p [t1, t2] 1 fMax

/-- VFMA (R277): lanewise a × b + p, rounded once. -/
def execVfma (t1 : Tgt) (t2 : Tgt) (s : State) : Res :=
  onFire s fun d c => d.vec3 c [t1, t2] fFma

/-- VFMS (R277): lanewise a × b − p, rounded once. -/
def execVfms (t1 : Tgt) (t2 : Tgt) (s : State) : Res :=
  onFire s fun d c => d.vec3 c [t1, t2] fFms

/-- VSQRT (R277): lanewise square root. -/
def execVsqrt (p : Pred) (t1 : Tgt) (t2 : Tgt) (s : State) : Res :=
  onFire s fun d c => d.vec1 c p [t1, t2] fSqrt

/-- VABS (R278): lanewise sign cleared. -/
def execVabs (p : Pred) (t1 : Tgt) (t2 : Tgt) (s : State) : Res :=
  onFire s fun d c => d.vec1 c p [t1, t2] fAbs

/-- VNEG (R278): lanewise sign inverted. -/
def execVneg (p : Pred) (t1 : Tgt) (t2 : Tgt) (s : State) : Res :=
  onFire s fun d c => d.vec1 c p [t1, t2] fNeg

/-- VCEQ (R279): lanewise a = b. -/
def execVceq (p : Pred) (t1 : Tgt) (t2 : Tgt) (s : State) : Res :=
  onFire s fun d c => d.vec2 c p [t1, t2] 0 <| fun x y => maskOf (fCmp x y == some .eq)

/-- VCNE (R279): lanewise a ≠ b. -/
def execVcne (p : Pred) (t1 : Tgt) (t2 : Tgt) (s : State) : Res :=
  onFire s fun d c => d.vec2 c p [t1, t2] 0 <| fun x y => maskOf (fCmp x y != some .eq)

/-- VCLT (R279): lanewise a < b. -/
def execVclt (p : Pred) (t1 : Tgt) (t2 : Tgt) (s : State) : Res :=
  onFire s fun d c => d.vec2 c p [t1, t2] 0 <| fun x y => maskOf (fCmp x y == some .lt)

/-- VCLE (R279): lanewise a ≤ b. -/
def execVcle (p : Pred) (t1 : Tgt) (t2 : Tgt) (s : State) : Res :=
  onFire s fun d c => d.vec2 c p [t1, t2] 0 <| fun x y => maskOf (fCmp x y == some .lt || fCmp x y == some .eq)

/-- VSEL (R279): a where p is nonzero, else b. -/
def execVsel (t1 : Tgt) (t2 : Tgt) (s : State) : Res :=
  onFire s fun d c => d.ordinary c .always .none [t1, t2] fun d =>
    if c.a.fmt == c.b.fmt && c.a.geom == c.b.geom then
      d.send c [t1, t2] (moved c.a fun i =>
        let x := if c.p.lane i != 0 then c.a.at i else c.b.at i
        (c.p.vld i && x.1, x.2))
    else d.badFmt c [t1, t2]

/-- VCVT (R282): converts sixteen lanes to a format. -/
def execVcvt (p : Pred) (fmt : BitVec 4) (geom : BitVec 2) (rm : Rounding) (t1 : Tgt) (t2 : Tgt) (t3 : Tgt) (s : State) : Res :=
  onFire s fun d c => d.ordinary c p .none [t1, t2, t3] fun d =>
    if fpOk c.a then d.sendR c [t1, t2, t3] (convert c fmt geom rm c.a) else d.badFmt c [t1, t2, t3]

/-- VPACK (R283): packs the low bits of each lane. -/
def execVpack (p : Pred) (fmt : BitVec 4) (t1 : Tgt) (t2 : Tgt) (t3 : Tgt) (s : State) : Res :=
  onFire s fun d c => d.ordinary c p .none [t1, t2, t3] fun d =>
    if fpOk c.a then d.send c [t1, t2, t3] (packTok fmt c.a) else d.badFmt c [t1, t2, t3]

/-- VUNPK (R284): widens a token into a series. -/
def execVunpk (p : Pred) (fmt : BitVec 4) (t1 : Tgt) (t2 : Tgt) (t3 : Tgt) (s : State) : Res :=
  onFire s fun d c => d.ordinary c p .none [t1, t2, t3] fun d =>
    match unpack fmt c.a with
    | none => d.badFmt c [t1, t2, t3]
    | some ts =>
      d.raise c (ts.foldl (fun f t => f ||| t.2) 0) fun d => ts.foldl (fun d t => d.send c [t1, t2, t3] t.1) d

/-- VBCAST (R285): lane l to every lane. -/
def execVbcast (p : Pred) (lane : BitVec 4) (t1 : Tgt) (t2 : Tgt) (t3 : Tgt) (s : State) : Res :=
  onFire s fun d c => d.vecMove c p [t1, t2, t3] .none fun a _ => moved a fun _ => a.at lane.toNat

/-- VEXTR (R285): lane l as a scalar. -/
def execVextr (p : Pred) (lane : BitVec 4) (t1 : Tgt) (t2 : Tgt) (t3 : Tgt) (s : State) : Res :=
  onFire s fun d c => d.vecMove c p [t1, t2, t3] .none fun a _ =>
    if a.vld lane.toNat then scalarTok (zx (a.lane lane.toNat)) else { scalarTok 0 with valid := 0 }

/-- VINS (R285): a scalar into lane l. -/
def execVins (p : Pred) (lane : BitVec 4) (t1 : Tgt) (t2 : Tgt) (t3 : Tgt) (s : State) : Res :=
  onFire s fun d c => d.vecMove c p [t1, t2, t3] ⟨false, true, true⟩ fun a b =>
    moved a fun i => if i = lane.toNat then (true, b.lane 0) else a.at i

/-- VPERM (R285): lanes of a by index lanes of b. -/
def execVperm (p : Pred) (t1 : Tgt) (t2 : Tgt) (s : State) : Res :=
  onFire s fun d c => d.vecMove c p [t1, t2] .none fun a b =>
    moved a fun i => let j := (b.lane i).toNat % 16; (b.vld i && a.vld j, a.lane j)

/-- VSHUF (R285): interleaves or deinterleaves lanes. -/
def execVshuf (p : Pred) (half : Shuf) (t1 : Tgt) (t2 : Tgt) (s : State) : Res :=
  onFire s fun d c => d.ordinary c p .none [t1, t2] fun d =>
    if c.a.fmt == c.b.fmt && c.a.geom == c.b.geom then d.send c [t1, t2] (moved c.a (shufSrc half c.a c.b))
    else d.badFmt c [t1, t2]

/-- VROT (R285): rotates the lanes. -/
def execVrot (p : Pred) (cnt : BitVec 4) (t1 : Tgt) (t2 : Tgt) (t3 : Tgt) (s : State) : Res :=
  onFire s fun d c => d.vecMove c p [t1, t2, t3] .none fun a _ => moved a fun i => a.at ((i + 16 - cnt.toNat) % 16)

/-- VREDA (R281): the sum of the valid lanes. -/
def execVreda (p : Pred) (t1 : Tgt) (t2 : Tgt) (s : State) : Res :=
  onFire s fun d c => d.vecRed c p [t1, t2] sumLanes

/-- VREDX (R281): the greatest valid lane. -/
def execVredx (p : Pred) (t1 : Tgt) (t2 : Tgt) (s : State) : Res :=
  onFire s fun d c => d.vecRed c p [t1, t2] (pickLane fMax)

/-- VREDN (R281): the least valid lane. -/
def execVredn (p : Pred) (t1 : Tgt) (t2 : Tgt) (s : State) : Res :=
  onFire s fun d c => d.vecRed c p [t1, t2] (pickLane fMin)

/-- VSCAN (R281): prefix sums of the valid lanes. -/
def execVscan (p : Pred) (t1 : Tgt) (t2 : Tgt) (s : State) : Res :=
  onFire s fun d c => d.ordinary c p .none [t1, t2] fun d =>
    if fpOk c.a then d.sendR c [t1, t2] (scanLanes c.a) else d.badFmt c [t1, t2]

/-- VMASK (R285): clears valid bits outside a mask. -/
def execVmask (p : Pred) (mask : BitVec 16) (t1 : Tgt) (t2 : Tgt) (t3 : Tgt) (s : State) : Res :=
  onFire s fun d c => d.vecMove c p [t1, t2, t3] .none fun a _ => moved a fun i => (a.vld i && mask.getLsbD i, a.lane i)

/-- VTOPK (R289): keeps the k best pairs of a stream. -/
def execVtopk (p : Pred) (k : BitVec 9) (t1 : Tgt) (t2 : Tgt) (t3 : Tgt) (s : State) : Res :=
  onFire s fun d c => match gateOf p .none c.fr with
    | .act =>
      if fpOk c.a then d.setOp c (.vtopk (topkAdd k.toNat c.sel c.a c.b)) else d.badFmt c [t1, t2, t3]
    | .pass t =>
      let d := (List.range (cdiv k.toNat 8)).foldl (fun d j => d.send c [t1, t2, t3] (topkTok c.sel j)) d
      (d.send c [t1, t2, t3] t).clearOp c
    | .null => d.send c [t1, t2, t3] Token.null
    | .err t => d.send c [t1, t2, t3] t

/-- VEXP2 (R280): lanewise 2^x. -/
def execVexp2 (p : Pred) (t1 : Tgt) (t2 : Tgt) (s : State) : Res :=
  onFire s fun d c => d.vec1 c p [t1, t2] fExp2

/-- VLOG2 (R280): lanewise log2 x. -/
def execVlog2 (p : Pred) (t1 : Tgt) (t2 : Tgt) (s : State) : Res :=
  onFire s fun d c => d.vec1 c p [t1, t2] fLog2

/-- VRCP (R280): lanewise 1 / x. -/
def execVrcp (p : Pred) (t1 : Tgt) (t2 : Tgt) (s : State) : Res :=
  onFire s fun d c => d.vec1 c p [t1, t2] fRcp

/-- VRSQ (R280): lanewise 1 / √x. -/
def execVrsq (p : Pred) (t1 : Tgt) (t2 : Tgt) (s : State) : Res :=
  onFire s fun d c => d.vec1 c p [t1, t2] fRsq

/-- VTANH (R280): lanewise tanh x. -/
def execVtanh (p : Pred) (t1 : Tgt) (t2 : Tgt) (s : State) : Res :=
  onFire s fun d c => d.vec1 c p [t1, t2] fTanh

/-- VSIGM (R280): lanewise the logistic function. -/
def execVsigm (p : Pred) (t1 : Tgt) (t2 : Tgt) (s : State) : Res :=
  onFire s fun d c => d.vec1 c p [t1, t2] fSigm

/-- VSINC (R280): lanewise sin πx / πx. -/
def execVsinc (p : Pred) (t1 : Tgt) (t2 : Tgt) (s : State) : Res :=
  onFire s fun d c => d.vec1 c p [t1, t2] fSinc

/-- VROPE (R287, R288): rotates eight pairs by a position. -/
def execVrope (p : Pred) (tbl : BitVec 8) (t1 : Tgt) (t2 : Tgt) (t3 : Tgt) (s : State) : Res :=
  onFire s fun d c => d.ordinary c p ⟨false, true, true⟩ [t1, t2, t3] fun d =>
    if fpOk c.a then
      (if 2 ^ 32 ≤ c.b.val.toNat then d.sendR c [t1, t2, t3] (laneTok [] 1 0, flPR)
       else d.sendR c [t1, t2, t3] (ropeTok ((tget (c.t.part, tbl.toNat) d.ropes).getD []) c.b.val.toNat c.a))
    else d.badFmt c [t1, t2, t3]

/-- VIADD (R286): elementwise x + y. -/
def execViadd (p : Pred) (w : LaneW) (t1 : Tgt) (t2 : Tgt) (s : State) : Res :=
  onFire s fun d c => d.vecInt c p [t1, t2] w fun _ x y => x + y

/-- VISUB (R286): elementwise x − y. -/
def execVisub (p : Pred) (w : LaneW) (t1 : Tgt) (t2 : Tgt) (s : State) : Res :=
  onFire s fun d c => d.vecInt c p [t1, t2] w fun n x y => x + 2 ^ n - y

/-- VIMUL (R286): elementwise the low half of x × y. -/
def execVimul (p : Pred) (w : LaneW) (t1 : Tgt) (t2 : Tgt) (s : State) : Res :=
  onFire s fun d c => d.vecInt c p [t1, t2] w fun _ x y => x * y

/-- VIAND (R286): elementwise x AND y. -/
def execViand (p : Pred) (w : LaneW) (t1 : Tgt) (t2 : Tgt) (s : State) : Res :=
  onFire s fun d c => d.vecInt c p [t1, t2] w fun _ x y => x &&& y

/-- VIOR (R286): elementwise x OR y. -/
def execVior (p : Pred) (w : LaneW) (t1 : Tgt) (t2 : Tgt) (s : State) : Res :=
  onFire s fun d c => d.vecInt c p [t1, t2] w fun _ x y => x ||| y

/-- VIXOR (R286): elementwise x XOR y. -/
def execVixor (p : Pred) (w : LaneW) (t1 : Tgt) (t2 : Tgt) (s : State) : Res :=
  onFire s fun d c => d.vecInt c p [t1, t2] w fun _ x y => x ^^^ y

/-- VISHL (R286): elementwise x × 2^y, 0 at the width or more. -/
def execVishl (p : Pred) (w : LaneW) (t1 : Tgt) (t2 : Tgt) (s : State) : Res :=
  onFire s fun d c => d.vecInt c p [t1, t2] w fun n x y => if n ≤ y then 0 else x <<< y

/-- VISHR (R286): elementwise x / 2^y, 0 at the width or more. -/
def execVishr (p : Pred) (w : LaneW) (t1 : Tgt) (t2 : Tgt) (s : State) : Res :=
  onFire s fun d c => d.vecInt c p [t1, t2] w fun n x y => if n ≤ y then 0 else x >>> y

/-- VIMIN (R286): elementwise the lesser, signed. -/
def execVimin (p : Pred) (w : LaneW) (t1 : Tgt) (t2 : Tgt) (s : State) : Res :=
  onFire s fun d c => d.vecInt c p [t1, t2] w fun n x y => if signedOf n x ≤ signedOf n y then x else y

/-- VIMAX (R286): elementwise the greater, signed. -/
def execVimax (p : Pred) (w : LaneW) (t1 : Tgt) (t2 : Tgt) (s : State) : Res :=
  onFire s fun d c => d.vecInt c p [t1, t2] w fun n x y => if signedOf n x ≤ signedOf n y then y else x

end Sys2Proof.Machine
end

