-- ==== Sys2Proof/Machine/Dot.lean ====
section
/-!
DEFINITION. The DOT family (R290..R293): block-scaled dot products with a fixed order of roundings.
-/

namespace Sys2Proof.Machine

/-- Elements per scale block of a geometry code (R257). -/
def geomSize (g : BitVec 2) : Nat := match g.toNat with | 1 => 8 | 2 => 16 | 3 => 32 | _ => 0

/-- Byte k of a payload. -/
def Token.byte (t : Token) (k : Nat) : Nat := (t.payload.extractLsb' (8 * k) 8).toNat

/-- Elements of a token of a format (R252). -/
def elemsPer (fmt : BitVec 4) : Nat := 512 / fmtWidth fmt.toNat

/-- A scale token that fits its element token (R175, R290). -/
def scaleOk (el : Token) (sc : Option Token) : Bool :=
  if el.geom = 0 then sc.isNone
  else
    match sc with
    | none => false
    | some s =>
      let n := elemsPer el.fmt / geomSize el.geom
      (s.fmt == 11 || s.fmt == 5) && s.geom == el.geom && (List.range (cdiv n 4)).all s.vld && s.vld 15

/-- The operands of DOT and DOTA (R290). -/
def dotOk (f : Firing) (a b : Token) : Bool :=
  2 ≤ a.fmt.toNat && a.fmt.toNat ≤ 8 && a.fmt == b.fmt && a.geom == b.geom &&
    (a.geom == 0 || (4 ≤ a.fmt.toNat && geomSize a.geom ≤ elemsPer a.fmt)) && scaleOk a f.sa && scaleOk b f.sb

/-- The operands of DOTI (R290). -/
def dotiOk (f : Firing) (a b : Token) : Bool :=
  (a.fmt == 0 || (7 ≤ a.fmt.toNat && a.fmt.toNat ≤ 10)) && a.fmt == b.fmt && a.geom == 0 && b.geom == 0 &&
    f.sa.isNone && f.sb.isNone

/-- A running sum of values: what has been met, and the finite part. -/
structure Acc32 where
  bad : Bool
  pos : Bool
  neg : Bool
  sum : Dy
  deriving DecidableEq, Repr

def Acc32.zero : Acc32 := ⟨false, false, false, Dy.zero⟩

/-- Add a value; `bad` when an invalid product or a meeting of infinities occurs. -/
def Acc32.add (s : Acc32) (x : FV × Bool) : Acc32 :=
  if x.2 then { s with bad := true }
  else match x.1 with
    | .inf false => { s with pos := true, bad := s.bad || s.neg }
    | .inf true => { s with neg := true, bad := s.bad || s.pos }
    | .num d => { s with sum := s.sum.add d }
    | .nan => s

/-- The value of a sum; an exact zero is +0 (R291). -/
def Acc32.value (s : Acc32) : FV :=
  if s.pos then .inf false else if s.neg then .inf true
  else .num (if s.sum.m = 0 then Dy.zero else s.sum)

/-- Element values of a token that count (R291): those whose lanes are valid in both. -/
def countedElems (a b : Token) (k0 n : Nat) : List (FV × FV) :=
  let e := fmtWidth a.fmt.toNat
  (List.range n).filterMap fun j =>
    let k := k0 + j
    if a.elemV e k && b.elemV e k then some (decodeElem a.fmt.toNat (a.elem e k), decodeElem b.fmt.toNat (b.elem e k))
    else none

/-- Block scale j of a side, 1 without a geometry (R291). -/
def blockScale (el : Token) (sc : Option Token) (j : Nat) : FV :=
  if el.geom = 0 then .num ⟨false, 1, 0⟩
  else match sc with | some s => decodeElem s.fmt.toNat (s.byte j) | none => .nan

/-- The tensor scale of a side (R291). -/
def tensorScale (el : Token) (sc : Option Token) : FV :=
  if el.geom = 0 then .num ⟨false, 1, 0⟩
  else match sc with | some s => decodeElem 2 ((s.lane 15).toNat % 2 ^ 16) | none => .nan

/-- DOT's value and flags (R291, R292). -/
def dotValue (f : Firing) (a b : Token) : LaneR :=
  let m := elemsPer a.fmt
  let g := if a.geom = 0 then m else geomSize a.geom
  let n := m / g
  let blocks := (List.range n).map fun j =>
    (countedElems a b (j * g) g, blockScale a f.sa j, blockScale b f.sb j)
  let ta := tensorScale a f.sa
  let tb := tensorScale b f.sb
  if ta.isNan || tb.isNan || (blocks.any fun x => x.2.1.isNan || x.2.2.isNan || x.1.any fun y => y.1.isNan || y.2.isNan)
  then (qnan, 0)
  else
    let T := blocks.foldl (fun (T : Acc32) x =>
      let S := x.1.foldl (fun (s : Acc32) y => s.add (y.1.mul y.2)) Acc32.zero
      let sp := x.2.1.mul x.2.2
      if S.bad || sp.2 then { T with bad := true } else T.add (S.value.mul sp.1)) Acc32.zero
    if T.bad then (qnan, flNV)
    else
      let r1 := lane32 T.value
      let tp := ta.mul tb
      if tp.2 then (qnan, flNV)
      else
        let ts := lane32 tp.1
        let o := (fp32 r1.1).mul (fp32 ts.1)
        if o.2 then (qnan, flNV)
        else
          let out := lane32 o.1
          (out.1, r1.2 ||| ts.2 ||| out.2)

/-- A result in lane 0 alone, FMT 1 (R291). -/
def dotTok (x : BitVec 32) : Token := dataTok [x] 1 1 0

/-- DOTA's third rounding (R291, R292). -/
def dotaValue (f : Firing) (a b : Token) (p : BitVec 32) : LaneR :=
  if (fp32 p).isNan then (qnan, 0)
  else
    let o := dotValue f a b
    if (fp32 o.1).isNan then o
    else
      let r := fAdd o.1 p
      (r.1, o.2 ||| r.2)

/-- DOTI's exact integer sum (R293). -/
def dotiValue (a b : Token) (p : Word) : Word :=
  let e := fmtWidth a.fmt.toNat
  let val (t : Token) (k : Nat) : Int := if t.fmt = 9 then Int.ofNat (t.elem e k) else signedOf e (t.elem e k)
  p + BitVec.ofInt 64 ((List.range (elemsPer a.fmt)).foldl (fun s k =>
    if a.elemV e k && b.elemV e k then s + val a k * val b k else s) 0)

/-- DOT (R290..R292): a block-scaled dot product. -/
def execDot (p : Pred) (t1 : Tgt) (t2 : Tgt) (s : State) : Res :=
  onFire s fun d c => d.ordinary c p .none [t1, t2] fun d =>
    if dotOk c.fr c.a c.b then
      let r := dotValue c.fr c.a c.b
      d.sendR c [t1, t2] (dotTok r.1, r.2)
    else d.badFmt c [t1, t2]

/-- DOTA (R290..R292): DOT added to an FP32 scalar with a third rounding. -/
def execDota (t1 : Tgt) (t2 : Tgt) (s : State) : Res :=
  onFire s fun d c => d.ordinary c .always ⟨false, false, true⟩ [t1, t2] fun d =>
    if dotOk c.fr c.a c.b then
      let r := dotaValue c.fr c.a c.b (c.p.lane 0)
      d.sendR c [t1, t2] (dotTok r.1, r.2)
    else d.badFmt c [t1, t2]

/-- DOTI (R290, R293): an exact integer dot product added to a 64-bit scalar. -/
def execDoti (t1 : Tgt) (t2 : Tgt) (s : State) : Res :=
  onFire s fun d c => d.ordinary c .always ⟨false, false, true⟩ [t1, t2] fun d =>
    if dotiOk c.fr c.a c.b then d.send c [t1, t2] (scalarTok (dotiValue c.a c.b c.p.val))
    else d.badFmt c [t1, t2]

end Sys2Proof.Machine
end

