-- ==== Sys2Proof/Machine/Engines.lean ====
section
/-!
DEFINITION. Instructions that fork engine work, enqueue task records, wait on completion objects and
change weight-store shelves (R190..R199).
-/

namespace Sys2Proof.Machine

/-- COPY, COPY2D and XFER (R192). -/
def Dev.engineFire (d : Dev) (c : Fx) (m : Pred) (kind : EngKind) : Dev :=
  d.sink c m .all [] fun d =>
    let a := c.a.val
    let b := c.b.val
    if a.toNat % 32 ≠ 0 then d.trapAt c .align a
    else if b.toNat % 16 ≠ 0 then d.trapAt c .align b
    else d.checkSink c a 32 1 .read fun d _ _ =>
      d.checkSink c b 16 1 .write fun d pa _ => d.buffer c (.engine kind a 0 b pa [])

/-- WSSEAL and WSOPEN (R199): the page must be a writable one of kind shelf. -/
def Dev.shelfFire (d : Dev) (c : Fx) (m : Pred) (close : Bool) : Dev :=
  d.sink c m .all [] fun d =>
    let a := c.a.val
    if a.toNat % 2 ^ 26 ≠ 0 then d.trapAt c .align a
    else
      match d.leafFor c.ctx a with
      | .error e => d.trapAt c e.cause (failAddr e a)
      | .ok l =>
        if l.nr then d.trapAt c .pageFault a
        else if !l.allows .write c.x.cr.sys || l.kind ≠ 2 then d.trapAt c .protection a
        else
          let d := (d.setAD l true).fill c.ctx a { l with a := true, d := true }
          d.buffer c (.shelf (l.at a) close)

/-- The checks of WAITC and TESTC (R195, R196). -/
def Dev.checkObject (d : Dev) (c : Fx) (k : Dev → Nat → Dev) : Dev :=
  let a := c.a.val
  if a.toNat % 16 ≠ 0 then d.trapAt c .align a
  else d.checkSink c a 16 1 .read fun d pa _ => k d pa

/-! ### The instructions -/

/-- COPY (R192): forks a copy at commit. -/
def execCopy (p : Pred) (s : State) : Res :=
  onFire s fun d c => d.engineFire c p .copy

/-- COPY2D (R192): forks a copy of rows at commit. -/
def execCopy2d (p : Pred) (s : State) : Res :=
  onFire s fun d c => d.engineFire c p .copy2d

/-- XFER (R192): forks a transfer with a peer at commit. -/
def execXfer (p : Pred) (s : State) : Res :=
  onFire s fun d c => d.engineFire c p .xfer

/-- TASK (R198): a task record enqueued at commit. -/
def execTask (p : Pred) (s : State) : Res :=
  onFire s fun d c => d.sink c p .all [] fun d =>
    if c.a.val.toNat % 64 ≠ 0 then d.trapAt c .align c.a.val
    else d.checkSink c c.a.val 64 1 .write fun d pa _ => d.buffer c (.task c.a.val pa)

/-- WAITC (R195): the thread waits after commit until the object's pending count is zero. -/
def execWaitc (p : Pred) (s : State) : Res :=
  onFire s fun d c => d.sink c p .all [] fun d => d.oneParker c fun d =>
    d.checkObject c fun d pa => (d.mark c fun m => { m with waitc := true }).buffer c (.waitc c.a.val pa)

/-- TESTC (R196): 1 if the object's pending count is zero, which is then an acquire. -/
def execTestc (p : Pred) (t1 : Tgt) (t2 : Tgt) (s : State) : Res :=
  onFire s fun d c => d.ordinaryQ c p .all [t1, t2] fun d =>
    d.checkObject c fun d pa =>
      if d.num pa 5 = 0 then (d.mark c fun m => { m with acq := true }).sendQ c [t1, t2] (scalarTok 1)
      else d.sendQ c [t1, t2] (scalarTok 0)

/-- WSSEAL (R199): an open shelf becomes pending-sealed at commit. -/
def execWsseal (p : Pred) (s : State) : Res :=
  onFire s fun d c => d.shelfFire c p true

/-- WSOPEN (R199): a sealed shelf becomes open at commit. -/
def execWsopen (p : Pred) (s : State) : Res :=
  onFire s fun d c => d.shelfFire c p false


end Sys2Proof.Machine
end

