-- ==== Sys2Proof/Machine/Memory.lean ====
section
/-!
DEFINITION. Loads, stores, gather, scatter and address generators (R169..R184).
-/

namespace Sys2Proof.Machine

/-! ### Loads -/

/-- Bytes as a scalar, zero- or sign-extended to 64 bits (R173). -/
def zext8 (bs : List Byte) : Word := BitVec.ofNat 64 (natOfBytes bs)
def sext8 (bs : List Byte) : Word :=
  let n := 8 * bs.length
  let v := natOfBytes bs
  BitVec.ofNat 64 (if v < 2 ^ (n - 1) then v else v + 2 ^ 64 - 2 ^ n)

/-- One read: its token is sent in request order, and a failure is an error token (R170, R183). -/
def Dev.loadFire (d : Dev) (c : Fx) (tgts : List Tgt) (va : Word) (n align : Nat) (u : Use) (gen : Bool)
    (out : List Byte → Leaf → Token) : Dev :=
  (d.loadAt c va n align u).andThen c (fun d e => d.loadFail c tgts va e) fun d pa l =>
    let (d, bs) := d.loadBytes c.i pa n
    d.request c 1 gen (out bs l) [l.entry]

/-- LDB..LDD (R173). -/
def Dev.loadScalar (d : Dev) (c : Fx) (m : Pred) (tgts : List Tgt) (off : BitVec 16) (n : Nat) (ext : List Byte → Word) : Dev :=
  d.ordinaryQ c m .all tgts fun d => d.loadFire c tgts (c.a.val + sx off) n n .scalarLoad false fun bs _ => scalarTok (ext bs)

/-- A 64-byte token with the format of its page (R174). -/
def pageTok (bs : List Byte) (l : Leaf) : Token := tokenOfBytes bs (tagEfmt l.tag) (tagGeom l.tag)

/-- Lanes of a scale token (R175): the scale bytes, then the tensor scale in lane 15. -/
def scaleTok (bs ts : List Byte) (l : Leaf) : Token :=
  let n := cdiv bs.length 4
  let lanes := (List.range 16).map fun i =>
    if i < n then BitVec.ofNat 32 (natOfBytes ((bs.drop (4 * i)).take 4))
    else if i = 15 then BitVec.ofNat 32 (natOfBytes ts) else 0
  dataTok lanes (validOf ((List.range 16).map fun i => i < n || i == 15)) (if tagSfmt l.tag then 5 else 11) (tagGeom l.tag)

/-- LDVS (R175). -/
def Dev.scaleLoad (d : Dev) (c : Fx) (tgts : List Tgt) (va : Word) : Dev :=
  match d.check c.ctx va 64 64 .tokenLoad with
  | (d, .error e) => d.loadFail c tgts va e
  | (d, .ok (_, l)) =>
    let e := fmtWidth (tagEfmt l.tag).toNat
    let m := 512 / e
    let g := geomSize (tagGeom l.tag)
    if g = 0 || m < g then d.sendQ c tgts (errTok .format va)
    else
      let n := m / g
      let sb := tagSbase l.tag
      let sa := sb + BitVec.ofNat 64 (64 + va.toNat % l.size * 8 / e / g)
      -- both reads are checked before either is made
      match d.check c.ctx sb 2 1 .tokenLoad with
      | (d, .error e) => d.loadFail c tgts sb e
      | (d, .ok _) =>
        match d.check c.ctx sa n 1 .tokenLoad with
        | (d, .error e) => d.loadFail c tgts sa e
        | (d, .ok _) =>
          (d.loadAt c sb 2 1 .tokenLoad).andThen c (fun d e => d.loadFail c tgts sb e) fun d pt lt =>
            (d.loadAt c sa n 1 .tokenLoad).andThen c (fun d e => d.loadFail c tgts sa e) fun d ps ls =>
              let (d, ts) := d.loadBytes c.i pt 2
              let (d, bs) := d.loadBytes c.i ps n
              d.request c 2 false (scaleTok bs ts l) [l.entry, lt.entry, ls.entry]

/-! ### Gather and scatter (R177, R178) -/

/-- Addresses of the lanes that `sel` holds. -/
def laneAddrs (a : Word) (offs : Token) (sel : Nat → Bool) : List (Nat × Word) :=
  ((List.range 16).filter sel).map fun i => (i, a + sx (offs.lane i))

/-- Check every lane: the first failure, or the lanes with their places (R177). -/
def Dev.checkLanes (d : Dev) (c : Fx) (u : Use) : List (Nat × Word) → Dev × Except (TErr × Word) (List (Nat × Word × Nat × Leaf))
  | [] => (d, .ok [])
  | (i, va) :: r =>
    match d.check c.ctx va 4 4 u with
    | (d, .error e) => (d, .error (e, va))
    | (d, .ok (pa, l)) =>
      match d.checkLanes c u r with
      | (d, .ok xs) => (d, .ok ((i, va, pa, l) :: xs))
      | r => r

/-- Tracked reads of the lanes, in order. -/
def Dev.arriveLanes (d : Dev) (c : Fx) : List (Nat × Word × Nat × Leaf) → Got
  | [] => .ok d 0 Leaf.none_
  | (_, va, pa, l) :: r =>
    if d.inRefresh l pa then .wait d
    else if l.kind = 2 then d.arriveLanes c r
    else
      match d.arriveFx c pa 4 va false false l with
      | .ok d _ _ => (d.noteRead pa 4).arriveLanes c r
      | g => g

/-- GATH (R177). -/
def Dev.gather (d : Dev) (c : Fx) (tgts : List Tgt) : Dev :=
  match d.checkLanes c .tokenLoad (laneAddrs c.a.val c.b c.b.vld) with
  | (d, .error (e, va)) => d.loadFail c tgts va e
  | (d, .ok xs) =>
    (d.arriveLanes c xs).andThen c (fun d _ => d) fun d _ _ =>
      let r := xs.foldl (fun (r : Dev × List (BitVec 32)) x =>
        let (d, bs) := r.1.loadBytes c.i x.2.2.1 4
        (d, r.2.set x.1 (BitVec.ofNat 32 (natOfBytes bs)))) (d, List.replicate 16 0)
      let lines := (xs.map fun x => x.2.2.1 / 64).eraseDups.length
      r.1.request c lines false (dataTok r.2 c.b.valid 0 0) (xs.map fun x => x.2.2.2.entry)

/-- SCAT's stores, lane by lane, in rising order (R178). -/
def Dev.scatterLanes (d : Dev) (c : Fx) : List (Nat × Word) → Dev
  | [] => d
  | (i, va) :: r =>
    match d.storeAt c va (bytesOfNat 4 (c.p.lane i).toNat) 4 .tokenStore with
    | .ok d _ _ => d.scatterLanes c r
    | .wait d => d.block c .access
    | .err d _ => d
    | .gone d => d

/-- SCAT (R178): every lane is checked before any is stored, and the lowest that fails aborts the instance. -/
def Dev.scatter (d : Dev) (c : Fx) : Dev :=
  let lanes := laneAddrs c.a.val c.b fun i => c.b.vld i && c.p.vld i
  match d.checkLanes c .tokenStore lanes with
  | (d, .error (e, va)) => d.trapAt c e.cause (failAddr e va)
  | (d, .ok _) => d.scatterLanes c lanes

/-! ### Stores (R173, R176) -/

/-- STB..STD (R173). -/
def Dev.storeScalar (d : Dev) (c : Fx) (m : Pred) (off : BitVec 16) (n : Nat) : Dev :=
  d.once c fun d => d.sink c m .all [] fun d =>
    (d.storeAt c (c.a.val + sx off) (bytesOfNat n c.b.val.toNat) n .scalarStore).andThen c (fun d _ => d) fun d _ _ => d

/-- Tracked writes of a token's valid lanes (R176, R206). -/
def Dev.arriveStv (d : Dev) (c : Fx) (va : Word) (pa : Nat) (l : Leaf) : List (Nat × Nat) → Got
  | [] => .ok d pa l
  | (q, n) :: r =>
    match d.arriveFx c q n (va + BitVec.ofNat 64 (q - pa)) true false l with
    | .ok d _ _ => d.arriveStv c va pa l r
    | g => g

/-- STV (R176). -/
def Dev.storeToken (d : Dev) (c : Fx) (va : Word) : Dev :=
  match d.check c.ctx va 64 64 .tokenStore with
  | (d, .error e) => d.trapAt c e.cause (failAddr e va)
  | (d, .ok (pa, l)) =>
    (d.arriveStv c va pa l (laneRuns c.b pa)).andThen c (fun d _ => d) fun d _ _ =>
      let cells := laneCells c.b pa
      match d.reserveCells c.i c.idx c.t.part c.t.rcb va cells l.cls with
      | (d, false) => d
      | (d, true) => d.buffer c (.store cells l.cls l.sideOf)

/-! ### Address generators (R179..R182) -/

/-- The descriptor of an AGEN or AGENX, as its placed image holds it (R180). -/
def Fx.affine (c : Fx) : Nat := match tget c.idx c.r.image.descs with | some v => v.toNat | none => 0

def affAsz (v : Nat) : Nat := nfld v 367 365
def affStops (v : Nat) : Bool := v.testBit 364
def affDims (v : Nat) : Nat := nfld v 361 360 + 1
def affCnt (v k : Nat) : Nat := nfld v (256 + 16 * k + 15) (256 + 16 * k)
def affStr (v k : Nat) : Word := sx (BitVec.ofNat 32 (nfld v (128 + 32 * k + 31) (128 + 32 * k)))

/-- One access of a generator (R179, R181). -/
def Dev.genAccess (d : Dev) (c : Fx) (tgts : List Tgt) (v : Nat) (va : Word) : Dev :=
  if affAsz v = 6 then d.loadFire c tgts va 64 64 .tokenLoad true pageTok
  else
    let n := 2 ^ affAsz v
    d.loadFire c tgts va n n .tokenLoad true fun bs _ => scalarTok (zext8 bs)

/-- The offset of a point (R181). -/
def affOffset (v : Nat) (ix : List Nat) : Word :=
  (List.range ix.length).foldl (fun s k => s + affStr v k * BitVec.ofNat 64 (ix[k]?.getD 0)) 0

/-- The number of dimensions, from 0 up, that stand at their last index. -/
def endedDims (v : Nat) : Nat → List Nat → Nat
  | _, [] => 0
  | k, i :: r => if i = affCnt v k then 1 + endedDims v (k + 1) r else 0

/-- The point after `ix`; none after the last. -/
def nextPoint (v : Nat) : Nat → List Nat → Option (List Nat)
  | _, [] => none
  | k, i :: r => if i < affCnt v k then some ((i + 1) :: r) else (nextPoint v (k + 1) r).map (0 :: ·)

/-- The token after a point (R181): a stop of the highest dimension ended, or done after the last. -/
def pointEnd (v : Nat) (ix : List Nat) : Option Token :=
  let n := endedDims v 0 ix
  if n = ix.length then some doneTok
  else if n ≠ 0 && affStops v then some (stopTok (n - 1))
  else none

/-- AGEN at one point of its pattern. An access that waits leaves the pattern where it is. -/
def Dev.agenPoint (d : Dev) (c : Fx) (tgts : List Tgt) (base : Word) (ix : List Nat) : Dev :=
  let v := c.affine
  let d := d.setOp c (.agen base ix)
  let d := d.genAccess c tgts v (base + affOffset v ix)
  match d.inst c.i with
  | none => d
  | some x =>
    if x.blocked.any fun b => b.1.idx == c.idx then d
    else
      let d := match pointEnd v ix with | some t => d.sendQ c tgts t | none => d
      match nextPoint v 0 ix with
      | some nx => d.setOp c (.agen base nx)
      | none => d.clearOp c

/-- AGEN (R181): a firing on data begins a pattern, and later ones go on with it. -/
def Dev.agenFire (d : Dev) (c : Fx) (m : Pred) (tgts : List Tgt) : Dev :=
  match c.x.opst c.idx with
  | some (.agen base ix) => d.agenPoint c tgts base ix
  | _ => d.ordinaryQ c m .all tgts fun d => d.agenPoint c tgts c.a.val (List.replicate (affDims c.affine) 0)

/-- AGENX (R182). -/
def Dev.agenxFire (d : Dev) (c : Fx) (m : Pred) (tgts : List Tgt) : Dev :=
  d.ordinaryQ c m .all tgts fun d =>
    let v := c.affine
    let base := BitVec.ofNat 64 (nfld v 63 0) + (if v.testBit 363 then kReg c.x.k 2 else 0)
    let va := base + c.a.val * affStr v 0
    if nfld v 351 320 ≤ c.a.val.toNat then d.sendQ c tgts (errTok .bounds va)
    else d.genAccess c tgts v va

/-! ### The instructions -/

/-- LDB (R173): a byte, sign-extended. -/
def execLdb (p : Pred) (off : BitVec 16) (t1 : Tgt) (t2 : Tgt) (t3 : Tgt) (s : State) : Res :=
  onFire s fun d c => d.loadScalar c p [t1, t2, t3] off 1 sext8

/-- LDBU (R173): a byte, zero-extended. -/
def execLdbu (p : Pred) (off : BitVec 16) (t1 : Tgt) (t2 : Tgt) (t3 : Tgt) (s : State) : Res :=
  onFire s fun d c => d.loadScalar c p [t1, t2, t3] off 1 zext8

/-- LDH (R173): 2 bytes, sign-extended. -/
def execLdh (p : Pred) (off : BitVec 16) (t1 : Tgt) (t2 : Tgt) (t3 : Tgt) (s : State) : Res :=
  onFire s fun d c => d.loadScalar c p [t1, t2, t3] off 2 sext8

/-- LDHU (R173): 2 bytes, zero-extended. -/
def execLdhu (p : Pred) (off : BitVec 16) (t1 : Tgt) (t2 : Tgt) (t3 : Tgt) (s : State) : Res :=
  onFire s fun d c => d.loadScalar c p [t1, t2, t3] off 2 zext8

/-- LDW (R173): 4 bytes, sign-extended. -/
def execLdw (p : Pred) (off : BitVec 16) (t1 : Tgt) (t2 : Tgt) (t3 : Tgt) (s : State) : Res :=
  onFire s fun d c => d.loadScalar c p [t1, t2, t3] off 4 sext8

/-- LDWU (R173): 4 bytes, zero-extended. -/
def execLdwu (p : Pred) (off : BitVec 16) (t1 : Tgt) (t2 : Tgt) (t3 : Tgt) (s : State) : Res :=
  onFire s fun d c => d.loadScalar c p [t1, t2, t3] off 4 zext8

/-- LDD (R173): 8 bytes. -/
def execLdd (p : Pred) (off : BitVec 16) (t1 : Tgt) (t2 : Tgt) (t3 : Tgt) (s : State) : Res :=
  onFire s fun d c => d.loadScalar c p [t1, t2, t3] off 8 zext8

/-- STB (R173): 1 byte written at commit. -/
def execStb (p : Pred) (off : BitVec 16) (s : State) : Res :=
  onFire s fun d c => d.storeScalar c p off 1

/-- STH (R173): 2 bytes written at commit. -/
def execSth (p : Pred) (off : BitVec 16) (s : State) : Res :=
  onFire s fun d c => d.storeScalar c p off 2

/-- STW (R173): 4 bytes written at commit. -/
def execStw (p : Pred) (off : BitVec 16) (s : State) : Res :=
  onFire s fun d c => d.storeScalar c p off 4

/-- STD (R173): 8 bytes written at commit. -/
def execStd (p : Pred) (off : BitVec 16) (s : State) : Res :=
  onFire s fun d c => d.storeScalar c p off 8

/-- LDV (R174): 64 bytes as a token in the page's format. -/
def execLdv (p : Pred) (off : BitVec 16) (t1 : Tgt) (t2 : Tgt) (t3 : Tgt) (s : State) : Res :=
  onFire s fun d c => d.ordinaryQ c p .all [t1, t2, t3] fun d =>
    d.loadFire c [t1, t2, t3] (c.a.val + sx off) 64 64 .tokenLoad false pageTok

/-- LDVS (R175): the scale token of the element token at the address. -/
def execLdvs (p : Pred) (off : BitVec 16) (t1 : Tgt) (t2 : Tgt) (t3 : Tgt) (s : State) : Res :=
  onFire s fun d c => d.ordinaryQ c p .all [t1, t2, t3] fun d =>
    d.scaleLoad c [t1, t2, t3] (c.a.val + sx off)

/-- STV (R176): a token's valid lanes written at commit. -/
def execStv (p : Pred) (off : BitVec 16) (s : State) : Res :=
  onFire s fun d c => d.once c fun d => d.sink c p ⟨true, false, true⟩ [] fun d =>
    d.storeToken c (c.a.val + sx off)

/-- GATH (R177): 4 bytes for each valid lane of offsets. -/
def execGath (p : Pred) (t1 : Tgt) (t2 : Tgt) (s : State) : Res :=
  onFire s fun d c => d.ordinaryQ c p ⟨true, false, true⟩ [t1, t2] fun d => d.gather c [t1, t2]

/-- SCAT (R178): 4 bytes for each lane valid in offsets and data, written at commit. -/
def execScat (s : State) : Res :=
  onFire s fun d c => d.once c fun d => d.sink c .always ⟨true, false, false⟩ [] fun d =>
    d.scatter c

/-- AGEN (R181): an access for each point of an affine pattern. -/
def execAgen (p : Pred) (_lit : BitVec 32) (t1 : Tgt) (t2 : Tgt) (t3 : Tgt) (s : State) : Res :=
  onFire s fun d c => d.agenFire c p [t1, t2, t3]

/-- AGENX (R182): an access for each index. -/
def execAgenx (p : Pred) (_lit : BitVec 32) (t1 : Tgt) (t2 : Tgt) (t3 : Tgt) (s : State) : Res :=
  onFire s fun d c => d.agenxFire c p [t1, t2, t3]


end Sys2Proof.Machine
end

