-- ==== Sys2Proof/Machine/Fibres.lean ====
section
/-!
DEFINITION. Fibre operators (R322..R347).
-/

namespace Sys2Proof.Machine

/-! ### Tokens on a fibre edge (R322, R332) -/

/-- What a data token is on a fibre edge. -/
inductive Fib where
  | coord | hole | bad
  deriving DecidableEq, Repr

/-- The layout of a data token on a fibre edge (R332). -/
def fibOf (t : Token) : Fib :=
  if t.fmt ≠ 0 || t.geom ≠ 0 then .bad
  else if t.valid.extractLsb' 0 4 = 0xF then .coord
  else if t.valid.extractLsb' 0 4 = 1 then .hole else .bad

/-- Lanes of a coordinate token (R322). -/
def Token.coord (t : Token) : Nat := (t.lane 0).toNat
def Token.ref (t : Token) : Nat := (t.lane 1).toNat
def Token.descAddr (t : Token) : Word := t.lane 3 ++ t.lane 2

/-- A coordinate token (R322). -/
def coordTok (c k : Nat) (next : Word) : Token :=
  dataTok [BitVec.ofNat 32 c, BitVec.ofNat 32 k, next.extractLsb' 0 32, next.extractLsb' 32 32] 0xF 0 0

/-- A hole (R332). -/
def holeTok (c : Nat) : Token := dataTok [BitVec.ofNat 32 c] 1 0 0

/-- Above the coordinate before it, if there is one. -/
def rises (prev : Option Nat) (c : Nat) : Bool := match prev with | none => true | some p => p < c

/-- The reserved bits of a level descriptor are zero (R323). -/
def levelOk (v : Nat) : Bool := nfld v 511 320 == 0 && nfld v 31 3 == 0

/-! ### Errors and draining (R337) -/

def doneIn (t : Option Token) : Bool := isKind .done t

/-- Send an error, then drain the slots that have still to deliver done; done follows at once when none has. -/
def Dev.failDrain (d : Dev) (c : Fx) (tgts : List Tgt) (e : Token) (a b : Bool) : Dev :=
  let d := d.sendQ c tgts e
  if a || b then d.setOp c (.drain a b) else (d.clearOp c).sendQ c tgts doneTok

/-- A firing of an operator that drains: tokens are discarded until every slot has delivered done. -/
def Dev.drainStep (d : Dev) (c : Fx) (tgts : List Tgt) (a b : Bool) : Dev :=
  let a := a && !doneIn c.fr.a
  let b := b && !doneIn c.fr.b
  if a || b then d.setOp c (.drain a b) else (d.clearOp c).sendQ c tgts doneTok

/-- An error of an operator with one input slot. -/
def Dev.fail1 (d : Dev) (c : Fx) (tgts : List Tgt) (e : Token) : Dev := d.failDrain c tgts e (!doneIn c.fr.a) false

/-- An error of an operator with two. -/
def Dev.fail2 (d : Dev) (c : Fx) (tgts : List Tgt) (e : Token) : Dev :=
  d.failDrain c tgts e (!doneIn c.fr.a) (!doneIn c.fr.b)

def grammar : Token := errTok .grammar 0

/-- One 4-byte or 64-byte load of a fibre operator (R340, R344). -/
def Dev.fibreRead (d : Dev) (c : Fx) (va : Word) (n : Nat) (k : Dev → Nat → Dev) (fail : Dev → Token → Dev) : Dev :=
  (d.loadAt c va n n (if n = 64 then .tokenLoad else .scalarLoad)).andThen c
    (fun d e => fail (d.loadRecord c e va) (errTok e (failAddr e va))) fun d pa _ =>
      let (d, bs) := d.loadBytes c.i pa n
      k d (natOfBytes bs)

/-! ### FSCAN (R324, R340) -/

/-- The closing stop that FSCAN holds. -/
def Inst.heldStop (x : Inst) (idx : Nat) : Bool := match x.opst idx with | some (.fscan h) => h | _ => false

/-- Send the stop held, if there is one. -/
def Dev.sendHeld (d : Dev) (c : Fx) (tgts : List Tgt) : Dev :=
  if c.x.heldStop c.idx then d.sendQ c tgts (stopTok 0) else d

/-- Data at FSCAN: the descriptor and the segment are read before anything is sent. -/
def Dev.scanBegin (d : Dev) (c : Fx) (tgts : List Tgt) (level : Nat) : Dev :=
  let t := c.a
  let fail (d : Dev) (e : Token) : Dev := (d.sendHeld c tgts).fail1 c tgts e
  match fibOf t with
  | .bad => fail d grammar
  | .hole => (d.sendHeld c tgts).setOp c (.fscan true)
  | .coord =>
    let da := t.descAddr
    let r := t.ref
    d.fibreRead c da 64 (fail := fail) fun d v =>
      if nfld v 2 0 ≠ level || !levelOk v then fail d (errTok .perm da)
      else if nfld v 63 32 ≤ r then fail d (errTok .bounds da)
      else
        let pos := BitVec.ofNat 64 (nfld v 127 64) + BitVec.ofNat 64 (4 * r)
        d.fibreRead c pos 4 (fail := fail) fun d lo =>
          d.fibreRead c (pos + 4) 4 (fail := fail) fun d hi =>
            if hi < lo then fail d (errTok .bounds da)
            else
              let d := d.sendHeld c tgts
              if lo = hi then d.setOp c (.fscan true)
              else d.setOp c (.fscanSeg lo hi (BitVec.ofNat 64 (nfld v 191 128)) (BitVec.ofNat 64 (nfld v 255 192)) none)

/-- FSCAN inside a segment: one coordinate. -/
def Dev.scanNext (d : Dev) (c : Fx) (tgts : List Tgt) (k last : Nat) (crd next : Word) (prev : Option Nat) : Dev :=
  d.fibreRead c (crd + BitVec.ofNat 64 (4 * k)) 4 (fail := fun d e => d.failDrain c tgts e true false) fun d x =>
    if !rises prev x then d.failDrain c tgts grammar true false
    else
      let d := d.request c 1 false (coordTok x k next) (d.leafsAt c [crd + BitVec.ofNat 64 (4 * k)])
      if k + 1 < last then d.setOp c (.fscanSeg (k + 1) last crd next (some x)) else d.setOp c (.fscan true)

/-- FSCAN. -/
def Dev.fscanFire (d : Dev) (c : Fx) (m : Pred) (tgts : List Tgt) (level : Nat) : Dev :=
  match c.x.opst c.idx with
  | some (.drain a b) => d.drainStep c tgts a b
  | some (.fscanSeg k last crd next prev) => d.scanNext c tgts k last crd next prev
  | _ =>
    match gateOf m .none c.fr with
    | .null => d.sendQ c tgts Token.null
    | .err e => d.fail1 c tgts e
    | .act => d.scanBegin c tgts level
    | .pass t =>
      if t.kind = .done then ((d.sendHeld c tgts).sendQ c tgts doneTok).setOp c (.fscan false)
      else if t.level = 7 then d.fail1 c tgts grammar
      else (d.sendQ c tgts (stopTok (t.level.toNat + 1))).setOp c (.fscan false)

/-! ### FISECT and FUNION (R326, R342, R343) -/

/-- Send one token to each of two targets. -/
def Dev.sendPair (d : Dev) (c : Fx) (t1 t2 : Tgt) (x y : Token) : Dev :=
  (d.modInst c.i fun i => { i with held := i.held ++ outputs c [t1] x ++ outputs c [t2] y }).pump c.i

/-- What FISECT or FUNION makes of the tokens it took; `both` is what it sends for a match, and `one`
for a token of one side alone. -/
def Dev.pairFire (d : Dev) (c : Fx) (t1 t2 : Tgt) (one : Dev → Bool → Token → Dev) : Dev :=
  let tgts := [t1, t2]
  match c.x.opst c.idx with
  | some (.drain a b) => d.drainStep c tgts a b
  | st =>
    let (pa, pb) := match st with | some (.fpair x y) => (x, y) | _ => (none, none)
    let bad (d : Dev) : Dev := d.fail2 c tgts grammar
    match c.fr.a, c.fr.b with
    | some t, none =>
      (match t.kind with
       | .null => d
       | .error => d.fail2 c tgts t
       | _ => if rises pa t.coord then (one d true t).setOp c (.fpair (some t.coord) pb) else bad d)
    | none, some t =>
      (match t.kind with
       | .null => d
       | .error => d.fail2 c tgts t
       | _ => if rises pb t.coord then (one d false t).setOp c (.fpair pa (some t.coord)) else bad d)
    | some x, some y =>
      if x.kind = .data && y.kind = .data then
        (if rises pa x.coord && rises pb y.coord then
          (d.sendPair c t1 t2 x y).setOp c (.fpair (some x.coord) (some y.coord)) else bad d)
      else if x.kind = .stop && y.kind = .stop && x.level == y.level then (d.sendPair c t1 t2 x y).setOp c (.fpair none none)
      else if x.kind = .done && y.kind = .done then (d.sendPair c t1 t2 x y).clearOp c
      else bad d
    | none, none => d

/-! ### FRPT (R325, R341) -/

/-- FRPT. -/
def Dev.frptFire (d : Dev) (c : Fx) (tgts : List Tgt) : Dev :=
  match c.x.opst c.idx with
  | some (.drain a b) => d.drainStep c tgts a b
  | st =>
    let held := match st with | some (.frpt h) => h | _ => none
    match c.fr.a, c.fr.b with
    | some t, none =>
      (match t.kind, held with
       | .null, _ => d
       | .error, _ => d.fail2 c tgts t
       | .data, some h => d.send c tgts h
       | .stop, some _ => (d.send c tgts t).setOp c (.frpt none)
       | _, _ => d.fail2 c tgts grammar)
    | none, some _ => d
    | some t, some u =>
      if u.kind = .error then d.fail2 c tgts u
      else
        (match t.kind with
         | .data => if u.kind = .data then (d.send c tgts u).setOp c (.frpt (some u)) else d.fail2 c tgts grammar
         | .stop => if u.kind = .data then d.send c tgts t else d.fail2 c tgts grammar
         | .done => if u.kind = .done then (d.send c tgts doneTok).clearOp c else d.fail2 c tgts grammar
         | _ => d)
    | none, none => d

/-! ### FRED (R328, R345) -/

/-- The sum of a fibre: R281's special values, but every exact zero sum is +0 (R328). -/
def fredSum (xs : List (BitVec 32)) : LaneR :=
  let r := sumLanes xs
  if r.1 = 0x80000000 then (0, r.2) else r

/-- The value of a fibre (R345). -/
def fredValue (op : RedOp) (xs : List (BitVec 32)) : LaneR :=
  match op with
  | .add => fredSum xs
  | .max => xs.foldl (fun (a : LaneR) x => if (fp32 a.1).isNan then a else fMax a.1 x) (ninf, 0)
  | .min => xs.foldl (fun (a : LaneR) x => if (fp32 a.1).isNan then a else fMin a.1 x) (pinf, 0)

/-- FRED. -/
def Dev.fredFire (d : Dev) (c : Fx) (tgts : List Tgt) (op : RedOp) : Dev :=
  match c.x.opst c.idx with
  | some (.drain a b) => d.drainStep c tgts a b
  | st =>
    let (xs, open_) := match st with | some (.fred x y) => (x, y) | _ => ([], false)
    let t := c.a
    match t.kind with
    | .data =>
      if t.fmt = 0 || t.fmt = 1 then d.setOp c (.fred (if t.vld 0 then xs ++ [t.lane 0] else xs) true)
      else d.fail1 c tgts (errTok .format 0)
    | .stop =>
      let r := fredValue op xs
      d.raise c r.2 fun d =>
        let d := (d.clearOp c).send c tgts (dataTok [r.1] 1 1 0)
        if t.level = 0 then d else d.send c tgts (stopTok (t.level.toNat - 1))
    | .done => if open_ then d.fail1 c tgts grammar else d.send c tgts t
    | .error => d.fail1 c tgts t
    | _ => d

/-! ### FVALS (R327, R344) -/

/-- One side of FVALS: a hole is +0, and a coordinate token's value is loaded from the address that goes with it. -/
def Dev.fvalsSide (d : Dev) (c : Fx) (t : Token) (fail : Dev → Token → Dev) (k : Dev → BitVec 32 → List Word → Dev) : Dev :=
  match fibOf t with
  | .bad => fail d grammar
  | .hole => k d 0 []
  | .coord =>
    let da := t.descAddr
    d.fibreRead c da 64 (fail := fail) fun d v =>
      if !levelOk v || nfld v 319 256 = 0 then fail d (errTok .perm da)
      else
        let va := BitVec.ofNat 64 (nfld v 319 256) + BitVec.ofNat 64 (4 * t.ref)
        d.fibreRead c va 4 (fail := fail) fun d x => k d (BitVec.ofNat 32 x) [va]

/-- FVALS: each side that is no hole takes a request of its own (R183). -/
def Dev.fvalsFire (d : Dev) (c : Fx) (m : Pred) (tgts : List Tgt) : Dev :=
  match c.x.opst c.idx with
  | some (.drain a b) => d.drainStep c tgts a b
  | _ =>
    match gateOf m .none c.fr with
    | .null => d.sendQ c tgts Token.null
    | .err e => d.fail2 c tgts e
    | .pass t => d.sendQ c tgts t
    | .act =>
      let fail (d : Dev) (e : Token) : Dev := d.fail2 c tgts e
      d.fvalsSide c c.a fail fun d x us =>
        d.fvalsSide c c.b fail fun d y vs =>
          let ls := us ++ vs
          let out := dataTok [x, y] 3 1 0
          if ls.isEmpty then d.sendQ c tgts out else d.request c ls.length false out (d.leafsAt c ls)

/-! ### FBLD (R329, R346) -/

/-- Trap MALFORMED_STREAM at this instruction. -/
def Dev.badStream (d : Dev) (c : Fx) : Dev := d.trapAt c .malformedStream 0

/-- A token of the stream at FBLD's slot a. -/
def Dev.fbldToken (d : Dev) (c : Fx) (t : Token) (n : Nat) (desc : Word) (cap : Nat) (crd vals : Word)
    (prev : Option Nat) (stage : Nat) : Dev :=
  let store (d : Dev) (va : Word) (bs : List Byte) (k : Dev → Dev) : Dev :=
    (d.storeAt c va bs bs.length .scalarStore).andThen c (fun d _ => d) fun d _ _ => k d
  match t.kind with
  | .error => d.trapAt c (causeOfErr t.err) t.val
  | .data =>
    if stage ≠ 0 || !t.vld 0 || !t.vld 1 || !rises prev t.coord then d.badStream c
    else if cap ≤ n then d.trapAt c .protection desc
    else
      store d (crd + BitVec.ofNat 64 (4 * n)) (bytesOfNat 4 (t.lane 0).toNat) fun d =>
        store d (vals + BitVec.ofNat 64 (4 * n)) (bytesOfNat 4 (t.lane 1).toNat) fun d =>
          d.setOp c (.fbld (n + 1) desc cap crd vals (some t.coord) 0)
  | .stop => if stage ≠ 0 || t.level ≠ 0 then d.badStream c else d.setOp c (.fbld n desc cap crd vals prev 1)
  | .done =>
    if stage = 2 || (stage = 0 && n ≠ 0) then d.badStream c
    else
      store d (desc + 24) (bytesOfNat 8 n) fun d =>
        (d.setOp c (.fbld n desc cap crd vals prev 2)).modInst c.i fun x =>
          { x with once := c.idx :: x.once, made := c.idx :: x.made }
  | _ => d

/-- FBLD. -/
def Dev.fbldFire (d : Dev) (c : Fx) : Dev :=
  match c.fr.a, c.fr.b with
  | some t, none =>
    if t.kind = .null then d
    else
      (match c.x.opst c.idx with
       | some (.fbld n desc cap crd vals prev stage) => d.fbldToken c t n desc cap crd vals prev stage
       | _ => d)
  | none, some u => if u.scalarView.kind = .null then d else d.badStream c
  | some t, some u =>
    if t.kind = .error then d.trapAt c (causeOfErr t.err) t.val
    else if u.kind = .error then d.trapAt c (causeOfErr u.err) u.val
    else if u.kind ≠ .data then d.badStream c
    else
      let da := u.val
      (d.loadAt c da 64 64 .tokenLoad).andThen c (fun d e => d.trapAt c e.cause (failAddr e da)) fun d pa _ =>
        let (d, bs) := d.loadBytes c.i pa 64
        let v := natOfBytes bs
        if nfld v 511 256 ≠ 0 then d.trapAt c .protection da
        else d.fbldToken c t 0 da (nfld v 63 0) (BitVec.ofNat 64 (nfld v 127 64)) (BitVec.ofNat 64 (nfld v 191 128)) none 0
  | none, none => d

/-! ### FCHK (R333, R334, R347) -/

/-- The state after a legal token of an order-h stream; none where it breaks a rule. -/
def chkNext (h : Nat) (st : OpSt) (t : Token) : Option OpSt :=
  match st with
  | .fchk prev stop_ fmt any_ ended =>
    if ended then none
    else
      match t.kind with
      | .data =>
        if (match fmt with | some f => f != t.fmt | none => false) then none
        else if t.fmt = 0 then
          (if fibOf t = .bad || !rises prev t.coord then none else some (.fchk (some t.coord) none (some t.fmt) true false))
        else some (.fchk prev none (some t.fmt) true false)
      | .stop => if h ≤ t.level.toNat then none else some (.fchk none (some t.level.toNat) fmt true false)
      | .done => if any_ && stop_ != some (h - 1) then none else some (.fchk prev stop_ fmt any_ true)
      | _ => some st
  | _ => none

/-- FCHK. -/
def Dev.fchkFire (d : Dev) (c : Fx) (tgts : List Tgt) (level : Nat) : Dev :=
  match c.x.opst c.idx with
  | some (.drain a b) => d.drainStep c tgts a b
  | st =>
    let s := match st with | some (.fchk p q f a e) => OpSt.fchk p q f a e | _ => .fchk none none none false false
    if c.a.kind = .null then d
    else
      match chkNext (level + 1) s c.a with
      | none => d.badStream c
      | some s' => if c.a.kind = .error then d.fail1 c tgts c.a else (d.send c tgts c.a).setOp c s'

/-! ### The instructions -/

/-- FSCAN (R324, R340): expands each reference into a fibre of coordinates. -/
def execFscan (p : Pred) (lvl : BitVec 3) (t1 : Tgt) (t2 : Tgt) (t3 : Tgt) (s : State) : Res :=
  onFire s fun d c => d.fscanFire c p [t1, t2, t3] lvl.toNat

/-- FISECT (R326, R342): coordinates that occur in both streams. -/
def execFisect (t1 : Tgt) (t2 : Tgt) (s : State) : Res :=
  onFire s fun d c => d.pairFire c t1 t2 fun d _ _ => d

/-- FUNION (R343): coordinates that occur in either stream. -/
def execFunion (t1 : Tgt) (t2 : Tgt) (s : State) : Res :=
  onFire s fun d c => d.pairFire c t1 t2 fun d left t =>
    if left then d.sendPair c t1 t2 t (holeTok t.coord) else d.sendPair c t1 t2 (holeTok t.coord) t

/-- FRPT (R325, R341): each token of b once for each data token of the fibre at a. -/
def execFrpt (t1 : Tgt) (t2 : Tgt) (s : State) : Res :=
  onFire s fun d c => d.frptFire c [t1, t2]

/-- FRED (R328, R345): one value for each innermost fibre. -/
def execFred (rop : RedOp) (t1 : Tgt) (t2 : Tgt) (s : State) : Res :=
  onFire s fun d c => d.fredFire c [t1, t2] rop

/-- FVALS (R327, R344): the values that two references name. -/
def execFvals (p : Pred) (t1 : Tgt) (t2 : Tgt) (s : State) : Res :=
  onFire s fun d c => d.fvalsFire c p [t1, t2]

/-- FBLD (R329, R346): builds a compressed level, written at commit. -/
def execFbld (s : State) : Res :=
  onFire s fun d c => d.fbldFire c

/-- FCHK (R333, R347): passes a legal stream; a violation traps. -/
def execFchk (lvl : BitVec 3) (t1 : Tgt) (t2 : Tgt) (t3 : Tgt) (s : State) : Res :=
  onFire s fun d c => d.fchkFire c [t1, t2, t3] lvl.toNat


end Sys2Proof.Machine
end

