-- ==== Sys2Proof/Machine/Security.lean ====
section
/-!
DEFINITION. The root of trust: its commands, their results and replies (R410..R416).
-/

namespace Sys2Proof.Machine

/-! ### Measurements (R414) -/

def Sec.num : Sec → Nat
  | .unprovisioned => 0 | .locked => 1 | .ownerDebug => 2 | .returned => 3

def Dbg.num : Dbg → Nat
  | .off => 0 | .observe => 1 | .invasive => 2

/-- Extend a measurement register by a digest. -/
def RoT.extend (r : RoT) (i : Nat) (dig : List Byte) : RoT :=
  { r with m := r.m.setIfInBounds i (sha3_384 ((r.m[i]?.getD []) ++ dig)) }

/-- The security state and every debug state as one number. -/
def RoT.stateNum (r : RoT) : Nat := r.sec.num + ((List.range 64).map fun f => (r.dbgOf f).num * 4 ^ (f + 1)).sum

/-- M3 is extended at each change of the security state or of a debug state. -/
def RoT.changed (old new : RoT) : RoT :=
  if new.stateNum = old.stateNum then new else new.extend 3 (bytesOfNat 48 (Config.stateDigest new.stateNum).toNat)

/-! ### Debug and security states (R410, R411) -/

/-- How a debug state may be entered in the security and power states that hold (R410). -/
inductive Entry where
  | set | token | held | forbidden
  deriving DecidableEq, Repr

def RoT.entry (r : RoT) (part : Nat) (st : Dbg) : Entry :=
  if st = .off then .set
  else if r.power = .p2 then .held
  else if r.sec = .locked then .token
  else if r.sec = .returned && st == .invasive && part != 0 then .forbidden
  else .set

/-- Set a partition's debug state. -/
def RoT.setDbg (r : RoT) (part : Nat) (st : Dbg) : RoT :=
  { r with dbg := if st = .off then tdel part r.dbg else tput part st r.dbg }

/-- Entering Locked sets every partition's debug state to off (R411). -/
def RoT.lock (r : RoT) : RoT := { r with sec := .locked, dbg := [] }

/-- Entering Returned erases owner keys and sealed secrets; only partition 0 stays invasive (R410, R411). -/
def RoT.giveBack (r : RoT) : RoT :=
  { r with
    sec := .returned
    dbg := r.dbg.filter fun p => p.1 == 0 || p.2 != .invasive
    ownerEd := none
    ownerMl := none
    secrets := false }

/-! ### Signatures (R412) -/

/-- Both signatures verify over the same bytes. -/
def verified (ed ml : List Byte) (msg sigs : List Byte) : Bool :=
  Config.edVerify ed msg (sigs.take 64) && Config.mlVerify ml msg (sigs.drop 64)

/-- The keys under which a token verifies: Ed25519, then ML-DSA-65. -/
def RoT.tokenKeys (r : RoT) : Option (List Byte × List Byte) :=
  if r.sec = .unprovisioned then some (Config.vendorEd, Config.vendorMl)
  else match r.ownerEd, r.ownerMl with | some e, some m => some (e, m) | _, _ => none

/-! ### Requests and replies (R415, R416) -/

/-- A host bus address as a physical address (R358). -/
def busPa (bus : Nat) : Nat := 2 ^ 51 + bus % 2 ^ 51

/-- The outcome of a command: the state after it, its result and its reply body. -/
structure RtDone where
  rot    : RoT
  result : RtResult
  body   : List Byte
  deriving DecidableEq, Repr

/-- A command that fails changes nothing further and replies with an empty body. -/
def RoT.fails (r : RoT) (x : RtResult) : RtDone := ⟨r, x, []⟩

/-- Start a command: a write of GO while BUSY is 1 is ignored; else the whole request is read, the command is
carried out, and its reply waits for completion. `need` is the body length that the command needs. -/
def State.command (s : State) (op need : Nat) (buf : Word) (run : Dev → RoT → List Byte → RtDone) : Option State :=
  if s.rot.power = .p3 then none
  else if s.rot.busy then some s
  else
    let bus := nfld buf.toNat 63 12 * 4096
    let pa := busPa bus
    let len := s.dev.num pa 4
    let r := { s.rot with rtbuf := bus, rtop := op, busy := true }
    let x := if need < len || len < need || s.dev.num (pa + 4) 4 ≠ 0 then r.fails .malformed
      else run s.dev r (s.dev.bytes (pa + 8) need)
    some ⟨{ s.dev with freeSeq := s.dev.freeSeq + 1 }, { r.changed x.rot with reply := some (pa, x.result, x.body) }⟩

/-- NONCE: a fresh nonce, which retires any earlier one (R413). -/
def RoT.nonceRun (d : Dev) (r : RoT) (_ : List Byte) : RtDone :=
  let n := bytesOfNat 32 (Config.nonce d.freeSeq).toNat
  ⟨{ r with nonce := some n }, .done, n⟩

/-- A field of a request body, as a number. -/
def bodyNum (b : List Byte) (at_ n : Nat) : Nat := natOfBytes ((b.drop at_).take n)

/-- UNLOCK (R411..R413): any UNLOCK retires the nonce. -/
def RoT.unlockRun (_ : Dev) (r0 : RoT) (b : List Byte) : RtDone :=
  let r := { r0 with nonce := none }
  let level := bodyNum b 20 1
  if bodyNum b 0 4 ≠ 1 || level = 0 || 4 < level || bodyNum b 21 3 ≠ 0 then r.fails .malformed else
  match r.tokenKeys with
  | none => r.fails .identity
  | some (ed, ml) =>
    if bodyNum b 4 8 ≠ Config.serial.toNat || r0.nonce ≠ some ((b.drop 24).take 32) || (b.drop 56).take 48 ≠ sha3_384 (ed ++ ml)
    then r.fails .identity
    else if !verified ed ml (b.take 104) (b.drop 104) then r.fails .signature
    else
      let mask := bodyNum b 12 8
      let parts := (List.range 64).filter fun f => mask.testBit f
      let enter (st : Dbg) : RtDone :=
        if parts.any fun f => r.entry f st == .held || r.entry f st == .forbidden then r.fails .state
        else ⟨parts.foldl (fun r f => r.setDbg f st) r, .done, []⟩
      match level with
      | 1 => enter .observe
      | 2 => enter .invasive
      | 3 => if r.sec = .locked then ⟨{ r with sec := .ownerDebug }, .done, []⟩ else r.fails .state
      | _ => if r.sec = .locked || r.sec = .ownerDebug then ⟨r.giveBack, .done, []⟩ else r.fails .state

/-- ATTEST (R414): the signed measurements. -/
def RoT.attestRun (_ : Dev) (r : RoT) (b : List Byte) : RtDone :=
  let msg := b ++ r.m.toList.flatten ++ bytesOfNat 8 r.sec.num ++ bytesOfNat 8 Config.serial.toNat
  ⟨r, .done, msg ++ bytesOfNat 64 (Config.edSign msg).toNat ++ bytesOfNat 3309 (Config.mlSign msg).toNat⟩

/-- EXTEND (R414). -/
def RoT.extendRun (_ : Dev) (r : RoT) (b : List Byte) : RtDone :=
  let i := bodyNum b 0 1
  if 7 < i || bodyNum b 1 7 ≠ 0 then r.fails .malformed
  else if i < 4 then r.fails .state
  else ⟨r.extend i (b.drop 8), .done, []⟩

/-- PROVISION (R411). -/
def RoT.provisionRun (_ : Dev) (r : RoT) (b : List Byte) : RtDone :=
  if r.sec ≠ .unprovisioned then r.fails .state
  else ⟨{ r.lock with ownerEd := some (b.take 32), ownerMl := some (b.drop 32) }, .done, []⟩

/-- FWUPDATE (R412, R416): the object is verified, its version checked, and it is stored. -/
def RoT.fwupdateRun (d : Dev) (r : RoT) (b : List Byte) : RtDone :=
  let which := bodyNum b 0 1
  let len := bodyNum b 16 8
  if 1 < which || bodyNum b 1 7 ≠ 0 || len < 8 + 64 + 3309 then r.fails .malformed
  else
    let obj := (List.range len).map fun k => d.byte (busPa (bodyNum b 8 8 + k))
    let msg := obj.take (len - 64 - 3309)
    if !verified Config.vendorEd Config.vendorMl msg (obj.drop (len - 64 - 3309)) then r.fails .signature
    else
      let payload := msg.take (msg.length - 8)
      let v := bodyNum msg (msg.length - 8) 8
      if which = 0 then (if v < r.fuses.1 then r.fails .state else ⟨{ r with fw := some (payload, v) }, .done, []⟩)
      else if v < r.fuses.2 then r.fails .state else ⟨{ r with tables := some (payload, v) }, .done, []⟩

/-- DEBUG (R410, R416). -/
def RoT.debugRun (_ : Dev) (r : RoT) (b : List Byte) : RtDone :=
  let part := bodyNum b 0 1
  let st : Dbg := match bodyNum b 1 1 with | 0 => .off | 1 => .observe | _ => .invasive
  let bus := bodyNum b 8 8
  let log2 := bodyNum b 16 1
  if 63 < part || 2 < bodyNum b 1 1 || bodyNum b 2 6 ≠ 0 then r.fails .malformed
  else if st = .off then ⟨r.setDbg part .off, .done, []⟩
  else if bus % 64 ≠ 0 || log2 < 4 || 16 < log2 || bodyNum b 17 7 ≠ 0 then r.fails .malformed
  else if r.entry part st ≠ .set then r.fails .state
  else
    let r := r.setDbg part st
    ⟨{ r with traces := tput part ⟨bus, log2⟩ r.traces }, .done, []⟩

/-- LOCK (R411). -/
def RoT.lockRun (_ : Dev) (r : RoT) (_ : List Byte) : RtDone :=
  if r.sec = .ownerDebug then ⟨r.lock, .done, []⟩ else r.fails .state

/-! ### The commands -/

/-- NONCE (R416). -/
def execNonceCmd (buf : Word) (s : State) : Res :=
  onState s "NONCE" fun s => s.command 1 0 buf RoT.nonceRun

/-- UNLOCK (R416). -/
def execUnlockCmd (buf : Word) (s : State) : Res :=
  onState s "UNLOCK" fun s =>
    (s.command 2 3477 buf RoT.unlockRun).map fun t =>
      if s.rot.busy then t else { t with rot := { t.rot with nonce := none } }

/-- ATTEST (R416). -/
def execAttestCmd (buf : Word) (s : State) : Res :=
  onState s "ATTEST" fun s => s.command 3 32 buf RoT.attestRun

/-- EXTEND (R416). -/
def execExtendCmd (buf : Word) (s : State) : Res :=
  onState s "EXTEND" fun s => s.command 4 56 buf RoT.extendRun

/-- PROVISION (R416). -/
def execProvisionCmd (buf : Word) (s : State) : Res :=
  onState s "PROVISION" fun s => s.command 5 1984 buf RoT.provisionRun

/-- FWUPDATE (R416). -/
def execFwupdateCmd (buf : Word) (s : State) : Res :=
  onState s "FWUPDATE" fun s => s.command 6 24 buf RoT.fwupdateRun

/-- DEBUG (R416). -/
def execDebugCmd (buf : Word) (s : State) : Res :=
  onState s "DEBUG" fun s => s.command 7 24 buf RoT.debugRun

/-- LOCK (R416). -/
def execLockCmd (buf : Word) (s : State) : Res :=
  onState s "LOCK" fun s => s.command 8 0 buf RoT.lockRun

end Sys2Proof.Machine
end

