-- ==== Sys2Proof/Machine/Power.lean ====
section
/-!
DEFINITION. Power states and cold bring-up (R417, R418), and the completion of root-of-trust commands (R416).
-/

namespace Sys2Proof.Machine

/-! ### Serving PWRCTL (R417, R418) -/

/-- Entry to P2 begins: launches are held, and every function is suspended. -/
def State.beginP2 (s : State) : State :=
  let fs := (List.range 64).filter fun f => !s.dev.suspended f
  ⟨fs.foldl Dev.suspend s.dev, { s.rot with before := s.rot.power, entering := true, busy := true, suspd := fs }⟩

/-- Make a power change (R417, R418). -/
def State.powerTo (s : State) (q : Power) : State :=
  let r := s.rot
  match q, r.power with
  | .p3, _ => { s with rot := { r with power := .p3, asked := [] } }
  | .p2, .p2 => s
  | .p2, _ => s.beginP2
  | q, .p2 => { s with rot := { r with before := q, waking := true, busy := true } }
  | q, _ => { s with rot := { r with power := q } }

/-- Serve requested changes in arrival order while nothing else is under way (R415). -/
def State.serveAll : Nat → State → State
  | 0, s => s
  | n + 1, s =>
    if s.rot.busy then s else
    match s.rot.asked with
    | [] => s
    | q :: rest => (State.powerTo { s with rot := { s.rot with asked := rest } } q).serveAll n

/-- Serve the changes that PWRCTL has requested. -/
def State.servePower (s : State) : State := s.serveAll s.rot.asked.length

/-- A write of PWRCTL.REQ: commands and power changes are served one at a time, in arrival order (R415). REQ = 2 while CUR
reads 2, during a wake too, changes nothing (R418). -/
def State.powerReq (s : State) (q : Power) : Option State :=
  if s.rot.power = .p3 then none
  else if q = .p2 && s.rot.power == .p2 then some { s with rot := { s.rot with req := q } }
  else some (State.servePower { s with rot := { s.rot with req := q, asked := s.rot.asked ++ [q] } })

/-- POWER_REQ_P0 (R417). -/
def execPowerReqP0 (s : State) : Res :=
  onState s "POWER_REQ_P0" fun s => s.powerReq .p0

/-- POWER_REQ_P1 (R417). -/
def execPowerReqP1 (s : State) : Res :=
  onState s "POWER_REQ_P1" fun s => s.powerReq .p1

/-- POWER_REQ_P2 (R417). -/
def execPowerReqP2 (s : State) : Res :=
  onState s "POWER_REQ_P2" fun s => s.powerReq .p2

/-- POWER_REQ_P3 (R417). -/
def execPowerReqP3 (s : State) : Res :=
  onState s "POWER_REQ_P3" fun s => s.powerReq .p3

/-! ### Completion of a command (R416) -/

/-- ROOT_OF_TRUST_COMPLETE (R416): the reply length, RESULT and the body are written, BUSY clears, and
vector 2 of the physical function is signalled; a power change that arrived meanwhile is served. -/
def execRootOfTrustComplete (s : State) : Res :=
  onState s "ROOT_OF_TRUST_COMPLETE" fun s =>
    match s.rot.reply with
    | none => none
    | some (pa, x, body) =>
      let bs := bytesOfNat 4 body.length ++ bytesOfNat 4 x.num ++ body
      let d := s.dev.agentMust ⟨.agent, pa, bs.length, true, false, 0⟩
      let d := ((d.agentWrite pa bs).wake).msix 0 2
      some (State.servePower ⟨d, { s.rot with reply := none, busy := s.rot.waking, result := x }⟩)

/-! ### P2 (R417, R418) -/

/-- No engine operation, Ladle action or instance is under way. -/
def Dev.atRest (d : Dev) : Bool :=
  d.ops.isEmpty && d.resvs.isEmpty && d.insts.isEmpty && d.pools.all fun p => p.2.lstate == 0

/-- P2_ENTRY_COMPLETE (R417): contexts and scratch are saved, the configuration caches are emptied, and the
fabric clock stops. A context that is written out ends its thread's region (R203); the wake restores it
into its slot, so the slot's number is kept. -/
def execP2EntryComplete (s : State) : Res :=
  onState s "P2_ENTRY_COMPLETE" fun s =>
    if !s.rot.entering || !s.dev.atRest then none
    else
      let d := (s.dev.threads.filter fun p => p.2.slot.isSome).foldl (fun d p => d.endRegion p.1 .sys) s.dev
      let d := { d with dies := d.dies.map fun x => (x.1, { x.2 with cache := [] }) }
      some (State.servePower ⟨d, { s.rot with power := .p2, entering := false, busy := false }⟩)

/-- P2_WAKE_ACCESS (R418): an access that wakes the module is held, and the wake to the state before P2
begins. -/
def execP2WakeAccess (s : State) : Res :=
  onState s "P2_WAKE_ACCESS" fun s =>
    if s.rot.power ≠ .p2 || s.rot.waking || s.rot.heldOps.isEmpty then none
    else some { s with rot := { s.rot with waking := true, busy := true } }

/-- WAKE_COMPLETE (R418): contexts and scratch are restored, the functions that the entry suspended resume,
and the accesses held are made. -/
def execWakeComplete (s : State) : Res :=
  onState s "WAKE_COMPLETE" fun s =>
    if !s.rot.waking then none
    else
      let d := s.rot.suspd.foldl Dev.resume s.dev
      let d := { d with agenda := s.rot.heldOps.map Move.op ++ d.agenda }
      let r := { s.rot with power := s.rot.before, waking := false, busy := s.rot.reply.isSome, suspd := [], heldOps := [] }
      some (State.servePower ⟨d, r⟩)

/-! ### Cold bring-up (R411, R414, R417) -/

/-- The device after a power-up: its state at reset, with host memory, which is not the module's, and what
is the model's own. -/
def Dev.cold (d : Dev) : Dev :=
  { Dev.reset with
    mem := d.mem.filter fun c => 2 ^ 51 ≤ c.1
    agenda := d.agenda
    freeSeq := d.freeSeq
    out := d.out }

/-- The root of trust after a power-up: stored objects take effect and raise the fused counts, Owner-Debug
returns to Locked, every debug state is off, and M0..M3 are measured from zero. -/
def RoT.cold (r : RoT) : RoT :=
  let f := match r.fw with | some x => x | none => (r.fwNow, r.fuses.1)
  let t := match r.tables with | some x => x | none => (r.tabNow, r.fuses.2)
  let n : RoT := { RoT.reset with
    sec := if r.sec = .ownerDebug then .locked else r.sec
    ownerEd := r.ownerEd
    ownerMl := r.ownerMl
    secrets := r.secrets
    fuses := (f.2, t.2)
    fwNow := f.1
    tabNow := t.1 }
  (((n.extend 0 (sha3_384 Config.firstStage)).extend 1 (sha3_384 f.1)).extend 2 (sha3_384 t.1)).extend 3
    (bytesOfNat 48 (Config.stateDigest n.stateNum).toNat)

/-- COLD_BRING_UP (R417): power returns after it was removed, by P3 or from outside. -/
def execColdBringUp (s : State) : Res :=
  onState s "COLD_BRING_UP" fun s => some ⟨s.dev.cold, s.rot.cold⟩

end Sys2Proof.Machine
end

