-- ==== Sys2Proof/Machine/Quiescence.lean ====
section
/-!
DEFINITION. The quiescence detector, the Drip's extensions and the DEADLOCK that follows when none is
possible (R147, R242..R247).
-/

namespace Sys2Proof.Machine

/-! ### Silence and full edges (R245, R147) -/

/-- A full edge of a region. -/
inductive FullEdge where
  /-- a full channel with its capacity, whose producer holds a token for it -/
  | fifo (src : Nat) (t : Target) (scale : Bool) (cap : Nat)
  /-- a stream wait of an instance's instruction; the flag says that it waits to write -/
  | stream (inst idx desc : Nat) (wr : Bool)
  deriving DecidableEq, Repr

/-- A full edge with its region, the region's first site and the PE of the edge. -/
structure EdgeAt where
  reg  : Nat
  site : Nat
  pe   : Nat
  edge : FullEdge
  deriving DecidableEq, Repr

/-- A stream has a host participant (R147). -/
def Stream.hosted (s : Stream) : Bool := s.hpro || s.readers.toList.any (·.host)

/-- The full edges of an instance. -/
def Dev.fullEdges (d : Dev) (reg : Nat) (r : Region) (i : Nat) (x : Inst) : List EdgeAt :=
  let pe (k : Nat) : Nat := (r.peOf k).getD 0
  let heads := (x.held.map (·.1)).eraseDups.filterMap fun s => x.held.find? fun h => h.1 == s
  let fifos := heads.map fun h =>
    (⟨reg, r.site, pe h.2.1.idx.toNat, .fifo h.1 h.2.1 h.2.2.1 (r.image.cap + r.ringRoom h.1 h.2.1 h.2.2.1)⟩ : EdgeAt)
  let waits := x.blocked.filterMap fun b =>
    let on (desc : Nat) (wr : Bool) : Option EdgeAt :=
      match tget desc d.streams with
      | some s => if s.hosted then none else some ⟨reg, r.site, pe b.1.idx, .stream i b.1.idx desc wr⟩
      | none => none
    match b.2 with
    | .hwm desc _ => on desc false
    | .limit desc _ => on desc true
    | _ => none
  fifos ++ waits

/-- An instance has something under way that ends a silence: a request, an access or an atomic that waits,
sectors to come, work in the Sieve, or a commit. -/
def Dev.underWay (d : Dev) (i : Nat) (x : Inst) : Bool :=
  x.atPoint || x.reqs.any (fun q => !q.back) || (x.blocked.any fun b => b.2 == .access || b.2 == .atomic) ||
    !x.again.isEmpty || (d.resvs.any fun r => r.who == .inst i) || d.dies.any fun p => p.2.sieve.any fun s => s.inst == i

/-- At the end of a cycle: a region with something under way has not been silent in it, and one without a full edge has held
none (R245). -/
def Dev.noteSilence (d : Dev) : Dev :=
  { d with regions := d.regions.map fun p =>
      let xs := d.instsOf p.1
      (p.1, { p.2 with
        active := if xs.any fun q => d.underWay q.1 q.2 then d.cycle else p.2.active
        clear := if xs.all fun q => (d.fullEdges p.1 p.2 q.1 q.2).isEmpty then d.cycle else p.2.clear }) }

/-- The full edges of a region of the silent set: it has been silent, and has held a full edge, for 4,096 cycles on end; none
where the region is not in the set (R245). -/
def Dev.silentEdges (d : Dev) (reg : Nat) (r : Region) : List EdgeAt :=
  let xs := d.instsOf reg
  if d.cycle < r.active + 4096 || d.cycle < r.clear + 4096 || xs.any fun p => d.underWay p.1 p.2 then []
  else xs.flatMap fun p => d.fullEdges reg r p.1 p.2

/-- The full edges of a die's silent set. -/
def Dev.silentSet (d : Dev) (die : Nat) : List EdgeAt :=
  (d.regions.filter fun p => p.2.die == die).flatMap fun p => d.silentEdges p.1 p.2

/-! ### Extensions (R147, R242, R246) -/

/-- Candidates for extension in order: channels by capacity, then first site, then PE; then streams. -/
def extensionOrder (es : List EdgeAt) : List EdgeAt :=
  let rank (e : EdgeAt) : Nat := match e.edge with | .fifo _ _ _ cap => cap * 2 ^ 32 + e.site * 2 ^ 16 + e.pe | .stream .. => e.site * 2 ^ 16 + e.pe
  let fifo (e : EdgeAt) : Bool := match e.edge with | .fifo .. => true | .stream .. => false
  sortBy rank (es.filter fifo) ++ sortBy rank (es.filter fun e => !fifo e)

/-- What an extension takes: bytes of a die's scratch on the budget of an RCB. -/
structure ExtNeed where
  die   : Nat
  bytes : Nat
  align : Nat
  rcb   : Nat
  deriving DecidableEq, Repr

/-- The ring behind an edge. -/
def Region.ringOf (r : Region) (src : Nat) (t : Target) (scale : Bool) : Option Ring :=
  r.rings.find? fun g => g.src == src && g.idx == t.idx.toNat && g.slot == t.slot && g.scale == scale

/-- What the extension of an edge takes; `none` where it fails. -/
def Dev.extNeed (d : Dev) (e : EdgeAt) : Option ExtNeed :=
  match e.edge, d.region e.reg with
  | _, none => none
  | .fifo src t sc _, some r =>
    let size := match r.ringOf src t sc with | some g => 2 * g.size | none => 4096
    if 262144 < size || !d.scratchBudget r.rcb size then none else some ⟨r.die, size, 128, r.rcb⟩
  | .stream i _ desc wr, some _ =>
    match tget desc d.streams, (d.inst i).bind fun x => d.thread x.tid with
    | some s, some t =>
      if !wr || s.ovb ≤ s.ovu || !d.scratchBudget t.rcb s.fsize then none else some ⟨s.home, s.fsize, 64, t.rcb⟩
    | _, _ => none

/-- Scratch lines that the Drip may take: of the die, aligned, and in no spill ring, extension frame or ring of a scratch
stream's frames. -/
def Dev.dripFree (d : Dev) (n : ExtNeed) (pa : Nat) : Bool :=
  let frames := d.drip.flatMap fun p =>
    let f := match tget p.1 d.streams with | some s => s.fsize | none => 2 ^ nfld (d.num p.1 64) 82 78
    p.2.2.map fun x => (x.1, f)
  let frames := frames ++ (d.streams.filter fun p => !p.2.mem).map fun p => (p.2.base, p.2.nf * p.2.fsize)
  pa % n.align == 0 && scratchBase n.die ≤ pa && d.rangeIn pa n.bytes == some (.scratch n.die) && !d.ringAt pa n.bytes &&
    !frames.any fun f => f.1 < pa + n.bytes && pa < f.1 + f.2

/-- Make the extension of an edge at `pa`. A doubled ring takes over what the old one holds, whose lines return. -/
def Dev.extend (d : Dev) (e : EdgeAt) (n : ExtNeed) (pa : Nat) : Dev :=
  let d := d.charge n.rcb fun u => { u with scratch := u.scratch + n.bytes }
  match e.edge, d.region e.reg with
  | _, none => d
  | .fifo src t sc _, some r =>
    let d := match r.ringOf src t sc with
      | some g => (d.freeRing g).modRegion e.reg fun r => { r with rings := r.rings.filter fun x => x != g }
      | none => d
    (d.modRegion e.reg fun r => { r with rings := r.rings ++ [⟨src, t.idx.toNat, t.slot, sc, pa, n.bytes, n.rcb⟩] }).pumpAll
  | .stream _ _ desc _, some _ =>
    match tget desc d.streams with
    | none => d
    | some s =>
      let x := d.extOf desc s
      let entry := if s.ovu = 0 then (s.tail / s.fsize + s.nf, [(pa, n.rcb)]) else (x.1, x.2 ++ [(pa, n.rcb)])
      Dev.setStream { d with drip := tput desc entry d.drip } desc { s with ovu := s.ovu + 1, dirty := true }

/-! ### DEADLOCK (R247) -/

/-- The trap of an instance of the set; `hosted` tells the streams whose waits take no part (R147). -/
def Inst.deadlock (x : Inst) (im : Image) (hosted : Nat → Bool) (blk : Word) (hdr : BitVec 128) : TrapInfo :=
  let on (idx desc : Nat) : Option Nat := if hosted desc then none else some idx
  let streams := x.blocked.filterMap fun b => match b.2 with
    | .hwm desc _ => on b.1.idx desc
    | .limit desc _ => on b.1.idx desc
    | _ => none
  let all_ := x.partials im ++ x.held.map (·.1) ++ streams
  let idxs := (List.range im.instrs.length).filter all_.contains
  deadlockInfo idxs streams im.firstExit blk hdr

/-- A cached stream has a host participant. -/
def Dev.hosted (d : Dev) (desc : Nat) : Bool := match tget desc d.streams with | some s => s.hosted | none => false

/-- Raise DEADLOCK in the regions of the set. -/
def Dev.raiseDeadlock (d : Dev) (regs : List Nat) : Dev :=
  regs.foldl (fun d k =>
    match d.region k with
    | none => d
    | some r => ((d.instsOf k).foldl (fun d p => d.abortTrap p.1 (p.2.deadlock r.image d.hosted)) d).freeRegion k) d

/-- QUIESCENCE_EXTENSION (R246): one extension for a die's silent set, made in scratch at `addr`; where no
candidate can be extended, DEADLOCK. Extension frames that are due return first: new ones follow the ring's (R147). -/
def execQuiescenceExtension (die addr : Nat) (s : State) : Res :=
  onEvent s "QUIESCENCE_EXTENSION" fun d =>
    let es := d.silentSet die
    if es.isEmpty then none else
    let regs := (es.map (·.reg)).eraseDups
    let d := es.foldl (fun d e => match e.edge with | .stream _ _ desc _ => d.extReturns desc 255 | .fifo .. => d) d
    match (extensionOrder es).findSome? fun e => (d.extNeed e).map fun n => (e, n) with
    | none => some (d.raiseDeadlock regs)
    | some (e, n) =>
      if !d.dripFree n addr then none
      else some (regs.foldl (fun d k => d.modRegion k fun r => { r with active := d.cycle }) (d.extend e n addr))

end Sys2Proof.Machine
end

