-- ==== Sys2Proof/Machine/Scalar.lean ====
section
/-!
DEFINITION. Scalar integer and address instructions (R109..R125): 64-bit results reduced modulo 2^64.
-/

namespace Sys2Proof.Machine

/-- 1 where a relation holds, else 0 (R123). -/
def bit1 (b : Bool) : Word := if b then 1 else 0

/-- Bits [127:64] of a two's-complement product. -/
def mulHi (x : Int) : Word := BitVec.ofInt 64 (x / 2 ^ 64)

/-- Shifts by an amount that is not reduced (R116). -/
def shl64 (a : Word) (n : Nat) : Word := if 64 ≤ n then 0 else a <<< n
def shr64 (a : Word) (n : Nat) : Word := if 64 ≤ n then 0 else a >>> n
def sar64 (a : Word) (n : Nat) : Word := a.sshiftRight (Nat.min n 63)

/-- Set bits among the low n. -/
def popLow (a : Word) : Nat → Nat
  | 0 => 0
  | n + 1 => (if a.getLsbD n then 1 else 0) + popLow a n

def popc64 (a : Word) : Nat := popLow a 64

/-- Zero bits from bit n − 1 down. -/
def clzGo (a : Word) : Nat → Nat
  | 0 => 0
  | n + 1 => if a.getLsbD n then 0 else 1 + clzGo a n

def clz64 (a : Word) : Nat := clzGo a 64

/-- Zero bits from bit 64 − n up. -/
def ctzGo (a : Word) : Nat → Nat
  | 0 => 0
  | n + 1 => if a.getLsbD (63 - n) then 0 else 1 + ctzGo a n

def ctz64 (a : Word) : Nat := ctzGo a 64

/-- The low w bits set. -/
def lowMask (w : Nat) : Word := BitVec.ofNat 64 (2 ^ w - 1)

/-- The low w bits, sign-extended (R118). -/
def signExt (w : Nat) (a : Word) : Word :=
  if a.getLsbD (w - 1) then a ||| ~~~(lowMask w) else a &&& lowMask w

/-- Insert the low n bits of b at bit l of a (R118). -/
def bfInsert (l n : Nat) (a b : Word) : Word :=
  let m := lowMask n <<< l
  (a &&& ~~~m) ||| ((b <<< l) &&& m)

/-- A bitwise function of three inputs by its truth table (R119). -/
def bfn64 (tt : BitVec 8) (a b q : Word) : Word :=
  let pick (j : Nat) (x : Word) : Word := if tt.getLsbD j then x else 0
  pick 0 (~~~a &&& ~~~b &&& ~~~q) ||| pick 1 (~~~a &&& ~~~b &&& q) ||| pick 2 (~~~a &&& b &&& ~~~q) |||
    pick 3 (~~~a &&& b &&& q) ||| pick 4 (a &&& ~~~b &&& ~~~q) ||| pick 5 (a &&& ~~~b &&& q) |||
    pick 6 (a &&& b &&& ~~~q) ||| pick 7 (a &&& b &&& q)

/-- Each byte through a table of 64 entries by its low six bits (R120). -/
def lutb64 (t : List Byte) (a : Word) : Word :=
  BitVec.ofNat 64 (natOfBytes ((List.range 8).map fun j => t.getD (a.extractLsb' (8 * j) 6).toNat 0))

/-- An instruction of one scalar operand (R109). -/
def Dev.scalar1 (d : Dev) (c : Fx) (m : Pred) (tgts : List Tgt) (f : Word → Word) : Dev :=
  d.ordinary c m .all tgts fun d => d.send c tgts (scalarTok (f c.a.val))

/-- An instruction of two scalar operands (R109). -/
def Dev.scalar2 (d : Dev) (c : Fx) (m : Pred) (tgts : List Tgt) (f : Word → Word → Word) : Dev :=
  d.ordinary c m .all tgts fun d => d.send c tgts (scalarTok (f c.a.val c.b.val))

/-- A division: a zero divisor raises DZ (R113, R114). -/
def Dev.divide (d : Dev) (c : Fx) (m : Pred) (tgts : List Tgt) (f z : Word → Word → Word) : Dev :=
  d.ordinary c m .all tgts fun d =>
    if c.b.val = 0 then d.raise c flDZ fun d => d.send c tgts (scalarTok (z c.a.val c.b.val))
    else d.send c tgts (scalarTok (f c.a.val c.b.val))

/-- ADD (R112): (a + b) mod 2^64. -/
def execAdd (p : Pred) (t1 : Tgt) (t2 : Tgt) (s : State) : Res :=
  onFire s fun d c => d.scalar2 c p [t1, t2] fun a b => a + b

/-- SUB (R112): (a − b) mod 2^64. -/
def execSub (p : Pred) (t1 : Tgt) (t2 : Tgt) (s : State) : Res :=
  onFire s fun d c => d.scalar2 c p [t1, t2] fun a b => a - b

/-- MUL (R112): the low half of the product. -/
def execMul (p : Pred) (t1 : Tgt) (t2 : Tgt) (s : State) : Res :=
  onFire s fun d c => d.scalar2 c p [t1, t2] fun a b => a * b

/-- MULH (R112): bits [127:64] of the signed product. -/
def execMulh (p : Pred) (t1 : Tgt) (t2 : Tgt) (s : State) : Res :=
  onFire s fun d c => d.scalar2 c p [t1, t2] fun a b => mulHi (a.toInt * b.toInt)

/-- MULHU (R112): bits [127:64] of the unsigned product. -/
def execMulhu (p : Pred) (t1 : Tgt) (t2 : Tgt) (s : State) : Res :=
  onFire s fun d c => d.scalar2 c p [t1, t2] fun a b => mulHi (Int.ofNat (a.toNat * b.toNat))

/-- MIN (R112): the lesser, signed. -/
def execMin (p : Pred) (t1 : Tgt) (t2 : Tgt) (s : State) : Res :=
  onFire s fun d c => d.scalar2 c p [t1, t2] fun a b => if BitVec.slt b a then b else a

/-- MAX (R112): the greater, signed. -/
def execMax (p : Pred) (t1 : Tgt) (t2 : Tgt) (s : State) : Res :=
  onFire s fun d c => d.scalar2 c p [t1, t2] fun a b => if BitVec.slt a b then b else a

/-- MINU (R112): the lesser, unsigned. -/
def execMinu (p : Pred) (t1 : Tgt) (t2 : Tgt) (s : State) : Res :=
  onFire s fun d c => d.scalar2 c p [t1, t2] fun a b => if b < a then b else a

/-- MAXU (R112): the greater, unsigned. -/
def execMaxu (p : Pred) (t1 : Tgt) (t2 : Tgt) (s : State) : Res :=
  onFire s fun d c => d.scalar2 c p [t1, t2] fun a b => if a < b then b else a

/-- AND (R115): a AND b. -/
def execAnd (p : Pred) (t1 : Tgt) (t2 : Tgt) (s : State) : Res :=
  onFire s fun d c => d.scalar2 c p [t1, t2] fun a b => a &&& b

/-- OR (R115): a OR b. -/
def execOr (p : Pred) (t1 : Tgt) (t2 : Tgt) (s : State) : Res :=
  onFire s fun d c => d.scalar2 c p [t1, t2] fun a b => a ||| b

/-- XOR (R115): a XOR b. -/
def execXor (p : Pred) (t1 : Tgt) (t2 : Tgt) (s : State) : Res :=
  onFire s fun d c => d.scalar2 c p [t1, t2] fun a b => a ^^^ b

/-- SHL (R116): a × 2^b, 0 at 64 or more. -/
def execShl (p : Pred) (t1 : Tgt) (t2 : Tgt) (s : State) : Res :=
  onFire s fun d c => d.scalar2 c p [t1, t2] fun a b => shl64 a b.toNat

/-- SHR (R116): a / 2^b, 0 at 64 or more. -/
def execShr (p : Pred) (t1 : Tgt) (t2 : Tgt) (s : State) : Res :=
  onFire s fun d c => d.scalar2 c p [t1, t2] fun a b => shr64 a b.toNat

/-- SAR (R116): a shifted right with copies of a[63]. -/
def execSar (p : Pred) (t1 : Tgt) (t2 : Tgt) (s : State) : Res :=
  onFire s fun d c => d.scalar2 c p [t1, t2] fun a b => sar64 a b.toNat

/-- ROTL (R116): a rotated left by b mod 64. -/
def execRotl (p : Pred) (t1 : Tgt) (t2 : Tgt) (s : State) : Res :=
  onFire s fun d c => d.scalar2 c p [t1, t2] fun a b => a.rotateLeft (b.toNat % 64)

/-- TEQ (R123): a = b. -/
def execTeq (p : Pred) (t1 : Tgt) (t2 : Tgt) (s : State) : Res :=
  onFire s fun d c => d.scalar2 c p [t1, t2] fun a b => bit1 (a == b)

/-- TNE (R123): a ≠ b. -/
def execTne (p : Pred) (t1 : Tgt) (t2 : Tgt) (s : State) : Res :=
  onFire s fun d c => d.scalar2 c p [t1, t2] fun a b => bit1 (a != b)

/-- TLT (R123): a < b, signed. -/
def execTlt (p : Pred) (t1 : Tgt) (t2 : Tgt) (s : State) : Res :=
  onFire s fun d c => d.scalar2 c p [t1, t2] fun a b => bit1 (BitVec.slt a b)

/-- TLE (R123): a ≤ b, signed. -/
def execTle (p : Pred) (t1 : Tgt) (t2 : Tgt) (s : State) : Res :=
  onFire s fun d c => d.scalar2 c p [t1, t2] fun a b => bit1 (BitVec.sle a b)

/-- TLTU (R123): a < b, unsigned. -/
def execTltu (p : Pred) (t1 : Tgt) (t2 : Tgt) (s : State) : Res :=
  onFire s fun d c => d.scalar2 c p [t1, t2] fun a b => bit1 (BitVec.ult a b)

/-- TLEU (R123): a ≤ b, unsigned. -/
def execTleu (p : Pred) (t1 : Tgt) (t2 : Tgt) (s : State) : Res :=
  onFire s fun d c => d.scalar2 c p [t1, t2] fun a b => bit1 (BitVec.ule a b)

/-- LEA (R124): a + b × 2^sh. -/
def execLea (p : Pred) (sh : BitVec 3) (t1 : Tgt) (t2 : Tgt) (t3 : Tgt) (s : State) : Res :=
  onFire s fun d c => d.scalar2 c p [t1, t2, t3] fun a b => a + b <<< sh.toNat

/-- BFI (R118): a with bits [l+n−1:l] from b. -/
def execBfi (p : Pred) (lo : BitVec 6) (wm1 : BitVec 6) (t1 : Tgt) (t2 : Tgt) (t3 : Tgt) (s : State) : Res :=
  onFire s fun d c => d.scalar2 c p [t1, t2, t3] fun a b => bfInsert lo.toNat (wm1.toNat + 1) a b

/-- NEG (R112): 0 − a. -/
def execNeg (p : Pred) (t1 : Tgt) (t2 : Tgt) (s : State) : Res :=
  onFire s fun d c => d.scalar1 c p [t1, t2] fun a => 0 - a

/-- ABS (R112): a if a ≥ 0 signed, else 0 − a. -/
def execAbs (p : Pred) (t1 : Tgt) (t2 : Tgt) (s : State) : Res :=
  onFire s fun d c => d.scalar1 c p [t1, t2] fun a => if BitVec.slt a 0 then 0 - a else a

/-- ADDI (R112): a + the immediate, sign-extended. -/
def execAddi (p : Pred) (imm : BitVec 16) (t1 : Tgt) (t2 : Tgt) (t3 : Tgt) (s : State) : Res :=
  onFire s fun d c => d.scalar1 c p [t1, t2, t3] fun a => a + sx imm

/-- ANDI (R115): a AND the immediate, zero-extended. -/
def execAndi (p : Pred) (imm : BitVec 16) (t1 : Tgt) (t2 : Tgt) (t3 : Tgt) (s : State) : Res :=
  onFire s fun d c => d.scalar1 c p [t1, t2, t3] fun a => a &&& zx imm

/-- ORI (R115): a OR the immediate, zero-extended. -/
def execOri (p : Pred) (imm : BitVec 16) (t1 : Tgt) (t2 : Tgt) (t3 : Tgt) (s : State) : Res :=
  onFire s fun d c => d.scalar1 c p [t1, t2, t3] fun a => a ||| zx imm

/-- XORI (R115): a XOR the immediate, zero-extended. -/
def execXori (p : Pred) (imm : BitVec 16) (t1 : Tgt) (t2 : Tgt) (t3 : Tgt) (s : State) : Res :=
  onFire s fun d c => d.scalar1 c p [t1, t2, t3] fun a => a ^^^ zx imm

/-- SHLI (R116): a shifted left. -/
def execShli (p : Pred) (amt : BitVec 6) (t1 : Tgt) (t2 : Tgt) (t3 : Tgt) (s : State) : Res :=
  onFire s fun d c => d.scalar1 c p [t1, t2, t3] fun a => shl64 a amt.toNat

/-- SHRI (R116): a shifted right. -/
def execShri (p : Pred) (amt : BitVec 6) (t1 : Tgt) (t2 : Tgt) (t3 : Tgt) (s : State) : Res :=
  onFire s fun d c => d.scalar1 c p [t1, t2, t3] fun a => shr64 a amt.toNat

/-- SARI (R116): a shifted right with copies of a[63]. -/
def execSari (p : Pred) (amt : BitVec 6) (t1 : Tgt) (t2 : Tgt) (t3 : Tgt) (s : State) : Res :=
  onFire s fun d c => d.scalar1 c p [t1, t2, t3] fun a => sar64 a amt.toNat

/-- TEQI (R123): a = the immediate, sign-extended. -/
def execTeqi (p : Pred) (imm : BitVec 16) (t1 : Tgt) (t2 : Tgt) (t3 : Tgt) (s : State) : Res :=
  onFire s fun d c => d.scalar1 c p [t1, t2, t3] fun a => bit1 (a == sx imm)

/-- TLTI (R123): a < the immediate, signed. -/
def execTlti (p : Pred) (imm : BitVec 16) (t1 : Tgt) (t2 : Tgt) (t3 : Tgt) (s : State) : Res :=
  onFire s fun d c => d.scalar1 c p [t1, t2, t3] fun a => bit1 (BitVec.slt a (sx imm))

/-- LITH (R122): the literal over the low half of a. -/
def execLith (p : Pred) (lit : BitVec 32) (t1 : Tgt) (t2 : Tgt) (t3 : Tgt) (s : State) : Res :=
  onFire s fun d c => d.scalar1 c p [t1, t2, t3] fun a => lit ++ a.extractLsb' 0 32

/-- CLZ (R117): zero bits above the highest set bit. -/
def execClz (p : Pred) (t1 : Tgt) (t2 : Tgt) (s : State) : Res :=
  onFire s fun d c => d.scalar1 c p [t1, t2] fun a => BitVec.ofNat 64 (clz64 a)

/-- CTZ (R117): zero bits below the lowest set bit. -/
def execCtz (p : Pred) (t1 : Tgt) (t2 : Tgt) (s : State) : Res :=
  onFire s fun d c => d.scalar1 c p [t1, t2] fun a => BitVec.ofNat 64 (ctz64 a)

/-- POPC (R117): set bits. -/
def execPopc (p : Pred) (t1 : Tgt) (t2 : Tgt) (s : State) : Res :=
  onFire s fun d c => d.scalar1 c p [t1, t2] fun a => BitVec.ofNat 64 (popc64 a)

/-- SEXT (R118): a[w−1:0], sign-extended. -/
def execSext (p : Pred) (width : BitVec 7) (t1 : Tgt) (t2 : Tgt) (t3 : Tgt) (s : State) : Res :=
  onFire s fun d c => d.scalar1 c p [t1, t2, t3] fun a => signExt width.toNat a

/-- ZEXT (R118): a[w−1:0], zero-extended. -/
def execZext (p : Pred) (width : BitVec 7) (t1 : Tgt) (t2 : Tgt) (t3 : Tgt) (s : State) : Res :=
  onFire s fun d c => d.scalar1 c p [t1, t2, t3] fun a => a &&& lowMask width.toNat

/-- BFX (R118): a[l+n−1:l], zero-extended. -/
def execBfx (p : Pred) (lo : BitVec 6) (wm1 : BitVec 6) (t1 : Tgt) (t2 : Tgt) (t3 : Tgt) (s : State) : Res :=
  onFire s fun d c => d.scalar1 c p [t1, t2, t3] fun a => (a >>> lo.toNat) &&& lowMask (wm1.toNat + 1)

/-- DIV (R113): signed division truncating toward zero. -/
def execDiv (p : Pred) (t1 : Tgt) (t2 : Tgt) (s : State) : Res :=
  onFire s fun d c => d.divide c p [t1, t2] (fun a b => a.sdiv b) fun _ _ => 0xFFFFFFFFFFFFFFFF

/-- DIVU (R113): unsigned division. -/
def execDivu (p : Pred) (t1 : Tgt) (t2 : Tgt) (s : State) : Res :=
  onFire s fun d c => d.divide c p [t1, t2] (fun a b => a / b) fun _ _ => 0xFFFFFFFFFFFFFFFF

/-- REM (R113): signed remainder with the sign of a. -/
def execRem (p : Pred) (t1 : Tgt) (t2 : Tgt) (s : State) : Res :=
  onFire s fun d c => d.divide c p [t1, t2] (fun a b => a.srem b) fun a _ => a

/-- REMU (R113): unsigned remainder. -/
def execRemu (p : Pred) (t1 : Tgt) (t2 : Tgt) (s : State) : Res :=
  onFire s fun d c => d.divide c p [t1, t2] (fun a b => a % b) fun a _ => a

/-- LIT_W (R122): the constant, sign-extended. -/
def execLitW (p : Pred) (v : BitVec 16) (t1 : Tgt) (t2 : Tgt) (t3 : Tgt) (s : State) : Res :=
  onFire s fun d c => d.ordinary c p .all [t1, t2, t3] fun d => d.send c [t1, t2, t3] (scalarTok (sx v))

/-- LIT_L (R122): the literal, sign-extended. -/
def execLitL (p : Pred) (lit : BitVec 32) (t1 : Tgt) (t2 : Tgt) (t3 : Tgt) (s : State) : Res :=
  onFire s fun d c => d.ordinary c p .all [t1, t2, t3] fun d => d.send c [t1, t2, t3] (scalarTok (sx lit))

/-- SEL (R123): a if p ≠ 0, else b. -/
def execSel (t1 : Tgt) (t2 : Tgt) (s : State) : Res :=
  onFire s fun d c => d.ordinary c .always .all [t1, t2] fun d =>
    let a := c.a.val
    let b := c.b.val
    let q := c.p.val
    d.send c [t1, t2] (scalarTok (if q != 0 then a else b))

/-- BFN (R119): bit i is bit 4·a[i] + 2·b[i] + p[i] of the truth table. -/
def execBfn (tt : BitVec 8) (t1 : Tgt) (t2 : Tgt) (t3 : Tgt) (s : State) : Res :=
  onFire s fun d c => d.ordinary c .always .all [t1, t2, t3] fun d =>
    let a := c.a.val
    let b := c.b.val
    let q := c.p.val
    d.send c [t1, t2, t3] (scalarTok (bfn64 tt a b q))

/-- LUTB (R120, R121): each byte of a through image table tbl. -/
def execLutb (p : Pred) (tbl : BitVec 8) (t1 : Tgt) (t2 : Tgt) (t3 : Tgt) (s : State) : Res :=
  onFire s fun d c => d.ordinary c p .all [t1, t2, t3] fun d =>
    d.send c [t1, t2, t3] (scalarTok (lutb64 ((tget tbl.toNat c.r.image.luts).getD []) c.a.val))

end Sys2Proof.Machine
end

