-- ==== Sys2Proof/Machine/Sieve.lean ====
section
/-!
DEFINITION. The score bound (R306), the Sieve (R308, R311), lookups at an owner (R302) and the
decrements that follow a KVFREE (R317).
-/

namespace Sys2Proof.Machine

/-! ### The score bound (R306) -/

/-- Bounds of a channel as they are read: a NaN code is unbounded (R306). -/
def sideMin (side : BitVec 512) (c : Nat) : Nat :=
  let x := (side.extractLsb' (16 * c) 16).toNat
  if (fBf16.decode x).isNan then 0xFF80 else x
def sideMax (side : BitVec 512) (c : Nat) : Nat :=
  let x := (side.extractLsb' (256 + 16 * c) 16).toNat
  if (fBf16.decode x).isNan then 0x7F80 else x

/-- BF16 codes in order of value, NaN apart. -/
def bfKey (x : Nat) : Int := if x < 0x8000 then Int.ofNat x else -Int.ofNat (x - 0x8000)

/-- The term of a channel. -/
def boundTerm (q : FV) (side : BitVec 512) (c : Nat) : FV :=
  if q.isZero then .num Dy.zero
  else
    let f := fBf16.decode (if q.neg then sideMin side c else sideMax side c)
    if q.isInf && f.isZero then .inf false else (q.mul f).1

/-- The bound of a page with side entry `side` over channels 0..d−1. -/
def scoreBound (q : List (BitVec 32)) (d : Nat) (side : BitVec 512) : BitVec 32 :=
  let qs := (q.take d).map fp32
  if qs.any FV.isNan then qnan
  else if (List.range d).any fun c => bfKey (sideMax side c) < bfKey (sideMin side c) then ninf
  else
    let ts := qs.zipIdx.map fun p => boundTerm p.1 side p.2
    if ts.any fun t => t == .inf false then pinf
    else if ts.any fun t => t == .inf true then ninf
    else
      let x := (ts.filterMap fun t => match t with | .num y => some y | _ => none).foldl Dy.add Dy.zero
      if x.m = 0 then 0 else BitVec.ofNat 32 (fFp32.round .ru 0 x).code

/-- The query's lanes: an invalid one below d counts as +0 (R311). -/
def queryLanes (q : Token) : List (BitVec 32) := (List.range 16).map fun c => if q.vld c then q.lane c else 0

/-! ### Emission (R296, R308, R311) -/

def PageRes.settled : PageRes → Bool
  | .bounded _ => true
  | .absent => true
  | .bad .. => true
  | _ => false

/-- The two tokens of a pair, from its pages and the number of the first. -/
def pairTokens (ps : List PageRes) (first : Nat) : Token × Token :=
  match ps.findSome? fun p => match p with | .bad e v => some (e, v) | _ => none with
  | some (e, v) => (errTok e v, errTok e v)
  | none =>
    let ls := (List.range 16).map fun i => match ps[i]? with | some (.bounded b) => some (b, BitVec.ofNat 32 (first + i)) | _ => none
    let vs := validOf (ls.map Option.isSome)
    (dataTok (ls.map fun l => (l.map Prod.fst).getD 0) vs 0 0, dataTok (ls.map fun l => (l.map Prod.snd).getD 0) vs 0 0)

/-- Send one token to T1 and one to T2 of an SVBND, in one cycle (R296). -/
def Dev.sendBounds (d : Dev) (c : Fx) (a b : Token) : Dev :=
  match c.r.image.instr c.idx with
  | some (.svbnd _ t1 t2) => (d.modInst c.i fun x => { x with held := x.held ++ outputs c [t1] a ++ outputs c [t2] b }).pump c.i
  | _ => d

/-- Two entries are of one SVBND's firing. -/
def Svb.same (v w : Svb) : Bool := v.inst == w.inst && v.idx == w.idx

/-- Change an SVBND of a die's Sieve. -/
def Dev.setSvb (d : Dev) (die : Nat) (v : Svb) : Dev :=
  d.modDie die fun x => { x with sieve := x.sieve.map fun w => if v.same w then v else w }

/-- An SVBND leaves the Sieve. -/
def Dev.endSvb (d : Dev) (die : Nat) (v : Svb) : Dev :=
  d.modDie die fun x => { x with sieve := x.sieve.filter fun w => !v.same w }

/-- Send the pairs whose pages are all settled, in page order, and the done tokens after the last (R308). -/
def Dev.emitPairs (d : Dev) (die : Nat) (c : Fx) : Nat → Svb → Dev
  | 0, v => d.setSvb die v
  | n + 1, v =>
    if cdiv v.pages.length 16 ≤ v.sent then (d.endSvb die v).sendBounds c doneTok doneTok
    else
      let ps := (v.pages.drop (16 * v.sent)).take 16
      if !ps.all PageRes.settled then d.setSvb die v
      else
        let (a, b) := pairTokens ps (16 * v.sent)
        (d.sendBounds c a b).emitPairs die c n { v with sent := v.sent + 1 }

/-! ### Admission: header and entries (R308, R310, R311) -/

/-- What a page's entry makes of it. -/
def pageOf (s : Word) (p : Nat) (e : Nat) : PageRes :=
  if !entV e then .absent
  else if !entOk e then .bad .perm (entAddr s p)
  else .waiting (BitVec.ofNat 64 e)

/-- Read the entries' lines in page order: `none` while a read must wait. -/
def Dev.readEntries (d : Dev) (c : Fx) (s : Word) : List (Nat × Nat) → List PageRes → Option (Dev × List PageRes)
  | [], ps => some (d, ps)
  | (p, n) :: r, ps =>
    match d.readAt c (entAddr s p) (8 * n) 8 with
    | .ok d v =>
      d.readEntries c s r (ps ++ (List.range n).map fun k => pageOf s (p + k) (nfld v (64 * k + 63) (64 * k)))
    | .err d e => d.readEntries c s r (ps ++ List.replicate n (.bad e (entAddr s p)))
    | .wait _ => none
    | .gone d => some (d, ps)

/-- An SVBND enters its die's Sieve. -/
def Dev.admitSvb (d : Dev) (die : Nat) (v : Svb) (c : Fx) : Option Dev :=
  let fail (d : Dev) (e : TErr) : Option Dev := some ((d.endSvb die v).sendBounds c (errTok e v.s) (errTok e v.s))
  match d.readAt c v.s 64 64 with
  | .wait _ => none
  | .gone d => some d
  | .err d e => fail d e
  | .ok d h =>
    match seqHdr h with
    | none => fail d .perm
    | some h =>
      match d.readEntries c v.s (entLines h.pages) [] with
      | none => none
      | some (d, ps) =>
        if (d.inst c.i).isNone then some d
        else some (d.emitPairs die c (cdiv h.pages 16 + 1) { v with hdr := some (h.len, h.ppp, h.hw), pages := ps })

/-- SIEVE_ADMIT (R308): the first SVBND waiting at a Sieve with fewer than 16 of them enters, its header
and its stage-1 entries read. -/
def execSieveAdmit (die : Nat) (s : State) : Res :=
  onEvent s "SIEVE_ADMIT" fun d =>
    let q := (d.die die).sieve
    if 16 ≤ (q.filter fun v => v.hdr.isSome).length then none else
    match q.find? fun v => v.hdr.isNone with
    | none => none
    | some v =>
      match d.fxOf v.inst v.idx with
      | none => none
      | some c => d.admitSvb die v c

/-! ### Lookups (R302, R305, R308) -/

/-- The page that a lookup names: SVBND k in its Sieve's order and page p, as k × 65536 + p. -/
def Dev.sievePage (d : Dev) (die page : Nat) : Option (Nat × Svb × PageRes) :=
  match (d.die die).sieve[page / 65536]? with
  | none => none
  | some v => (v.pages[page % 65536]?).map fun r => (page % 65536, v, r)

/-- Lookups of a die's Sieve under way. -/
def Dev.lookups (d : Dev) (die : Nat) : Nat :=
  ((d.die die).sieve.map fun v => (v.pages.filter fun p => match p with | .asked .. => true | _ => false).length).sum

/-- Stage 2 at a die of this package, with the side entry (R302, R305). -/
def Dev.lookup (d : Dev) (die gbn part : Nat) (tab : Word × Word := d.blockTab die) : Option (BitVec 512) :=
  (d.stage2 die gbn part tab).bind fun b => if d.cutAt b.side 64 then none else some (BitVec.ofNat 512 (d.num b.side 64))

/-- The bytes of a block's page that another package may reach: within one line of a memory that the module presents. -/
def Dev.peerPage (d : Dev) (b : Block) (value : Bool) (off n : Nat) : Option Nat :=
  let pa := (if value then b.v else b.k) + off
  match d.rangeIn pa n with
  | none => none
  | some .devreg => none
  | some _ => if n = 0 || 64 < off % 64 + n || 4096 < off + n || d.ringAt pa n || d.cutAt pa n then none else some pa

/-- What the owner of a block does for another package (R302, R316, R317): a one-access region at system scope, as the
peer's other requests are (R409, log 19); `none` while it must wait. -/
def Dev.peerBlockReq (d : Dev) (die p gbn part : Nat) (q : PeerReq) : Option Dev :=
  let refuse : Option Dev := some (d.emit (.peerReply p false []))
  let done (d : Dev) (bs : List Byte) : Dev := d.emit (.peerReply p true bs)
  if !(d.peer p).en then refuse else
  match q, d.stage2 die gbn part with
  | .side, _ => some (d.emit (.peerStage2 p (d.lookup die gbn part)))
  | .raise, some b => (d.agentTry ⟨.host, b.pa + 24, 4, true, true, 0⟩).map fun d => done (d.refsUp b) []
  | .drop, some b => (d.agentTry ⟨.host, b.pa + 24, 4, true, true, 0⟩).map fun d => done (d.refsDown b) []
  | .get value off n, some b =>
    (match d.peerPage b value off n with
     | none => refuse
     | some pa => (d.agentTry ⟨.host, pa, n, false, false, 0⟩).map fun d => done (d.noteRead pa n) (d.bytes pa n))
  | .put value off data, some b =>
    (match d.peerPage b value off data.length with
     | none => refuse
     | some pa => (d.agentTry ⟨.host, pa, data.length, true, false, 0⟩).map fun d =>
       done (d.writeLeaf (cellsAt pa data) noClass (if value then none else some b.side) part 0).wake [])
  | _, _ => refuse

/-- The side entry of a block of this package cannot be decoded (R372). -/
def Dev.sideCut (d : Dev) (die gbn part : Nat) (tab : Word × Word) : Bool := (d.stage2 die gbn part tab).any fun b => d.cutAt b.side 64

/-- STAGE2_LOOKUP (R302): the owner of a page's block looks it up and fetches its side entry. `peerReq`
is a request of another package for a block of this die: the peer, the block number, the partition that the
request carries and what it asks for; it is answered at once. -/
def execStage2Lookup (die : Nat) (page : Nat) (peerReq : Option (Nat × Nat × Nat × PeerReq)) (s : State) : Res :=
  onEvent s "STAGE2_LOOKUP" fun d =>
    match peerReq with
    | some (p, gbn, part, q) => d.peerDo p (d.peerBlockReq die p gbn part q)
    | none =>
      match d.sievePage die page with
      | some (p, v, .waiting e) =>
        if 64 ≤ d.lookups die then none else
        (match d.fxOf v.inst v.idx with
         | none => none
         | some c =>
           let gbn := entGbn e.toNat
           let ask (d : Dev) (side : Option (BitVec 512)) : Option Dev :=
             some (d.setSvb die { v with pages := v.pages.set p (.asked e side) })
           if entRmt e.toNat then
             (if d.reach (entPeer e.toNat) then ask (d.emit (.peerLookup (entPeer e.toNat) gbn c.t.part)) none else ask d none)
           else if d.sideCut (entDie e.toNat) gbn c.t.part (c.blockTab d (entDie e.toNat)) then
             some (d.emitPairs die c (cdiv v.pages.length 16 + 1) { v with pages := v.pages.set p (.bad .decode (entAddr v.s p)) })
           else ask d (d.lookup (entDie e.toNat) gbn c.t.part (c.blockTab d (entDie e.toNat))))
      | _ => none

/-- SIEVE_LOOKUP_REPLY (R308, R311): a reply returns and its page is bounded; `remote` is the side entry
that another package's owner sends, none where its stage 2 failed. -/
def execSieveLookupReply (die : Nat) (page : Nat) (remote : Option (BitVec 512)) (s : State) : Res :=
  onEvent s "SIEVE_LOOKUP_REPLY" fun d =>
    match d.sievePage die page with
    | some (p, v, .asked e side) =>
      (match d.fxOf v.inst v.idx with
       | none => none
       | some c =>
         let gone := entRmt e.toNat && !d.reach (entPeer e.toNat)
         let side := if entRmt e.toNat then (if gone then none else remote) else side
         let hw := match v.hdr with | some (_, _, hw) => hw | none => 0
         let (d, r) := match side with
           | some x => (d, PageRes.bounded (scoreBound (queryLanes v.q) hw x))
           | none => (d.agentRecord c.t.part c.t.asid (if gone then .contextGone else .queue) (entAddr v.s p) (some (d.partyOf c.x.tid c.t)), .absent)
         some (d.emitPairs die c (cdiv v.pages.length 16 + 1) { v with pages := v.pages.set p r }))
    | _ => none

/-! ### Decrements (R317) -/

/-- KVFREE_DECREMENT (R317): the next decrement of REFS that a die's Sieve has to make; one toward an
owner that cannot be reached is held until its link returns. The flag is what another package's owner answers. -/
def execKvfreeDecrement (die : Nat × Bool) (s : State) : Res :=
  onEvent s "KVFREE_DECREMENT" fun d =>
    let (die, ok) := die
    match (d.die die).decrs with
    | [] => none
    | q :: r =>
      let e := q.entry.toNat
      if entRmt e && !d.reach (entPeer e) then some (d.modDie die fun x => { x with decrs := r, held := x.held ++ [q] })
      else some ((d.modDie die fun x => { x with decrs := r }).refsDrop q.asid q.part e q.addr q.who ok)

end Sys2Proof.Machine
end

