-- ==== Sys2Proof/Machine/Dispatch.lean ====
section
/-!
DEFINITION. Dispatch: one arm per constructor of `Instr`.
-/

namespace Sys2Proof.Machine

def exec (i : Instr) (s : State) : Host.Outcome State Fault Refusal :=
  match i with
  | .nop p => Sys2Proof.Machine.execNop p s
  | .read p n file t1 t2 t3 => Sys2Proof.Machine.execRead p n file t1 t2 t3 s
  | .write p n => Sys2Proof.Machine.execWrite p n s
  | .vread p n t1 t2 t3 => Sys2Proof.Machine.execVread p n t1 t2 t3 s
  | .vwrite p n => Sys2Proof.Machine.execVwrite p n s
  | .movS p t1 t2 => Sys2Proof.Machine.execMovS p t1 t2 s
  | .movW p t1 t2 t3 t4 => Sys2Proof.Machine.execMovW p t1 t2 t3 t4 s
  | .movx p fmt geom scl t1 t2 t3 => Sys2Proof.Machine.execMovx p fmt geom scl t1 t2 t3 s
  | .nullS p t1 t2 => Sys2Proof.Machine.execNullS p t1 t2 s
  | .nullW p t1 t2 t3 t4 => Sys2Proof.Machine.execNullW p t1 t2 t3 t4 s
  | .br p => Sys2Proof.Machine.execBr p s
  | .bri p lit => Sys2Proof.Machine.execBri p lit s
  | .call p lit => Sys2Proof.Machine.execCall p lit s
  | .ret p => Sys2Proof.Machine.execRet p s
  | .halt p => Sys2Proof.Machine.execHalt p s
  | .yield p lit => Sys2Proof.Machine.execYield p lit s
  | .spawn lit => Sys2Proof.Machine.execSpawn lit s
  | .steerS p t1 t2 => Sys2Proof.Machine.execSteerS p t1 t2 s
  | .steerW p t1 t2 t3 => Sys2Proof.Machine.execSteerW p t1 t2 t3 s
  | .mergeS p t1 t2 => Sys2Proof.Machine.execMergeS p t1 t2 s
  | .mergeW p t1 t2 t3 => Sys2Proof.Machine.execMergeW p t1 t2 t3 s
  | .carry p t1 t2 => Sys2Proof.Machine.execCarry p t1 t2 s
  | .initW p v t1 t2 t3 => Sys2Proof.Machine.execInitW p v t1 t2 t3 s
  | .initL p lit t1 t2 t3 => Sys2Proof.Machine.execInitL p lit t1 t2 t3 s
  | .gate p t1 t2 => Sys2Proof.Machine.execGate p t1 t2 s
  | .stopTok p lvl t1 t2 t3 => Sys2Proof.Machine.execStopTok p lvl t1 t2 t3 s
  | .doneTok p t1 t2 => Sys2Proof.Machine.execDoneTok p t1 t2 s
  | .testk p mask t1 t2 t3 => Sys2Proof.Machine.execTestk p mask t1 t2 t3 s
  | .lvlup p amt t1 t2 t3 => Sys2Proof.Machine.execLvlup p amt t1 t2 t3 s
  | .lvldn p amt t1 t2 t3 => Sys2Proof.Machine.execLvldn p amt t1 t2 t3 s
  | .bar p => Sys2Proof.Machine.execBar p s
  | .add p t1 t2 => Sys2Proof.Machine.execAdd p t1 t2 s
  | .sub p t1 t2 => Sys2Proof.Machine.execSub p t1 t2 s
  | .mul p t1 t2 => Sys2Proof.Machine.execMul p t1 t2 s
  | .mulh p t1 t2 => Sys2Proof.Machine.execMulh p t1 t2 s
  | .mulhu p t1 t2 => Sys2Proof.Machine.execMulhu p t1 t2 s
  | .div p t1 t2 => Sys2Proof.Machine.execDiv p t1 t2 s
  | .divu p t1 t2 => Sys2Proof.Machine.execDivu p t1 t2 s
  | .rem p t1 t2 => Sys2Proof.Machine.execRem p t1 t2 s
  | .remu p t1 t2 => Sys2Proof.Machine.execRemu p t1 t2 s
  | .min p t1 t2 => Sys2Proof.Machine.execMin p t1 t2 s
  | .max p t1 t2 => Sys2Proof.Machine.execMax p t1 t2 s
  | .minu p t1 t2 => Sys2Proof.Machine.execMinu p t1 t2 s
  | .maxu p t1 t2 => Sys2Proof.Machine.execMaxu p t1 t2 s
  | .neg p t1 t2 => Sys2Proof.Machine.execNeg p t1 t2 s
  | .abs p t1 t2 => Sys2Proof.Machine.execAbs p t1 t2 s
  | .addi p imm t1 t2 t3 => Sys2Proof.Machine.execAddi p imm t1 t2 t3 s
  | .andi p imm t1 t2 t3 => Sys2Proof.Machine.execAndi p imm t1 t2 t3 s
  | .ori p imm t1 t2 t3 => Sys2Proof.Machine.execOri p imm t1 t2 t3 s
  | .xori p imm t1 t2 t3 => Sys2Proof.Machine.execXori p imm t1 t2 t3 s
  | .shli p amt t1 t2 t3 => Sys2Proof.Machine.execShli p amt t1 t2 t3 s
  | .shri p amt t1 t2 t3 => Sys2Proof.Machine.execShri p amt t1 t2 t3 s
  | .sari p amt t1 t2 t3 => Sys2Proof.Machine.execSari p amt t1 t2 t3 s
  | .teqi p imm t1 t2 t3 => Sys2Proof.Machine.execTeqi p imm t1 t2 t3 s
  | .tlti p imm t1 t2 t3 => Sys2Proof.Machine.execTlti p imm t1 t2 t3 s
  | .litW p v t1 t2 t3 => Sys2Proof.Machine.execLitW p v t1 t2 t3 s
  | .litL p lit t1 t2 t3 => Sys2Proof.Machine.execLitL p lit t1 t2 t3 s
  | .lith p lit t1 t2 t3 => Sys2Proof.Machine.execLith p lit t1 t2 t3 s
  | .lea p sh t1 t2 t3 => Sys2Proof.Machine.execLea p sh t1 t2 t3 s
  | .and p t1 t2 => Sys2Proof.Machine.execAnd p t1 t2 s
  | .or p t1 t2 => Sys2Proof.Machine.execOr p t1 t2 s
  | .xor p t1 t2 => Sys2Proof.Machine.execXor p t1 t2 s
  | .shl p t1 t2 => Sys2Proof.Machine.execShl p t1 t2 s
  | .shr p t1 t2 => Sys2Proof.Machine.execShr p t1 t2 s
  | .sar p t1 t2 => Sys2Proof.Machine.execSar p t1 t2 s
  | .rotl p t1 t2 => Sys2Proof.Machine.execRotl p t1 t2 s
  | .teq p t1 t2 => Sys2Proof.Machine.execTeq p t1 t2 s
  | .tne p t1 t2 => Sys2Proof.Machine.execTne p t1 t2 s
  | .tlt p t1 t2 => Sys2Proof.Machine.execTlt p t1 t2 s
  | .tle p t1 t2 => Sys2Proof.Machine.execTle p t1 t2 s
  | .tltu p t1 t2 => Sys2Proof.Machine.execTltu p t1 t2 s
  | .tleu p t1 t2 => Sys2Proof.Machine.execTleu p t1 t2 s
  | .sel t1 t2 => Sys2Proof.Machine.execSel t1 t2 s
  | .clz p t1 t2 => Sys2Proof.Machine.execClz p t1 t2 s
  | .ctz p t1 t2 => Sys2Proof.Machine.execCtz p t1 t2 s
  | .popc p t1 t2 => Sys2Proof.Machine.execPopc p t1 t2 s
  | .sext p width t1 t2 t3 => Sys2Proof.Machine.execSext p width t1 t2 t3 s
  | .zext p width t1 t2 t3 => Sys2Proof.Machine.execZext p width t1 t2 t3 s
  | .bfx p lo wm1 t1 t2 t3 => Sys2Proof.Machine.execBfx p lo wm1 t1 t2 t3 s
  | .bfi p lo wm1 t1 t2 t3 => Sys2Proof.Machine.execBfi p lo wm1 t1 t2 t3 s
  | .bfn tt t1 t2 t3 => Sys2Proof.Machine.execBfn tt t1 t2 t3 s
  | .lutb p tbl t1 t2 t3 => Sys2Proof.Machine.execLutb p tbl t1 t2 t3 s
  | .srd p t1 t2 => Sys2Proof.Machine.execSrd p t1 t2 s
  | .srdv p t1 t2 => Sys2Proof.Machine.execSrdv p t1 t2 s
  | .swr p => Sys2Proof.Machine.execSwr p s
  | .swrv p => Sys2Proof.Machine.execSwrv p s
  | .spub p => Sys2Proof.Machine.execSpub p s
  | .srel p => Sys2Proof.Machine.execSrel p s
  | .srew p => Sys2Proof.Machine.execSrew p s
  | .spos p t1 t2 => Sys2Proof.Machine.execSpos p t1 t2 s
  | .sjoin p role => Sys2Proof.Machine.execSjoin p role s
  | .sleave p => Sys2Proof.Machine.execSleave p s
  | .ldb p off t1 t2 t3 => Sys2Proof.Machine.execLdb p off t1 t2 t3 s
  | .ldbu p off t1 t2 t3 => Sys2Proof.Machine.execLdbu p off t1 t2 t3 s
  | .ldh p off t1 t2 t3 => Sys2Proof.Machine.execLdh p off t1 t2 t3 s
  | .ldhu p off t1 t2 t3 => Sys2Proof.Machine.execLdhu p off t1 t2 t3 s
  | .ldw p off t1 t2 t3 => Sys2Proof.Machine.execLdw p off t1 t2 t3 s
  | .ldwu p off t1 t2 t3 => Sys2Proof.Machine.execLdwu p off t1 t2 t3 s
  | .ldd p off t1 t2 t3 => Sys2Proof.Machine.execLdd p off t1 t2 t3 s
  | .stb p off => Sys2Proof.Machine.execStb p off s
  | .sth p off => Sys2Proof.Machine.execSth p off s
  | .stw p off => Sys2Proof.Machine.execStw p off s
  | .std p off => Sys2Proof.Machine.execStd p off s
  | .ldv p off t1 t2 t3 => Sys2Proof.Machine.execLdv p off t1 t2 t3 s
  | .ldvs p off t1 t2 t3 => Sys2Proof.Machine.execLdvs p off t1 t2 t3 s
  | .stv p off => Sys2Proof.Machine.execStv p off s
  | .gath p t1 t2 => Sys2Proof.Machine.execGath p t1 t2 s
  | .scat => Sys2Proof.Machine.execScat s
  | .agen p lit t1 t2 t3 => Sys2Proof.Machine.execAgen p lit t1 t2 t3 s
  | .agenx p lit t1 t2 t3 => Sys2Proof.Machine.execAgenx p lit t1 t2 t3 s
  | .aadd p off sz ord scope t1 t2 t3 => Sys2Proof.Machine.execAadd p off sz ord scope t1 t2 t3 s
  | .aand p off sz ord scope t1 t2 t3 => Sys2Proof.Machine.execAand p off sz ord scope t1 t2 t3 s
  | .aor p off sz ord scope t1 t2 t3 => Sys2Proof.Machine.execAor p off sz ord scope t1 t2 t3 s
  | .axor p off sz ord scope t1 t2 t3 => Sys2Proof.Machine.execAxor p off sz ord scope t1 t2 t3 s
  | .amin p off sz ord scope t1 t2 t3 => Sys2Proof.Machine.execAmin p off sz ord scope t1 t2 t3 s
  | .amax p off sz ord scope t1 t2 t3 => Sys2Proof.Machine.execAmax p off sz ord scope t1 t2 t3 s
  | .aminu p off sz ord scope t1 t2 t3 => Sys2Proof.Machine.execAminu p off sz ord scope t1 t2 t3 s
  | .amaxu p off sz ord scope t1 t2 t3 => Sys2Proof.Machine.execAmaxu p off sz ord scope t1 t2 t3 s
  | .axchg p off sz ord scope t1 t2 t3 => Sys2Proof.Machine.execAxchg p off sz ord scope t1 t2 t3 s
  | .acas off sz ord scope t1 t2 t3 => Sys2Proof.Machine.execAcas off sz ord scope t1 t2 t3 s
  | .afadd p off ord scope t1 t2 t3 => Sys2Proof.Machine.execAfadd p off ord scope t1 t2 t3 s
  | .acq p scope t1 t2 t3 => Sys2Proof.Machine.execAcq p scope t1 t2 t3 s
  | .rel p scope t1 t2 t3 => Sys2Proof.Machine.execRel p scope t1 t2 t3 s
  | .sync p scope t1 t2 t3 => Sys2Proof.Machine.execSync p scope t1 t2 t3 s
  | .copy p => Sys2Proof.Machine.execCopy p s
  | .copy2d p => Sys2Proof.Machine.execCopy2d p s
  | .xfer p => Sys2Proof.Machine.execXfer p s
  | .task p => Sys2Proof.Machine.execTask p s
  | .waitc p => Sys2Proof.Machine.execWaitc p s
  | .testc p t1 t2 => Sys2Proof.Machine.execTestc p t1 t2 s
  | .wsseal p => Sys2Proof.Machine.execWsseal p s
  | .wsopen p => Sys2Proof.Machine.execWsopen p s
  | .vadd p t1 t2 => Sys2Proof.Machine.execVadd p t1 t2 s
  | .vsub p t1 t2 => Sys2Proof.Machine.execVsub p t1 t2 s
  | .vmul p t1 t2 => Sys2Proof.Machine.execVmul p t1 t2 s
  | .vmin p t1 t2 => Sys2Proof.Machine.execVmin p t1 t2 s
  | .vmax p t1 t2 => Sys2Proof.Machine.execVmax p t1 t2 s
  | .vfma t1 t2 => Sys2Proof.Machine.execVfma t1 t2 s
  | .vfms t1 t2 => Sys2Proof.Machine.execVfms t1 t2 s
  | .vdiv p t1 t2 => Sys2Proof.Machine.execVdiv p t1 t2 s
  | .vsqrt p t1 t2 => Sys2Proof.Machine.execVsqrt p t1 t2 s
  | .vabs p t1 t2 => Sys2Proof.Machine.execVabs p t1 t2 s
  | .vneg p t1 t2 => Sys2Proof.Machine.execVneg p t1 t2 s
  | .vceq p t1 t2 => Sys2Proof.Machine.execVceq p t1 t2 s
  | .vcne p t1 t2 => Sys2Proof.Machine.execVcne p t1 t2 s
  | .vclt p t1 t2 => Sys2Proof.Machine.execVclt p t1 t2 s
  | .vcle p t1 t2 => Sys2Proof.Machine.execVcle p t1 t2 s
  | .vsel t1 t2 => Sys2Proof.Machine.execVsel t1 t2 s
  | .vcvt p fmt geom rm t1 t2 t3 => Sys2Proof.Machine.execVcvt p fmt geom rm t1 t2 t3 s
  | .vpack p fmt t1 t2 t3 => Sys2Proof.Machine.execVpack p fmt t1 t2 t3 s
  | .vunpk p fmt t1 t2 t3 => Sys2Proof.Machine.execVunpk p fmt t1 t2 t3 s
  | .vbcast p lane t1 t2 t3 => Sys2Proof.Machine.execVbcast p lane t1 t2 t3 s
  | .vextr p lane t1 t2 t3 => Sys2Proof.Machine.execVextr p lane t1 t2 t3 s
  | .vins p lane t1 t2 t3 => Sys2Proof.Machine.execVins p lane t1 t2 t3 s
  | .vperm p t1 t2 => Sys2Proof.Machine.execVperm p t1 t2 s
  | .vshuf p half t1 t2 => Sys2Proof.Machine.execVshuf p half t1 t2 s
  | .vrot p cnt t1 t2 t3 => Sys2Proof.Machine.execVrot p cnt t1 t2 t3 s
  | .vreda p t1 t2 => Sys2Proof.Machine.execVreda p t1 t2 s
  | .vredx p t1 t2 => Sys2Proof.Machine.execVredx p t1 t2 s
  | .vredn p t1 t2 => Sys2Proof.Machine.execVredn p t1 t2 s
  | .vscan p t1 t2 => Sys2Proof.Machine.execVscan p t1 t2 s
  | .vmask p mask t1 t2 t3 => Sys2Proof.Machine.execVmask p mask t1 t2 t3 s
  | .vtopk p k t1 t2 t3 => Sys2Proof.Machine.execVtopk p k t1 t2 t3 s
  | .vexp2 p t1 t2 => Sys2Proof.Machine.execVexp2 p t1 t2 s
  | .vlog2 p t1 t2 => Sys2Proof.Machine.execVlog2 p t1 t2 s
  | .vrcp p t1 t2 => Sys2Proof.Machine.execVrcp p t1 t2 s
  | .vrsq p t1 t2 => Sys2Proof.Machine.execVrsq p t1 t2 s
  | .vtanh p t1 t2 => Sys2Proof.Machine.execVtanh p t1 t2 s
  | .vsigm p t1 t2 => Sys2Proof.Machine.execVsigm p t1 t2 s
  | .vsinc p t1 t2 => Sys2Proof.Machine.execVsinc p t1 t2 s
  | .vrope p tbl t1 t2 t3 => Sys2Proof.Machine.execVrope p tbl t1 t2 t3 s
  | .viadd p w t1 t2 => Sys2Proof.Machine.execViadd p w t1 t2 s
  | .visub p w t1 t2 => Sys2Proof.Machine.execVisub p w t1 t2 s
  | .vimul p w t1 t2 => Sys2Proof.Machine.execVimul p w t1 t2 s
  | .viand p w t1 t2 => Sys2Proof.Machine.execViand p w t1 t2 s
  | .vior p w t1 t2 => Sys2Proof.Machine.execVior p w t1 t2 s
  | .vixor p w t1 t2 => Sys2Proof.Machine.execVixor p w t1 t2 s
  | .vishl p w t1 t2 => Sys2Proof.Machine.execVishl p w t1 t2 s
  | .vishr p w t1 t2 => Sys2Proof.Machine.execVishr p w t1 t2 s
  | .vimin p w t1 t2 => Sys2Proof.Machine.execVimin p w t1 t2 s
  | .vimax p w t1 t2 => Sys2Proof.Machine.execVimax p w t1 t2 s
  | .dot p t1 t2 => Sys2Proof.Machine.execDot p t1 t2 s
  | .dota t1 t2 => Sys2Proof.Machine.execDota t1 t2 s
  | .doti t1 t2 => Sys2Proof.Machine.execDoti t1 t2 s
  | .svbnd p t1 t2 => Sys2Proof.Machine.execSvbnd p t1 t2 s
  | .svgth p t1 t2 => Sys2Proof.Machine.execSvgth p t1 t2 s
  | .kvx p t1 t2 => Sys2Proof.Machine.execKvx p t1 t2 s
  | .kvfork p t1 t2 => Sys2Proof.Machine.execKvfork p t1 t2 s
  | .kvfree p => Sys2Proof.Machine.execKvfree p s
  | .fscan p lvl t1 t2 t3 => Sys2Proof.Machine.execFscan p lvl t1 t2 t3 s
  | .fisect t1 t2 => Sys2Proof.Machine.execFisect t1 t2 s
  | .funion t1 t2 => Sys2Proof.Machine.execFunion t1 t2 s
  | .frpt t1 t2 => Sys2Proof.Machine.execFrpt t1 t2 s
  | .fred rop t1 t2 => Sys2Proof.Machine.execFred rop t1 t2 s
  | .fvals p t1 t2 => Sys2Proof.Machine.execFvals p t1 t2 s
  | .fbld => Sys2Proof.Machine.execFbld s
  | .fchk lvl t1 t2 t3 => Sys2Proof.Machine.execFchk lvl t1 t2 t3 s
  | .trap p code => Sys2Proof.Machine.execTrap p code s
  | .tret p => Sys2Proof.Machine.execTret p s
  | .crrd p n t1 t2 t3 => Sys2Proof.Machine.execCrrd p n t1 t2 t3 s
  | .crwr p n => Sys2Proof.Machine.execCrwr p n s
  | .xlinv p => Sys2Proof.Machine.execXlinv p s
  | .cfginv p => Sys2Proof.Machine.execCfginv p s
  | .qpost p => Sys2Proof.Machine.execQpost p s
  | .dbgbrk p tag => Sys2Proof.Machine.execDbgbrk p tag s
  | .hint p code => Sys2Proof.Machine.execHint p code s
  | .blockFetch die asid b => Sys2Proof.Machine.execBlockFetch die asid b s
  | .blockCheck die asid b => Sys2Proof.Machine.execBlockCheck die asid b s
  | .instanceAdmission reg tid => Sys2Proof.Machine.execInstanceAdmission reg tid s
  | .instanceCommit inst hold => Sys2Proof.Machine.execInstanceCommit inst hold s
  | .retirementCount tid => Sys2Proof.Machine.execRetirementCount tid s
  | .instanceStall inst => Sys2Proof.Machine.execInstanceStall inst s
  | .contextWriteOut tid => Sys2Proof.Machine.execContextWriteOut tid s
  | .contextReadBack tid => Sys2Proof.Machine.execContextReadBack tid s
  | .memoryReply inst idx => Sys2Proof.Machine.execMemoryReply inst idx s
  | .trackedAccessArrival inst idx => Sys2Proof.Machine.execTrackedAccessArrival inst idx s
  | .atomicArrival inst idx => Sys2Proof.Machine.execAtomicArrival inst idx s
  | .streamWaitEnd inst idx => Sys2Proof.Machine.execStreamWaitEnd inst idx s
  | .extensionFrameReturn desc => Sys2Proof.Machine.execExtensionFrameReturn desc s
  | .queueConsume q => Sys2Proof.Machine.execQueueConsume q s
  | .stampPoll q => Sys2Proof.Machine.execStampPoll q s
  | .deviceLaunchStart => Sys2Proof.Machine.execDeviceLaunchStart s
  | .faultDomainTeardown part fdom => Sys2Proof.Machine.execFaultDomainTeardown part fdom s
  | .asidRelease asid => Sys2Proof.Machine.execAsidRelease asid s
  | .functionReset fn => Sys2Proof.Machine.execFunctionReset fn s
  | .queueEnable fn q v => Sys2Proof.Machine.execQueueEnable fn q v s
  | .queueDisable fn q v => Sys2Proof.Machine.execQueueDisable fn q v s
  | .queueErrClear fn q => Sys2Proof.Machine.execQueueErrClear fn q s
  | .qtailWrite fn q v => Sys2Proof.Machine.execQtailWrite fn q v s
  | .fnqWrite fn v => Sys2Proof.Machine.execFnqWrite fn v s
  | .fnaWrite fn v => Sys2Proof.Machine.execFnaWrite fn v s
  | .functionSuspend fn => Sys2Proof.Machine.execFunctionSuspend fn s
  | .functionResume fn => Sys2Proof.Machine.execFunctionResume fn s
  | .hostStreamJoin fn w v => Sys2Proof.Machine.execHostStreamJoin fn w v s
  | .hostStreamLeave fn w => Sys2Proof.Machine.execHostStreamLeave fn w s
  | .hostStreamErrClear fn w => Sys2Proof.Machine.execHostStreamErrClear fn w s
  | .hostStreamAdvance fn w q => Sys2Proof.Machine.execHostStreamAdvance fn w q s
  | .hostStreamRewind fn w q => Sys2Proof.Machine.execHostStreamRewind fn w q s
  | .copyOperation op => Sys2Proof.Machine.execCopyOperation op s
  | .copy2dOperation op => Sys2Proof.Machine.execCopy2dOperation op s
  | .xferPut op => Sys2Proof.Machine.execXferPut op s
  | .xferPutaddF32 op => Sys2Proof.Machine.execXferPutaddF32 op s
  | .xferPutaddBf16 op => Sys2Proof.Machine.execXferPutaddBf16 op s
  | .xferGet op data => Sys2Proof.Machine.execXferGet op data s
  | .gatherOperation op remote => Sys2Proof.Machine.execGatherOperation op remote s
  | .gatherListOperation op remote => Sys2Proof.Machine.execGatherListOperation op remote s
  | .forkOperation op remote => Sys2Proof.Machine.execForkOperation op remote s
  | .engineOperationFinish op => Sys2Proof.Machine.execEngineOperationFinish op s
  | .walkerEnqueue die => Sys2Proof.Machine.execWalkerEnqueue die s
  | .shelfSealComplete shelf => Sys2Proof.Machine.execShelfSealComplete shelf s
  | .refreshWindow die begins len gap => Sys2Proof.Machine.execRefreshWindow die begins len gap s
  | .schedulerDecision die => Sys2Proof.Machine.execSchedulerDecision die s
  | .imageLookupComplete die asid b pes cap lat => Sys2Proof.Machine.execImageLookupComplete die asid b pes cap lat s
  | .configLoadComplete reg => Sys2Proof.Machine.execConfigLoadComplete reg s
  | .drainTimeout reg => Sys2Proof.Machine.execDrainTimeout reg s
  | .idleRelease reg => Sys2Proof.Machine.execIdleRelease reg s
  | .quiescenceExtension die addr => Sys2Proof.Machine.execQuiescenceExtension die addr s
  | .pageWalk die asid va wr => Sys2Proof.Machine.execPageWalk die asid va wr s
  | .reservationGrant home part => Sys2Proof.Machine.execReservationGrant home part s
  | .ladleZero home part => Sys2Proof.Machine.execLadleZero home part s
  | .ladleBalloon home part => Sys2Proof.Machine.execLadleBalloon home part s
  | .ladleHostCopy home part => Sys2Proof.Machine.execLadleHostCopy home part s
  | .ladleFail home part => Sys2Proof.Machine.execLadleFail home part s
  | .decodeWatchdog chunk => Sys2Proof.Machine.execDecodeWatchdog chunk s
  | .pagerMerge die slot => Sys2Proof.Machine.execPagerMerge die slot s
  | .migrationPost die cmd => Sys2Proof.Machine.execMigrationPost die cmd s
  | .migrationLineCopy mig => Sys2Proof.Machine.execMigrationLineCopy mig s
  | .migrationFinish mig => Sys2Proof.Machine.execMigrationFinish mig s
  | .migsettleExpiry page => Sys2Proof.Machine.execMigsettleExpiry page s
  | .hpresWrite home v => Sys2Proof.Machine.execHpresWrite home v s
  | .pquotaWrite fn home v => Sys2Proof.Machine.execPquotaWrite fn home v s
  | .blidxWrite fn home v => Sys2Proof.Machine.execBlidxWrite fn home v s
  | .hcidxWrite fn home v => Sys2Proof.Machine.execHcidxWrite fn home v s
  | .trapCapture tid => Sys2Proof.Machine.execTrapCapture tid s
  | .apctlWrite fn v => Sys2Proof.Machine.execApctlWrite fn v s
  | .apertureRead fn off len => Sys2Proof.Machine.execApertureRead fn off len s
  | .apertureWrite fn off data => Sys2Proof.Machine.execApertureWrite fn off data s
  | .peerWrite peer raddr data => Sys2Proof.Machine.execPeerWrite peer raddr data s
  | .peerRead peer raddr len => Sys2Proof.Machine.execPeerRead peer raddr len s
  | .peerAdd peer raddr bf16 data => Sys2Proof.Machine.execPeerAdd peer raddr bf16 data s
  | .stage2Lookup die page peerReq => Sys2Proof.Machine.execStage2Lookup die page peerReq s
  | .linkDown peer => Sys2Proof.Machine.execLinkDown peer s
  | .linkReturn peer => Sys2Proof.Machine.execLinkReturn peer s
  | .sieveAdmit die => Sys2Proof.Machine.execSieveAdmit die s
  | .sieveLookupReply die page remote => Sys2Proof.Machine.execSieveLookupReply die page remote s
  | .kvfreeDecrement die => Sys2Proof.Machine.execKvfreeDecrement die s
  | .xlpostWrite v => Sys2Proof.Machine.execXlpostWrite v s
  | .hostXlinvCommand => Sys2Proof.Machine.execHostXlinvCommand s
  | .hostXlinvComplete => Sys2Proof.Machine.execHostXlinvComplete s
  | .xlstatErrClear => Sys2Proof.Machine.execXlstatErrClear s
  | .nonceCmd buf => Sys2Proof.Machine.execNonceCmd buf s
  | .unlockCmd buf => Sys2Proof.Machine.execUnlockCmd buf s
  | .attestCmd buf => Sys2Proof.Machine.execAttestCmd buf s
  | .extendCmd buf => Sys2Proof.Machine.execExtendCmd buf s
  | .provisionCmd buf => Sys2Proof.Machine.execProvisionCmd buf s
  | .fwupdateCmd buf => Sys2Proof.Machine.execFwupdateCmd buf s
  | .debugCmd buf => Sys2Proof.Machine.execDebugCmd buf s
  | .lockCmd buf => Sys2Proof.Machine.execLockCmd buf s
  | .rootOfTrustComplete => Sys2Proof.Machine.execRootOfTrustComplete s
  | .powerReqP0 => Sys2Proof.Machine.execPowerReqP0 s
  | .powerReqP1 => Sys2Proof.Machine.execPowerReqP1 s
  | .powerReqP2 => Sys2Proof.Machine.execPowerReqP2 s
  | .powerReqP3 => Sys2Proof.Machine.execPowerReqP3 s
  | .p2EntryComplete => Sys2Proof.Machine.execP2EntryComplete s
  | .p2WakeAccess => Sys2Proof.Machine.execP2WakeAccess s
  | .wakeComplete => Sys2Proof.Machine.execWakeComplete s
  | .coldBringUp => Sys2Proof.Machine.execColdBringUp s
  | .imageRegistration pa => Sys2Proof.Machine.execImageRegistration pa s
  | .registerWrite fn bar off v => Sys2Proof.Machine.execRegisterWrite fn bar off v s
  | .systemEnd tid seq => Sys2Proof.Machine.execSystemEnd tid seq s

end Sys2Proof.Machine
end

