-- ==== Sys2Proof/Machine/Moves.lean ====
section
/-!
DEFINITION. Moves: a firing (R84), moves in P2 and P3 (R417, R418), the passage of cycles, the moves that the
device makes of its own accord when the agenda is empty (R12), and the image that `withFetchWord` places.
-/

namespace Sys2Proof.Machine

/-! ### A firing -/

/-- The words of instruction `idx` in the image of an instance's region, decoded. -/
def Image.fetch (im : Image) (idx : Nat) : Option Instr :=
  match im.starts[idx]? with
  | none => none
  | some k => match decode (im.words.drop k) with | .ok (i, _) => some i | .error _ => none

/-- The instruction of the latched firing. -/
def Dev.fetchFire (d : Dev) : Option Instr :=
  match d.fx with
  | none => none
  | some c => c.r.image.fetch c.idx

/-- After a firing: nothing is latched, and its region was active (R245). -/
def State.fired (s : State) (reg : Nat) : State :=
  { s with dev := { (s.dev.modRegion reg fun r => { r with active := s.dev.cycle }) with fire := none } }

/-- An instance's instruction fires: its tokens are taken and latched, its words decoded and executed. One
that cannot fire does nothing. -/
def State.fireMove (s : State) (i idx : Nat) : Res :=
  match s.dev.latch i idx with
  | none => .next s
  | some d =>
    match d.fetchFire with
    | none => .fault .undecodable
    | some ins =>
      match exec ins { s with dev := d } with
      | .next t => .next (t.fired (match d.fx with | some c => c.x.reg | none => 0))
      | r => r

/-! ### Power states (R417, R418) -/

/-- Accesses that wake the module from P2: writes to QTAIL, WADV, WREW or WCTL, BAR4 accesses and peer
requests (R418). -/
def wakesP2 : Instr → Bool
  | .qtailWrite .. => true
  | .hostStreamJoin .. => true
  | .hostStreamLeave .. => true
  | .hostStreamErrClear .. => true
  | .hostStreamAdvance .. => true
  | .hostStreamRewind .. => true
  | .apertureRead .. => true
  | .apertureWrite .. => true
  | .peerWrite .. => true
  | .peerRead .. => true
  | .peerAdd .. => true
  | .stage2Lookup _ _ (some _) => true
  | .registerWrite _ bar off _ => bar == 2 && 0x10000 ≤ off && off < 0x14000 && off % 0x40 == 0
  | _ => false

/-- Requests that come through the host port (R404). -/
def hostReq : Instr → Bool
  | .qtailWrite .. => true
  | .queueEnable .. => true
  | .queueDisable .. => true
  | .queueErrClear .. => true
  | .fnqWrite .. => true
  | .fnaWrite .. => true
  | .functionSuspend .. => true
  | .functionResume .. => true
  | .hostStreamJoin .. => true
  | .hostStreamLeave .. => true
  | .hostStreamErrClear .. => true
  | .hostStreamAdvance .. => true
  | .hostStreamRewind .. => true
  | .apctlWrite .. => true
  | .apertureRead .. => true
  | .apertureWrite .. => true
  | .hpresWrite .. => true
  | .pquotaWrite .. => true
  | .blidxWrite .. => true
  | .hcidxWrite .. => true
  | .migrationPost .. => true
  | .xlpostWrite .. => true
  | .xlstatErrClear => true
  | .imageRegistration .. => true
  | .registerWrite .. => true
  | .nonceCmd .. => true
  | .unlockCmd .. => true
  | .attestCmd .. => true
  | .extendCmd .. => true
  | .provisionCmd .. => true
  | .fwupdateCmd .. => true
  | .debugCmd .. => true
  | .lockCmd .. => true
  | .powerReqP0 => true
  | .powerReqP1 => true
  | .powerReqP2 => true
  | .powerReqP3 => true
  | _ => false

/-- The peer whose request a move is (R408). -/
def peerOf : Instr → Option Nat
  | .peerWrite p .. => some p
  | .peerRead p .. => some p
  | .peerAdd p .. => some p
  | .stage2Lookup _ _ (some x) => some x.1
  | _ => none

/-- A request stays behind earlier ones: those held, and a write of its port that waits for sectors (R404). -/
def State.staysBehind (s : State) (i : Instr) : Bool :=
  let held := !s.rot.heldOps.isEmpty
  match peerOf i with
  | some p => held || s.dev.peerHeld p
  | none => hostReq i && (held || s.dev.hostHeld)

/-- A request of the host or of a peer. -/
def fromOutside (i : Instr) : Bool := hostReq i || (peerOf i).isSome

/-- What goes on while the fabric clock stands still: the root of trust, power changes, links, and registers
of the IO dies (R417, R418). -/
def servedInP2 : Instr → Bool
  | .nonceCmd .. => true
  | .unlockCmd .. => true
  | .attestCmd .. => true
  | .extendCmd .. => true
  | .provisionCmd .. => true
  | .fwupdateCmd .. => true
  | .debugCmd .. => true
  | .lockCmd .. => true
  | .rootOfTrustComplete => true
  | .powerReqP0 => true
  | .powerReqP1 => true
  | .powerReqP2 => true
  | .powerReqP3 => true
  | .p2WakeAccess => true
  | .wakeComplete => true
  | .coldBringUp => true
  | .linkDown .. => true
  | .linkReturn .. => true
  | .queueEnable .. => true
  | .queueDisable .. => true
  | .queueErrClear .. => true
  | .fnqWrite .. => true
  | .fnaWrite .. => true
  | .functionSuspend .. => true
  | .functionResume .. => true
  | .apctlWrite .. => true
  | .hpresWrite .. => true
  | .pquotaWrite .. => true
  | .blidxWrite .. => true
  | .hcidxWrite .. => true
  | .xlpostWrite .. => true
  | .xlstatErrClear => true
  | .imageRegistration .. => true
  | .registerWrite .. => true
  | _ => false

/-- Hold a request behind those held already. -/
def State.hold (s : State) (i : Instr) : State := { s with rot := { s.rot with heldOps := s.rot.heldOps ++ [i] } }

/-- An access in P2 is held, and wakes the module unless it is waking already (R418). -/
def State.holdAccess (s : State) (i : Instr) : Res :=
  let s := s.hold i
  if s.rot.waking then .next s else execP2WakeAccess s

/-- An event or host access in the power state that holds. In P3 nothing acts but a bring-up. A request stays behind
earlier ones of its port, and is made after them (R404, log 15). In P2 an event of the fabric does not come about, as its clock
stands still. -/
def State.opMove (s : State) (i : Instr) : Res :=
  match s.rot.power with
  | .p3 => (match i with | .coldBringUp => exec i s | _ => .next s)
  | .p2 =>
    if wakesP2 i then s.holdAccess i
    else if s.staysBehind i then .next (s.hold i)
    else if servedInP2 i then exec i s
    else .next s
  | _ => if s.staysBehind i then .next (s.hold i) else exec i s

/-! ### Time -/

/-- A move takes a cycle, but two migration commands posted one after the other meet in one (R380); a wait passes one cycle
at a time. -/
def Move.passes : Move → Bool
  | .op i => (match i with | .migrationPost .. => false | _ => true)
  | .fire .. => true
  | .wait n => n != 0

/-- What the device does by the end of a cycle whatever else happens: launches that a teardown has reached start nothing
(R166), records that waited are written (R354), outputs that find room are taken (R84), polls that are due are made (R161),
Ladles that have done enough rest and others are called on (R374), config tokens reach their PEs (R235), announced refresh windows begin (R200), and what the schedulers and the
quiescence detectors count is counted (R230, R245). -/
def Dev.endCycle (d : Dev) : Dev :=
  let d := d.endTears (d.devq.length + 1)
  let d := Dev.sendRecords d.recq.length d
  let d := d.pumpAll.pollQueues.freshNeeds.restLadles.callLadles.takeConfig
  { d.openWindows.noteIdle.noteSilence with balk := false }

/-- A cycle of the fabric clock passes. -/
def Dev.tick (d : Dev) : Dev := let d := d.endCycle; { d with cycle := d.cycle + 1 }

/-- Requests held behind a write that waited for sectors come next once it has been made. -/
def State.release (s : State) : State :=
  if s.rot.heldOps.isEmpty || !s.dev.pend.isEmpty then s
  else ⟨{ s.dev with agenda := s.rot.heldOps.map Move.op ++ s.dev.agenda }, { s.rot with heldOps := [] }⟩

/-- The fabric clock runs in P0 and P1. -/
def State.tick (s : State) : State :=
  match s.rot.power with
  | .p0 => State.release { s with dev := s.dev.tick }
  | .p1 => State.release { s with dev := s.dev.tick }
  | _ => s

/-- Make a move. A firing needs the fabric clock, which stands still in P2, and the fabric, which P3 has ended (R417, R418);
a wait of more than one cycle goes on. -/
def State.move (s : State) : Move → Res
  | .op i => s.opMove i
  | .fire i idx =>
    (match s.rot.power with
     | .p0 => s.fireMove i idx
     | .p1 => s.fireMove i idx
     | _ => .next s)
  | .wait n => .next (if n ≤ 1 then s else { s with dev := { s.dev with agenda := .wait (n - 1) :: s.dev.agenda } })

/-! ### The device's own moves -/

/-- A move that the device may make of its own accord. -/
abbrev Auto := State → Res

/-- The first of some moves that can be made. -/
def firstMove (s : State) : List Auto → Option State
  | [] => none
  | m :: r => match m s with | .next t => some t | _ => firstMove s r

/-- A list from its k-th element on, cyclically. -/
def turn {α : Type} (k : Nat) (l : List α) : List α :=
  let n := k % Nat.max l.length 1
  l.drop n ++ l.take n

/-- Firings, replies and ends of waits of the instances in flight. -/
def instMoves (s : State) : List Auto :=
  let d := s.dev
  d.insts.flatMap fun p =>
    let n := match d.region p.2.reg with | some r => r.image.instrs.length | none => 0
    let fires := ((List.range n).filter fun k => (d.canFire p.1 k).isSome).map fun k => fun s => State.fireMove s p.1 k
    let replies := ((p.2.reqs.filter fun q => !q.back).map (·.idx)).eraseDups.map fun k => execMemoryReply p.1 k
    let waits := p.2.blocked.flatMap fun b =>
      [execTrackedAccessArrival p.1 b.1.idx, execAtomicArrival p.1 b.1.idx, execStreamWaitEnd p.1 b.1.idx]
    fires ++ replies ++ waits

/-- Commits and stalls, and what follows them. -/
def commitMoves (s : State) : List Auto :=
  let d := s.dev
  (d.insts.flatMap fun p => [execInstanceCommit p.1 false, execInstanceStall p.1]) ++
    (d.threads.flatMap fun p => match p.2.st with
      | .retired => [execRetirementCount p.1]
      | .trapped => [execTrapCapture p.1]
      | _ => []) ++
    d.recs.filterMap fun r => match r.owner with
      | .region tid seq => if r.ended.isSome then some (execSystemEnd tid seq) else none
      | .engine _ => none

/-- A thread whose context makes room on a die where another waits: a cold one before others (R37, R389). -/
def roomMoves (s : State) : List Auto :=
  let d := s.dev
  let waits (die : Nat) : Bool := d.threads.any fun p => p.2.die == die && p.2.slot.isNone && p.2.st == .queued
  let outs := d.threads.filter fun p => p.2.writable && waits p.2.die && d.freeSlots p.2.die == 0
  let of_ (c : CtxPref) : List Auto := (outs.filter fun p => p.2.pref == c).map fun p => execContextWriteOut p.1
  ((d.threads.filter fun p => p.2.slot.isNone && p.2.st == .queued).map fun p => execContextReadBack p.1) ++
    of_ .cold ++ of_ .plain ++ of_ .keep

/-- Queues and device-side launches; polls are made as they are due (R161). -/
def queueMoves (s : State) : List Auto :=
  let d := s.dev
  [execDeviceLaunchStart] ++ d.queues.map fun p => execQueueConsume p.1

/-- Blocks on their way to a region, and regions. An image that the mapper has not placed is placed class by
class, with channels of 8 and the latency 0. -/
def blockMoves (s : State) : List Auto :=
  let d := s.dev
  let keys := (d.threads.filter fun p => p.2.st == .queued).map fun p => (p.2.die, p.2.asid, p.2.pc)
  let wants := d.dies.flatMap fun x => x.2.want.map fun w => (x.1, w.1, w.2.2)
  let place (f : Fetch) : List (List Nat) := match f.st with
    | .checked bs is .. => (carried is (hdrFoot (hdrOf bs))).map (placeGreedy is)
    | _ => []
  let under := (d.fetches.filter fun f => match f.st with | .lines _ => true | _ => false).map fun f => (f.die, f.asid, f.blk)
  ((keys ++ wants ++ under).eraseDups.map fun k => execBlockFetch k.1 k.2.1 k.2.2) ++
    (d.fetches.flatMap fun f =>
      [execBlockCheck f.die f.asid f.blk, execImageLookupComplete f.die f.asid f.blk (place f) 8 0]) ++
    (((List.range 8).filter fun die =>
      d.threads.any (fun p => p.2.die == die && p.2.st == .queued) || d.regions.any fun p => p.2.die == die).map execSchedulerDecision) ++
    (d.regions.flatMap fun p =>
      [execConfigLoadComplete p.1, execDrainTimeout p.1, execIdleRelease p.1] ++
        match d.nextFor p.2 with | some (t, _) => [execInstanceAdmission p.1 t] | none => [])

/-- Engines, the walkers and shelves. The bytes that a peer sends come from outside. -/
def engineMoves (s : State) : List Auto :=
  let d := s.dev
  (d.ops.flatMap fun p =>
    if p.2.ended then [execEngineOperationFinish p.1]
    else match p.2.kind with
      | .copy => [execCopyOperation p.1]
      | .copy2d => [execCopy2dOperation p.1]
      | .xfer => [execXferPut (p.1, true), execXferPutaddF32 (p.1, true), execXferPutaddBf16 (p.1, true)]
      | .gather => [execGatherOperation p.1 none]
      | .gatherList => [execGatherListOperation p.1 none]
      | .fork => [execForkOperation p.1 none]) ++
    (d.dies.filter fun x => !x.2.walk.isEmpty).map (fun x => execWalkerEnqueue x.1) ++
    (d.shelves.map fun x => execShelfSealComplete x.1) ++
    (d.dies.filter fun x => x.2.inWin).map fun x => execRefreshWindow x.1 false 0 0

/-- The Sieves and the decrements after a KVFREE. What another package sends comes from outside. -/
def sieveMoves (s : State) : List Auto :=
  s.dev.dies.flatMap fun x =>
    (if x.2.decrs.isEmpty then [] else [execKvfreeDecrement (x.1, true)]) ++
    (if x.2.sieve.any fun v => v.hdr.isNone then [execSieveAdmit x.1] else []) ++
    (x.2.sieve.zipIdx.flatMap fun v => v.1.pages.zipIdx.flatMap fun p => match p.1 with
      | .waiting _ => [execStage2Lookup x.1 (v.2 * 65536 + p.2) none]
      | .asked e _ =>
        if entRmt e.toNat && s.dev.reach (entPeer e.toNat) then [] else [execSieveLookupReply x.1 (v.2 * 65536 + p.2) none]
      | _ => [])

/-- Sectors, the Ladle, the pager, migrations and extension frames. -/
def memoryMoves (s : State) : List Auto :=
  let d := s.dev
  (d.pools.flatMap fun p =>
    [execReservationGrant p.1.2 p.1.1] ++ match p.2.lstate with
      | 0 => []
      | 1 => [execLadleZero p.1.2 p.1.1]
      | 2 => [execLadleBalloon p.1.2 p.1.1]
      | 3 => [execLadleHostCopy p.1.2 p.1.1]
      | _ => [execLadleFail p.1.2 p.1.1]) ++
    (d.bounce.map fun x => execPagerMerge x.1.1 x.1.2) ++
    (d.migs.flatMap fun m => [execMigrationLineCopy m.1, execMigrationFinish m.1]) ++
    (d.settle.map fun x => execMigsettleExpiry x.1) ++
    (d.drip.map fun x => execExtensionFrameReturn x.1)

/-- Host invalidations, the root of trust and power changes. -/
def systemMoves (_ : State) : List Auto :=
  [execHostXlinvCommand, execHostXlinvComplete, execRootOfTrustComplete, execP2EntryComplete, execWakeComplete]

/-- Scratch that the Drip takes where nothing names one: from the top of the die's scratch down. -/
def dripTry (die : Nat) : List Nat := (List.range 1024).map fun k => scratchBase die + 2 ^ 28 - 262144 * (k + 1)

/-- The quiescence detectors (R246). -/
def quietMoves (s : State) : List Auto :=
  ((List.range 8).filter fun die => !(s.dev.silentSet die).isEmpty).flatMap fun die =>
    (List.range 8).flatMap fun home => (dripTry home).map fun a => execQuiescenceExtension die a

/-- The moves the device may make, in an order that goes round with the cycles. -/
def autoMoves (s : State) : List Auto :=
  let k := s.dev.cycle
  match s.rot.power with
  | .p3 => []
  | .p2 => systemMoves s
  | _ => (turn k [instMoves, commitMoves, roomMoves, queueMoves, blockMoves, engineMoves, sieveMoves, memoryMoves, systemMoves, quietMoves]).flatMap
      fun g => turn k (g s)

/-- The device's next move: the first that can be made; where there is none, a cycle passes. -/
def State.autoMove (s : State) : State := (firstMove s (autoMoves s)).getD s

/-- A request that must wait comes next again, and the device goes on meanwhile with the moves of its own (R187, R200, R209,
R404); the wait takes a cycle also where the request takes none. -/
def State.putOff (s : State) (m : Move) : State :=
  let t := State.autoMove { s with dev := { s.dev with agenda := [] } }
  let t := if m.passes then t else t.tick
  { t with dev := { t.dev with agenda := t.dev.agenda ++ m :: s.dev.agenda } }

/-- The next move of the agenda. A request of the host or a peer that must wait is put off; an event that cannot occur is no
step of the device, and only its cycle passes. -/
def State.take (s : State) (m : Move) : Res :=
  match s.move m with
  | .refused (.mustWait _) => .next (match m with | .op i => if fromOutside i then s.putOff m else s | _ => s)
  | .refused _ => .next s
  | o => o

/-! ### An image of one instruction -/

/-- The tokens in the slots of a placed instruction: the scalar 0. -/
def slotTokens (i : Instr) : List Chan :=
  match i.info with
  | none => []
  | some o =>
    let sl := (if o.hasA then [Slot.a] else []) ++ (if o.hasB then [Slot.b] else []) ++
      (if o.pData || predOf i != .always then [Slot.p] else [])
    sl.map fun x => ⟨0, 0, x, false, [scalarTok 0], [], [], 1, [false]⟩

/-- An image whose only instruction is the one of the words. -/
def imageOf (i : Instr) (ws : List Word32) : Image :=
  { digest := 0, part := 0, hdr := 0, words := ws, starts := [0], instrs := [i], luts := [], descs := [],
    places := [⟨1, [0]⟩], cap := 8, lat := 0 }

/-- The thread that runs it, in partition 0. -/
def placedThread (cycle : Nat) : Thread :=
  { g := Vector.replicate 16 0, v := Vector.replicate 4 Token.null, k := Vector.replicate 6 0, flags := 0, st := .running,
    asid := 0, part := 0, rcb := 0, pc := 0, waddr := 0, wpa := 0, die := 0, launch := 0, slot := some 0, since := cycle,
    order := 0, before := cycle, pref := .plain, trap := none, trapOrd := 0, tcause := 0, mark := none, seq := 0,
    forkAt := 0, parent := none }

/-- The region that holds it. -/
def placedRegion (cycle : Nat) (im : Image) : Region :=
  { die := 0, site := 0, foot := 1, asid := 0, part := 0, blk := 0, rcb := 0, image := im, phase := .open_, cfg := [], loaded := cycle,
    pinned := false, tds := false, gens := Vector.replicate 32 0, idle := cycle, bare := cycle, active := cycle, clear := cycle, rings := [], comps := [] }

/-- The device with an instruction's words placed: a thread, a region and an instance whose slots hold a
token each. -/
def State.place (s : State) (i : Instr) (ws : List Word32) : State :=
  let d := s.dev
  let t := placedThread d.cycle
  let r := placedRegion d.cycle (imageOf i ws)
  let x := newInst d d.nextRegion 0 r d.nextTid t (s.snap t)
  let x : Inst := { x with chans := slotTokens i }
  { s with dev := { d with
      threads := d.threads ++ [(d.nextTid, t)]
      nextTid := d.nextTid + 1
      regions := d.regions ++ [(d.nextRegion, r)]
      nextRegion := d.nextRegion + 1
      insts := d.insts ++ [(d.nextInst, x)]
      nextInst := d.nextInst + 1
      agenda := .fire d.nextInst 0 :: d.agenda } }

end Sys2Proof.Machine
end

