-- ==== Sys2Proof/Machine/Step.lean ====
section
/-!
DEFINITION. The step, and the placement of an instruction so that the next step fires it.
-/

namespace Sys2Proof.Machine

/-- One step: the next move of the agenda, or, when it is empty, a move of the device's own; then time passes. -/
def step (s : State) : Host.Outcome State Fault Refusal :=
  match s.dev.agenda with
  | [] => .next s.autoMove.tick
  | m :: r =>
    match State.take { s with dev := { s.dev with agenda := r } } m with
    | .next t => .next (if m.passes then t.tick else t)
    | o => o

/-- The instruction whose bits are `w`, placed in a region with an instance about to fire it. Words that do
not decode are placed nowhere: no placed block holds them (R79). -/
def State.withFetchWord (s : State) (nbits w : Nat) : State :=
  match decodeTableWord nbits w with
  | none => s
  | some i => s.place i (tableWords nbits w)

end Sys2Proof.Machine
end

