-- ==== Sys2Proof/Safety.lean ====
section
/-!
DEFINITION. What counts as a safe state and a safe run, and the words in which the claims speak of a
firing, its operands and what it leaves alone.
-/

namespace Sys2Proof

open Machine

/-! ### States and runs -/

/-- Memory is in its canonical form: addresses strictly rising, no byte listed that reads the same unlisted. -/
abbrev Safety.MemOk (s : State) : Prop := memWf s.dev.mem = true

/-- Between two steps no firing is latched and no access of the event under way waits. -/
abbrev Safety.Settled (s : State) : Prop := s.dev.fire = none ∧ s.dev.balk = false

/-- A step that stops is stopped by a move that the outside asks for and that cannot be made: never by a
firing that a placed block makes. -/
abbrev Safety.NoFault (s : State) : Prop := ∀ f, Machine.step s ≠ .fault f

/-- The state with a move taken off its agenda, `r` being left. -/
def Safety.popped (s : State) (r : List Move) : State := { s with dev := { s.dev with agenda := r } }

/-- `n` steps that all answer a next state, each keeping memory canonical. -/
def Safety.runs : Nat → State → Prop
  | 0, s => Safety.MemOk s
  | n + 1, s => Safety.MemOk s ∧ ∃ t, Machine.step s = .next t ∧ Safety.runs n t

/-- The root of trust is lawful (R410..R414). -/
def Safety.RootOk (r : RoT) : Prop :=
  (r.sec = .returned → r.ownerEd = none ∧ r.ownerMl = none ∧ r.secrets = false ∧ ∀ p, r.dbgOf p = .invasive → p = 0) ∧
  (r.sec = .locked ∨ r.sec = .ownerDebug → r.ownerEd.isSome = true ∧ r.ownerMl.isSome = true) ∧
  (r.sec = .unprovisioned → r.ownerEd = none ∧ r.ownerMl = none) ∧
  (∀ x, r.fw = some x → r.fuses.1 ≤ x.2) ∧ (∀ x, r.tables = some x → r.fuses.2 ≤ x.2) ∧
  (∀ i (h : i < 8), (r.m.get ⟨i, h⟩).length = 48)

/-! ### Firings and operands (R82, R86) -/

/-- The latched firing of a state, with its instance, thread and region. -/
abbrev Safety.Fires (s : State) (c : Fx) : Prop := s.dev.fx = some c

/-- The firing is selected (R86): unpredicated, or slot p holds a valid data scalar that agrees with the mode. -/
def Safety.Selected (m : Pred) (c : Fx) : Prop :=
  match m with
  | .always => c.fr.p = none
  | .onTrue => ∃ t, c.fr.p = some t ∧ t.kind = .data ∧ t.vld 0 = true ∧ t.val ≠ 0
  | .onFalse => ∃ t, c.fr.p = some t ∧ t.kind = .data ∧ t.vld 0 = true ∧ t.val = 0

/-- The firing is not selected (R87): slot p holds a data scalar that disagrees with the mode, or a null token. -/
def Safety.Unselected (m : Pred) (c : Fx) : Prop :=
  match m with
  | .always => False
  | .onTrue => ∃ t, c.fr.p = some t ∧ (t.kind = .null ∨ t.kind = .data ∧ t.vld 0 = true ∧ t.val = 0)
  | .onFalse => ∃ t, c.fr.p = some t ∧ (t.kind = .null ∨ t.kind = .data ∧ t.vld 0 = true ∧ t.val ≠ 0)

/-- A slot holds a valid data scalar of a value (R82). -/
def Safety.Scalar (o : Option Token) (v : Word) : Prop :=
  ∃ t, o = some t ∧ t.kind = .data ∧ t.vld 0 = true ∧ t.val = v

/-- A slot holds a data token. -/
def Safety.Data (o : Option Token) (t : Token) : Prop := o = some t ∧ t.kind = .data

/-- No scale token came with the operands. -/
def Safety.NoScale (c : Fx) : Prop := c.fr.sa = none ∧ c.fr.sb = none

/-- Whatever scale tokens came with the operands are data. -/
def Safety.ScalesData (c : Fx) : Prop := ∀ t ∈ c.fr.sa.toList ++ c.fr.sb.toList, t.kind = .data

/-- A selected firing without data operands. -/
def Safety.Takes0 (m : Pred) (s : State) (c : Fx) : Prop :=
  Safety.Fires s c ∧ Safety.Selected m c ∧ c.fr.a = none ∧ c.fr.b = none ∧ Safety.NoScale c

/-- A selected firing on one scalar. -/
def Safety.Takes1 (m : Pred) (s : State) (c : Fx) (x : Word) : Prop :=
  Safety.Fires s c ∧ Safety.Selected m c ∧ Safety.Scalar c.fr.a x ∧ c.fr.b = none ∧ Safety.NoScale c

/-- A selected firing on two scalars. -/
def Safety.Takes2 (m : Pred) (s : State) (c : Fx) (x y : Word) : Prop :=
  Safety.Fires s c ∧ Safety.Selected m c ∧ Safety.Scalar c.fr.a x ∧ Safety.Scalar c.fr.b y ∧ Safety.NoScale c

/-- A firing on three scalars, slot p among them. -/
def Safety.Takes3 (s : State) (c : Fx) (x y z : Word) : Prop :=
  Safety.Fires s c ∧ Safety.Scalar c.fr.a x ∧ Safety.Scalar c.fr.b y ∧ Safety.Scalar c.fr.p z ∧ Safety.NoScale c

/-- A selected firing on one data token. -/
def Safety.Token1 (m : Pred) (s : State) (c : Fx) (x : Token) : Prop :=
  Safety.Fires s c ∧ Safety.Selected m c ∧ Safety.Data c.fr.a x ∧ c.fr.b = none ∧ Safety.NoScale c

/-- A selected firing on two data tokens. -/
def Safety.Token2 (m : Pred) (s : State) (c : Fx) (x y : Token) : Prop :=
  Safety.Fires s c ∧ Safety.Selected m c ∧ Safety.Data c.fr.a x ∧ Safety.Data c.fr.b y ∧ Safety.NoScale c

/-- A firing on three data tokens, slot p among them. -/
def Safety.Token3 (s : State) (c : Fx) (x y z : Token) : Prop :=
  Safety.Fires s c ∧ Safety.Data c.fr.a x ∧ Safety.Data c.fr.b y ∧ Safety.Data c.fr.p z ∧ Safety.NoScale c

/-- The rows of the scalar, vector and dot-product chapters, but for VTOPK, which keeps state. -/
def Safety.arith (i : Instr) : Bool :=
  match i.fields with
  | none => false
  | some f => let n := f.opcode.toNat; (0x20 ≤ n && n < 0x60) || (0xA0 ≤ n && n < 0xE0 && n != 0xC5)

/-- READ, VREAD, NOP, MOV, MOVX, NULL and the dataflow-control rows STEER to LVLDN. -/
def Safety.flow (i : Instr) : Bool :=
  match i.fields with
  | none => false
  | some f => let n := f.opcode.toNat; n == 0 || n == 1 || n == 3 || (5 ≤ n && n ≤ 7) || (0x10 ≤ n && n ≤ 0x19)

/-! ### What an instruction does -/

/-- The instruction answers a next state, in which the device has become `d` and the root of trust is untouched. -/
abbrev Safety.Does (i : Instr) (s : State) (d : Dev) : Prop := exec i s = .next { s with dev := d }

/-- No access that an agent of the device makes has anything to wait for: nothing tracked is recorded, and no atomic's
word is held (R187, R209). -/
def Safety.Calm (d : Dev) : Prop := d.recs = [] ∧ d.holds = [] ∧ d.balk = false

/-- The event answers a next state, in which the device has become `d`, unless an access of its own must wait there; in a
calm state none does. -/
abbrev Safety.Occurs (i : Instr) (s : State) (d : Dev) : Prop := (d.balk = false ∨ Safety.Calm s.dev) → Safety.Does i s d

/-- The instruction sends one token to its targets and does nothing else. -/
abbrev Safety.Sends (i : Instr) (s : State) (c : Fx) (tgts : List Tgt) (t : Token) : Prop :=
  Safety.Does i s (s.dev.send c tgts t)

/-- The instruction's reply is queued behind the firing's request, which uses the translations of the leaf entries
`leafs`, and nothing else is done. -/
abbrev Safety.Replies (i : Instr) (s : State) (d : Dev) (c : Fx) (lines : Nat) (gen : Bool) (t : Token) (leafs : List Nat) : Prop :=
  Safety.Does i s (d.request c lines gen t leafs)

/-- The instruction traps its instance with a cause at a faulting address (R11, R43). -/
abbrev Safety.Traps (i : Instr) (s : State) (c : Fx) (cause : Cause) (a : Word) : Prop :=
  Safety.Does i s (s.dev.trapAt c cause a)

/-- The first firing of an instruction that fires once: it is marked as fired and made (R39, R90). -/
def Safety.First (c : Fx) : Prop := c.fr.mode ≠ .again ∧ c.x.once.contains c.idx = false

/-- The device with that mark. -/
def Safety.marked (d : Dev) (c : Fx) : Dev :=
  d.modInst c.i fun x => { x with once := c.idx :: x.once, made := c.idx :: x.made }

/-- An access passes R170's checks: it translates to `pa` under the leaf `l`, and `e` is the device with the
caches and the accessed and dirty bits brought up to date. -/
abbrev Safety.Passes (d : Dev) (c : XCtx) (va : Word) (n align : Nat) (u : Use) (e : Dev) (pa : Nat) (l : Leaf) : Prop :=
  d.check c va n align u = (e, .ok (pa, l))

/-- An access fails R170's checks with an error; `e` is the device then. -/
abbrev Safety.Fails (d : Dev) (c : XCtx) (va : Word) (n align : Nat) (u : Use) (e : Dev) (x : TErr) : Prop :=
  d.check c va n align u = (e, .error x)

/-- The reply of a load: the bytes at its place, made into a token by `f`, queued as the firing's request. -/
def Safety.reply (d : Dev) (c : Fx) (gen : Bool) (pa n : Nat) (l : Leaf) (f : Nat → Token) : Dev :=
  let r := d.loadBytes c.i pa n
  r.1.request c 1 gen (f (natOfBytes r.2)) [l.entry]

/-- Lanes read one after the other: the device, and the values of the lanes. -/
def Safety.gathered (c : Fx) : Dev → List (Nat × Word × Nat × Leaf) → Dev × List (Nat × BitVec 32)
  | d, [] => (d, [])
  | d, x :: r =>
    let v := d.loadBytes c.i x.2.2.1 4
    let w := Safety.gathered c v.1 r
    (w.1, (x.1, BitVec.ofNat 32 (natOfBytes v.2)) :: w.2)

/-- A store's instruction buffers its bytes for a page (R172): the access passes, arrives at its home and has its
sectors. A failed check traps with the failure's cause. -/
def Safety.Stores (i : Instr) (s : State) (c : Fx) (va : Word) (bs : List Byte) (align : Nat) (u : Use) : Prop :=
  let d := Safety.marked s.dev c
  (∀ d1 pa l d2 d3, Safety.Passes d c.ctx va bs.length align u d1 pa l →
    d1.arriveFx c pa bs.length va true false l = .ok d2 pa l →
    d2.reserveCells c.i c.idx c.t.part c.t.rcb va (cellsAt pa bs) l.cls = (d3, true) →
    Safety.Does i s (d3.buffer c (.store (cellsAt pa bs) l.cls l.sideOf))) ∧
  (∀ d1 e, Safety.Fails d c.ctx va bs.length align u d1 e → Safety.Does i s (d1.trapAt c e.cause (failAddr e va)))

/-- An atomic's instruction holds the word at its new value, replies with the old one and marks its order; a failed
check, and a page of host memory, trap (R185..R187, R189). -/
def Safety.Updates (i : Instr) (s : State) (c : Fx) (va : Word) (n : Nat) (ord : MOrder) (sc : Scope) (new_ : Nat → Nat) : Prop :=
  let d := Safety.marked s.dev c
  (∀ d1 pa l d2 d3, Safety.Passes d c.ctx va n n .atomic d1 pa l → memRow pa ≠ some .host →
    d1.arriveFx c pa n va true true l = .ok d2 pa l →
    let r := (d2.noteRead pa n).loadBytes c.i pa n
    let old := natOfBytes r.2
    let v := BitVec.ofNat 64 (new_ old)
    r.1.reserveCells c.i c.idx c.t.part c.t.rcb va (cellsAt pa (bytesOfNat n v.toNat)) l.cls = (d3, true) →
    Safety.Does i s ((((d3.hold c.i pa n v).buffer c (.atomic pa n l.cls l.sideOf)).mark c (orderMarks ord sc)).request c 1 false
      (scalarTok (BitVec.ofNat 64 old)) [l.entry])) ∧
  (∀ d1 pa l, Safety.Passes d c.ctx va n n .atomic d1 pa l → memRow pa = some .host →
    Safety.Does i s (d1.trapAt c .protection va)) ∧
  (∀ d1 e, Safety.Fails d c.ctx va n n .atomic d1 e → Safety.Does i s (d1.trapAt c e.cause (failAddr e va)))

/-- The number of a point of an affine pattern, dimension 0 turning fastest, from dimension `k` up (R181). -/
def Safety.pointNum (v : Nat) : Nat → List Nat → Nat
  | _, [] => 0
  | k, i :: r => i + (affCnt v k + 1) * Safety.pointNum v (k + 1) r

/-- Indices within a pattern's counts. -/
def Safety.PointOk (v : Nat) : Nat → List Nat → Prop
  | _, [] => True
  | k, i :: r => i ≤ affCnt v k ∧ Safety.PointOk v (k + 1) r

/-- The points of a pattern of `n` dimensions, from dimension `k` up. -/
def Safety.pointCount (v : Nat) : Nat → Nat → Nat
  | _, 0 => 1
  | k, n + 1 => (affCnt v k + 1) * Safety.pointCount v (k + 1) n

/-- The device with flags raised in the firing's instance, to be set at commit (R269). -/
def Safety.flagged (d : Dev) (c : Fx) (fl : BitVec 6) : Dev :=
  if fl = 0 then d else d.modInst c.i fun x => { x with raised := x.raised ||| fl }

/-- The instruction raises flags and sends a token; a flag whose trap the instance's sample enables traps instead,
with faulting address 0 and nothing sent (R269, R270). -/
def Safety.Completes (i : Instr) (s : State) (c : Fx) (tgts : List Tgt) (t : Token) (fl : BitVec 6) : Prop :=
  let ten := c.x.cr.ten
  let arith := (fl.getLsbD 0 && ten.getLsbD 0) || (fl.getLsbD 1 && ten.getLsbD 1)
  let pos := fl.getLsbD 5 && ten.getLsbD 2
  (arith = false → pos = false → Safety.Does i s ((Safety.flagged s.dev c fl).send c tgts t)) ∧
  (arith = true → Safety.Traps i s c .arith 0) ∧
  (arith = false → pos = true → Safety.Traps i s c .posrange 0)

/-- The token has the given lanes, a format and GEOM 00; an invalid lane is zero (R272, R273). -/
def Safety.Lanes (t : Token) (fmt : BitVec 4) (valid : Nat → Bool) (lane : Nat → BitVec 32) : Prop :=
  t.kind = .data ∧ t.level = 0 ∧ t.err = 0 ∧ t.fmt = fmt ∧ t.geom = 0 ∧
    ∀ i < 16, t.vld i = valid i ∧ t.lane i = if valid i then lane i else 0

/-- The flags of some valid lane (R273). -/
def Safety.anyFlag (valid : Nat → Bool) (f : Nat → BitVec 6) : BitVec 6 :=
  (List.range 16).foldl (fun acc i => if valid i then acc ||| f i else acc) 0

/-- A lanewise instruction over lanes that are valid in all its operands: the results, and the flags they raise. -/
def Safety.Lanewise (i : Instr) (s : State) (c : Fx) (tgts : List Tgt) (fmt : BitVec 4) (valid : Nat → Bool)
    (f : Nat → LaneR) : Prop :=
  ∃ t, Safety.Lanes t fmt valid (fun k => (f k).1) ∧ Safety.Completes i s c tgts t (Safety.anyFlag valid fun k => (f k).2)

/-- An address names a stream that the firing may use (R136): its page is a resident stream page with the permission,
its descriptor `st` is cached at `ds`, and its alignment, element size and role pass. -/
def Safety.Opens (d : Dev) (c : Fx) (a : Word) (acc : Acc) (align : Stream → Nat) (small : Bool) (role : Stream → Bool)
    (e : Dev) (ds : Nat) (st : Stream) : Prop :=
  ∃ l, d.leafFor c.ctx a = .ok l ∧ l.nr = false ∧ l.allows acc c.x.cr.sys = true ∧ l.kind = 1 ∧ ds = l.pa ∧
    ((d.setAD l (acc == .write)).fill c.ctx a { l with a := true, d := l.d || acc == .write }).streamUse l.pa (some c.t.die)
      (c.t.part, c.t.asid, a.toNat / 2 ^ 43) = .ok e st ∧
    a.toNat % align st = 0 ∧ (small = true → st.esz ≤ 3) ∧ role st = true

/-- A read of a fibre operator: its access passes and arrives, and `v` is the number its bytes hold. -/
def Safety.Reads (d : Dev) (c : Fx) (va : Word) (n : Nat) (e : Dev) (v : Nat) : Prop :=
  ∃ d1 pa l, d.loadAt c va n n (if n = 64 then .tokenLoad else .scalarLoad) = .ok d1 pa l ∧
    e = (d1.loadBytes c.i pa n).1 ∧ v = natOfBytes (d1.loadBytes c.i pa n).2

/-- The byte is one of the usage counts that the device keeps in the region control blocks of its threads (R50). -/
def Safety.Counted (d : Dev) (a : Nat) : Prop :=
  ∃ p ∈ d.threads, ∃ x ∈ d.rcbChain 9 p.2.rcb, x + 48 ≤ a ∧ a < x + 80

/-- Everything of the device but its instances and the counts of its region control blocks. -/
def Safety.SameButInsts (d e : Dev) : Prop := e = { d with insts := e.insts, rcbs := e.rcbs }

/-- A request of the host to a function's own BARs can take effect: no earlier one waits (R404), and the function is enabled
(R410). -/
def Safety.FnOpen (s : State) (fn : Nat) : Prop := s.dev.hostHeld = false ∧ (s.rot.sec = .returned → fn = 0)

/-- Registers, launch values, sampled control registers, placement and effects of an instance. -/
def Safety.SameInst (x y : Inst) : Prop :=
  y = { x with chans := y.chans, held := y.held }

end Sys2Proof
end

