-- ==== Sys2Proof/Certificates/Slice0/Obligations.lean ====
section
/-!
DEFINITION. The statements for the provers.
-/

section Statements

open Sys2Proof Sys2Proof.Machine Sys2Proof.Safety

/-! ### Scalar instructions (R109..R124) -/

/-- The arithmetic results of R112, modulo 2^64, for every selected firing on data scalars. -/
def Obligations.ScalarArithmeticResults : Prop :=
  ∀ (s : State) (c : Fx) (p : Pred) (imm : BitVec 16) (t1 t2 t3 : Tgt) (a b : Word),
    (Takes2 p s c a b →
      Sends (.add p t1 t2) s c [t1, t2] (scalarTok (BitVec.ofNat 64 (a.toNat + b.toNat))) ∧
      Sends (.sub p t1 t2) s c [t1, t2] (scalarTok (BitVec.ofInt 64 (a.toInt - b.toInt))) ∧
      Sends (.mul p t1 t2) s c [t1, t2] (scalarTok (BitVec.ofInt 64 (a.toInt * b.toInt))) ∧
      Sends (.mulh p t1 t2) s c [t1, t2] (scalarTok (BitVec.ofInt 64 (a.toInt * b.toInt / 2 ^ 64))) ∧
      Sends (.mulhu p t1 t2) s c [t1, t2] (scalarTok (BitVec.ofNat 64 (a.toNat * b.toNat / 2 ^ 64))) ∧
      Sends (.min p t1 t2) s c [t1, t2] (scalarTok (if a.toInt ≤ b.toInt then a else b)) ∧
      Sends (.max p t1 t2) s c [t1, t2] (scalarTok (if a.toInt ≤ b.toInt then b else a)) ∧
      Sends (.minu p t1 t2) s c [t1, t2] (scalarTok (if a.toNat ≤ b.toNat then a else b)) ∧
      Sends (.maxu p t1 t2) s c [t1, t2] (scalarTok (if a.toNat ≤ b.toNat then b else a))) ∧
    (Takes1 p s c a →
      Sends (.addi p imm t1 t2 t3) s c [t1, t2, t3] (scalarTok (BitVec.ofInt 64 (a.toInt + imm.toInt))) ∧
      Sends (.neg p t1 t2) s c [t1, t2] (scalarTok (BitVec.ofInt 64 (0 - a.toInt))) ∧
      Sends (.abs p t1 t2) s c [t1, t2] (scalarTok (if 0 ≤ a.toInt then a else BitVec.ofInt 64 (0 - a.toInt))))

/-- Division truncates toward zero (R113); a zero divisor gives its own result and raises DZ, or, with TEN[77]
set in the instance's sample, traps ARITH with faulting address 0 (R113, R114). -/
def Obligations.ScalarDivisionResults : Prop :=
  ∀ (s : State) (c : Fx) (p : Pred) (t1 t2 : Tgt) (a b : Word), Takes2 p s c a b →
    (b ≠ 0 →
      Sends (.div p t1 t2) s c [t1, t2] (scalarTok (BitVec.ofInt 64 (a.toInt.tdiv b.toInt))) ∧
      Sends (.divu p t1 t2) s c [t1, t2] (scalarTok (BitVec.ofNat 64 (a.toNat / b.toNat))) ∧
      Sends (.rem p t1 t2) s c [t1, t2] (scalarTok (BitVec.ofInt 64 (a.toInt - b.toInt * a.toInt.tdiv b.toInt))) ∧
      Sends (.remu p t1 t2) s c [t1, t2] (scalarTok (BitVec.ofNat 64 (a.toNat - b.toNat * (a.toNat / b.toNat))))) ∧
    (b = 0 → c.x.cr.ten.getLsbD 1 = false →
      let d := s.dev.modInst c.i fun x => { x with raised := x.raised ||| 2 }
      Does (.div p t1 t2) s (d.send c [t1, t2] (scalarTok 0xFFFFFFFFFFFFFFFF)) ∧
      Does (.divu p t1 t2) s (d.send c [t1, t2] (scalarTok 0xFFFFFFFFFFFFFFFF)) ∧
      Does (.rem p t1 t2) s (d.send c [t1, t2] (scalarTok a)) ∧
      Does (.remu p t1 t2) s (d.send c [t1, t2] (scalarTok a))) ∧
    (b = 0 → c.x.cr.ten.getLsbD 1 = true →
      Traps (.div p t1 t2) s c .arith 0 ∧ Traps (.divu p t1 t2) s c .arith 0 ∧
      Traps (.rem p t1 t2) s c .arith 0 ∧ Traps (.remu p t1 t2) s c .arith 0)

/-- Logic and shifts (R115, R116): a register amount of 64 or more is not reduced. -/
def Obligations.ScalarLogicAndShiftResults : Prop :=
  ∀ (s : State) (c : Fx) (p : Pred) (imm : BitVec 16) (amt : BitVec 6) (t1 t2 t3 : Tgt) (a b : Word),
    (Takes2 p s c a b →
      Sends (.and p t1 t2) s c [t1, t2] (scalarTok (a &&& b)) ∧
      Sends (.or p t1 t2) s c [t1, t2] (scalarTok (a ||| b)) ∧
      Sends (.xor p t1 t2) s c [t1, t2] (scalarTok (a ^^^ b)) ∧
      Sends (.shl p t1 t2) s c [t1, t2]
        (scalarTok (if b.toNat < 64 then BitVec.ofNat 64 (a.toNat * 2 ^ b.toNat) else 0)) ∧
      Sends (.shr p t1 t2) s c [t1, t2]
        (scalarTok (if b.toNat < 64 then BitVec.ofNat 64 (a.toNat / 2 ^ b.toNat) else 0)) ∧
      Sends (.sar p t1 t2) s c [t1, t2]
        (scalarTok (if b.toNat < 64 then BitVec.ofInt 64 (a.toInt / 2 ^ b.toNat) else if a.getLsbD 63 then -1 else 0)) ∧
      ∃ r : Word, Sends (.rotl p t1 t2) s c [t1, t2] (scalarTok r) ∧
        ∀ i < 64, r.getLsbD ((i + b.toNat % 64) % 64) = a.getLsbD i) ∧
    (Takes1 p s c a →
      Sends (.andi p imm t1 t2 t3) s c [t1, t2, t3] (scalarTok (a &&& imm.zeroExtend 64)) ∧
      Sends (.ori p imm t1 t2 t3) s c [t1, t2, t3] (scalarTok (a ||| imm.zeroExtend 64)) ∧
      Sends (.xori p imm t1 t2 t3) s c [t1, t2, t3] (scalarTok (a ^^^ imm.zeroExtend 64)) ∧
      Sends (.shli p amt t1 t2 t3) s c [t1, t2, t3] (scalarTok (BitVec.ofNat 64 (a.toNat * 2 ^ amt.toNat))) ∧
      Sends (.shri p amt t1 t2 t3) s c [t1, t2, t3] (scalarTok (BitVec.ofNat 64 (a.toNat / 2 ^ amt.toNat))) ∧
      Sends (.sari p amt t1 t2 t3) s c [t1, t2, t3] (scalarTok (BitVec.ofInt 64 (a.toInt / 2 ^ amt.toNat))))

/-- Bit counts, widths and fields, and the two table functions (R117..R120). -/
def Obligations.ScalarBitFieldResults : Prop :=
  ∀ (s : State) (c : Fx) (p : Pred) (w : BitVec 7) (l m : BitVec 6) (tt tbl : BitVec 8) (t1 t2 t3 : Tgt) (a b q : Word),
    (Takes1 p s c a →
      (∃ n : Nat, Sends (.clz p t1 t2) s c [t1, t2] (scalarTok (BitVec.ofNat 64 n)) ∧ n ≤ 64 ∧
        (∀ i < 64, 64 ≤ i + n → a.getLsbD i = false) ∧ (n < 64 → a.getLsbD (63 - n) = true)) ∧
      (∃ n : Nat, Sends (.ctz p t1 t2) s c [t1, t2] (scalarTok (BitVec.ofNat 64 n)) ∧ n ≤ 64 ∧
        (∀ i < n, a.getLsbD i = false) ∧ (n < 64 → a.getLsbD n = true)) ∧
      Sends (.popc p t1 t2) s c [t1, t2] (scalarTok (BitVec.ofNat 64 ((List.range 64).countP fun i => a.getLsbD i))) ∧
      (1 ≤ w.toNat → w.toNat ≤ 64 →
        Sends (.sext p w t1 t2 t3) s c [t1, t2, t3] (scalarTok ((a.setWidth w.toNat).signExtend 64)) ∧
        Sends (.zext p w t1 t2 t3) s c [t1, t2, t3] (scalarTok ((a.setWidth w.toNat).setWidth 64))) ∧
      (l.toNat + m.toNat + 1 ≤ 64 →
        Sends (.bfx p l m t1 t2 t3) s c [t1, t2, t3] (scalarTok (BitVec.ofNat 64 (a.toNat / 2 ^ l.toNat % 2 ^ (m.toNat + 1))))) ∧
      (∀ tab : List Byte, tget tbl.toNat c.r.image.luts = some tab → tab.length = 64 →
        ∃ r : Word, Sends (.lutb p tbl t1 t2 t3) s c [t1, t2, t3] (scalarTok r) ∧
          ∀ j < 8, r.extractLsb' (8 * j) 8 = tab.getD (a.extractLsb' (8 * j) 6).toNat 0)) ∧
    (Takes2 p s c a b → l.toNat + m.toNat + 1 ≤ 64 →
      ∃ r : Word, Sends (.bfi p l m t1 t2 t3) s c [t1, t2, t3] (scalarTok r) ∧
        ∀ i < 64, r.getLsbD i =
          if l.toNat ≤ i ∧ i ≤ l.toNat + m.toNat then b.getLsbD (i - l.toNat) else a.getLsbD i) ∧
    (Takes3 s c a b q →
      ∃ r : Word, Sends (.bfn tt t1 t2 t3) s c [t1, t2, t3] (scalarTok r) ∧
        ∀ i < 64, r.getLsbD i = tt.getLsbD
          (4 * (if a.getLsbD i then 1 else 0) + 2 * (if b.getLsbD i then 1 else 0) + (if q.getLsbD i then 1 else 0)))

/-- Literals, comparisons, SEL and LEA (R122, R123, R124). -/
def Obligations.ScalarCompareAndLiteralResults : Prop :=
  ∀ (s : State) (c : Fx) (p : Pred) (v : BitVec 16) (lit : BitVec 32) (sh : BitVec 3) (t1 t2 t3 : Tgt) (a b q : Word),
    let one (r : Prop) [Decidable r] : Token := scalarTok (if r then 1 else 0)
    (Takes0 p s c →
      Sends (.litW p v t1 t2 t3) s c [t1, t2, t3] (scalarTok (BitVec.ofInt 64 v.toInt)) ∧
      Sends (.litL p lit t1 t2 t3) s c [t1, t2, t3] (scalarTok (BitVec.ofInt 64 lit.toInt))) ∧
    (Takes1 p s c a →
      Sends (.lith p lit t1 t2 t3) s c [t1, t2, t3] (scalarTok (BitVec.ofNat 64 (lit.toNat * 2 ^ 32 + a.toNat % 2 ^ 32))) ∧
      Sends (.teqi p v t1 t2 t3) s c [t1, t2, t3] (one (a.toInt = v.toInt)) ∧
      Sends (.tlti p v t1 t2 t3) s c [t1, t2, t3] (one (a.toInt < v.toInt))) ∧
    (Takes2 p s c a b →
      Sends (.teq p t1 t2) s c [t1, t2] (one (a = b)) ∧
      Sends (.tne p t1 t2) s c [t1, t2] (one (a ≠ b)) ∧
      Sends (.tlt p t1 t2) s c [t1, t2] (one (a.toInt < b.toInt)) ∧
      Sends (.tle p t1 t2) s c [t1, t2] (one (a.toInt ≤ b.toInt)) ∧
      Sends (.tltu p t1 t2) s c [t1, t2] (one (a.toNat < b.toNat)) ∧
      Sends (.tleu p t1 t2) s c [t1, t2] (one (a.toNat ≤ b.toNat)) ∧
      (sh.toNat ≤ 3 →
        Sends (.lea p sh t1 t2 t3) s c [t1, t2, t3] (scalarTok (BitVec.ofNat 64 (a.toNat + b.toNat * 2 ^ sh.toNat))))) ∧
    (Takes3 s c a b q →
      Sends (.sel t1 t2) s c [t1, t2] (scalarTok (if q ≠ 0 then a else b)))

/-! ### Block and dataflow control (R93..R107) -/

/-- Registers are read as they stood at admission, and tokens are moved unchanged but for what the instruction
names (R93, R95). NOP does nothing. -/
def Obligations.ReadAndMoveResults : Prop :=
  ∀ (s : State) (c : Fx) (p : Pred) (n : BitVec 4) (k : BitVec 3) (m : BitVec 2) (f : BitVec 4) (g : BitVec 2) (scl : Bool)
    (t1 t2 t3 t4 : Tgt) (x : Token),
    (Takes0 p s c →
      Does (.nop p) s s.dev ∧
      Sends (.read p n .g t1 t2 t3) s c [t1, t2, t3] (scalarTok (c.x.g.get ⟨n.toNat, n.isLt⟩)) ∧
      Sends (.read p (k.zeroExtend 4) .k t1 t2 t3) s c [t1, t2, t3]
        (scalarTok (if h : k.toNat < 6 then c.x.k.get ⟨k.toNat, h⟩ else 0)) ∧
      Sends (.vread p m t1 t2 t3) s c [t1, t2, t3] (c.x.v.get ⟨m.toNat, m.isLt⟩) ∧
      Sends (.nullS p t1 t2) s c [t1, t2] Token.null ∧
      Sends (.nullW p t1 t2 t3 t4) s c [t1, t2, t3, t4] Token.null) ∧
    (Fires s c → Selected p c → c.fr.a = some x →
      Sends (.movS p t1 t2) s c [t1, t2] x ∧
      Sends (.movW p t1 t2 t3 t4) s c [t1, t2, t3, t4] x ∧
      (x.kind = .data → Sends (.movx p f g scl t1 t2 t3) s c [t1, t2, t3] { x with fmt := f, geom := g }) ∧
      (x.kind ≠ .data → Sends (.movx p f g scl t1 t2 t3) s c [t1, t2, t3] x))

/-- What a firing routes, merges, holds, gates and relabels (R99..R106). -/
def Obligations.TokenControlResults : Prop :=
  ∀ (s : State) (c : Fx) (p : Pred) (v : BitVec 16) (lit : BitVec 32) (lvl amt : BitVec 3) (mask : BitVec 6)
    (t1 t2 t3 : Tgt) (x y : Token) (q : Word), Fires s c → Selected p c →
    (c.fr.a = some x → Scalar c.fr.b q → x.kind ≠ .error →
      Sends (.steerS p t1 t2) s c (if q = 0 then [t2] else [t1]) x ∧
      Sends (.steerW p t1 t2 t3) s c (if q = 0 then [t2] else [t1, t3]) x) ∧
    (c.fr.a = some x →
      Sends (.mergeS p t1 t2) s c [t1, t2] x ∧ Sends (.mergeW p t1 t2 t3) s c [t1, t2, t3] x) ∧
    (c.fr.a = none → c.fr.b = some y →
      Sends (.mergeS p t1 t2) s c [t1, t2] y ∧ Sends (.mergeW p t1 t2 t3) s c [t1, t2, t3] y) ∧
    (c.fr.a = some x → x.kind = .data → Does (.carry p t1 t2) s (s.dev.setOp c (.carry (some x)))) ∧
    (c.fr.a = none → c.fr.b = some y → y.kind = .data → c.x.opst c.idx = some (.carry (some x)) →
      Sends (.carry p t1 t2) s c [t1, t2] x) ∧
    (c.fr.a = none → c.fr.b = some y → y.kind ≠ .data → Sends (.carry p t1 t2) s c [t1, t2] y) ∧
    Sends (.initW p v t1 t2 t3) s c [t1, t2, t3] (scalarTok (BitVec.ofInt 64 v.toInt)) ∧
    Sends (.initL p lit t1 t2 t3) s c [t1, t2, t3] (scalarTok (BitVec.ofInt 64 lit.toInt)) ∧
    (c.fr.a = some x → c.fr.b = some y →
      Sends (.gate p t1 t2) s c [t1, t2] (if y.kind = .error then y else x)) ∧
    (c.fr.a = some x →
      Sends (.stopTok p lvl t1 t2 t3) s c [t1, t2, t3] (if x.kind = .data then stopTok lvl.toNat else x) ∧
      Sends (.doneTok p t1 t2) s c [t1, t2] (if x.kind = .data ∨ x.kind = .stop then doneTok else x) ∧
      Sends (.testk p mask t1 t2 t3) s c [t1, t2, t3] (scalarTok (if mask.getLsbD x.kind.num then 1 else 0)) ∧
      (x.kind ≠ .stop →
        Sends (.lvlup p amt t1 t2 t3) s c [t1, t2, t3] x ∧ Sends (.lvldn p amt t1 t2 t3) s c [t1, t2, t3] x) ∧
      (x.kind = .stop →
        Sends (.lvlup p amt t1 t2 t3) s c [t1, t2, t3]
          (if x.level.toNat + amt.toNat ≤ 7 then stopTok (x.level.toNat + amt.toNat) else errTok .grammar 0) ∧
        (amt.toNat ≤ x.level.toNat →
          Sends (.lvldn p amt t1 t2 t3) s c [t1, t2, t3] (stopTok (x.level.toNat - amt.toNat))) ∧
        (x.level.toNat < amt.toNat → Does (.lvldn p amt t1 t2 t3) s s.dev)))

/-- Register and control-register writes, hints and posts are buffered to commit (R40, R94, R389, R392, R400);
a register of the module or a die is written from partition 0 alone (R392). -/
def Obligations.BufferedWriteResults : Prop :=
  ∀ (s : State) (c : Fx) (p : Pred) (n : BitVec 4) (m : BitVec 2) (cr : BitVec 12) (code : BitVec 8) (x : Token) (a b : Word),
    (Takes1 p s c a → First c → Does (.write p n) s ((marked s.dev c).buffer c (.gw n.toNat a))) ∧
    (Fires s c → Selected p c → First c → c.fr.a = some x → x.kind ≠ .error → x.kind ≠ .null →
      Does (.vwrite p m) s ((marked s.dev c).buffer c (.vw m.toNat { x with tag := 0 }))) ∧
    (Takes1 p s c a → (crGlobal cr.toNat = false ∨ c.t.part = 0) →
      Does (.crwr p cr) s (s.dev.buffer c (.crwr cr.toNat a))) ∧
    (Takes1 p s c a → crGlobal cr.toNat = true → c.t.part ≠ 0 → Traps (.crwr p cr) s c .protection 0) ∧
    (Takes2 p s c a b → a.toNat < (s.dev.func c.t.part).qcnt →
      Does (.qpost p) s (s.dev.buffer c (.qpost a.toNat b))) ∧
    (Takes2 p s c a b → (s.dev.func c.t.part).qcnt ≤ a.toNat → Traps (.qpost p) s c .queue 0) ∧
    (Takes0 p s c → Does (.hint p code) s (s.dev.buffer c (.hint code)))

/-- An exit is noted in the instance and taken at commit (R96, R97): where it goes, what it checks first, and
that a second exit of an instance traps (R90). That an exit's address is checked before the second-exit rule, and the block that
CALL names before the address that it returns to, is the model's reading (log 69). -/
def Obligations.ExitResults : Prop :=
  ∀ (s : State) (c : Fx) (p : Pred) (lit : BitVec 32) (a : Word), First c →
    let d := marked s.dev c
    let named : Word := c.r.blk + BitVec.ofInt 64 (lit.toInt * 16)
    let leaves (d : Dev) (e : Exit) : Dev := d.modInst c.i fun x => { x with exit := some e }
    (Takes0 p s c → c.x.exit = none → named.toNat % 16 = 0 → canonical named = true →
      Does (.bri p lit) s (leaves d (.goto named false)) ∧
      Does (.yield p lit) s (leaves d (.goto named true))) ∧
    (Takes0 p s c → named.toNat % 16 = 0 → canonical named = false →
      Does (.bri p lit) s (d.trapAt c .pageFault named) ∧ Does (.yield p lit) s (d.trapAt c .pageFault named)) ∧
    (Takes0 p s c → c.x.exit = none →
      Does (.halt p) s (leaves (d.modInst c.i fun x => { x with marks := { x.marks with halt := true } }) .halt)) ∧
    (Takes1 p s c a → a.toNat % 16 = 0 → canonical a = true → c.x.exit = none →
      Does (.br p) s (leaves d (.goto a false)) ∧
      Does (.ret p) s (leaves d (.goto a false)) ∧
      (named.toNat % 16 = 0 → canonical named = true → Does (.call p lit) s (leaves (d.buffer c (.cfetch a)) (.goto named false)))) ∧
    (Takes1 p s c a → a.toNat % 16 ≠ 0 →
      Does (.br p) s (d.trapAt c .align a) ∧ Does (.ret p) s (d.trapAt c .align a) ∧
      (named.toNat % 16 = 0 → canonical named = true → Does (.call p lit) s (d.trapAt c .align a))) ∧
    (Takes1 p s c a → a.toNat % 16 = 0 → canonical a = false →
      Does (.br p) s (d.trapAt c .pageFault a) ∧ Does (.ret p) s (d.trapAt c .pageFault a) ∧
      (named.toNat % 16 = 0 → canonical named = true → Does (.call p lit) s (d.trapAt c .pageFault a))) ∧
    (Takes1 p s c a → named.toNat % 16 = 0 → canonical named = false → Does (.call p lit) s (d.trapAt c .pageFault named)) ∧
    (Takes1 p s c a → c.x.exit.isSome = true → a.toNat % 16 = 0 → canonical a = true →
      Does (.br p) s (d.trapAt c .malformedStream 0) ∧ Does (.ret p) s (d.trapAt c .malformedStream 0) ∧
      (named.toNat % 16 = 0 → canonical named = true → Does (.call p lit) s (d.trapAt c .malformedStream 0))) ∧
    (Takes0 p s c → c.x.exit.isSome = true → named.toNat % 16 = 0 → canonical named = true →
      Does (.bri p lit) s (d.trapAt c .malformedStream 0) ∧ Does (.yield p lit) s (d.trapAt c .malformedStream 0))

/-! ### Memory (R169..R189) -/

/-- The order of R170's checks: what a passing access satisfies, that one that meets them all passes, and that a failing
one changes nothing, but for the accessed and dirty bits of a translation whose line cannot be decoded (R365, R372). -/
def Obligations.AccessChecks : Prop :=
  ∀ (d : Dev) (c : XCtx) (va : Word) (n align : Nat) (u : Use),
    (∀ e pa l, Passes d c va n align u e pa l →
      canonical va = true ∧ va.toNat % align = 0 ∧ d.leafFor c va = .ok l ∧ pa = l.pa + va.toNat % l.size ∧ l.nr = false ∧
        l.allows u.acc c.sys = true ∧ d.kindErr l pa u = none ∧ d.ringAt pa n = false ∧ e.cutAt pa n = false) ∧
    (∀ l, canonical va = true → va.toNat % align = 0 → d.leafFor c va = .ok l → l.nr = false →
      l.allows u.acc c.sys = true → d.kindErr l (l.at va) u = none → d.ringAt (l.at va) n = false →
      let wr := u.acc == .write
      let e := (d.setAD l wr).fill c va { l with a := true, d := l.d || wr }
      let cut : Prop := e.cutAt (l.at va) n = true ∨ wr = true ∧ l.sum = true ∧ e.cutAt l.side 64 = true
      (¬ cut → Passes d c va n align u e (l.at va) l) ∧ (cut → Fails d c va n align u e .decode)) ∧
    (canonical va = false → Fails d c va n align u d .page) ∧
    (canonical va = true → va.toNat % align ≠ 0 → Fails d c va n align u d .align) ∧
    (∀ e d', Fails d c va n align u d' e → e ≠ .decode → d' = d)

/-- Scalar and token loads (R173, R174): the bytes at the address, extended as the row says, reply in request order. -/
def Obligations.LoadResults : Prop :=
  ∀ (s : State) (c : Fx) (p : Pred) (off : BitVec 16) (t1 t2 t3 : Tgt) (a : Word) (d : Dev) (pa : Nat) (l : Leaf),
    Takes1 p s c a →
    let va : Word := a + off.signExtend 64
    (s.dev.loadAt c va 1 1 .scalarLoad = .ok d pa l →
      Does (.ldb p off t1 t2 t3) s (reply d c false pa 1 l fun v => scalarTok ((BitVec.ofNat 8 v).signExtend 64)) ∧
      Does (.ldbu p off t1 t2 t3) s (reply d c false pa 1 l fun v => scalarTok ((BitVec.ofNat 8 v).setWidth 64))) ∧
    (s.dev.loadAt c va 2 2 .scalarLoad = .ok d pa l →
      Does (.ldh p off t1 t2 t3) s (reply d c false pa 2 l fun v => scalarTok ((BitVec.ofNat 16 v).signExtend 64)) ∧
      Does (.ldhu p off t1 t2 t3) s (reply d c false pa 2 l fun v => scalarTok ((BitVec.ofNat 16 v).setWidth 64))) ∧
    (s.dev.loadAt c va 4 4 .scalarLoad = .ok d pa l →
      Does (.ldw p off t1 t2 t3) s (reply d c false pa 4 l fun v => scalarTok ((BitVec.ofNat 32 v).signExtend 64)) ∧
      Does (.ldwu p off t1 t2 t3) s (reply d c false pa 4 l fun v => scalarTok ((BitVec.ofNat 32 v).setWidth 64))) ∧
    (s.dev.loadAt c va 8 8 .scalarLoad = .ok d pa l →
      Does (.ldd p off t1 t2 t3) s (reply d c false pa 8 l fun v => scalarTok (BitVec.ofNat 64 v))) ∧
    (s.dev.loadAt c va 64 64 .tokenLoad = .ok d pa l →
      Does (.ldv p off t1 t2 t3) s (reply d c false pa 64 l fun v =>
        ⟨.data, 0, tagEfmt l.tag, tagGeom l.tag, 0, 0, 0xFFFF, BitVec.ofNat 512 v⟩))

/-- What a load reads (R172, R173): memory's bytes, lowest address first, where the instance holds no word there. -/
def Obligations.LoadReadsMemory : Prop :=
  ∀ (d : Dev) (i pa n : Nat), isWindow pa = false →
    (∀ h ∈ d.holds, h.inst = i → h.pa + h.size ≤ pa ∨ pa + n ≤ h.pa) →
    (d.loadBytes i pa n).1 = d ∧ (d.loadBytes i pa n).2.length = n ∧
      ∀ k < n, (d.loadBytes i pa n).2[k]? = some (d.byte (pa + k))

/-- LDVS, GATH and AGENX, and AGEN's beginning and continuation (R175, R177, R181, R182). -/
def Obligations.WideLoadResults : Prop :=
  ∀ (s : State) (c : Fx) (p : Pred) (off : BitVec 16) (lit : BitVec 32) (t1 t2 t3 : Tgt) (a : Word) (b : Token),
    let v := c.affine
    (∀ d0 pa0 l e1 e2 d1 pt lt d2 ps ls, Takes1 p s c a →
      let va : Word := a + off.signExtend 64
      let e := fmtWidth (tagEfmt l.tag).toNat
      let g := geomSize (tagGeom l.tag)
      let n := 512 / e / g
      let sb := tagSbase l.tag
      let sa := sb + BitVec.ofNat 64 (64 + va.toNat % l.size * 8 / e / g)
      Passes s.dev c.ctx va 64 64 .tokenLoad d0 pa0 l → g ≠ 0 → g ≤ 512 / e →
      Passes d0 c.ctx sb 2 1 .tokenLoad e1 pt lt → Passes e1 c.ctx sa n 1 .tokenLoad e2 ps ls →
      e2.loadAt c sb 2 1 .tokenLoad = .ok d1 pt lt → d1.loadAt c sa n 1 .tokenLoad = .ok d2 ps ls →
      let ts := d2.loadBytes c.i pt 2
      let bs := ts.1.loadBytes c.i ps n
      Does (.ldvs p off t1 t2 t3) s (bs.1.request c 2 false (scaleTok bs.2 ts.2 l) [l.entry, lt.entry, ls.entry])) ∧
    (∀ d1 xs d2 pa l, Fires s c → Selected p c → Scalar c.fr.a a → Data c.fr.b b → NoScale c →
      s.dev.checkLanes c .tokenLoad (laneAddrs a b b.vld) = (d1, .ok xs) → d1.arriveLanes c xs = .ok d2 pa l →
      let r := gathered c d2 xs
      Does (.gath p t1 t2) s (r.1.request c ((xs.map fun x => x.2.2.1 / 64).eraseDups.length) false
        (dataTok ((List.range 16).map fun i => (tget i r.2).getD 0) b.valid 0 0) (xs.map fun x => x.2.2.2.entry))) ∧
    (Takes1 p s c a → a.toNat < nfld v 351 320 →
      let base := BitVec.ofNat 64 (nfld v 63 0) + (if v.testBit 363 then kReg c.x.k 2 else 0)
      Does (.agenx p lit t1 t2 t3) s (s.dev.genAccess c [t1, t2, t3] v (base + a * affStr v 0))) ∧
    (Takes1 p s c a → nfld v 351 320 ≤ a.toNat →
      let base := BitVec.ofNat 64 (nfld v 63 0) + (if v.testBit 363 then kReg c.x.k 2 else 0)
      Does (.agenx p lit t1 t2 t3) s (s.dev.sendQ c [t1, t2, t3] (errTok .bounds (base + a * affStr v 0)))) ∧
    (Takes1 p s c a → c.x.opst c.idx = none →
      Does (.agen p lit t1 t2 t3) s (s.dev.agenPoint c [t1, t2, t3] a (List.replicate (affDims v) 0))) ∧
    (∀ base ix, Fires s c → c.x.opst c.idx = some (.agen base ix) →
      Does (.agen p lit t1 t2 t3) s (s.dev.agenPoint c [t1, t2, t3] base ix))

/-- The points of an affine pattern come in order, dimension 0 fastest, each once; a stop of level k closes
dimension k, and done follows the last point (R181). -/
def Obligations.AffinePatternOrder : Prop :=
  ∀ (v : Nat) (ix : List Nat), PointOk v 0 ix →
    (∀ jx, nextPoint v 0 ix = some jx →
      jx.length = ix.length ∧ PointOk v 0 jx ∧ pointNum v 0 jx = pointNum v 0 ix + 1) ∧
    (nextPoint v 0 ix = none → pointNum v 0 ix + 1 = pointCount v 0 ix.length) ∧
    (pointNum v 0 ix < pointCount v 0 ix.length) ∧
    (nextPoint v 0 ix = none ↔ pointEnd v ix = some doneTok) ∧
    (∀ k, affStops v = true → 1 ≤ k → k < ix.length →
      (∀ j < k, (ix[j]?).getD 0 = affCnt v j) → (ix[k]?).getD 0 ≠ affCnt v k → pointEnd v ix = some (stopTok (k - 1)))

/-- Stores buffer their bytes to commit, and a failing one traps (R172, R173, R176, R178). -/
def Obligations.StoreResults : Prop :=
  ∀ (s : State) (c : Fx) (p : Pred) (off : BitVec 16) (a b : Word) (x y : Token), First c →
    let va : Word := a + off.signExtend 64
    let d := marked s.dev c
    (Takes2 p s c a b →
      Stores (.stb p off) s c va (bytesOfNat 1 b.toNat) 1 .scalarStore ∧
      Stores (.sth p off) s c va (bytesOfNat 2 b.toNat) 2 .scalarStore ∧
      Stores (.stw p off) s c va (bytesOfNat 4 b.toNat) 4 .scalarStore ∧
      Stores (.std p off) s c va (bytesOfNat 8 b.toNat) 8 .scalarStore) ∧
    (∀ d1 pa l d2 pa2 l2 d3, Fires s c → Selected p c → Scalar c.fr.a a → Data c.fr.b x → NoScale c →
      Passes d c.ctx va 64 64 .tokenStore d1 pa l → d1.arriveStv c va pa l (laneRuns x pa) = .ok d2 pa2 l2 →
      d2.reserveCells c.i c.idx c.t.part c.t.rcb va (laneCells x pa) l.cls = (d3, true) →
      Does (.stv p off) s (d3.buffer c (.store (laneCells x pa) l.cls l.sideOf))) ∧
    (∀ d1 e, Fires s c → Selected p c → Scalar c.fr.a a → Data c.fr.b x → NoScale c →
      Fails d c.ctx va 64 64 .tokenStore d1 e → Does (.stv p off) s (d1.trapAt c e.cause (failAddr e va))) ∧
    (Fires s c → Scalar c.fr.a a → Data c.fr.b x → Data c.fr.p y → NoScale c →
      let lanes := ((List.range 16).filter fun i => x.vld i && y.vld i).map fun i => (i, a + (x.lane i).signExtend 64)
      (∀ d1 xs, d.checkLanes c .tokenStore lanes = (d1, .ok xs) → Does .scat s (d1.scatterLanes c lanes)) ∧
      (∀ d1 e w, d.checkLanes c .tokenStore lanes = (d1, .error (e, w)) →
        Does .scat s (d1.trapAt c e.cause (failAddr e w))))

/-- Bytes written at physical addresses read back, and every other byte reads as before, where no page migrates and but for
the usage counts of the RCBs charged (R50); the last of several bytes for one address stands (R172, R5). -/
def Obligations.WriteThenRead : Prop :=
  ∀ (d : Dev) (cells : List (Nat × Byte)) (cls : BitVec 2) (part rcb a : Nat), memWf d.mem = true → d.migs = [] →
    (∀ x ∈ d.rcbChain 9 rcb, a < x + 48 ∨ x + 80 ≤ a) →
    (d.writeAt cells cls part rcb).byte a = ((cells.reverse.find? fun x => x.1 == a).map (·.2)).getD (d.byte a)

/-- Atomics read, update and hold the word at its home (R185, R188): the new value of each operation. -/
def Obligations.AtomicResults : Prop :=
  ∀ (s : State) (c : Fx) (p : Pred) (off : BitVec 16) (sz : ASize) (ord : MOrder) (sc : Scope) (t1 t2 t3 : Tgt) (a b q : Word),
    First c →
    let va : Word := a + off.signExtend 64
    let n := match sz with | .w => 4 | .d => 8
    let sg (x : Nat) : Int := signedOf (8 * n) x
    let m := b.toNat % 2 ^ (8 * n)
    (Takes2 p s c a b →
      Updates (.aadd p off sz ord sc t1 t2 t3) s c va n ord sc (fun old => (old + b.toNat) % 2 ^ (8 * n)) ∧
      Updates (.aand p off sz ord sc t1 t2 t3) s c va n ord sc (fun old => old &&& m) ∧
      Updates (.aor p off sz ord sc t1 t2 t3) s c va n ord sc (fun old => old ||| m) ∧
      Updates (.axor p off sz ord sc t1 t2 t3) s c va n ord sc (fun old => old ^^^ m) ∧
      Updates (.amin p off sz ord sc t1 t2 t3) s c va n ord sc (fun old => if sg m < sg old then m else old) ∧
      Updates (.amax p off sz ord sc t1 t2 t3) s c va n ord sc (fun old => if sg old < sg m then m else old) ∧
      Updates (.aminu p off sz ord sc t1 t2 t3) s c va n ord sc (fun old => Nat.min old m) ∧
      Updates (.amaxu p off sz ord sc t1 t2 t3) s c va n ord sc (fun old => Nat.max old m) ∧
      Updates (.axchg p off sz ord sc t1 t2 t3) s c va n ord sc (fun _ => m) ∧
      Updates (.afadd p off ord sc t1 t2 t3) s c va 4 ord sc
        (fun old => (fAdd (BitVec.ofNat 32 old) (b.setWidth 32)).1.toNat)) ∧
    (Takes3 s c a b q →
      Updates (.acas off sz ord sc t1 t2 t3) s c va n ord sc (fun old => if old = m then q.toNat % 2 ^ (8 * n) else old))

/-- ACQ, REL and SYNC mark their instance and pass the token on (R189); TESTC answers whether a completion object's
pending count is zero, and zero is an acquire (R196). -/
def Obligations.SynchronisationResults : Prop :=
  ∀ (s : State) (c : Fx) (p : Pred) (sc : Scope) (t1 t2 t3 : Tgt) (x : Token) (a : Word) (d : Dev) (pa : Nat) (l : Leaf),
    (Token1 p s c x →
      Does (.acq p sc t1 t2 t3) s ((s.dev.mark c fun m => { m with acq := true }).sendQ c [t1, t2, t3] x) ∧
      Does (.rel p sc t1 t2 t3) s
        ((s.dev.mark c fun m => { m with rel := true, scope := scopeMax m.scope sc }).sendQ c [t1, t2, t3] x) ∧
      Does (.sync p sc t1 t2 t3) s
        ((s.dev.mark c fun m => { m with acq := true, rel := true, scope := scopeMax m.scope sc }).sendQ c [t1, t2, t3] x)) ∧
    (Takes1 p s c a → a.toNat % 16 = 0 → Passes s.dev c.ctx a 16 1 .scalarLoad d pa l →
      (d.num pa 5 = 0 →
        Does (.testc p t1 t2) s ((d.mark c fun m => { m with acq := true }).sendQ c [t1, t2] (scalarTok 1))) ∧
      (d.num pa 5 ≠ 0 → Does (.testc p t1 t2) s (d.sendQ c [t1, t2] (scalarTok 0)))) ∧
    (Takes1 p s c a → a.toNat % 16 ≠ 0 → Traps (.testc p t1 t2) s c .align a)

/-! ### Launches, barriers, engines and shelves (R98, R107, R192..R199) -/

/-- SPAWN, BAR, COPY, COPY2D, XFER, TASK and WAITC check the addresses that their commit will use, and buffer their
effect (R98, R107, R192, R195, R198). -/
def Obligations.ForkAndWaitResults : Prop :=
  ∀ (s : State) (c : Fx) (p : Pred) (lit : BitVec 32) (a b q : Word) (d e : Dev) (pa pb : Nat) (l k : Leaf),
    let d0 := s.dev.modInst c.i fun x => { x with parkers := 1 }
    (Takes3 s c a b q → 1 ≤ a.toNat → a.toNat ≤ 2 ^ 32 → q.toNat % 16 = 0 → Passes s.dev c.ctx q 16 1 .atomic d pa l →
      Does (.spawn lit) s (d.buffer c (.spawn (c.r.blk + BitVec.ofInt 64 (lit.toInt * 16)) a.toNat b q pa))) ∧
    (Takes3 s c a b q → (a = 0 ∨ 2 ^ 32 < a.toNat) → Traps (.spawn lit) s c .queue q) ∧
    (Takes2 p s c a b → c.x.parkers = 0 → a.toNat % 8 = 0 → Passes d0 c.ctx a 8 8 .atomic d pa l →
      d.arriveFx c pa 8 a true true l = .ok e pb k →
      Does (.bar p) s ((e.mark c fun m => { m with own := true }).buffer c
        (.bar a pb (Nat.min (Nat.max b.toNat 1) (2 ^ 32 - 1))))) ∧
    (Takes2 p s c a b → c.x.parkers ≠ 0 → c.fr.mode ≠ .again → Traps (.bar p) s c .malformedStream 0) ∧
    (Takes2 p s c a b → a.toNat % 32 = 0 → b.toNat % 16 = 0 → Passes s.dev c.ctx a 32 1 .scalarLoad d pa l →
      Passes d c.ctx b 16 1 .atomic e pb k →
      Does (.copy p) s (e.buffer c (.engine .copy a 0 b pb [])) ∧
      Does (.copy2d p) s (e.buffer c (.engine .copy2d a 0 b pb [])) ∧
      Does (.xfer p) s (e.buffer c (.engine .xfer a 0 b pb []))) ∧
    (Takes2 p s c a b → a.toNat % 32 ≠ 0 →
      Traps (.copy p) s c .align a ∧ Traps (.copy2d p) s c .align a ∧ Traps (.xfer p) s c .align a) ∧
    (Takes1 p s c a → a.toNat % 64 = 0 → Passes s.dev c.ctx a 64 1 .atomic d pa l →
      Does (.task p) s (d.buffer c (.task a pa))) ∧
    (Takes1 p s c a → a.toNat % 64 ≠ 0 → Traps (.task p) s c .align a) ∧
    (Takes1 p s c a → c.x.parkers = 0 → a.toNat % 16 = 0 → Passes d0 c.ctx a 16 1 .scalarLoad d pa l →
      Does (.waitc p) s ((d.mark c fun m => { m with waitc := true }).buffer c (.waitc a pa))) ∧
    (Takes1 p s c a → c.x.parkers ≠ 0 → c.fr.mode ≠ .again → Traps (.waitc p) s c .malformedStream 0)

/-- WSSEAL and WSOPEN name a shelf by its first address, in a writable page of kind shelf, and change it at commit;
the change itself follows the shelf's state (R199). -/
def Obligations.ShelfResults : Prop :=
  (∀ (s : State) (c : Fx) (p : Pred) (a : Word) (l : Leaf), Takes1 p s c a →
    (a.toNat % 2 ^ 26 = 0 → s.dev.leafFor c.ctx a = .ok l → l.nr = false → l.allows .write c.x.cr.sys = true → l.kind = 2 →
      let d := (s.dev.setAD l true).fill c.ctx a { l with a := true, d := true }
      Does (.wsseal p) s (d.buffer c (.shelf (l.at a) true)) ∧ Does (.wsopen p) s (d.buffer c (.shelf (l.at a) false))) ∧
    (a.toNat % 2 ^ 26 ≠ 0 → Traps (.wsseal p) s c .align a ∧ Traps (.wsopen p) s c .align a) ∧
    (a.toNat % 2 ^ 26 = 0 → s.dev.leafFor c.ctx a = .ok l → l.nr = false → l.kind ≠ 2 →
      Traps (.wsseal p) s c .protection a ∧ Traps (.wsopen p) s c .protection a)) ∧
  (∀ (d : Dev) (pa : Nat),
    (d.shelf (shelfOf pa) = .opened → (d.shelfDo pa true).shelf (shelfOf pa) = .pending d.nextOp) ∧
    (d.shelf (shelfOf pa) = .sealed → (d.shelfDo pa false).shelf (shelfOf pa) = .opened) ∧
    (d.shelf (shelfOf pa) = .sealed → d.shelfDo pa true = d) ∧
    (d.shelf (shelfOf pa) = .opened → d.shelfDo pa false = d))

/-! ### Attention (R296..R317) -/

/-- KVX, SVGTH, KVFORK, KVFREE and SVBND on a valid table (R300, R310, R311, R313, R315..R317). -/
def Obligations.AttentionResults : Prop :=
  ∀ (s : State) (c : Fx) (p : Pred) (t1 t2 : Tgt) (a b : Word) (x : Token) (d e f : Dev) (v w : Nat) (h u : SeqHdr) (pa : Nat) (l : Leaf),
    (Takes2 p s c a b → s.dev.readAt c a 64 64 = .ok d v → seqHdr v = some h → b.toNat < h.len →
      d.readAt c (a + BitVec.ofNat 64 (64 + 8 * (b.toNat / h.ppp))) 8 8 = .ok e w → entV w = true → entOk w = true →
      Does (.kvx p t1 t2) s (e.request c 1 false (scalarTok (BitVec.ofNat 64 w))
        (e.leafsAt c [a + BitVec.ofNat 64 (64 + 8 * (b.toNat / h.ppp))]))) ∧
    (Takes2 p s c a b → s.dev.readAt c a 64 64 = .ok d v → seqHdr v = some h → h.len ≤ b.toNat →
      Does (.kvx p t1 t2) s (d.sendQ c [t1, t2] (errTok .bounds a))) ∧
    (Takes2 p s c a b → s.dev.readAt c a 64 64 = .ok d v → seqHdr v = none →
      Does (.kvx p t1 t2) s (d.sendQ c [t1, t2] (errTok .perm a)) ∧
      Does (.kvfork p t1 t2) s (d.sendQ c [t1, t2] (errTok .perm a))) ∧
    (Takes2 p s c a b → s.dev.readAt c a 64 64 = .ok d v → seqHdr v = some h → d.readAt c b 64 64 = .ok e w →
      seqHdr w = some u → u.len = 0 → u.fcomp ≠ 0 → u.fcomp % 16 = 0 →
      (h.len % h.ppp = 0 ∨ (entV u.spare = true ∧ entOk u.spare = true)) →
      Passes e c.ctx (BitVec.ofNat 64 u.fcomp) 16 1 .atomic f pa l →
      Does (.kvfork p t1 t2) s ((f.buffer c (.engine .fork a b (BitVec.ofNat 64 u.fcomp) pa [])).sendQ c [t1, t2]
        (scalarTok (BitVec.ofNat 64 h.pages)))) ∧
    (Fires s c → Selected p c → Data c.fr.a x → Scalar c.fr.b b → NoScale c → s.dev.readAt c b 64 64 = .ok d v →
      nfld v 511 256 = 0 → nfld v 255 192 ≤ 8 → nfld v 131 128 = 0 → x.fmt = 0 →
      d.readAt c (BitVec.ofNat 64 (nfld v 63 0)) 64 64 = .ok e w → seqHdr w = some h →
      Passes e c.ctx (BitVec.ofNat 64 (nfld v 191 128)) 16 1 .atomic f pa l →
      let sel := usedRanks x (nfld v 255 192)
      Does (.svgth p t1 t2) s ((f.buffer c (.engine .gather (BitVec.ofNat 64 (nfld v 63 0)) (BitVec.ofNat 64 (nfld v 127 64))
        (BitVec.ofNat 64 (nfld v 191 128)) pa sel)).sendQ c [t1, t2] (scalarTok (BitVec.ofNat 64 sel.length)))) ∧
    (Fires s c → Selected p c → Data c.fr.a x → Scalar c.fr.b b → NoScale c → (x.fmt = 0 ∨ x.fmt = 1) → x.geom = 0 →
      let y := s.dev.die c.t.die
      Does (.svbnd p t1 t2) s (s.dev.setDie c.t.die
        { y with sieve := y.sieve ++ [⟨c.i, c.idx, x, b, none, [], 0, decide (16 ≤ y.sieve.length)⟩] })) ∧
    (∀ es pa2 l2, Takes1 p s c a → s.dev.readRaw c a 64 64 = .ok d v → seqHdr v = some h →
      d.storeAt c a (List.replicate 8 0) 8 .tokenStore = .ok e pa2 l2 →
      e.freeLines c a (entLines h.pages) [] = .inr (f, es) →
      Does (.kvfree p) s (f.buffer c (.kvfree a (es.map fun n => BitVec.ofNat 64 n)))) ∧
    (Takes1 p s c a → s.dev.readRaw c a 64 64 = .ok d v → seqHdr v = none →
      Does (.kvfree p) s (d.trapAt c .protection a))

/-! ### Numbers and vectors (R252..R293) -/

/-- Rounding to nearest even (R263): without overflow no other number of the format lies nearer, and of two that
lie equally near the one with the even code is taken. -/
def Obligations.RoundingIsNearestEven : Prop :=
  ∀ (F : FFmt) (x : Dy), F ∈ [fFp32, fBf16, fFp16, fE4m3, fE5m2, fE2m1] →
    let r := F.round .rne 0 x
    let e0 := min x.e F.qmin
    r.flags.getLsbD 2 = false →
      ∃ y, F.decode r.code = .num y ∧ y.neg = x.neg ∧
        ∀ k z, F.decode k = .num z →
          (y.at e0 - x.at e0).natAbs ≤ (z.at e0 - x.at e0).natAbs ∧
          ((y.at e0 - x.at e0).natAbs = (z.at e0 - x.at e0).natAbs → z.at e0 ≠ y.at e0 → r.code % 2 = 0)

/-- Lanewise FP32 arithmetic, comparison and selection over tokens of FMT 0 or 1 and GEOM 00 (R272, R273, R277..R279);
any other format gives FORMAT. -/
def Obligations.VectorLaneResults : Prop :=
  ∀ (s : State) (c : Fx) (p : Pred) (t1 t2 : Tgt) (x y z : Token),
    let v2 := fun i => x.vld i && y.vld i
    let v3 := fun i => x.vld i && y.vld i && z.vld i
    let mask (b : Bool) : LaneR := (if b then 0xFFFFFFFF else 0, 0)
    (Token2 p s c x y → fpOk x = true → fpOk y = true →
      Lanewise (.vadd p t1 t2) s c [t1, t2] 1 v2 (fun i => fAdd (x.lane i) (y.lane i)) ∧
      Lanewise (.vsub p t1 t2) s c [t1, t2] 1 v2 (fun i => fSub (x.lane i) (y.lane i)) ∧
      Lanewise (.vmul p t1 t2) s c [t1, t2] 1 v2 (fun i => fMul (x.lane i) (y.lane i)) ∧
      Lanewise (.vdiv p t1 t2) s c [t1, t2] 1 v2 (fun i => fDiv (x.lane i) (y.lane i)) ∧
      Lanewise (.vmin p t1 t2) s c [t1, t2] 1 v2 (fun i => fMin (x.lane i) (y.lane i)) ∧
      Lanewise (.vmax p t1 t2) s c [t1, t2] 1 v2 (fun i => fMax (x.lane i) (y.lane i)) ∧
      Lanewise (.vceq p t1 t2) s c [t1, t2] 0 v2 (fun i => mask (fCmp (x.lane i) (y.lane i) == some .eq)) ∧
      Lanewise (.vcne p t1 t2) s c [t1, t2] 0 v2 (fun i => mask (fCmp (x.lane i) (y.lane i) != some .eq)) ∧
      Lanewise (.vclt p t1 t2) s c [t1, t2] 0 v2 (fun i => mask (fCmp (x.lane i) (y.lane i) == some .lt)) ∧
      Lanewise (.vcle p t1 t2) s c [t1, t2] 0 v2
        (fun i => mask (fCmp (x.lane i) (y.lane i) == some .lt || fCmp (x.lane i) (y.lane i) == some .eq))) ∧
    (Token2 p s c x y → (fpOk x && fpOk y) = false →
      Sends (.vadd p t1 t2) s c [t1, t2] (errTok .format 0) ∧ Sends (.vsub p t1 t2) s c [t1, t2] (errTok .format 0) ∧
      Sends (.vmul p t1 t2) s c [t1, t2] (errTok .format 0) ∧ Sends (.vdiv p t1 t2) s c [t1, t2] (errTok .format 0)) ∧
    (Token3 s c x y z → fpOk x = true → fpOk y = true → fpOk z = true →
      Lanewise (.vfma t1 t2) s c [t1, t2] 1 v3 (fun i => fFma (x.lane i) (y.lane i) (z.lane i)) ∧
      Lanewise (.vfms t1 t2) s c [t1, t2] 1 v3 (fun i => fFms (x.lane i) (y.lane i) (z.lane i))) ∧
    (Token3 s c x y z → x.fmt = y.fmt → x.geom = y.geom →
      ∃ r, Sends (.vsel t1 t2) s c [t1, t2] r ∧ r.fmt = x.fmt ∧ r.geom = x.geom ∧
        ∀ i < 16, let w := if z.lane i ≠ 0 then x else y
          r.vld i = (z.vld i && w.vld i) ∧ r.lane i = if z.vld i && w.vld i then w.lane i else 0)

/-- Lanewise functions of one FP32 operand, the special functions among them (R277, R278, R280). -/
def Obligations.VectorFunctionResults : Prop :=
  ∀ (s : State) (c : Fx) (p : Pred) (t1 t2 : Tgt) (x : Token), Token1 p s c x →
    (fpOk x = true →
      Lanewise (.vsqrt p t1 t2) s c [t1, t2] 1 x.vld (fun i => fSqrt (x.lane i)) ∧
      Lanewise (.vabs p t1 t2) s c [t1, t2] 1 x.vld (fun i => fAbs (x.lane i)) ∧
      Lanewise (.vneg p t1 t2) s c [t1, t2] 1 x.vld (fun i => fNeg (x.lane i)) ∧
      Lanewise (.vexp2 p t1 t2) s c [t1, t2] 1 x.vld (fun i => fExp2 (x.lane i)) ∧
      Lanewise (.vlog2 p t1 t2) s c [t1, t2] 1 x.vld (fun i => fLog2 (x.lane i)) ∧
      Lanewise (.vrcp p t1 t2) s c [t1, t2] 1 x.vld (fun i => fRcp (x.lane i)) ∧
      Lanewise (.vrsq p t1 t2) s c [t1, t2] 1 x.vld (fun i => fRsq (x.lane i)) ∧
      Lanewise (.vtanh p t1 t2) s c [t1, t2] 1 x.vld (fun i => fTanh (x.lane i)) ∧
      Lanewise (.vsigm p t1 t2) s c [t1, t2] 1 x.vld (fun i => fSigm (x.lane i)) ∧
      Lanewise (.vsinc p t1 t2) s c [t1, t2] 1 x.vld (fun i => fSinc (x.lane i))) ∧
    (fpOk x = false →
      Sends (.vsqrt p t1 t2) s c [t1, t2] (errTok .format 0) ∧ Sends (.vexp2 p t1 t2) s c [t1, t2] (errTok .format 0))

/-- Lanes moved from place to place (R285): where each lane of the result comes from. -/
def Obligations.VectorMoveResults : Prop :=
  ∀ (s : State) (c : Fx) (p : Pred) (lane cnt : BitVec 4) (mask : BitVec 16) (h : Shuf) (t1 t2 t3 : Tgt) (x y : Token) (b : Word),
    let From (i : Instr) (tgts : List Tgt) (f : Nat → Bool × BitVec 32) : Prop :=
      ∃ r, Sends i s c tgts r ∧ r.kind = .data ∧ r.fmt = x.fmt ∧ r.geom = x.geom ∧
        ∀ i < 16, r.vld i = (f i).1 ∧ r.lane i = if (f i).1 then (f i).2 else 0
    let at_ (t : Token) (i : Nat) : Bool × BitVec 32 := (t.vld i, t.lane i)
    (Token1 p s c x →
      From (.vbcast p lane t1 t2 t3) [t1, t2, t3] (fun _ => at_ x lane.toNat) ∧
      From (.vrot p cnt t1 t2 t3) [t1, t2, t3] (fun i => at_ x ((i + 16 - cnt.toNat) % 16)) ∧
      From (.vmask p mask t1 t2 t3) [t1, t2, t3] (fun i => (x.vld i && mask.getLsbD i, x.lane i)) ∧
      (x.vld lane.toNat = true →
        Sends (.vextr p lane t1 t2 t3) s c [t1, t2, t3] (scalarTok ((x.lane lane.toNat).zeroExtend 64))) ∧
      (x.vld lane.toNat = false →
        Sends (.vextr p lane t1 t2 t3) s c [t1, t2, t3] { scalarTok 0 with valid := 0 })) ∧
    (Fires s c → Selected p c → Data c.fr.a x → Scalar c.fr.b b → NoScale c →
      From (.vins p lane t1 t2 t3) [t1, t2, t3] (fun i => if i = lane.toNat then (true, b.setWidth 32) else at_ x i)) ∧
    (Token2 p s c x y →
      From (.vperm p t1 t2) [t1, t2] (fun i =>
        let j := (y.lane i).toNat % 16
        (y.vld i && x.vld j, x.lane j))) ∧
    (Token2 p s c x y → x.fmt = y.fmt → x.geom = y.geom →
      From (.vshuf p h t1 t2) [t1, t2] (fun i => match h with
        | .lo => if i % 2 = 0 then at_ x (i / 2) else at_ y (i / 2)
        | .hi => if i % 2 = 0 then at_ x (8 + i / 2) else at_ y (8 + i / 2)
        | .ev => if i < 8 then at_ x (2 * i) else at_ y (2 * (i - 8))
        | .od => if i < 8 then at_ x (2 * i + 1) else at_ y (2 * (i - 8) + 1)))

/-- Reductions and prefix sums of the valid lanes, VTOPK's running selection, and its emission at a stop or done
(R281, R289). -/
def Obligations.VectorReductionResults : Prop :=
  ∀ (s : State) (c : Fx) (p : Pred) (k : BitVec 9) (t1 t2 t3 : Tgt) (x y : Token),
    let xs := ((List.range 16).filter x.vld).map x.lane
    let alone (r : BitVec 32) : Token := dataTok [r] 1 1 0
    (Token1 p s c x → fpOk x = true → xs = [] →
      let none_ : Token := dataTok [0] 0 1 0
      Sends (.vreda p t1 t2) s c [t1, t2] none_ ∧ Sends (.vredx p t1 t2) s c [t1, t2] none_ ∧
      Sends (.vredn p t1 t2) s c [t1, t2] none_) ∧
    (Token1 p s c x → fpOk x = true → xs ≠ [] →
      Completes (.vreda p t1 t2) s c [t1, t2] (alone (sumLanes xs).1) (sumLanes xs).2 ∧
      Sends (.vredx p t1 t2) s c [t1, t2] (alone (pickLane fMax xs).1) ∧
      Sends (.vredn p t1 t2) s c [t1, t2] (alone (pickLane fMin xs).1)) ∧
    (Token1 p s c x → fpOk x = true →
      Lanewise (.vscan p t1 t2) s c [t1, t2] 1 x.vld
        (fun i => sumLanes (((List.range (i + 1)).filter x.vld).map x.lane))) ∧
    (Token2 p s c x y → fpOk x = true →
      Does (.vtopk p k t1 t2 t3) s (s.dev.setOp c (.vtopk (topkAdd k.toNat c.sel x y)))) ∧
    (Fires s c → Selected p c → c.fr.a = some x → c.fr.b = some y → NoScale c →
      ((x.kind = .stop ∧ y.kind = .stop ∧ x.level = y.level) ∨ (x.kind = .done ∧ y.kind = .done)) →
      Does (.vtopk p k t1 t2 t3) s ((((List.range ((k.toNat + 7) / 8)).foldl (fun d j => d.send c [t1, t2, t3] (topkTok c.sel j))
        s.dev).send c [t1, t2, t3] x).clearOp c))

/-- What VTOPK keeps (R289): at most k pairs, each no better than the one before it, and none left out that ranks
before one kept. -/
def Obligations.TopKSelectionRanks : Prop :=
  ∀ (k : Nat) (sel : List (BitVec 32 × BitVec 32)) (x y : Token),
    sel.length ≤ k → (∀ q ∈ sel, (fp32 q.1).isNan = false) →
    List.Pairwise (fun q r => ranksBefore r q = false) sel →
    let out := topkAdd k sel x y
    let new_ := ((List.range 16).filter fun i => x.vld i && y.vld i && !(fp32 (x.lane i)).isNan).map fun i => (x.lane i, y.lane i)
    out.length ≤ k ∧ List.Pairwise (fun q r => ranksBefore r q = false) out ∧
      (∀ q ∈ out, q ∈ sel ∨ q ∈ new_) ∧
      (∀ q, (q ∈ sel ∨ q ∈ new_) → q ∉ out → ∀ r ∈ out, ranksBefore q r = false)

/-- Conversion, packing and widening (R282, R283, R284). -/
def Obligations.VectorConversionResults : Prop :=
  ∀ (s : State) (c : Fx) (p : Pred) (f : BitVec 4) (g : BitVec 2) (rm : Rounding) (t1 t2 t3 : Tgt) (x : Token),
    Token1 p s c x →
    (fpOk x = true → f.toNat ≤ 11 →
      Completes (.vcvt p f g rm t1 t2 t3) s c [t1, t2, t3] (convert c f g rm x).1 (convert c f g rm x).2 ∧
      Sends (.vpack p f t1 t2 t3) s c [t1, t2, t3] (packTok f x)) ∧
    (fpOk x = true → f.toNat ≤ 11 → fmtWidth f.toNat < 32 →
      ∀ k < 16, (∀ j < 16, j / (32 / fmtWidth f.toNat) = k / (32 / fmtWidth f.toNat) → x.vld j = true) →
        (packTok f x).elem (fmtWidth f.toNat) k = (x.lane k).toNat % 2 ^ fmtWidth f.toNat) ∧
    (∀ ts, f.toNat ≤ 1 → unpack f x = some ts → c.x.cr.ten = 0 →
      Does (.vunpk p f t1 t2 t3) s (ts.foldl (fun d t => d.send c [t1, t2, t3] t.1)
        (flagged s.dev c (ts.foldl (fun fl t => fl ||| t.2) 0)))) ∧
    (unpack f x = none → Sends (.vunpk p f t1 t2 t3) s c [t1, t2, t3] (errTok .format 0)) ∧
    (fpOk x = false →
      Sends (.vcvt p f g rm t1 t2 t3) s c [t1, t2, t3] (errTok .format 0) ∧
      Sends (.vpack p f t1 t2 t3) s c [t1, t2, t3] (errTok .format 0))

/-- Integer vector instructions act on every element of lanes valid in both operands, whatever the format (R286). -/
def Obligations.VectorIntegerResults : Prop :=
  ∀ (s : State) (c : Fx) (p : Pred) (w : LaneW) (t1 t2 : Tgt) (x y : Token), Token2 p s c x y →
    let n := match w with | .i32 => 32 | .i16 => 16 | .i8 => 8
    let Each (i : Instr) (f : BitVec n → BitVec n → BitVec n) : Prop :=
      ∃ r, Sends i s c [t1, t2] r ∧ Lanes r 0 (fun k => x.vld k && y.vld k) r.lane ∧
        ∀ k < 16, x.vld k = true → y.vld k = true → ∀ j < 32 / n,
          (r.lane k).extractLsb' (n * j) n = f ((x.lane k).extractLsb' (n * j) n) ((y.lane k).extractLsb' (n * j) n)
    Each (.viadd p w t1 t2) (fun a b => a + b) ∧
    Each (.visub p w t1 t2) (fun a b => a - b) ∧
    Each (.vimul p w t1 t2) (fun a b => a * b) ∧
    Each (.viand p w t1 t2) (fun a b => a &&& b) ∧
    Each (.vior p w t1 t2) (fun a b => a ||| b) ∧
    Each (.vixor p w t1 t2) (fun a b => a ^^^ b) ∧
    Each (.vishl p w t1 t2) (fun a b => if b.toNat < n then a <<< b.toNat else 0) ∧
    Each (.vishr p w t1 t2) (fun a b => if b.toNat < n then a >>> b.toNat else 0) ∧
    Each (.vimin p w t1 t2) (fun a b => if a.toInt ≤ b.toInt then a else b) ∧
    Each (.vimax p w t1 t2) (fun a b => if a.toInt ≤ b.toInt then b else a)

/-- DOT, DOTA, DOTI and VROPE (R287, R290..R293): operands that fit give the value and its flags in lane 0, others
FORMAT; a position of 2^32 or more raises PR. With no trap enabled each completes on operands that fit. -/
def Obligations.DotAndRopeResults : Prop :=
  ∀ (s : State) (c : Fx) (p : Pred) (tbl : BitVec 8) (t1 t2 t3 : Tgt) (x y : Token) (q : Word),
    let pair (m : Pred) : Prop := Fires s c ∧ Selected m c ∧ Data c.fr.a x ∧ Data c.fr.b y ∧ ScalesData c
    let triple : Prop := Fires s c ∧ Data c.fr.a x ∧ Data c.fr.b y ∧ Scalar c.fr.p q ∧ ScalesData c
    (pair p → dotOk c.fr x y = true →
      Completes (.dot p t1 t2) s c [t1, t2] (dataTok [(dotValue c.fr x y).1] 1 1 0) (dotValue c.fr x y).2) ∧
    (pair p → dotOk c.fr x y = false → Sends (.dot p t1 t2) s c [t1, t2] (errTok .format 0)) ∧
    (triple → dotOk c.fr x y = true →
      let r := dotaValue c.fr x y (q.setWidth 32)
      Completes (.dota t1 t2) s c [t1, t2] (dataTok [r.1] 1 1 0) r.2) ∧
    (triple → dotOk c.fr x y = false → Sends (.dota t1 t2) s c [t1, t2] (errTok .format 0)) ∧
    (triple → dotiOk c.fr x y = true → Sends (.doti t1 t2) s c [t1, t2] (scalarTok (dotiValue x y q))) ∧
    (triple → dotiOk c.fr x y = false → Sends (.doti t1 t2) s c [t1, t2] (errTok .format 0)) ∧
    -- with no trap enabled the instruction completes
    (Fires s c → c.x.cr.ten = 0 →
      (Selected p c → Data c.fr.a x → Data c.fr.b y → ScalesData c → dotOk c.fr x y = true →
        let r := dotValue c.fr x y
        exec (.dot p t1 t2) s = .next { s with dev := (flagged s.dev c r.2).send c [t1, t2] (dataTok [r.1] 1 1 0) }) ∧
      (Data c.fr.a x → Data c.fr.b y → Scalar c.fr.p q → ScalesData c → dotOk c.fr x y = true →
        let r := dotaValue c.fr x y (q.setWidth 32)
        exec (.dota t1 t2) s = .next { s with dev := (flagged s.dev c r.2).send c [t1, t2] (dataTok [r.1] 1 1 0) }) ∧
      (Selected p c → Data c.fr.a x → Scalar c.fr.b q → NoScale c → fpOk x = true → q.toNat < 2 ^ 32 →
        let r := ropeTok ((tget (c.t.part, tbl.toNat) s.dev.ropes).getD []) q.toNat x
        exec (.vrope p tbl t1 t2 t3) s = .next { s with dev := (flagged s.dev c r.2).send c [t1, t2, t3] r.1 })) ∧
    (Fires s c → Data c.fr.a x → Data c.fr.b y → Scalar c.fr.p q → NoScale c → x.geom = 0 → y.geom = 0 → x.fmt = y.fmt →
      x.fmt = 7 ∨ x.fmt = 8 ∨ x.fmt = 9 ∨ x.fmt = 10 →
      exec (.doti t1 t2) s = .next { s with dev := s.dev.send c [t1, t2] (scalarTok (dotiValue x y q)) }) ∧
    (Fires s c → Selected p c → Data c.fr.a x → Scalar c.fr.b q → NoScale c → fpOk x = true →
      (q.toNat < 2 ^ 32 →
        let r := ropeTok ((tget (c.t.part, tbl.toNat) s.dev.ropes).getD []) q.toNat x
        Completes (.vrope p tbl t1 t2 t3) s c [t1, t2, t3] r.1 r.2) ∧
      (2 ^ 32 ≤ q.toNat → c.x.cr.ten.getLsbD 2 = true → Traps (.vrope p tbl t1 t2 t3) s c .posrange 0))

/-- DOTI's sum over the elements whose lanes are valid in both tokens is exact, and is added to the scalar modulo
2^64 (R293). -/
def Obligations.IntegerDotIsExact : Prop :=
  ∀ (x y : Token) (q : Word), x.fmt = y.fmt →
    (x.fmt = 7 ∨ x.fmt = 8 ∨ x.fmt = 9 ∨ x.fmt = 10 ∨ x.fmt = 0) →
    let e := fmtWidth x.fmt.toNat
    let val (t : Token) (k : Nat) : Int := if x.fmt = 9 then Int.ofNat (t.elem e k) else signedOf e (t.elem e k)
    dotiValue x y q = q + BitVec.ofInt 64
      (((List.range (512 / e)).filter fun k => x.elemV e k && y.elemV e k).map fun k => val x k * val y k).sum

/-! ### Streams (R127..R146) -/

/-- Stream instructions on an open stream (R136..R146): the position is the address resolved against the reader's
cursor or the high-water mark; a read waits until the position is published, and a write until there is room. -/
def Obligations.StreamResults : Prop :=
  ∀ (s : State) (c : Fx) (p : Pred) (t1 t2 : Tgt) (a b : Word) (x : Token) (d : Dev) (ds q : Nat) (st : Stream),
    c.fr.mode ≠ .again →
    let d0 := s.dev.clearOp c
    let d1 := (marked s.dev c).clearOp c
    let j := fldN a 42 40
    let joined := fun st : Stream => (st.reader j).joined
    let free := fun st : Stream => !st.hpro
    let m := st.esize
    let rel (d : Dev) : Dev := d.modInst c.i fun x => { x with marks := { x.marks with rel := true, scope := .sys } }
    let own (d : Dev) : Dev := d.modInst c.i fun x => { x with marks := { x.marks with own := true, scope := .sys } }
    let atPos (d : Dev) : Dev := d.setOp c (.spos ds j q)
    (Takes1 p s c a → resolvePos a (c.x.cursorRef ds j st) = some q → (st.reader j).rel ≤ q →
      (Opens d0 c a .read Stream.esize true joined d ds st →
        (q + m ≤ st.hwm → Does (.srd p t1 t2) s
          ((atPos d).streamRead c ds j st a q m fun bs => scalarTok (BitVec.ofNat 64 (natOfBytes bs)))) ∧
        (st.hwm < q + m → Does (.srd p t1 t2) s ((own (atPos d)).block c (.hwm ds (q + m))))) ∧
      (Opens d0 c a .read (fun _ => 64) false joined d ds st →
        (q + 64 ≤ st.hwm → Does (.srdv p t1 t2) s ((atPos d).streamRead c ds j st a q 64 fun bs => tokenOfBytes bs 0 0)) ∧
        (st.hwm < q + 64 → Does (.srdv p t1 t2) s ((own (atPos d)).block c (.hwm ds (q + 64)))))) ∧
    (resolvePos a st.hwm = some q → st.tail ≤ q → First c →
      (Takes2 p s c a b → Opens d1 c a .write Stream.esize true free d ds st →
        (q + m ≤ (atPos d).limitOf ds st → Does (.swr p) s
          ((atPos d).streamWrite c ds st a q [(q, m)] (cellsAt q (bytesOfNat m b.toNat)))) ∧
        ((atPos d).limitOf ds st < q + m → Does (.swr p) s ((own (atPos d)).block c (.limit ds (q + m))))) ∧
      (Fires s c → Selected p c → Scalar c.fr.a a → Data c.fr.b x → NoScale c →
        Opens d1 c a .write (fun _ => 64) false free d ds st → q + 64 ≤ (atPos d).limitOf ds st →
        Does (.swrv p) s ((atPos d).streamWrite c ds st a q (laneRuns x q) (laneCells x q)))) ∧
    (Takes1 p s c a → Opens d0 c a .write Stream.esize true free d ds st → resolvePos a st.hwm = some q →
      (q ≤ (atPos (rel d)).limitOf ds st → Does (.spub p) s ((atPos (rel d)).buffer c (.spub ds q))) ∧
      ((atPos (rel d)).limitOf ds st < q → Does (.spub p) s ((own (atPos (rel d))).block c (.limit ds q)))) ∧
    (Takes1 p s c a → Opens d0 c a .read Stream.esize true joined d ds st →
      resolvePos a (c.x.cursorRef ds j st) = some q →
      (q ≤ st.hwm → Does (.srel p) s ((atPos (rel d)).buffer c (.srel ds j q))) ∧
      (q ≤ st.hwm → (st.reader j).rel ≤ q → Does (.srew p) s ((atPos d).buffer c (.srew ds j q))) ∧
      (q < (st.reader j).rel → Does (.srew p) s (d.trapAt c .streamBehind a))) ∧
    (Takes1 p s c a → Opens s.dev c a .read (fun _ => 1) false (fun _ => true) d ds st →
      Does (.spos p t1 t2) s (d.sendQ c [t1, t2] (scalarTok (BitVec.ofNat 64 st.hwm))) ∧
      ((st.reader j).joined = true ∨ st.pj = true → Does (.sleave p) s (d.buffer c (.sleave ds j))) ∧
      ((st.reader j).joined = false → st.pj = false → Does (.sleave p) s (d.trapAt c .protection a))) ∧
    (Takes1 p s c a → Opens d0 c a .read Stream.esize true (fun _ => true) d ds st → resolvePos a st.tail = some q →
      (st.reader j).joined = false → d.claimed ds j = false → st.tail ≤ q → q ≤ st.hwm →
      Does (.sjoin p .rdr) s ((atPos (d.claim c ds j)).buffer c (.sjoinR ds j q))) ∧
    (Takes1 p s c a → Opens d0 c a .read Stream.esize true (fun _ => true) d ds st →
      (st.reader j).joined = true ∨ d.claimed ds j = true → Does (.sjoin p .rdr) s (d.trapAt c .protection a)) ∧
    (Takes1 p s c a → Opens s.dev c a .write Stream.esize true free d ds st →
      (st.pj = false → d.claimed ds 8 = false → Does (.sjoin p .pro) s ((d.claim c ds 8).buffer c (.sjoinP ds))) ∧
      (st.pj = true → Does (.sjoin p .pro) s (d.trapAt c .protection a)))

/-- What a commit's stream effects do to a stream, step by step (R144): HWM, cursors and released positions only
rise, but for a rewind's cursor, which never falls below the released position; and where no reader was joined, TAIL is the least
position at which one joins (R145). That a join whose position TAIL has passed since its firing joins at TAIL is the model's
reading (log 61). -/
def Obligations.StreamCommitSteps : Prop :=
  ∀ (st : Stream) (ds j q : Nat), j < 8 →
    let r := st.reader j
    (st.apply 2 (.spub ds q)).hwm = Nat.max st.hwm q ∧
    (r.joined = true →
      (st.apply 4 (.srd ds j q)).reader j = { r with cur := Nat.max r.cur q } ∧
      (st.apply 5 (.srel ds j q)).reader j = { r with rel := Nat.max r.rel q, cur := Nat.max r.cur q } ∧
      (st.apply 6 (.srew ds j q)).reader j = { r with cur := Nat.max q r.rel } ∧
      ((st.apply 7 (.sleave ds j)).reader j).joined = false) ∧
    (r.joined = false → (st.apply 7 (.sleave ds j)).pj = false) ∧
    (st.apply 3 (.sjoinP ds)).pj = true ∧
    (let t := st.apply 3 (.sjoinR ds j q);
      (t.reader j).joined = true ∧ (t.reader j).cur = Nat.max q st.tail ∧ (t.reader j).rel = Nat.max q st.tail ∧
        t.tail = st.tail) ∧
    ((∀ k < 8, (st.reader k).joined = false) →
      (let t := st.applyAll [.sjoinR ds j q];
        (t.reader j).joined = true ∧ (t.reader j).cur = Nat.max q st.tail ∧ (t.reader j).rel = Nat.max q st.tail ∧
          t.tail = Nat.max q st.tail) ∧
      ∀ k p, k < 8 → k ≠ j →
        let t := st.applyAll [.sjoinR ds j q, .sjoinR ds k p];
        (t.reader j).rel = Nat.max q st.tail ∧ (t.reader k).rel = Nat.max p st.tail ∧
          t.tail = Nat.max st.tail (Nat.min q p)) ∧
    (∀ k p, k < 8 → k ≠ j → (st.reader k).joined = true → (st.reader k).rel = st.tail → st.tail ≤ p → r.joined = false →
      (∀ m < 8, m ≠ k → (st.reader m).joined = false) →
      -- a join beside a joined reader leaves TAIL; the other's leave and its release raise it to the least that is left
      (st.applyAll [.sjoinR ds j q]).tail = st.tail ∧
        (st.applyAll [.sjoinR ds j q, .sleave ds k]).tail = Nat.max q st.tail ∧
        (st.applyAll [.srel ds k p]).tail = p) ∧
    (∀ step e, (st.apply step e).hwm = st.hwm ∨ st.hwm < (st.apply step e).hwm) ∧
    (∀ step e, st.tail ≤ (st.apply step e).tail)

/-! ### Fibres (R322..R347) -/

/-- FSCAN, FISECT, FUNION, FRPT, FRED, FVALS, FBLD and FCHK on legal tokens (R324..R329, R340..R347). -/
def Obligations.FibreResults : Prop :=
  ∀ (s : State) (c : Fx) (p : Pred) (lvl : BitVec 3) (op : RedOp) (t1 t2 t3 : Tgt) (x y : Token)
    (d1 d2 d3 : Dev) (v lo hi w k last n cap : Nat) (crd next desc vals : Word) (prev pb : Option Nat) (xs : List (BitVec 32)),
    Fires s c →
    let tgts := [t1, t2, t3]
    let st := c.x.opst c.idx
    let above (prev : Option Nat) (t : Token) : Prop := ∀ q, prev = some q → q < t.coord
    -- a reference is expanded into its segment
    (Selected p c → Data c.fr.a x → c.fr.b = none → NoScale c → st = none → fibOf x = .coord →
      Reads s.dev c x.descAddr 64 d1 v → nfld v 2 0 = lvl.toNat → levelOk v = true → x.ref < nfld v 63 32 →
      Reads d1 c (BitVec.ofNat 64 (nfld v 127 64) + BitVec.ofNat 64 (4 * x.ref)) 4 d2 lo →
      Reads d2 c (BitVec.ofNat 64 (nfld v 127 64) + BitVec.ofNat 64 (4 * x.ref) + 4) 4 d3 hi → lo ≤ hi →
      Does (.fscan p lvl t1 t2 t3) s (d3.setOp c
        (if lo = hi then .fscan true
         else .fscanSeg lo hi (BitVec.ofNat 64 (nfld v 191 128)) (BitVec.ofNat 64 (nfld v 255 192)) none))) ∧
    -- and then into one coordinate after another, which must rise
    (st = some (.fscanSeg k last crd next prev) → Reads s.dev c (crd + BitVec.ofNat 64 (4 * k)) 4 d1 w →
      (∀ q, prev = some q → q < w) →
      Does (.fscan p lvl t1 t2 t3) s ((d1.request c 1 false (coordTok w k next) (d1.leafsAt c [crd + BitVec.ofNat 64 (4 * k)])).setOp c
        (if k + 1 < last then .fscanSeg (k + 1) last crd next (some w) else .fscan true))) ∧
    -- a match, or stops of one level, of both streams
    (c.fr.a = some x → c.fr.b = some y → (st = none ∨ st = some (.fpair prev pb)) →
      (st = none → prev = none ∧ pb = none) →
      (x.kind = .data → y.kind = .data → above prev x → above pb y →
        Does (.fisect t1 t2) s ((s.dev.sendPair c t1 t2 x y).setOp c (.fpair (some x.coord) (some y.coord))) ∧
        Does (.funion t1 t2) s ((s.dev.sendPair c t1 t2 x y).setOp c (.fpair (some x.coord) (some y.coord)))) ∧
      (x.kind = .stop → y.kind = .stop → x.level = y.level →
        Does (.fisect t1 t2) s ((s.dev.sendPair c t1 t2 x y).setOp c (.fpair none none)) ∧
        Does (.funion t1 t2) s ((s.dev.sendPair c t1 t2 x y).setOp c (.fpair none none)))) ∧
    -- a coordinate of one stream alone is dropped, or paired with a hole
    (c.fr.a = some x → c.fr.b = none → x.kind = .data → st = some (.fpair prev pb) → above prev x →
      Does (.fisect t1 t2) s (s.dev.setOp c (.fpair (some x.coord) pb)) ∧
      Does (.funion t1 t2) s ((s.dev.sendPair c t1 t2 x (holeTok x.coord)).setOp c (.fpair (some x.coord) pb))) ∧
    -- FRPT takes b's element for a fibre, repeats it, and lets it go at the fibre's stop
    (c.fr.a = some x → x.kind = .data →
      (c.fr.b = some y → y.kind = .data → st = none →
        Does (.frpt t1 t2) s ((s.dev.send c [t1, t2] y).setOp c (.frpt (some y)))) ∧
      (c.fr.b = none → st = some (.frpt (some y)) → Sends (.frpt t1 t2) s c [t1, t2] y)) ∧
    (c.fr.a = some x → x.kind = .stop → c.fr.b = none → st = some (.frpt (some y)) →
      Does (.frpt t1 t2) s ((s.dev.send c [t1, t2] x).setOp c (.frpt none))) ∧
    -- FRED gathers a fibre's values and sends one for its stop
    (c.fr.a = some x → x.kind = .data → (x.fmt = 0 ∨ x.fmt = 1) → st = some (.fred xs true) →
      Does (.fred op t1 t2) s (s.dev.setOp c (.fred (if x.vld 0 then xs ++ [x.lane 0] else xs) true))) ∧
    (c.fr.a = some x → x.kind = .stop → st = some (.fred xs true) → c.x.cr.ten = 0 →
      let d := ((flagged s.dev c (fredValue op xs).2).clearOp c).send c [t1, t2] (dataTok [(fredValue op xs).1] 1 1 0)
      Does (.fred op t1 t2) s (if x.level = 0 then d else d.send c [t1, t2] (stopTok (x.level.toNat - 1)))) ∧
    (c.fr.a = some x → x.kind = .done → st = none → Sends (.fred op t1 t2) s c [t1, t2] x) ∧
    -- FVALS loads the values of two references; a hole reads as zero
    (Selected p c → Data c.fr.a x → Data c.fr.b y → NoScale c → st = none → fibOf x = .hole → fibOf y = .coord →
      Reads s.dev c y.descAddr 64 d1 v → levelOk v = true → nfld v 319 256 ≠ 0 →
      Reads d1 c (BitVec.ofNat 64 (nfld v 319 256) + BitVec.ofNat 64 (4 * y.ref)) 4 d2 w →
      Does (.fvals p t1 t2) s (d2.request c 1 false (dataTok [0, BitVec.ofNat 32 w] 3 1 0)
        (d2.leafsAt c [BitVec.ofNat 64 (nfld v 319 256) + BitVec.ofNat 64 (4 * y.ref)]))) ∧
    -- FBLD stores a coordinate and its value, and at done the count
    (∀ pa1 pa2 l1 l2, c.fr.a = some x → c.fr.b = none → x.kind = .data → st = some (.fbld n desc cap crd vals prev 0) →
      x.vld 0 = true → x.vld 1 = true → above prev x → n < cap →
      s.dev.storeAt c (crd + BitVec.ofNat 64 (4 * n)) (bytesOfNat 4 (x.lane 0).toNat) 4 .scalarStore = .ok d1 pa1 l1 →
      d1.storeAt c (vals + BitVec.ofNat 64 (4 * n)) (bytesOfNat 4 (x.lane 1).toNat) 4 .scalarStore = .ok d2 pa2 l2 →
      Does .fbld s (d2.setOp c (.fbld (n + 1) desc cap crd vals (some x.coord) 0))) ∧
    (∀ pa1 l1, c.fr.a = some x → c.fr.b = none → x.kind = .done → st = some (.fbld n desc cap crd vals prev 1) →
      s.dev.storeAt c (desc + 24) (bytesOfNat 8 n) 8 .scalarStore = .ok d1 pa1 l1 →
      Does .fbld s (marked (d1.setOp c (.fbld n desc cap crd vals prev 2)) c)) ∧
    -- FCHK passes a legal stream
    (c.fr.a = some x → x.kind = .stop → st = none → x.level.toNat ≤ lvl.toNat →
      Does (.fchk lvl t1 t2 t3) s ((s.dev.send c tgts x).setOp c (.fchk none (some x.level.toNat) none true false))) ∧
    (c.fr.a = some x → x.kind = .stop → st = none → lvl.toNat < x.level.toNat →
      Traps (.fchk lvl t1 t2 t3) s c .malformedStream 0)

/-! ### Words, steps and reset -/

/-- Words written out from the worked encodings of the spec decode to the instructions they stand for, one or more of
each family; a form code 11, an unassigned opcode and a truncated instruction are refused by name. -/
def Obligations.WordsDecode : Prop :=
  let n (k : BitVec 7) : Tgt := some ⟨k, .a⟩
  (decode [0x3FE1_9114]).toOption = some (.sar .always (some ⟨6, .b⟩) none, []) ∧
  (decode [0x3FE2_8494]).toOption = some (.div .onTrue (n 10) none, []) ∧
  (decode [0x3FE1_0155, 0x01FF_02C8]).toOption = some (.bfx .always 8 11 (n 4) none none, []) ∧
  (decode [0x3FE2_00E6, 0x01FF_0000, 0x1234_5678]).toOption = some (.litL .always 0x12345678 (n 8) none none, []) ∧
  (decode [0x0C83_C041, 0x0040_0000]).toOption = some (.steerW .always (n 15) (n 25) (n 16), []) ∧
  (decode [0x3FFF_F826, 0x01FF_0000, 0]).toOption = some (.bri .onFalse 0, []) ∧
  (decode [0x3FE3_4180]).toOption = some (.srd .always (n 13) none, []) ∧
  (decode [0x3FFF_F1E9, 0x01FF_0000]).toOption = some (.std .always 0, []) ∧
  (decode [0x7FE2_0209, 0x1BFF_0010]).toOption = some (.aadd .always 16 .d .acq .sys (n 8) none none, []) ∧
  (decode [0x7FFF_F629, 0x1DFF_0000]).toOption = some (.axchg .onTrue 0 .d .rel .sys none none none, []) ∧
  (decode [0x3FFF_F240]).toOption = some (.copy .always, []) ∧
  (decode [0x3FE1_42D5, 0x07FF_0004]).toOption = some (.vcvt .always 4 0 .rd (n 5) none none, []) ∧
  (decode [0xBFE1_0340]).toOption = some (.viadd .always .i8 (n 4) none, []) ∧
  (decode [0x3FE4_036C]).toOption = some (.dota (n 16) none, []) ∧
  (decode [0x3FE1_8388]).toOption = some (.kvx .always (n 6) none, []) ∧
  (decode [0x7FE1_C3B0]).toOption = some (.fred .max (n 7) none, []) ∧
  (decode [0x3FFF_F3C1, 0x01FF_1234]).toOption = some (.trap .always 0x1234, []) ∧
  (decode [0x3FE0_C3C9, 0x01FF_0002]).toOption = some (.crrd .always 2 (n 3) none none, []) ∧
  (decode [0x3FFF_F7D8]).toOption = some (.qpost .onTrue, []) ∧
  (decode [0x3FFF_F003]).toOption = none ∧ (decode [0x3FE1_0155]).toOption = none ∧ (decode []).toOption = none

/-- Decoding the words of a well-formed instruction gives it back, with every operand at every value that its
encoding admits, and leaves the words that follow (R62..R78). -/
def Obligations.DecodeUndoesEncode : Prop :=
  ∀ (i : Instr) (rest : List Word32), i.fields.isSome = true → i.wf = true → decode (encode i ++ rest) = .ok (i, rest)

/-- A step makes the next move of the agenda, and time passes. While the fabric clock runs, a firing takes its tokens and
executes the instruction that the words of its region's image decode to, and an event or host access executes as such,
unless it stays behind an earlier one of its port; in P2 an access that wakes the module is held; in P3 nothing acts but a
bring-up. A firing that cannot be made is passed over, and so is an event that cannot occur; a request that must wait comes next
again, after a move of the device's own. A wait passes one cycle at a time. With nothing on the agenda the
device moves by itself (R12, R84, R187, R404, R417, R418). No step refuses. -/
def Obligations.StepRunsTheNextMove : Prop :=
  ∀ (s : State) (r : List Move),
    let s0 := popped s r
    let runs : Prop := s.rot.power = .p0 ∨ s.rot.power = .p1
    -- a firing
    (∀ i idx d c k ins rest t, s.dev.agenda = .fire i idx :: r → runs → s0.dev.latch i idx = some d → d.fx = some c →
      c.r.image.starts[c.idx]? = some k → decode (c.r.image.words.drop k) = .ok (ins, rest) →
      exec ins { s0 with dev := d } = .next t →
      step s = .next (State.tick { t with dev := { t.dev with
        fire := none
        regions := tmod c.x.reg (fun x => { x with active := t.dev.cycle }) t.dev.regions } })) ∧
    (∀ i idx, s.dev.agenda = .fire i idx :: r → runs → s0.dev.latch i idx = none → step s = .next s0.tick) ∧
    (∀ i idx, s.dev.agenda = .fire i idx :: r → ¬ runs → step s = .next s0) ∧
    -- an event or a host access
    (∀ i t, s.dev.agenda = .op i :: r → runs → s0.staysBehind i = false → exec i s0 = .next t →
      step s = .next (match i with | .migrationPost .. => t | _ => t.tick)) ∧
    (∀ i, s.dev.agenda = .op i :: r → s.rot.power ≠ .p3 → wakesP2 i = false ∨ runs → s0.staysBehind i = true →
      step s = .next (match i with | .migrationPost .. => s0.hold i | _ => (s0.hold i).tick)) ∧
    (∀ i, s.dev.agenda = .op i :: r → s.rot.power = .p2 → wakesP2 i = true → s.dev.balk = false →
      step s = .next { s0 with rot := { s0.rot with
        heldOps := s0.rot.heldOps ++ [i], waking := true, busy := s0.rot.busy || !s0.rot.waking } }) ∧
    (∀ i t, s.dev.agenda = .op i :: r → s.rot.power = .p2 → wakesP2 i = false → s0.staysBehind i = false → servedInP2 i = true →
      exec i s0 = .next t → step s = .next (match i with | .migrationPost .. => t | _ => t.tick)) ∧
    (∀ i, s.dev.agenda = .op i :: r → s.rot.power = .p3 → i ≠ .coldBringUp → step s = .next s0) ∧
    (∀ i, s.dev.agenda = .op i :: r → s.rot.power = .p2 → wakesP2 i = false → s0.staysBehind i = false → servedInP2 i = false →
      step s = .next s0) ∧
    -- what cannot occur is passed over, and what must wait is put off
    (∀ i n, s.dev.agenda = .op i :: r → runs → s0.staysBehind i = false → exec i s0 = .refused (.notEnabled n) →
      step s = .next (match i with | .migrationPost .. => s0 | _ => s0.tick)) ∧
    (∀ i n, s.dev.agenda = .op i :: r → runs → s0.staysBehind i = false → exec i s0 = .refused (.mustWait n) →
      (fromOutside i = false → step s = .next (match i with | .migrationPost .. => s0 | _ => s0.tick)) ∧
      (fromOutside i = true →
        let t := State.autoMove (popped s [])
        let u : State := match i with | .migrationPost .. => t.tick | _ => t
        let v : State := { u with dev := { u.dev with agenda := u.dev.agenda ++ .op i :: r } }
        step s = .next (match i with | .migrationPost .. => v | _ => v.tick))) ∧
    (∀ x, step s ≠ .refused x) ∧
    -- a wait
    (∀ n, s.dev.agenda = .wait n :: r → step s = .next (if n = 0 then s0 else State.tick
      (if n = 1 then s0 else { s0 with dev := { s0.dev with agenda := .wait (n - 1) :: r } }))) ∧
    -- time, and the device's own moves
    (¬ runs → s.tick = s) ∧ (runs → s.tick = State.release { s with dev := s.dev.tick }) ∧
    (s.dev.agenda = [] → ∃ t, step s = .next t)

/-- Reset: the module is Unprovisioned and in P0, every debug state is off, no thread, instance, region or queue
exists, memory lists nothing, no function has queues or ASIDs, MIGSETTLE is 65,536, and the invariants hold. -/
def Obligations.ResetState : Prop :=
  let s := State.reset
  s.rot.sec = .unprovisioned ∧ s.rot.power = .p0 ∧ (∀ p, s.rot.dbgOf p = .off) ∧ s.rot.fuses = (0, 0) ∧
    s.rot.busy = false ∧ s.dev.threads = [] ∧ s.dev.insts = [] ∧ s.dev.regions = [] ∧ s.dev.devq = [] ∧ s.dev.cycle = 0 ∧
    (∀ q, (s.dev.queue q).en = false ∧ (s.dev.queue q).err = false) ∧
    (∀ f, (s.dev.func f).qcnt = 0 ∧ (s.dev.func f).acnt = 0 ∧ (s.dev.func f).apen = false ∧ (s.dev.func f).susp = false) ∧
    (∀ p, s.dev.part p = Part.reset) ∧ s.dev.migsettle = 65536 ∧ (∀ a, s.dev.byte a = 0) ∧
    MemOk s ∧ Settled s ∧ RootOk s.rot

/-! ### What every step keeps -/

/-- Every step keeps memory in its canonical form. -/
def Obligations.MemoryStaysCanonical : Prop :=
  ∀ s t : State, MemOk s → step s = .next t → MemOk t

/-- Every step keeps the root of trust lawful: Returned holds no owner key, no sealed secret and no invasive partition
but 0; Locked and Owner-Debug hold the owner's keys; stored objects are no older than the fused counts; measurement
registers keep their 48 bytes (R410..R414). -/
def Obligations.RootOfTrustStaysLawful : Prop :=
  ∀ s t : State, RootOk s.rot → step s = .next t → RootOk t.rot

/-- The changes of the security state in one step, and the fused counts, which never fall (R411, R412, R417). An
instruction's row never changes the root of trust, and never refuses. -/
def Obligations.SecurityTransitions : Prop :=
  (∀ s t : State, RootOk s.rot → step s = .next t →
    (t.rot.sec = s.rot.sec ∨ s.rot.sec = .unprovisioned ∧ t.rot.sec = .locked ∨
      s.rot.sec = .locked ∧ t.rot.sec = .ownerDebug ∨ s.rot.sec = .ownerDebug ∧ t.rot.sec = .locked ∨
      (s.rot.sec = .locked ∨ s.rot.sec = .ownerDebug) ∧ t.rot.sec = .returned) ∧
    s.rot.fuses.1 ≤ t.rot.fuses.1 ∧ s.rot.fuses.2 ≤ t.rot.fuses.2) ∧
  (∀ (i : Instr) (s : State) (c : Fx), i.fields.isSome = true → Fires s c →
    ∃ d, exec i s = .next { s with dev := d })

/-! ### What the kinds of operands decide, and sending (R84..R90) -/

/-- The scalar, vector and dot-product rows (VTOPK apart) under the predicate and the kinds of their operands: not
selected, null to every target; then, in this order, the first error, null for a null, the common stop or done, and
GRAMMAR for a mix (R86..R88). Slot p of a row without a predicate is a data slot; beside a stop or done at every other
slot it must hold data and is ignored. -/
def Obligations.KindRules : Prop :=
  ∀ (i : Instr) (s : State) (c : Fx), arith i = true → Fires s c →
    let m := predOf i
    let ops := c.fr.a.toList ++ c.fr.sa.toList ++ c.fr.b.toList ++ c.fr.sb.toList
    let sp := if m = .always then c.fr.p.toList else []
    let all := ops ++ sp
    let sends (t : Token) : Prop := Sends i s c i.tgts t
    let plain : Prop := ∀ u ∈ sp, u.kind = .data ∧ u.vld 0 = true
    (Unselected m c → sends Token.null) ∧
    ((m = .always ∨ Selected m c) →
      (∀ e, all.find? (fun t => t.kind == .error) = some e → sends e) ∧
      ((∀ t ∈ all, t.kind ≠ .error) → (∃ t ∈ all, t.kind = .null) → sends Token.null) ∧
      (∀ t r, ops = t :: r → t.kind = .stop → (∀ u ∈ r, u.kind = .stop ∧ u.level = t.level) → plain → sends t) ∧
      (∀ t r, ops = t :: r → t.kind = .done → (∀ u ∈ r, u.kind = .done) → plain → sends t) ∧
      ((∀ t ∈ all, t.kind = .stop ∨ t.kind = .done ∨ t.kind = .data ∧ t.vld 0 = true) →
        ¬ (∀ t ∈ all, t.kind = .data) → ¬ (plain ∧ ∀ t ∈ ops, t.kind = .done) →
        ¬ (plain ∧ ∃ l, ∀ t ∈ ops, t.kind = .stop ∧ t.level = l) → sends (errTok .grammar 0))) ∧
    (∀ q, m ≠ .always → c.fr.p = some q → (∀ t ∈ ops, t.kind ≠ .error) →
      (q.kind = .error → sends q) ∧ (q.kind = .stop ∨ q.kind = .done → sends (errTok .grammar 0)))

/-- Sinks: an error at a traps with its code's cause and its value as the faulting address, and a stop or done that
would pass traps (R89); a second firing of an exit, a WRITE or a store traps (R90); one that is not selected counts as
produced and changes nothing (R87). -/
def Obligations.SinkRules : Prop :=
  ∀ (s : State) (c : Fx) (p : Pred) (n : BitVec 4) (off : BitVec 16) (lit : BitVec 32) (cr : BitVec 12) (i : Instr) (t : Token),
    let same (o : Option Token) : Prop := ∀ u, o = some u → u.kind = t.kind ∧ u.level = t.level
    Fires s c →
    (i ∈ [Instr.write p n, .br p, .ret p, .call p lit, .stb p off, .sth p off, .stw p off, .std p off, .stv p off,
        .swr p, .swrv p] →
      (c.fr.mode ≠ .again → c.x.once.contains c.idx = true → Traps i s c .malformedStream 0) ∧
      (First c → Unselected p c → c.x.held = [] → c.x.reqs = [] → Does i s (marked s.dev c)) ∧
      (First c → Selected p c → c.fr.a = some t → t.kind = .error →
        Does i s ((marked s.dev c).trapAt c (causeOfErr t.err) t.val)) ∧
      (First c → Selected p c → c.fr.a = some t → same c.fr.b → NoScale c → t.kind = .stop ∨ t.kind = .done →
        Does i s ((marked s.dev c).trapAt c .malformedStream 0))) ∧
    (i ∈ [Instr.spub p, .srel p, .srew p, .sleave p, .copy p, .copy2d p, .xfer p, .task p, .waitc p, .wsseal p, .wsopen p,
        .bar p, .crwr p cr, .qpost p, .xlinv p, .cfginv p] →
      (Selected p c → c.fr.a = some t → t.kind = .error → Traps i s c (causeOfErr t.err) t.val) ∧
      (Selected p c → c.fr.a = some t → same c.fr.b → NoScale c → t.kind = .stop ∨ t.kind = .done →
        Traps i s c .malformedStream 0))

/-- Sending: a token with its instance's tag arrives at the slot that its target names; a null at a slot of several
producers is discarded; a token that meets another producer's traps MALFORMED_STREAM at the slot's instruction; and a
token that finds its edge full is held by its producer (R47, R84, R85, R338). -/
def Obligations.SendingRules : Prop :=
  ∀ (d : Dev) (c : Fx) (t : Target) (k : Token) (ins : Instr),
    d.inst c.i = some c.x → c.x.held = [] → d.region c.x.reg = some c.r → c.r.image.instr c.idx = some ins →
    let sc := c.r.image.scaleAt ins t
    let tok : Token := { k with tag := c.x.tag }
    let e := d.send c [some t] k
    (∀ w, (k.kind ≠ .null ∨ c.r.image.feeders t sc < 2) → c.x.taken c.idx t sc = false → d.wayOn c.x c.r c.idx t sc = some w →
      ∃ late, e.inst c.i = some { c.x with chans := pushChan c.idx t sc tok late w c.x.chans }) ∧
    (k.kind = .null → 2 ≤ c.r.image.feeders t sc → e.inst c.i = some c.x) ∧
    ((k.kind ≠ .null ∨ c.r.image.feeders t sc < 2) → c.x.taken c.idx t sc = true →
      e.inst c.i = none ∧ ∀ th, d.thread c.x.tid = some th → ∃ u f, e.thread c.x.tid = some u ∧ u.st = .trapped ∧
        u.trap = some f ∧ f.cause = .malformedStream ∧ f.index = t.idx.toNat) ∧
    ((k.kind ≠ .null ∨ c.r.image.feeders t sc < 2) → c.x.taken c.idx t sc = false → d.room c.x c.r c.idx t sc = false →
      e.inst c.i = some { c.x with held := [(c.idx, t, sc, tok)] })

/-- The frame of the scalar, vector, dot-product and dataflow-control rows: nothing of the root of trust changes, and no byte of
memory but the sector counts that a trap gives back; and, unless the instance traps, nothing but its own instance's
tokens, kept values and raised flags, and the prefetch counts: no byte, no register, no status, no special register,
no other instance. -/
def Obligations.FiringFrame : Prop :=
  ∀ (i : Instr) (s t : State) (c : Fx), (arith i || flow i) = true → Fires s c → MemOk s → exec i s = .next t →
    t.rot = s.rot ∧ (∀ a, ¬ Counted s.dev a → t.dev.byte a = s.dev.byte a) ∧
    (∀ y, t.dev.inst c.i = some y →
      SameButInsts s.dev t.dev ∧ (∀ j, j ≠ c.i → t.dev.inst j = s.dev.inst j) ∧
      y = { c.x with chans := y.chans, held := y.held, ops := y.ops, raised := y.raised })

/-- The frame of loads, stores and atomics at their firing, on an access that passes its checks, while no page migrates:
every byte of memory but the one that holds the leaf entry's A and D bits, and the sector counts of reservations, reads
as before, since a store's bytes wait for the commit; no register, status or control register changes. -/
def Obligations.AccessFrame : Prop :=
  ∀ (i : Instr) (s t : State) (c : Fx) (p : Pred) (off : BitVec 16) (sz : ASize) (ord : MOrder) (sc : Scope)
    (t1 t2 t3 : Tgt) (a : Word) (n : Nat) (u : Use) (d : Dev) (pa : Nat) (l : Leaf),
    let va : Word := a + off.signExtend 64
    let w := match sz with | .w => 4 | .d => 8
    Fires s c → Selected p c → Scalar c.fr.a a → s.dev.migs = [] → MemOk s →
    (i, n, u) ∈ [(Instr.ldb p off t1 t2 t3, 1, Use.scalarLoad), (.ldbu p off t1 t2 t3, 1, .scalarLoad),
      (.ldh p off t1 t2 t3, 2, .scalarLoad), (.ldhu p off t1 t2 t3, 2, .scalarLoad), (.ldw p off t1 t2 t3, 4, .scalarLoad),
      (.ldwu p off t1 t2 t3, 4, .scalarLoad), (.ldd p off t1 t2 t3, 8, .scalarLoad), (.ldv p off t1 t2 t3, 64, .tokenLoad),
      (.stb p off, 1, .scalarStore), (.sth p off, 2, .scalarStore), (.stw p off, 4, .scalarStore), (.std p off, 8, .scalarStore),
      (.aadd p off sz ord sc t1 t2 t3, w, .atomic), (.axchg p off sz ord sc t1 t2 t3, w, .atomic)] →
    let d0 := match u with
      | .scalarLoad => s.dev
      | .tokenLoad => s.dev
      | _ => if c.fr.mode = .again then s.dev else marked s.dev c
    Passes d0 c.ctx va n n u d pa l → exec i s = .next t → (t.dev.inst c.i).isSome = true →
    t.rot = s.rot ∧ t.dev.parts = s.dev.parts ∧
      (∀ b, b ≠ l.entry + 6 → ¬ Counted s.dev b → t.dev.byte b = s.dev.byte b) ∧
      (∀ tid x, s.dev.thread tid = some x → ∃ y, t.dev.thread tid = some y ∧
        y.g = x.g ∧ y.v = x.v ∧ y.k = x.k ∧ y.flags = x.flags ∧ y.pc = x.pc)

/-! ### Traps and system instructions (R384..R400) -/

/-- A trap (R11, R42, R43, R384..R388): the instance is gone with all it held, no byte changes but the sector counts
of what it had reserved, and its thread waits TRAPPED with its registers, FLAGS and pc unchanged, and with the cause,
index, address and captured set. TRAP and an invasive DBGBRK raise BREAK with their code; an observed DBGBRK leaves an
event for the commit, and off nothing: that DBGBRK acts by the debug state at its firing is the model's reading (log 48). -/
def Obligations.TrapEntry : Prop :=
  ∀ (s : State) (c : Fx) (p : Pred) (code : BitVec 16) (cause : Cause) (a : Word),
    let caught (d : Dev) (cause : Cause) (a : Word) (code : BitVec 16) (kind : BitVec 2) : Prop :=
      d.inst c.i = none ∧ (MemOk s → ∀ b, ¬ Counted s.dev b → d.byte b = s.dev.byte b) ∧
        (∀ h ∈ d.holds, h.inst ≠ c.i) ∧ (∀ r ∈ d.recs, r.inst ≠ some c.i) ∧
        d.thread c.x.tid = some { c.t with
          st := .trapped
          seq := c.t.seq + 1
          trapOrd := s.dev.nextOrd
          trap := some {
            cause := cause, index := c.idx, faddr := a, raddr := a, code := code, kind := kind, rpc := c.r.blk,
            gmask := c.r.image.hdr.extractLsb' 20 16, vmask := c.r.image.hdr.extractLsb' 36 4,
            list := [BitVec.ofNat 8 c.idx], frame := none, stuck := false, other := none } }
    (Fires s c → caught (s.dev.trapAt c cause a) cause a 0 0) ∧
    (Takes0 p s c → ∃ d, Does (.trap p code) s d ∧ caught d .brk 0 code 1) ∧
    (Takes0 p s c → s.rot.dbgOf c.t.part = .off → Does (.dbgbrk p code) s s.dev) ∧
    (Takes0 p s c → s.rot.dbgOf c.t.part = .observe → Does (.dbgbrk p code) s (s.dev.buffer c (.dbg code))) ∧
    (Takes0 p s c → s.rot.dbgOf c.t.part = .invasive → ∃ d, Does (.dbgbrk p code) s d ∧ caught d .brk 0 code 2)

/-- Taking an exception (R385, R386): with THCTL.EN = 0 the thread stays trapped and its record is sent; else the frame
found is written, and one handler thread is launched at TVEC in TRCB and THCTL.ASID with the frame's address in k2; in a
suspended function its launch waits (R402), and a TRCB that R53 refuses starts nothing. The
fields of a frame lie where R386 puts them. A new thread starts as its launch gives it (R38). -/
def Obligations.ExceptionTaken : Prop :=
  (∀ (s : State) (tid : Nat) (t : Thread) (i : TrapInfo), s.dev.thread tid = some t → t.trap = some i →
    s.dev.nextTrap t.part = some tid →
    let r := s.dev.part t.part
    let asid := r.thctl.toNat % 4096
    (r.thctl.getLsbD 12 = false → Occurs (.trapCapture tid) s
        ((s.dev.trapRecord t i).modThread tid fun t => { t with trap := some { i with stuck := true } })) ∧
    (∀ e va pa l, r.thctl.getLsbD 12 = true → s.dev.findFrame t.part asid r.frameBase r.frames 0 = (e, .found va pa l) →
      let a := e.agentMust ⟨.agent, pa, 512, true, false, va⟩
      let w := (a.putLeaf pa (bytesOfNat 512 (frameNum t tid i (a.effFdom t.rcb))) l t.part).wake
      let d := (w.trapRecord t i).modThread tid fun t => { t with trap := some { i with frame := some va } }
      (∀ x, d.thread tid = some x → x.trap = some { i with frame := some va }) ∧
        let q : DevLaunch := {
          die := t.die, rcb := r.trcb.toNat, asid := asid, part := t.part, entry := r.tvec, n := 1, arg := va, comp := 0,
          obj := false, node := none, parent := some tid, who := some (d.partyOf tid t), forkAt := d.commits
          tcause := BitVec.ofNat 16 i.cause.num }
        let then_ (e : Dev) : Prop := Occurs (.trapCapture tid) s e
        ((d.func t.part).susp = true → then_ { d with devq := d.devq ++ [q] }) ∧
        ((d.func t.part).susp = false → (d.rcbOk q.rcb = true → then_ (d.createThreads q)) ∧
          (d.rcbOk q.rcb = false → then_ (d.launchRecord q .queue 6))))) ∧
  (∀ (t : Thread) (tid fdom : Nat) (i : TrapInfo), tid < 2 ^ 64 → i.index < 128 → t.part < 64 → t.asid < 4096 → fdom < 65536 →
    let f := frameNum t tid i fdom
    (∀ n (h : n < 16), nfld f (64 * n + 63) (64 * n) = if i.gmask.getLsbD n then (t.g.get ⟨n, h⟩).toNat else 0) ∧
    (∀ n (h : n < 4), nfld f (1024 + 512 * n + 511) (1024 + 512 * n) =
      if i.vmask.getLsbD n then (t.v.get ⟨n, h⟩).payload.toNat else 0) ∧
    nfld f 3391 3328 = i.rpc.toNat ∧ nfld f 3455 3392 = i.faddr.toNat ∧ nfld f 3519 3456 = tid ∧
    nfld f 3599 3584 = i.cause.num ∧ nfld f 3606 3600 = i.index ∧ nfld f 3623 3608 = i.gmask.toNat ∧
    nfld f 3627 3624 = i.vmask.toNat ∧ nfld f 3629 3628 = 0 ∧ nfld f 3631 3630 = i.kind.toNat ∧
    nfld f 3647 3632 = i.code.toNat ∧ nfld f 3653 3648 = t.part ∧ nfld f 3665 3654 = t.asid ∧ nfld f 3681 3666 = fdom ∧
    nfld f 3683 3682 = 1 ∧ nfld f 4095 3684 = 0) ∧
  (∀ (d : Dev) (q : DevLaunch), q.n = 1 → d.thread d.nextTid = none →
    ∃ h, (d.createThreads q).thread d.nextTid = some h ∧ h.pc = q.entry ∧ h.asid = q.asid ∧ h.part = q.part ∧
      h.rcb = q.rcb ∧ h.die = q.die ∧ h.tcause = q.tcause ∧ h.flags = 0 ∧ h.g = Vector.replicate 16 0 ∧
      h.k.get 0 = 0 ∧ h.k.get 1 = 1 ∧ h.k.get 2 = q.arg ∧ h.k.get 3 = BitVec.ofNat 64 q.part)

/-- TRET (R390): the frame is read and checked as it fires, its STATE is cleared by a buffered store, and at the commit
its thread resumes at RPC with the registers that the masks name, or retires with its launch's object updated (R191). That STATE
is cleared by a buffered store of byte 460 is the model's choice (log 32). -/
def Obligations.ReturnFromTrap : Prop :=
  (∀ (s : State) (c : Fx) (p : Pred) (f : Word), Takes1 p s c f → First c → c.x.exit = none →
    let d := marked s.dev c
    (frameOf c.x.cr.tframe f = false → Does (.tret p) s (d.trapAt c .protection f)) ∧
    (∀ d1 e, frameOf c.x.cr.tframe f = true → d.loadAt c f 512 1 .tokenLoad = .err d1 e →
      Does (.tret p) s (d1.trapAt c e.cause (d1.failLine c.ctx e f 512))) ∧
    (∀ d1 pa l, frameOf c.x.cr.tframe f = true → d.loadAt c f 512 1 .tokenLoad = .ok d1 pa l →
      let r := d1.loadBytes c.i pa 512
      let v := natOfBytes r.2
      let rpc := BitVec.ofNat 64 (nfld v 3391 3328)
      let bad : Prop := nfld v 3683 3682 ≠ 1 ∨ 2 ≤ nfld v 3629 3628 ∨ nfld v 4095 3684 ≠ 0 ∨ v.testBit 3607 = true ∨
        ∃ n < 4, nfld v (3072 + 64 * n + 63) (3072 + 64 * n + 40) ≠ 0
      (bad → Does (.tret p) s (r.1.trapAt c .protection f)) ∧
      (¬ bad → nfld v 3629 3628 = 0 → rpc.toNat % 16 ≠ 0 → Does (.tret p) s (r.1.trapAt c .align rpc)) ∧
      (¬ bad → nfld v 3629 3628 = 0 → rpc.toNat % 16 = 0 → canonical rpc = false →
        Does (.tret p) s (r.1.trapAt c .pageFault rpc)) ∧
      (∀ d2 pa2 l2, ¬ bad → (nfld v 3629 3628 = 0 → rpc.toNat % 16 = 0 ∧ canonical rpc = true) →
        r.1.storeAt c (f + 460) [BitVec.ofNat 8 (nfld v 3681 3680)] 1 .tokenStore = .ok d2 pa2 l2 →
        Does (.tret p) s (d2.modInst c.i fun x =>
          { x with marks := { x.marks with halt := true }, exit := some (.tret f pa) })))) ∧
  (∀ (d : Dev) (f : Nat) (t : Thread), d.thread (nfld f 3519 3456) = some t →
    (t.st ≠ .trapped → d.returnTo f = d) ∧
    (t.st = .trapped → nfld f 3629 3628 = 0 →
      ∃ u, (d.returnTo f).thread (nfld f 3519 3456) = some u ∧ u.pc = BitVec.ofNat 64 (nfld f 3391 3328) ∧
        u.k = t.k ∧ u.flags = t.flags ∧
        (∀ n (h : n < 16), u.g.get ⟨n, h⟩ =
          if f.testBit (3608 + n) then BitVec.ofNat 64 (nfld f (64 * n + 63) (64 * n)) else t.g.get ⟨n, h⟩) ∧
        ∀ n (h : n < 4), u.v.get ⟨n, h⟩ =
          if f.testBit (3624 + n) then tokenOfSide (BitVec.ofNat 512 (nfld f (1024 + 512 * n + 511) (1024 + 512 * n)))
            (BitVec.ofNat 64 (nfld f (3072 + 64 * n + 63) (3072 + 64 * n)))
          else t.v.get ⟨n, h⟩) ∧
    -- ACT = 1: the thread retires, and its launch's object takes bytes 0 and the frame's cause
    (∀ l u e, t.st = .trapped → nfld f 3629 3628 ≠ 0 → tget t.launch d.launches = some l → l.node = none → l.obj = true →
      let r := (d.modThread (nfld f 3519 3456) fun t => { t with st := .retired, trap := none }).flushStreams (nfld f 3519 3456)
      r.thread (nfld f 3519 3456) = some u → tget u.launch r.launches = some l →
      r.compAt l.asid l.part l.comp 0 (nfld f 3599 3584) (some (r.partyOf (nfld f 3519 3456) u)) = some e →
      d.returnTo f = e.freeThread (nfld f 3519 3456)) ∧
    (∀ l, t.st = .trapped → nfld f 3629 3628 ≠ 0 → tget t.launch d.launches = some l → l.node = none → l.obj = false →
      (d.returnTo f).thread (nfld f 3519 3456) = none)) ∧
  (∀ (d : Dev) (f : Nat), d.thread (nfld f 3519 3456) = none → d.returnTo f = d) ∧
  -- what R191 makes of an object: PEND, STATUS and VALUE
  (∀ v bytes cause : Nat, cause < 2 ^ 16 → bytes < 2 ^ 64 →
    let w := compNext v bytes cause
    nfld w 39 0 = nfld v 39 0 - 1 ∧ nfld w 63 48 = (if nfld v 63 48 = 0 then cause else nfld v 63 48) ∧
      nfld w 127 64 = (nfld v 127 64 + bytes) % 2 ^ 64) ∧
  -- the commit: the handler retires, and the thread that the frame names goes on at RPC
  (∀ (s : State) (i tid pa : Nat) (a : Word) (c : Done) (t : Thread), s.dev.balk = false → s.dev.doneOf i = some c →
    c.x.atPoint = true ∨ s.dev.commitable i c.x c.r c.t = true → s.dev.commitsAfter c = false →
    c.x.exit = some (.tret a pa) → (∀ p ∈ s.dev.regions, p.2.phase = .open_) → (s.dev.threads.map (·.1)).Nodup →
    (∀ e ∈ c.x.effs, ∃ cells cls side, e.2 = .store cells cls side ∧ ∀ x ∈ cells, isWindow x.1 = false) →
    let f := natOfBytes (s.dev.loadBytes i pa 512).2
    nfld f 3519 3456 = tid → tid ≠ c.tid → s.dev.thread tid = some t → t.st = .trapped → nfld f 3629 3628 = 0 →
    ∃ u v w, exec (.instanceCommit i false) s = .next u ∧ u.dev.thread c.tid = some v ∧ v.st = .retired ∧
      u.dev.thread tid = some w ∧ w.pc = BitVec.ofNat 64 (nfld f 3391 3328) ∧ (w.st = .queued ∨ w.st = .trapped))

/-- CRRD reads the register as it stood at admission, but CYCLE and WSREF as they are, and TSTATUS shows the thread (R200, R394); a module or die register reads 0 outside
partition 0 (R392, R393). XLINV and CFGINV check their commands; XLINV removes translations as it fires, and CFGINV waits
for the commit (R396..R399). A partition's register written at commit keeps its reserved bits zero. -/
def Obligations.SystemResults : Prop :=
  ∀ (s : State) (c : Fx) (p : Pred) (t1 t2 t3 : Tgt) (a v : Word) (d : Dev) (pa : Nat) (l : Leaf),
    let reads (n : BitVec 12) (v : Word) : Prop := Sends (.crrd p n t1 t2 t3) s c [t1, t2, t3] (scalarTok v)
    let r := d.loadBytes c.i pa
    (Takes0 p s c →
      (∃ w : Word, reads 0x000 w ∧ nfld w.toNat 2 0 = c.t.die % 8 ∧ w.getLsbD 3 = c.x.cr.sys ∧ nfld w.toNat 6 4 = c.x.cr.prio % 8 ∧
        nfld w.toNat 8 7 = c.x.cr.dclass % 4 ∧ nfld w.toNat 11 9 = c.x.cr.ten.toNat ∧ nfld w.toNat 27 12 = c.x.cr.fdom % 65536 ∧
        nfld w.toNat 39 28 = c.t.asid % 4096 ∧ nfld w.toNat 45 40 = c.t.part % 64 ∧ nfld w.toNat 63 46 = 0) ∧
      reads 0x001 (c.t.tcause.zeroExtend 64) ∧ reads 0x002 (c.x.cr.flags.zeroExtend 64) ∧ reads 0x003 c.x.cr.pfcnt ∧
      reads 0x005 (BitVec.ofNat 64 s.dev.cycle) ∧ reads 0x040 c.x.cr.rseed ∧ reads 0x041 c.x.cr.tvec ∧
      reads 0x042 c.x.cr.trcb ∧ reads 0x043 c.x.cr.thctl ∧ reads 0x044 c.x.cr.tframe ∧ reads 0x045 c.x.cr.fqtb ∧
      reads 0x0C0 (BitVec.ofNat 64 (c.x.cr.dbg.toNat + 16 * c.x.cr.sec.toNat)) ∧
      (c.t.part = 0 → reads 0x080 c.x.cr.asidtb ∧ reads 0x081 c.x.cr.kvbtb ∧ reads 0x082 c.x.cr.kvbtn ∧
        reads 0x083 c.x.cr.migs ∧
        reads 0x004 (let x := s.dev.die c.t.die
          BitVec.ofNat 64 ((x.nextWin - s.dev.cycle) % 2 ^ 32 * 2 ^ 32 + x.winLen % 2 ^ 32))) ∧
      (c.t.part ≠ 0 → reads 0x004 0 ∧ reads 0x080 0 ∧ reads 0x081 0 ∧ reads 0x082 0 ∧ reads 0x083 0)) ∧
    (Takes1 p s c a → a.toNat % 16 ≠ 0 → Traps (.xlinv p) s c .align a) ∧
    (Takes1 p s c a → a.toNat % 32 ≠ 0 → Traps (.cfginv p) s c .align a) ∧
    (Takes1 p s c a → a.toNat % 16 = 0 → s.dev.loadAt c a 16 1 .tokenLoad = .ok d pa l →
      let w := natOfBytes (r 16).2
      let va := BitVec.ofNat 64 (nfld w 63 0)
      let as := if w.testBit 108 then none else some (nfld w 107 96)
      let range := if nfld w 95 64 = 0 then none else some (va.toNat, va.toNat + 4096 * nfld w 95 64)
      let ok : Prop := nfld w 127 109 = 0 ∧ (w.testBit 108 = true ∨ (r 16).1.asidIn c.t.part (nfld w 107 96) = true) ∧
        va.toNat % 4096 = 0 ∧ canonical va = true
      (ok → Does (.xlinv p) s (((((r 16).1.modInst c.i fun x =>
        { x with marks := { x.marks with acq := true, rel := true, own := true, scope := .sys } }).buffer c
          (.xlinv as range)).invalidate c.t.part as range))) ∧
      (¬ ok → Does (.xlinv p) s ((r 16).1.trapAt c .protection a))) ∧
    (Takes1 p s c a → a.toNat % 32 = 0 → s.dev.loadAt c a 32 1 .tokenLoad = .ok d pa l →
      let w := natOfBytes (r 32).2
      let comp := BitVec.ofNat 64 (nfld w 255 192)
      let ok : Prop := nfld w 191 141 = 0 ∧ (w.testBit 140 = true ∨ (r 32).1.asidIn c.t.part (nfld w 139 128) = true) ∧
        comp.toNat % 16 = 0 ∧ nfld w 63 0 % 16 = 0
      (ok → Does (.cfginv p) s ((r 32).1.buffer c
        (.cfginv (w.testBit 140) (nfld w 139 128) (nfld w 63 0) (nfld w 127 64) comp))) ∧
      (¬ ok → Does (.cfginv p) s ((r 32).1.trapAt c .protection a))) ∧
    (let q (n : Nat) : Part := (s.dev.crWrite c.t n v).part c.t.part
     (q 0x040).rseed = v ∧ (q 0x041).tvec = v &&& ~~~0xF#64 ∧ (q 0x042).trcb = v &&& ~~~0x7F#64 ∧
       (q 0x043).thctl = v &&& 0x1FFF#64 ∧ (q 0x044).tframe = v &&& ~~~0x1F0#64 ∧ (q 0x045).fqtb = v &&& ~~~7#64 ∧
       (s.dev.crWrite c.t 0x080 v).asidtb = v ∧ (s.dev.crWrite c.t 0x083 v).migsettle = v.toNat ∧
       ((s.dev.crWrite c.t 0x081 v).die c.t.die).kvbtb = v &&& 0x000FFFFFFFFFFFC0#64 ∧
       ((s.dev.crWrite c.t 0x082 v).die c.t.die).kvbtn = v ∧
       ∀ m, m ≠ c.t.part → (s.dev.crWrite c.t 0x041 v).part m = s.dev.part m)

/-! ### Instances, contexts, waits and replies (R37, R39..R43, R47, R48, R91, R137, R183, R187, R208, R209) -/

/-- The life of an instance. An open region admits the thread at the front of its queue, with the registers and control
registers as they stand, or traps it for a pending MEMORY_MODEL mark (R47, R210, R392). A complete instance stays at its
commit point, or commits, after those of its region that reached theirs before: its buffered writes, its atomics' words and
its special registers are written in index order, its stream effects take R144's steps, its posts, launches and forks are made
with PEND of their objects raised, and its exit decides where its thread goes on; no other register and no other byte changes
(R39..R41, R144, R159, R162, R172, R187, R192, R269, R391..R393). A stalled instance traps DEADLOCK (R91). That SPREL's and
PFCNT's writes take effect with the other control registers, and UNU then counts this instance's unused replies, follows the
order in which the model makes the parts of a commit. -/
def Obligations.InstanceLife : Prop :=
  ∀ (s : State), s.dev.balk = false →
    (∀ reg tid slot r t, s.dev.region reg = some r → r.phase = .open_ → s.dev.nextFor r = some (tid, t) →
      s.dev.instSlot reg = some slot →
      (∀ a o, t.mark = some (a, o) →
        Does (.instanceAdmission reg tid) s
          ((s.dev.modThread tid fun t => { t with mark := none }).trapThread tid
            { faultInfo .memoryModel 0 a r.blk r.image.hdr with other := some (o, true) })) ∧
      (t.mark = none → s.dev.inst s.dev.nextInst = none →
        ∃ d x, Does (.instanceAdmission reg tid) s d ∧ d.inst s.dev.nextInst = some x ∧ x.reg = reg ∧ x.slot = slot ∧
          x.tag = r.gens[slot]?.getD 0 ++ BitVec.ofNat 5 slot ∧ x.tid = tid ∧ x.g = t.g ∧ x.v = t.v ∧ x.k = t.k ∧
          x.cr = s.snap t ∧ x.at_ = s.dev.cycle ∧ x.chans = [] ∧ x.effs = [] ∧ x.once = [] ∧ x.exit = none ∧
          x.start = r.image.starters ∧ d.mem = s.dev.mem ∧ (∀ j x, s.dev.inst j = some x → d.inst j = some x) ∧
          (∀ u, s.dev.thread tid = some u → d.thread tid = some { u with st := .running, before := u.since }) ∧
          ∀ k, k ≠ tid → d.thread k = s.dev.thread k)) ∧
    (∀ i c, s.dev.doneOf i = some c → c.x.atPoint = false → s.dev.commitable i c.x c.r c.t = true →
      Does (.instanceCommit i true) s { s.dev.modInst i (fun x => { x with atPoint := true, ptOrd := s.dev.nextOrd }) with
        nextOrd := s.dev.nextOrd + 1 }) ∧
    (∀ i c, s.dev.doneOf i = some c → c.x.atPoint = true ∨ s.dev.commitable i c.x c.r c.t = true →
      s.dev.commitsAfter c = false → MemOk s → c.x.resv = [] → s.dev.migs = [] → (∀ p ∈ s.dev.regions, p.2.phase = .open_) →
      (s.dev.threads.map (·.1)).Nodup → (∀ a pa, c.x.exit ≠ some (.tret a pa)) →
      let commits (Q : Dev → Prop) : Prop :=
        ∃ t, exec (.instanceCommit i false) s = .next t ∧ t.rot = s.rot ∧ t.dev.inst i = none ∧ Q t.dev
      let last (cells : List (Nat × Byte)) (a : Nat) : Byte := ((cells.reverse.find? fun x => x.1 == a).map (·.2)).getD (s.dev.byte a)
      -- whatever else than registers the instance has done, if it is the one effect `e`
      let only (e : Eff) : Prop :=
        ∃ k, (c.x.effs.filter fun x => match x.2 with | .gw .. => false | .vw .. => false | _ => true) = [(k, e)]
      -- registers, FLAGS, memory, special registers and the exit
      ((∀ e ∈ c.x.effs, match e.2 with
        | .gw .. => True | .vw .. => True | .crwr .. => True
        | .atomic _ _ _ side => side = none
        | .store cells _ side => side = none ∧ ∀ x ∈ cells, isWindow x.1 = false
        | _ => False) →
        let cells := ((s.dev.holds.filter fun h => h.inst == i).flatMap fun h => cellsAt h.pa (bytesOfNat h.size h.cur.toNat)) ++
          c.x.sorted.flatMap fun e => match e.2 with | .store cells _ _ => cells | _ => []
        let wr (n : Nat) : Option Word :=
          (c.x.sorted.filterMap fun e => match e.2 with | .crwr m v => if m = n then some v else none | _ => none).getLast?
        let reg (n : Nat) (old : Word) : Word := ((wr n).map fun v => v &&& crMask n).getD old
        let q := s.dev.part c.t.part
        commits fun d =>
          (∀ a, (∀ x ∈ cells, memRow x.1 = some .host) ∨ ¬ Counted s.dev a → d.byte a = last cells a) ∧
          (∃ u, d.thread c.tid = some u ∧ u.k = c.t.k ∧ u.flags = flagsAfter c.x.cr.flags (wr 2) c.x.raised ∧
            (∀ n (h : n < 16), u.g.get ⟨n, h⟩ = ((c.x.sorted.filterMap fun e => match e.2 with
              | .gw m v => if m = n then some v else none | _ => none).getLast?).getD (c.t.g.get ⟨n, h⟩)) ∧
            (∀ n (h : n < 4), u.v.get ⟨n, h⟩ = ((c.x.sorted.filterMap fun e => match e.2 with
              | .vw m v => if m = n then some v else none | _ => none).getLast?).getD (c.t.v.get ⟨n, h⟩)) ∧
            (c.x.exit = some .halt → u.st = .retired) ∧
            (∀ a y, c.x.exit = some (.goto a y) → u.pc = a ∧ (u.st = .queued ∨ u.st = .trapped))) ∧
          d.part c.t.part = { q with
            rseed := reg 0x040 q.rseed, tvec := reg 0x041 q.tvec, trcb := reg 0x042 q.trcb, thctl := reg 0x043 q.thctl,
            tframe := reg 0x044 q.tframe, fqtb := reg 0x045 q.fqtb } ∧
          d.asidtb = reg 0x080 s.dev.asidtb ∧ (d.die c.t.die).kvbtb = reg 0x081 (s.dev.die c.t.die).kvbtb ∧
          (d.die c.t.die).kvbtn = reg 0x082 (s.dev.die c.t.die).kvbtn ∧
          d.migsettle = ((wr 0x083).map (·.toNat)).getD s.dev.migsettle ∧
          ((wr 0x003).isSome = true →
            let u := d.rcbUse c.t.rcb
            u.iss = 0 ∧ u.use = 0 ∧ u.late = 0 ∧ u.unu = s.dev.unused c.x) ∧
          -- SPREL releases the threads that wait in SPACE and that its value selects, and no other
          (∀ v k u, wr 0x046 = some v → k ≠ c.tid → s.dev.thread k = some u → u.st = .space →
            let sel : Prop := u.part = c.t.part ∧
              (v.getLsbD 63 = true ∨ u.asid = v.toNat % 4096 ∧ s.dev.asidIn c.t.part (v.toNat % 4096) = true)
            (sel → ∃ w, d.thread k = some w ∧ (w.st = .queued ∨ w.st = .trapped)) ∧ (¬ sel → d.thread k = some u))) ∧
      -- the effects on one stream, in R144's order, and the bytes written at positions that TAIL has not passed
      (∀ ds st, tget ds s.dev.streams = some st → (∀ h ∈ s.dev.holds, h.inst ≠ i) →
        (∀ e ∈ c.x.effs, match e.2 with | .gw .. => True | .vw .. => True | e => e.streamOf = some ds) →
        let es := (c.x.sorted.filter fun e => e.2.streamOf == some ds).map (·.2)
        es ≠ [] →
        let cells := s.dev.streamCells ds
          (es.flatMap fun e => match e with | .swr _ _ cs => cs.filter fun x => st.tail ≤ x.1 | _ => [])
        commits fun d => (∀ k, k ≠ ds → tget k d.streams = tget k s.dev.streams) ∧
          tget ds d.streams = some { st.applyAll es with
            dirty := true, users := if st.users.contains c.tid then st.users else c.tid :: st.users } ∧
          ∀ a, ¬ Counted s.dev a → d.byte a = last cells a) ∧
      -- posts, enqueues, launches and forks
      (∀ q v, only (.qpost q v) → (∀ h ∈ s.dev.holds, h.inst ≠ i) → commits fun d =>
        (s.dev.globalQ c.t.part q = none → d.queues = s.dev.queues) ∧
        ∀ g, s.dev.globalQ c.t.part q = some g →
          let x := s.dev.queue g
          let k := (v.toNat + (2 * 2 ^ x.log2n - x.t % (2 * 2 ^ x.log2n))) % (2 * 2 ^ x.log2n)
          d.queue g = { x with polled := 0, t := if x.en = true ∧ 1 ≤ k ∧ k ≤ 2 ^ x.log2n then (x.t + k) % 2 ^ 64 else x.t } ∧
            ∀ m, m ≠ g → d.queue m = s.dev.queue m) ∧
      (∀ rec pa, only (.task rec pa) → (∀ h ∈ s.dev.holds, h.inst ≠ i) → commits fun d =>
        ∃ who : Party, who.tid = c.tid ∧ who.asid = c.t.asid ∧ who.part = c.t.part ∧
          (d.die c.t.die).walk = (s.dev.die c.t.die).walk ++ [(who, rec, 0)]) ∧
      (∀ entry n arg comp pa, only (.spawn entry n arg comp pa) → Calm s.dev → commits fun d =>
        ∃ (q : DevLaunch) (X : Dev) (who : Party), d.devq = s.dev.devq ++ [q] ∧ q.entry = entry ∧ q.n = n ∧ q.arg = arg ∧ q.comp = comp ∧ q.obj = true ∧
          q.node = none ∧ q.parent = some c.tid ∧ q.die = c.t.die ∧ q.rcb = c.t.rcb ∧ q.asid = c.t.asid ∧ q.part = c.t.part ∧
          q.tcause = 0 ∧ X.mem = s.dev.mem ∧ d.mem = (X.compSet c.t.asid c.t.part comp n 0 0 (some who)).mem) ∧
      (∀ kind cmd dst comp pa sel, only (.engine kind cmd dst comp pa sel) → Calm s.dev → commits fun d =>
        ∃ (e : EngOp) (X : Dev), d.ops = s.dev.ops ++ [(s.dev.nextOp, e)] ∧ e.kind = kind ∧ e.cmd = cmd ∧ e.dst = dst ∧ e.comp = comp ∧
          e.sel = sel ∧ e.node = none ∧ e.start = none ∧ e.ended = false ∧ e.who.tid = c.tid ∧ e.who.asid = c.t.asid ∧
          e.who.part = c.t.part ∧ X.mem = s.dev.mem ∧ Calm X ∧ d.mem = (X.pendUp c comp pa).mem)) ∧
    (∀ (d : Dev) (c : Done) (va : Word) (pa : Nat), Calm d → d.migs = [] → memWf d.mem = true → (d.clsFor c va).2 = none →
      let e := d.pendUp c va pa
      e.num pa 5 = (d.num pa 5 + 1) % 2 ^ 40 ∧ ∀ a, a < pa ∨ pa + 5 ≤ a → e.byte a = d.byte a) ∧
    (∀ i c, s.dev.doneOf i = some c → s.dev.stalled c = true → (∀ p ∈ s.dev.regions, p.2.phase = .open_) →
      ∃ d u f, Does (.instanceStall i) s d ∧ (c.x.resv = [] → d.mem = s.dev.mem) ∧ d.inst i = none ∧ d.thread c.tid = some u ∧ u.st = .trapped ∧
        u.trap = some f ∧ f.cause = .deadlock ∧ f.rpc = c.r.blk ∧ u.g = c.t.g ∧ u.v = c.t.v ∧ u.flags = c.t.flags)

/-- Contexts are written out and read back, a halted thread is counted, a region's records end for the system, and
waits and replies end (R37, R48, R137, R147, R183, R187, R208, R209). -/
def Obligations.ContextsWaitsAndReplies : Prop :=
  ∀ (s : State), s.dev.balk = false →
    (∀ tid t, s.dev.thread tid = some t → t.writable = true →
      ∃ d u, Does (.contextWriteOut tid) s d ∧ d.thread tid = some u ∧ u = { t with slot := none, seq := t.seq + 1 } ∧
        ∀ r ∈ d.recs, r.inst = none → r.owner ≠ .region tid t.seq) ∧
    (∀ tid t n, s.dev.thread tid = some t → t.slot = none → t.st ≠ .retired → t.st ≠ .running →
      s.dev.slotBudget t.rcb 1 = true → s.dev.freeSlot t.die = some n →
      ∃ d, Does (.contextReadBack tid) s d ∧ d.thread tid = some { t with slot := some n }) ∧
    (∀ tid t, s.dev.thread tid = some t → t.st = .retired → Occurs (.retirementCount tid) s (s.dev.retire tid 0)) ∧
    (∀ tid t l d, s.dev.thread tid = some t → tget t.launch s.dev.launches = some l → l.node = none → l.obj = false →
      s.dev.retire tid 0 = d → d.balk = false → d.thread tid = none) ∧
    (∀ tid q, (∃ r ∈ s.dev.recs, r.owner = .region tid q ∧ r.ended.isSome = true) →
      ∃ d, Does (.systemEnd tid q) s d ∧ d.mem = s.dev.mem ∧
        ∀ r, r ∈ d.recs ↔ r ∈ s.dev.recs ∧ ¬ (r.owner = .region tid q ∧ r.ended.isSome = true)) ∧
    (∀ i idx x q, s.dev.inst i = some x → x.reqs = [q] → q.idx = idx → q.back = false →
      ∃ d0 : Dev, d0.inst i = some { x with reqs := [{ q with back := true }] } ∧
        d0 = { s.dev with insts := d0.insts, regions := d0.regions } ∧ Does (.memoryReply i idx) s (d0.flush i idx)) ∧
    (∀ i idx x f w, s.dev.inst i = some x → x.blocked = [(f, w)] → f.idx = idx →
      let freed (d : Dev) : Prop :=
        d.inst i = some { x with blocked := [], again := x.again ++ [f] } ∧ d.mem = s.dev.mem ∧ d.threads = s.dev.threads
      (w = .access → ∃ d, Does (.trackedAccessArrival i idx) s d ∧ freed d) ∧
      (w = .atomic → ∃ d, Does (.atomicArrival i idx) s d ∧ freed d) ∧
      (∀ ds p st, w = .hwm ds p → tget ds s.dev.streams = some st → p ≤ st.hwm →
        ∃ d, Does (.streamWaitEnd i idx) s d ∧ freed d) ∧
      (w = .entry → s.dev.entryFree i = true → ∃ d, Does (.streamWaitEnd i idx) s d ∧ freed d)) ∧
    (∀ ds st n pa rcb r, tget ds s.dev.streams = some st → tget ds s.dev.drip = some (n, (pa, rcb) :: r) → 0 < st.ovu →
      n < st.tail / st.fsize + st.nf →
      ∃ d, s.dev.extReturn ds = some d ∧ Does (.extensionFrameReturn ds) s d ∧ tget ds d.drip = (if r.isEmpty then none else some (n + 1, r)) ∧
        (∃ st', tget ds d.streams = some st' ∧ st'.ovu = st.ovu - 1) ∧
        -- the frame's bytes move to its ring frame, unless the tail has passed them
        (MemOk s → s.dev.migs = [] → ∀ a, (∀ x ∈ s.dev.rcbChain 9 rcb, a < x + 48 ∨ x + 80 ≤ a) →
          let dest := st.base + n % st.nf * st.fsize
          d.byte a = if st.tail / st.fsize ≤ n ∧ dest ≤ a ∧ a < dest + st.fsize then s.dev.byte (pa + (a - dest)) else s.dev.byte a))

/-! ### Queues, launches and functions (R48, R53, R54, R153..R168, R402) -/

/-- The host's queue and function registers: QCTL, QTAIL, FNQ, FNA and FNRUN (R157..R159, R168, R402). A write to a queue
beyond QCNT does nothing. Two clauses are the model's readings: a refused configuration changes nothing of the queue but ERR and
REASON, SEQ keeping its value (log 73), and FNRUN writes in P2 are recorded for the wake (log 15). -/
def Obligations.QueueRegisterWrites : Prop :=
  ∀ (s : State) (fn q : Nat) (v : Word), s.dev.balk = false →
    let d := s.dev
    (FnOpen s fn →
      -- beyond QCNT nothing happens
      (d.globalQ fn q = none →
        (v.getLsbD 0 = true → Does (.queueEnable fn q v) s d) ∧ (v.getLsbD 0 = false → Does (.queueDisable fn q v) s d) ∧
          Does (.queueErrClear fn q) s d ∧ Does (.qtailWrite fn q v) s d) ∧
      (∀ g, d.globalQ fn q = some g →
        let x := d.queue g
        let only (e : Dev) (y : Queue) : Prop := e = { d with queues := e.queues } ∧ e.queue g = y ∧ ∀ k, k ≠ g → e.queue k = d.queue k
        (v.getLsbD 0 = true → x.en = true →
          ∃ e, Does (.queueEnable fn q v) s e ∧ only e { x with err := x.err && !v.getLsbD 1 }) ∧
        (v.getLsbD 0 = true → x.en = false →
          let y := { x with err := x.err && !v.getLsbD 1, asid := nfld v.toNat 47 36, log2n := nfld v.toNat 24 20, prio := nfld v.toNat 18 16 }
          let ok : Prop := 4 ≤ y.log2n ∧ y.log2n ≤ 16 ∧ d.asidIn fn y.asid = true ∧ y.prio ≤ (d.func fn).maxprio ∧ canonical y.base = true
          (ok → ∃ e, Does (.queueEnable fn q v) s e ∧ only e { y with en := true, t := x.h, found := false, polled := 0, torn := [] }) ∧
          (¬ ok → ∃ e, Does (.queueEnable fn q v) s (e.msix fn 1) ∧ only e { x with err := true, reason := 0x0A })) ∧
        (v.getLsbD 0 = false → ∃ e y, Does (.queueDisable fn q v) s e ∧ only e y ∧ y.en = false ∧ y.h = x.h ∧ y.t = x.t ∧
          y.err = (x.err && !v.getLsbD 1) ∧ (x.en = true → y.asid = x.asid ∧ y.log2n = x.log2n ∧ y.prio = x.prio)) ∧
        (∃ e, Does (.queueErrClear fn q) s e ∧ only e { x with err := false }) ∧
        -- the tail advances by the distance of the value, where that is 1 to N
        (∃ e, Does (.qtailWrite fn q v) s e ∧
          let k := (v.toNat + (2 * 2 ^ x.log2n - x.t % (2 * 2 ^ x.log2n))) % (2 * 2 ^ x.log2n)
          only e { x with polled := 0, t := if x.en = true ∧ 1 ≤ k ∧ k ≤ 2 ^ x.log2n then (x.t + k) % 2 ^ 64 else x.t }))) ∧
    -- the division among functions changes only while the function is idle, and ranges stay apart
    (fn < 64 →
      let only (e : Dev) (f : Func) : Prop := e = { d with funcs := e.funcs } ∧ e.func fn = f ∧ ∀ k, k ≠ fn → e.func k = d.func k
      (let n := nfld v.toNat 45 32
       let b := nfld v.toNat 12 0
       let bad : Prop := d.fnBusy fn = true ∨ 8192 < b + n ∨ ∃ p ∈ d.funcs, p.1 ≠ fn ∧ rangesMeet p.2.qbas p.2.qcnt b n = true
       (bad → Does (.fnqWrite fn v) s d) ∧
       (¬ bad → ∃ e, Does (.fnqWrite fn v) s e ∧ only e { d.func fn with maxprio := nfld v.toNat 58 56, qcnt := n, qbas := b })) ∧
      (let n := nfld v.toNat 28 16
       let b := nfld v.toNat 11 0
       let bad : Prop := d.fnBusy fn = true ∨ 4096 < b + n ∨ ∃ p ∈ d.funcs, p.1 ≠ fn ∧ rangesMeet p.2.abas p.2.acnt b n = true
       (bad → Does (.fnaWrite fn v) s d) ∧
       (¬ bad → ∃ e, Does (.fnaWrite fn v) s e ∧ only e { d.func fn with acnt := n, abas := b })) ∧
      (s.rot.holdsAll = false →
        Occurs (.functionSuspend fn) s (d.suspend fn) ∧
        ((d.suspend fn).func fn).susp = true ∧
        ∃ e, Does (.functionResume fn) s e ∧ only e { d.func fn with susp := false }) ∧
      -- in P2 every function is held already: the write says whether it resumes with the wake (R417, R418)
      (s.rot.holdsAll = true →
        (∃ r, exec (.functionSuspend fn) s = .next { s with rot := { s.rot with suspd := r } } ∧ fn ∉ r) ∧
        ∃ r, exec (.functionResume fn) s = .next { s with rot := { s.rot with suspd := r } } ∧ fn ∈ r))

/-- Serving the queues (R160..R166). A poll reads the stamp at the head, or stalls the queue; the queue that
arbitration names is consumed when no device-side launch waits, and only where the slot still holds the sequence; a launch
that fails a check starts nothing; and a teardown ends every thread selected, with cause CONTEXT_GONE in its launch's object or
node. That a teardown waits for instances at their commit point, and dooms, for reason 0x07, the entries whose stamp has been found
at the head of their queues and the launches that come in its cycle, is the model's reading (log 41). -/
def Obligations.QueueService : Prop :=
  (∀ (s : State) (g : Nat),
    let d := s.dev
    let x := d.queue g
    (d.balk = false → x.en = true → x.h < x.t → x.found = false → x.stall = false ∨ x.polled = 0 →
      (∀ d1 l, d.agentXlate x.asid (d.fnOfQ g) (x.slotVa x.h) .read 8 = (d1, .ok l) →
        ∃ e, Does (.stampPoll g) s e ∧ e.queue g = { d1.queue g with
          stall := false, polled := d1.cycle + 1, found := d1.num (l.at (x.slotVa x.h)) 8 == x.h }) ∧
      (∀ d1 er, d.agentXlate x.asid (d.fnOfQ g) (x.slotVa x.h) .read 8 = (d1, .error er) →
        let d2 := d1.modQueue g fun q => { q with stall := true, polled := d1.cycle + 1 }
        Occurs (.stampPoll g) s ((d2.queueErr g x.h 0x08).agentRecord (d.fnOfQ g) x.asid er.cause (x.slotVa x.h)) ∧
          ((d2.queueErr g x.h 0x08).queue g) = { d1.queue g with
            stall := true, polled := d1.cycle + 1, err := true, reason := 0x08, seq := x.h % 2 ^ 48 })) ∧
    ((∀ l ∈ d.devq, d.suspended l.part = true) → d.nextQueue = some g → Occurs (.queueConsume g) s (d.consume g)) ∧
    (d.nextQueue = some g → x.en = true ∧ x.h < x.t ∧ x.stall = false ∧ x.found = true ∧ d.suspended (d.fnOfQ g) = false ∧
      ∀ k ∈ d.queues.map (·.1), d.queueReady k = true → (d.queue k).prio ≤ x.prio)) ∧
  (∀ (d : Dev) (g : Nat) (d1 : Dev) (l : Leaf),
    let x := d.queue g
    d.agentXlate x.asid (d.fnOfQ g) (x.slotVa x.h) .read 64 = (d1, .ok l) →
    -- a slot whose stamp is another is not taken
    (d1.num (l.at (x.slotVa x.h)) 8 ≠ x.h →
      d.consume g = d1.modQueue g fun y => { y with found := false, polled := d1.cycle + 1, torn := [] }) ∧
    (d1.num (l.at (x.slotVa x.h)) 8 = x.h → x.mir = 0 →
      let d2 := d1.agentMust ⟨.agent, l.at (x.slotVa x.h), 64, false, false, x.slotVa x.h⟩
      let e := d2.num (l.at (x.slotVa x.h)) 64
      let ln := x.launch (d.fnOfQ g) e
      let d3 : Dev := { d2.modQueue g fun y => { y with h := (y.h + 1) % 2 ^ 64, found := false, last := d2.cycle + 1, polled := 0, torn := [] } with
        rr := d2.rr.setIfInBounds x.prio ((g + 1) % 8192) }
      let sound : Prop := nfld e 511 448 = 0 ∧ nfld e 383 324 = 0 ∧ 0 < ln.n ∧ ln.n ≤ 2 ^ 32 ∧
        d3.compOk x.asid (d.fnOfQ g) ln.comp = true ∧ ln.entry.toNat % 16 = 0 ∧ canonical ln.entry = true ∧ ln.die ≤ 8 ∧
        d3.rcbOk ln.rcb = true
      let torn : Prop := d3.tornDown ln = true ∨ ∃ y ∈ x.torn, y.covers ln.asid ln.part (d3.effFdom ln.rcb) = true
      (sound → ¬ torn → ln.comp ≠ 0 →
        d.consume g = (d3.compSet x.asid (d.fnOfQ g) ln.comp ln.n 0 0).createThreads
          { ln with die := (d3.compSet x.asid (d.fnOfQ g) ln.comp ln.n 0 0).pickDie ln.die }) ∧
      (sound → ¬ torn → ln.comp = 0 → d.consume g = d3.createThreads { ln with die := d3.pickDie ln.die }) ∧
      -- a teardown of the launch's context in the same cycle, or while the entry waited for its turn (R166)
      (sound → torn →
        d.consume g = (d3.queueErr g x.h 0x07).launchNothing ln .contextGone 0 true) ∧
      (∀ r, d3.entryReason ln e x.torn = some r → r ≠ 0x07 →
        let d4 := d3.queueErr g x.h r
        d.consume g = d4.launchNothing { ln with obj := ln.obj && d4.compOk x.asid (d.fnOfQ g) ln.comp } .queue r true ∧
        d4.queue g = { d3.queue g with err := true, reason := r, seq := x.h % 2 ^ 48 }) ∧
      (nfld e 511 448 ≠ 0 ∨ nfld e 383 324 ≠ 0 → d3.entryReason ln e x.torn = some 0x01))) ∧
  (∀ (s : State) (l : DevLaunch), s.dev.devq.find? (fun x => !s.dev.suspended x.part) = some l →
    let d : Dev := { s.dev with devq := s.dev.devq.erase l }
    (d.tornDown l = true → Occurs .deviceLaunchStart s (d.launchNothing l .contextGone 0 true)) ∧
    (d.tornDown l = false →
      (∀ x, d.devReason l = some x → Occurs .deviceLaunchStart s (d.launchNothing l .queue x (x == 0x06 || l.node.isNone))) ∧
      (d.devReason l = none → d.balk = false → Does .deviceLaunchStart s (d.createThreads { l with die := d.pickDie l.die }))) ∧
    (0 < l.n → l.n ≤ 2 ^ 32 → l.die ≤ 8 → d.rcbOk l.rcb = true → l.entry.toNat % 16 = 0 → canonical l.entry = true →
      d.devReason l = none) ∧
    (l.n = 0 ∨ 2 ^ 32 < l.n → d.devReason l = some 0x02)) ∧
  (∀ (s : State) (part fdom asid fn : Nat), (∀ p ∈ s.dev.insts, p.2.atPoint = false) → fn < 64 →
    let gone (i : Instr) (sel : Thread → Bool) (o : Option Dev) : Prop :=
      ∃ d, o = some d ∧ Occurs i s d ∧ (d.balk = false → (∀ p ∈ d.threads, sel p.2 = false) ∧
        ∀ p ∈ d.insts, ∀ t, s.dev.thread p.2.tid = some t → sel t = false)
    (s.dev.threads.map (·.1)).Nodup → (∀ p ∈ s.dev.threads, p.2.st ≠ .retired) →
    gone (.faultDomainTeardown part fdom) (fun t => t.part == part && s.dev.effFdom t.rcb == fdom)
      (s.dev.teardown (.domain part fdom)) ∧
    gone (.asidRelease asid) (fun t => t.asid == asid) (s.dev.teardown (.space asid)) ∧
    ∀ d, (∀ p ∈ d.windows, p.1.1 = fn → p.2.join = false) → s.dev = d →
      gone (.functionReset fn) (fun t => t.part == fn) (Dev.teardown { d with
        queues := d.queues.map fun p => if d.fnOfQ p.1 == fn then (p.1, { p.2 with en := false, found := false, torn := [] }) else p }
        (.function fn))) ∧
  -- the entry found at the head of an enabled queue is doomed by a teardown that comes before its turn (R166)
  (∀ (d : Dev) (x : Tear) (g : Nat), (d.queues.map (·.1)).Nodup → (tget g d.queues).isSome = true →
    let q := d.queue g
    (d.tearQueues x).queue g =
      { q with torn := if q.en = true ∧ q.h < q.t ∧ q.found = true then x :: q.torn else q.torn }) ∧
  -- a thread that ends is counted on its launch's object, by R191, or on its launch's node, by R198
  (∀ (d : Dev) (tid z : Nat) (t : Thread) (l : Launch), (∀ p ∈ d.streams, p.2.users.contains tid = false) →
    d.thread tid = some t → tget t.launch d.launches = some l →
    (l.node = none → l.obj = true → ∀ e, d.compAt l.asid l.part l.comp 0 z (some (d.partyOf tid t)) = some e →
      d.retire tid z = e.freeThread tid) ∧
    (∀ die rec k n, l.node = some (die, rec) →
      let e := d.freeThread tid
      e.nodes.find? (fun p => (e.walk l.asid l.part rec).toOption.any fun (f : Leaf) => f.at rec == p.1) = some (k, n) →
      let gone := n.gone || z != 0
      (n.left ≤ 1 → d.retire tid z = Dev.nodeFinish { e with nodes := tput k { n with left := 0, gone := gone } e.nodes }
        die n.who rec 0 (if gone then 17 else 0)) ∧
      (1 < n.left → d.retire tid z = { e with nodes := tput k { n with left := n.left - 1, gone := gone } e.nodes }))) ∧
  (∀ (d d1 : Dev) (asid part b z : Nat) (comp : Word) (who : Option Party) (l : Leaf),
    d.agentXlate asid part comp .write 16 = (d1, .ok l) → Calm d1 → nfld (d1.num (l.at comp) 16) 39 0 ≠ 0 →
    d.compAt asid part comp b z who =
      some (d1.putLeaf (l.at comp) (bytesOfNat 16 (compNext (d1.num (l.at comp) 16) b z)) l part).wake) ∧
  -- and a teardown ends its threads so, with CONTEXT_GONE (17)
  (∀ (d : Dev) (x : Tear) (tid : Nat) (t : Thread) (l : Launch), Calm d → d.regions = [] → d.insts = [] → d.devq = [] →
    (∀ p ∈ d.streams, p.2.users.contains tid = false) → (d.threads.map (·.1)).Nodup →
    d.thread tid = some t → t.st ≠ .retired → tget t.launch d.launches = some l → l.node = none → l.obj = true →
    (∀ p ∈ d.threads, x.covers p.2.asid p.2.part (d.effFdom p.2.rcb) = true ↔ p.1 = tid) →
    ∃ (X : Dev) (who : Option Party) (e : Dev), X.mem = d.mem ∧ X.compAt l.asid l.part l.comp 0 17 who = some e ∧
      ∃ y, d.teardown x = some y ∧ y.thread tid = none ∧ y.mem = (e.freeThread tid).mem)

/-! ### Host participants and engines (R148, R149, R191..R200, R313..R316) -/

/-- The host's stream windows (R148, R149): a join takes a free role with the reader's position at HWM, a leave gives it
up, WADV moves HWM or the released position forward, WREW moves the cursor, and TAIL follows; what is refused sets ERR.
While JOIN reads 1 a write of WCTL changes nothing but JOIN. That a join is refused while a device's claim is pending, or where its
stream address does not translate, is the model's choice (log 62), and that a refused WREW sets ERR is its reading (log 49). -/
def Obligations.HostStreamEvents : Prop :=
  ∀ (s : State) (fn w : Nat) (v q : Word), fn < 64 → w < 256 → s.dev.balk = false → FnOpen s fn →
    let d := s.dev
    let x := d.window fn w
    let err (d : Dev) : Dev := d.modWindow fn w fun y => { y with err := true }
    let follows (u : Stream) (st : Stream) : Prop := u.tail = match u.leastRel with | some p => Nat.max st.tail p | none => st.tail
    Does (.hostStreamErrClear fn w) s (d.modWindow fn w fun y => { y with err := y.err && y.join }) ∧
    (v.getLsbD 0 = true →
      (x.join = true → Does (.hostStreamJoin fn w v) s (d.modWindow fn w fun y => y)) ∧
      (x.join = false →
        let y : Window := { x with
          err := x.err && !v.getLsbD 1, asid := nfld v.toNat 63 52, span := nfld v.toNat 51 38 * 8, view := nfld v.toNat 34 32
          role := v.getLsbD 8 }
        let d0 := d.modWindow fn w fun _ => y
        (∀ d1, d0.windowStream fn y = (d1, none) → d1.balk = false → Does (.hostStreamJoin fn w v) s (err d1)) ∧
        (∀ d1 ds st, d0.windowStream fn y = (d1, some (ds, st)) → d1.balk = false →
          let busy : Prop := if y.role then st.pj = true ∨ st.hpro = true ∨ d1.claimed ds 8 = true
            else (st.reader y.view).joined = true ∨ d1.claimed ds y.view = true
          (busy → Does (.hostStreamJoin fn w v) s (err d1)) ∧
          (¬ busy → ∃ e u, Does (.hostStreamJoin fn w v) s e ∧
            e.window fn w = { d1.window fn w with join := true, desc := ds } ∧
            tget ds e.streams = some u ∧ u.hwm = st.hwm ∧ follows u st ∧
            if y.role then u.hpro = true ∧ u.readers = st.readers
            else u.reader y.view = ⟨true, st.hwm, st.hwm, true⟩ ∧ ∀ j, j ≠ y.view → u.reader j = st.reader j)))) ∧
    (x.join = false → Does (.hostStreamLeave fn w) s d ∧ Does (.hostStreamAdvance fn w q) s (err d) ∧
      (x.role = false → Does (.hostStreamRewind fn w q) s (err d))) ∧
    (x.role = true → Does (.hostStreamRewind fn w q) s d) ∧
    (x.join = true →
      -- a leave is of the stream that was joined
      (∀ d1 st, (d.modWindow fn w fun y => { y with join := false, desc := 0 }).streamUse x.desc none
          (fn, x.asid, x.addr.toNat / 2 ^ 43) = .ok d1 st → d1.balk = false →
        ∃ e u, Does (.hostStreamLeave fn w) s e ∧ e.window fn w = d1.window fn w ∧ tget x.desc e.streams = some u ∧ follows u st ∧
          if x.role then u.hpro = false
          else x.view < 8 → (u.reader x.view).joined = false ∧ (u.reader x.view).host = false ∧
            ∀ j, j ≠ x.view → u.reader j = st.reader j) ∧
      (∀ d1, d.windowStream fn x = (d1, none) → d1.balk = false → Does (.hostStreamAdvance fn w q) s (err d1) ∧
        (x.role = false → Does (.hostStreamRewind fn w q) s (err d1))) ∧
      (∀ d1 ds st, d.windowStream fn x = (d1, some (ds, st)) → x.view < 8 → d1.balk = false →
        let e0 := Does (.hostStreamAdvance fn w q) s
        let mis : Prop := st.wide = true ∨ q.toNat % st.esize ≠ 0
        (x.role = true →
          (mis ∨ st.hpro = false ∨ d1.limitOf ds st < q.toNat → e0 (err d1)) ∧
          (¬ mis → st.hpro = true → q.toNat ≤ d1.limitOf ds st →
            ∃ e u, e0 e ∧ tget ds e.streams = some u ∧ u.hwm = Nat.max st.hwm q.toNat ∧ u.readers = st.readers)) ∧
        (x.role = false →
          let r := st.reader x.view
          (mis ∨ r.joined = false ∨ st.hwm < q.toNat → e0 (err d1)) ∧
          (¬ mis → r.joined = true → q.toNat ≤ st.hwm → ∃ e u, e0 e ∧ tget ds e.streams = some u ∧ follows u st ∧
            u.reader x.view = { r with rel := Nat.max r.rel q.toNat, cur := Nat.max r.cur q.toNat }) ∧
          (mis ∨ r.joined = false ∨ q.toNat < r.rel ∨ st.hwm < q.toNat → Does (.hostStreamRewind fn w q) s (err d1)) ∧
          (¬ mis → r.joined = true → r.rel ≤ q.toNat → q.toNat ≤ st.hwm → ∃ e u, Does (.hostStreamRewind fn w q) s e ∧
            tget ds e.streams = some u ∧ follows u st ∧ u.reader x.view = { r with cur := q.toNat }))))

/-- Engine operations (R191..R194, R198..R200, R313, R314, R316, R320). One without an engine takes a free one and reads its
command; one that has begun moves its next piece, sends its next bytes to the peer and counts them once acknowledged, writes
those that the peer has returned, finds and copies a rank's block, writes a child's header, or ends after the last; one that
its teardown has reached, or whose link is down, stops with CONTEXT_GONE; one that has ended leaves the device and updates its
object or node. An error completion of the peer stops a PUT at the destination's byte and a GET at the source's, both in the peer's
memory, with PROTECTION: that cause and that address are the model's reading (log 23). A
shelf is sealed once no operation forked before can still write it, and a refresh window begins in the cycle announced. -/
def Obligations.EngineEvents : Prop :=
  (∀ (s : State) (op : Nat) (e : EngOp) (data : List Byte) (remote : Option (List Byte)) (ack : Bool) (d1 : Dev) (n m : Nat)
      (bs : List Byte), tget op s.dev.ops = some e → e.ended = false →
    let d := s.dev
    let c := e.command
    let free : Prop := e.torn = false ∧ e.struck = false ∧ d.claims (.engine op) = false
    let run (k : EngKind) : Prop := e.kind = k ∧ free ∧ e.begun = true
    let moved (d : Dev) (len n m : Nat) : Dev := d.modOp op fun e => { e with
      pos := e.pos + n, bytes := e.bytes + e.img.length + n, img := [], dpos := if (e.pos + n) % len = 0 then 0 else e.dpos + m }
    let ends (i : Instr) : Prop := Occurs i s (d.modOp op fun e => { e with ended := true })
    let stops (i : Instr) (a : Word) : Prop := Occurs i s (d.engStop op 0 .contextGone a) ∧
      ∃ e2, tget op (d.engStop op 0 .contextGone a).ops = some e2 ∧ e2.ended = true ∧ e2.cause = some .contextGone ∧
        e2.bytes = e.bytes
    -- teardown
    (e.torn = true → (e.kind = .copy → stops (.copyOperation op) e.cursor) ∧
      (e.kind = .copy2d → stops (.copy2dOperation op) e.cursor) ∧
      (e.kind = .xfer → stops (.xferPut (op, ack)) e.cursor ∧ stops (.xferPutaddF32 (op, ack)) e.cursor ∧
        stops (.xferPutaddBf16 (op, ack)) e.cursor ∧ stops (.xferGet op data) e.cursor) ∧
      (e.kind = .gather → stops (.gatherOperation op remote) e.cmd) ∧
      (e.kind = .gatherList → stops (.gatherListOperation op remote) e.tableAt) ∧
      (e.kind = .fork → Occurs (.forkOperation op remote) s (d.forkStop op 0 .contextGone e.cmd))) ∧
    -- a free engine takes the operation and reads its command
    (free → e.begun = false → d.engFree op e = true → d.engRead op e e.cmd 32 = .ok d1 bs →
      let begun : Option (BitVec 256) := some (BitVec.ofNat 256 (natOfBytes bs))
      let e1 := { e with start := begun }
      let takes (i : Instr) : Prop := Occurs i s (d1.modOp op fun e => { e with start := begun })
      e1.badStart = none →
      (e.kind = .copy → takes (.copyOperation op)) ∧ (e.kind = .copy2d → takes (.copy2dOperation op)) ∧
      (e.kind = .gatherList → takes (.gatherListOperation op remote)) ∧
      (e.kind = .xfer → (e1.command.op = 0 → takes (.xferPut (op, ack))) ∧ (e1.command.op = 1 → takes (.xferPutaddF32 (op, ack))) ∧
        (e1.command.op = 2 → takes (.xferPutaddBf16 (op, ack))) ∧ (e1.command.op = 3 → takes (.xferGet op data)))) ∧
    -- copies
    (∀ k i, (k = .copy ∧ i = .copyOperation op) ∨ (k = .copy2d ∧ i = .copy2dOperation op) → run k →
      (c.total ≤ e.pos → ends i) ∧
      (e.pos < c.total → d.copyPiece op e (.va e.cursor) (c.dst + BitVec.ofNat 64 (e.pos / c.len * c.dpitch + e.dpos)) e.dpos
        (c.len - e.pos % c.len) = .go d1 n m → Occurs i s (moved d1 c.len n m)) ∧
      -- a byte that fails stops the copy after those before it
      (∀ z a, e.pos < c.total → d.copyPiece op e (.va e.cursor) (c.dst + BitVec.ofNat 64 (e.pos / c.len * c.dpitch + e.dpos)) e.dpos
        (c.len - e.pos % c.len) = .stop d1 n z a → Occurs i s (d1.engStop op n z a))) ∧
    -- transfers
    (run .xfer → e.pos < c.total → d.reach c.peer = false →
      let gone (i : Instr) : Prop := Occurs i s (d.engStop op 0 .contextGone e.cursor)
      (c.op = 0 → gone (.xferPut (op, ack))) ∧ (c.op = 1 → gone (.xferPutaddF32 (op, ack))) ∧
        (c.op = 2 → gone (.xferPutaddBf16 (op, ack))) ∧ (c.op = 3 → gone (.xferGet op data))) ∧
    (run .xfer → e.pos < c.total → d.reach c.peer = true →
      let at_ := c.dst + BitVec.ofNat 64 e.pos
      -- a piece lies in one line here and in one line there
      let room := Nat.min (64 - e.cursor.toNat % 64) (64 - at_.toNat % 64)
      let k := Nat.min (c.len - e.pos) (Nat.max c.elem (room / c.elem * c.elem))
      let sends (i : Bool → Instr) (o : Out) : Prop :=
        Occurs (i true) s (moved (d1.emit o) c.len k k) ∧ Occurs (i false) s ((d1.emit o).engStop op 0 .protection at_)
      (d.engRead op e e.cursor k = .ok d1 bs → bs ≠ [] →
        (c.op = 0 → sends (fun ok => .xferPut (op, ok)) (.peerWrite c.peer at_ bs)) ∧
        (c.op = 1 → sends (fun ok => .xferPutaddF32 (op, ok)) (.peerAdd c.peer at_ false bs)) ∧
        (c.op = 2 → sends (fun ok => .xferPutaddBf16 (op, ok)) (.peerAdd c.peer at_ true bs))) ∧
      (let dst := c.src + BitVec.ofNat 64 e.dpos
       let j := Nat.min (c.len - e.pos) (Nat.min (64 - at_.toNat % 64) (if e.img = [] then 64 - dst.toNat % 64 else 64 - e.img.length % 64))
       let asked := d.emit (.peerRead c.peer at_ j)
       c.op = 3 →
        (data.length = j → data ≠ [] → asked.copyPiece op e (.data data) dst e.dpos (c.len - e.pos) = .go d1 n m →
          Occurs (.xferGet op data) s (moved d1 c.len n m)) ∧
        (∀ b, data.length = j → data ≠ [] → asked.copyPiece op e (.data data) dst e.dpos (c.len - e.pos) = .part d1 b →
          Occurs (.xferGet op data) s (d1.modOp op fun e => { e with pos := e.pos + b.length, img := e.img ++ b })) ∧
        Occurs (.xferGet op []) s (asked.engStop op 0 .protection at_))) ∧
    (run .xfer → c.total ≤ e.pos → (c.op = 0 → ends (.xferPut (op, ack))) ∧ (c.op = 1 → ends (.xferPutaddF32 (op, ack))) ∧
      (c.op = 2 → ends (.xferPutaddBf16 (op, ack))) ∧ (c.op = 3 → ends (.xferGet op data))) ∧
    -- gathers
    (∀ len ppp hw, e.seqh = some (len, ppp, hw) →
      let b := 64 * ppp
      let ga (k : EngKind) (i : Instr) : Prop := run k →
        (e.ranks * (2 * b) ≤ e.pos → ends i) ∧
        (∀ pk pv sd r, e.pos < e.ranks * (2 * b) → e.blk = .here pk pv sd :: r →
          d.copyPiece op e (.pa (if e.pos % (2 * b) < b then pk + e.pos % (2 * b) % b else pv + e.pos % (2 * b) % b))
            (e.into + BitVec.ofNat 64 (e.pos / b * b + e.dpos)) e.dpos (b - e.pos % (2 * b) % b) = .go d1 n m →
          Occurs i s ((moved d1 b n m).modOp op fun e => if e.pos % (2 * b) = 0 then { e with blk := [] } else e))
      ga .gather (.gatherOperation op remote) ∧ ga .gatherList (.gatherListOperation op remote) ∧
      (run .gather → e.pos < e.ranks * (2 * b) → e.blk = [] → ∀ x,
        let u := e.sel.getD (e.pos / (2 * b)) 0 % 2 ^ 32
        let ent := natOfBytes bs
        d.engRead op e (entAddr e.table u) 8 = .ok d1 bs → u < cdiv len ppp → entV ent = true → entOk ent = true → entRmt ent = false →
        d1.stage2 (entDie ent) (entGbn ent) e.who.part = some x →
        Occurs (.gatherOperation op remote) s (d1.modOp op fun e => { e with blk := [.here x.k x.v x.side] })) ∧
      -- forks: the header is written last, HW, PPP and then LEN
      (run .fork →
        let past (d : Dev) : Dev := d.modOp op fun e => { e with pos := e.pos + 1 }
        let writes (a : Word) (x : Nat) : Prop := d.engWrite op e a (bytesOfNat 8 x) true = .ok d1
        (e.pos = cdiv len ppp → writes (e.dst + 16) hw → Occurs (.forkOperation op remote) s (past d1)) ∧
        (e.pos = cdiv len ppp + 1 → writes (e.dst + 8) ppp → Occurs (.forkOperation op remote) s (past d1)) ∧
        (e.pos = cdiv len ppp + 2 → writes e.dst len →
          Occurs (.forkOperation op remote) s (d1.modOp op fun e => { e with ended := true }))))) ∧
  (∀ (s : State) (op : Nat) (e : EngOp), tget op s.dev.ops = some e → e.ended = true → (∀ r ∈ s.dev.recq, r.2 ≠ .engine op) →
    Occurs (.engineOperationFinish op) s (s.dev.engFinish op e) ∧ tget op (s.dev.engFinish op e).ops = none) ∧
  (∀ (s : State) (die : Nat) (who : Party) (rec : Word) (k : Nat) (r : List (Party × Word × Nat)), (s.dev.die die).walk = (who, rec, k) :: r →
    let d := s.dev.modDie die fun x => { x with walk := r }
    Occurs (.walkerEnqueue die) s (if k = 0 then d.taskTake die who rec else d.nodeLaunch die who rec)) ∧
  (∀ (s : State) (sh n : Nat), s.dev.balk = false → s.dev.shelf sh = .pending n →
    (∀ p ∈ s.dev.ops, p.1 < n → s.dev.mayWriteShelf p.2 sh = false) →
    ∃ d, Does (.shelfSealComplete sh) s d ∧ d.shelf sh = .sealed ∧ d = { s.dev with shelves := d.shelves }) ∧
  (∀ (s : State) (die len gap : Nat), s.dev.balk = false → die < 8 →
    let x := s.dev.die die
    let now := s.dev.cycle
    (x.winGap = 0 ∨ now = x.nextWin → len ≤ 640 → 640 < gap →
      Does (.refreshWindow die true len gap) s (s.dev.setDie die { x with
        inWin := true, winEnd := now + (if x.winGap = 0 then len else x.winLen), nextWin := now + gap, winLen := len, winGap := gap })) ∧
    (x.inWin = true → x.winEnd ≤ now → Does (.refreshWindow die false len gap) s (s.dev.setDie die { x with inWin := false })))

/-! ### Blocks, images and regions of a die (R61, R79, R80, R225..R247) -/

/-- A block's way to a region: its fetch line by line, check, decision, lookup and load, the victims and drains that a load
causes, and a region's end by a drain's limit, by eviction, by idleness, or by the quiescence detector (R46, R61, R79..R81,
R225..R239, R245..R247). The model's readings and choices in it are: that a load's sites may still be held by regions on their
way out (log 74), its config tokens and their pace (log 82), that the budget is tested between idle releases and victims (log 84),
the order of equals (log 85), the cache that drops the first image entered (log 87) and the use noted at entry (log 88). -/
def Obligations.BlockEvents : Prop :=
  (∀ (s : State) (die asid : Nat) (b : Word), s.dev.balk = false →
    let d := s.dev
    -- a block that a queued thread asks for is fetched
    (∀ p ts d1 d2 c1 c2, d.queuedAt (some die) asid b = p :: ts → b.toNat % 16 = 0 →
      (∀ f ∈ d.fetches, ¬ (f.die = die ∧ f.asid = asid ∧ f.blk = b)) →
      (∀ r ∈ d.regions, ¬ (r.2.die = die ∧ r.2.asid = asid ∧ r.2.blk = b)) →
      (∀ c ∈ (d.die die).cache, ¬ (c.image.part = p.2.part ∧ (asid, b.toNat) ∈ c.pairs)) → tget (asid, b.toNat) d.rejPair = none →
      let d0 := d.modDie die fun x => { x with want := x.want.filter fun w => !(w.1 == asid && w.2.2 == b) }
      d0.fetchFor die asid p.2.part b b 16 0 = (d1, some c1) →
      let h := hdrOf (d1.fetchBytes c1 b 16)
      d1.fetchFor die asid p.2.part b b (16 + 4 * hdrWords h) h = (d2, some c2) → d2.balk = false →
      ∃ e, Does (.blockFetch die asid b) s e ∧
        let total := 16 + 4 * hdrWords h
        e.fetches = d2.fetches ++
          [⟨die, asid, p.2.part, b, fetchState (d2.fetchBytes c2 b (Nat.min (64 - b.toNat % 64) total)) total, false⟩]) ∧
    -- or its threads trap, where a byte of it cannot be fetched
    (∀ p ts d1 c, d.queuedAt (some die) asid b = p :: ts → b.toNat % 16 = 0 →
      (∀ f ∈ d.fetches, ¬ (f.die = die ∧ f.asid = asid ∧ f.blk = b)) →
      (∀ r ∈ d.regions, ¬ (r.2.die = die ∧ r.2.asid = asid ∧ r.2.blk = b)) →
      (∀ c ∈ (d.die die).cache, ¬ (c.image.part = p.2.part ∧ (asid, b.toNat) ∈ c.pairs)) → tget (asid, b.toNat) d.rejPair = none →
      let d0 := d.modDie die fun x => { x with want := x.want.filter fun w => !(w.1 == asid && w.2.2 == b) }
      (∀ e, d0.fetchFor die asid p.2.part b b 16 0 = (e, none) → e.balk = false → Does (.blockFetch die asid b) s e) ∧
      (∀ e, d0.fetchFor die asid p.2.part b b 16 0 = (d1, some c) →
        let h := hdrOf (d1.fetchBytes c b 16)
        d1.fetchFor die asid p.2.part b b (16 + 4 * hdrWords h) h = (e, none) → e.balk = false → Does (.blockFetch die asid b) s e)) ∧
    -- each further event reads one line more (R81)
    (∀ f bs, d.fetches.find? (fun f => f.die == die && f.asid == asid && f.blk == b) = some f → f.st = .lines bs →
      let total := 16 + 4 * hdrWords (hdrOf bs)
      let va := b + BitVec.ofNat 64 bs.length
      let n := Nat.min (64 - (b.toNat + bs.length) % 64) (total - bs.length)
      (∀ e c, d.fetchFor die asid f.part b va n (hdrOf bs) = (e, some c) → e.balk = false →
        ∃ e1, Does (.blockFetch die asid b) s e1 ∧ { f with st := fetchState (bs ++ e.fetchBytes c va n) total } ∈ e1.fetches) ∧
      (∀ e, d.fetchFor die asid f.part b va n (hdrOf bs) = (e, none) → e.balk = false →
        Does (.blockFetch die asid b) s { e with fetches := e.fetches.filter fun g => g != f })) ∧
    -- the mapper rejects it, whose threads trap BAD_BLOCK, or accepts it
    (∀ f bs, d.fetches.find? (fun f => f.die == die && f.asid == asid && f.blk == b) = some f → f.st = .fetched bs →
      (∀ r, headerCheck bs = some r → tget (imageDigest bs [] []) d.rejDig = none → (d.threads.map (·.1)).Nodup →
        ∃ e, Does (.blockCheck die asid b) s e ∧ tget (asid, b.toNat) e.rejPair = some r ∧
          tget (imageDigest bs [] []) e.rejDig = some r ∧
          (∀ x ∈ e.fetches, ¬ (x.asid = asid ∧ x.blk = b)) ∧
          ∀ p ∈ d.queuedAt none asid b, ∃ u, e.thread p.1 = some u ∧ u.st = .trapped ∧ u.trap = some (badBlockInfo b r)) ∧
      (∀ is n ls ds, (∀ fetch, checkBlock fetch b (d.lutsFor f.part asid b) bs = .ok is n ls ds) → hdrSysb (hdrOf bs) = false →
        tget (imageDigest bs ls ds) d.rejDig = none →
        (∀ c ∈ (d.die die).cache, ¬ (c.image.digest = imageDigest bs ls ds ∧ c.image.part = f.part)) →
        ∃ e, Does (.blockCheck die asid b) s e ∧ { f with st := .checked bs is ls ds (imageDigest bs ls ds) } ∈ e.fetches)) ∧
    -- the image comes from the mapper's cache, or is placed anew
    (∀ f bs is ls ds dig, d.fetches.find? (fun f => f.die == die && f.asid == asid && f.blk == b) = some f →
      f.st = .checked bs is ls ds dig → f.won = false →
      let d0 := { d with fetches := d.fetches.filter fun g => g != f }
      let feet := carried is (hdrFoot (hdrOf bs))
      let kept := d.placed.find? fun im => im.digest == dig && im.placesFit is (hdrFoot (hdrOf bs))
      (∀ im e pes cap lat, kept = some im →
        d0.cacheImage die asid b (mkImage f.part bs is ls ds dig im.places im.cap im.lat) = some e →
        Occurs (.imageLookupComplete die asid b pes cap lat) s e) ∧
      (∀ pes cap lat e, kept = none → d.placed.length < 8192 →
        pes.length = feet.length → (∀ x ∈ feet.zip pes, placeOk is x.1 x.2 = true) → 8 ≤ cap → cap ≤ 64 →
        let im := mkImage f.part bs is ls ds dig ((feet.zip pes).map fun x => ⟨x.1, x.2⟩) cap lat
        { d0 with placed := d.placed ++ [im] }.cacheImage die asid b im = some e →
        Occurs (.imageLookupComplete die asid b pes cap lat) s e)) ∧
    -- one decision in 16 cycles: candidates in rank, the first with an image and room loads it
    (∀ c cs im f site, die < 8 → (d.die die).decided ≤ d.cycle / 16 →
      let d0 := d.settleRegions.noteIdle.modDie die fun x => { x with decided := d.cycle / 16 + 1 }
      d0.candidates die = c :: cs → d0.cachedImage die c.asid c.part c.blk = some im →
      (d0.siteFor die c.rcb (im.places.map (·.foot))).1 = some (f, site) →
      Occurs (.schedulerDecision die) s ((d0.loadRegion die site f c.asid c.blk c.rcb im).useImage die im)) ∧
    -- with no room, and no region idle, victims go by R229's plan, all of it or nothing
    (∀ c cs im f, die < 8 → (d.die die).decided ≤ d.cycle / 16 →
      let d0 := d.settleRegions.noteIdle.modDie die fun x => { x with decided := d.cycle / 16 + 1 }
      d0.candidates die = c :: cs → d0.cachedImage die c.asid c.part c.blk = some im →
      d0.siteFor die c.rcb (im.places.map (·.foot)) = (none, false) → (im.places.map (·.foot)).min? = some f →
      (∀ p ∈ d0.regions, p.2.die = die → d0.idleFree p.1 p.2 0 = false) →
      (d0.siteBudget c.rcb f = false → cs = [] → Occurs (.schedulerDecision die) s d0) ∧
      (d0.siteBudget c.rcb f = true →
        let vs := sortBy (fun p => d0.regionScore p.2) (d0.regions.filter (d0.eligible die (d0.effDclass c.rcb)))
        (d0.victimPlan die f vs = none → cs = [] → Occurs (.schedulerDecision die) s d0) ∧
        (∀ plan site, d0.victimPlan die f vs = some plan →
          let d1 := d0.preempt plan
          freeGroup ((d1.regions.filter fun p => p.2.die == die).flatMap d1.keptSites) f = some site →
          Occurs (.schedulerDecision die) s ((d1.loadRegion die site f c.asid c.blk c.rcb im).useImage die im))))) ∧
  -- the threads queued at a block whose fetch fails trap at its entry (R61)
  (∀ (d e : Dev) (die asid part n : Nat) (b va : Word) (hdr : BitVec 128), (d.threads.map (·.1)).Nodup →
    d.fetchFor die asid part b va n hdr = (e, none) →
    ∀ p ∈ d.queuedAt (some die) asid b, ∃ u f, e.thread p.1 = some u ∧ u.st = .trapped ∧
      u.trap = some (faultInfo f.1 0 f.2 b hdr) ∧
      ((∀ q ∈ d.queuedAt (some die) asid b, d.effSys q.2.rcb = d.effSys p.2.rcb) →
        d.fetchFail ⟨asid, part, die, d.effSys p.2.rcb, none, none, false⟩ va n = some f)) ∧
  -- which regions may be victims, and in what order: shrinks to carried sizes, lowest score first, then evictions
  (∀ (d : Dev) (die w : Nat) (p : Nat × Region), d.eligible die w p = true ↔ p.2.die = die ∧ d.doomed p = false ∧
    d.effDclass p.2.rcb < w ∧ d.effDclass p.2.rcb < 3 ∧ (w = 3 ∨ p.2.loaded + 8192 ≤ d.cycle)) ∧
  (∀ (d : Dev) (vs : List (Nat × Region)),
    (sortBy (fun p => d.regionScore p.2) vs).Pairwise fun a b => d.regionScore a.2 ≤ d.regionScore b.2) ∧
  (∀ (d : Dev) (die want : Nat) (vs : List (Nat × Region)) (plan : List Victim), d.victimPlan die want vs = some plan →
    (plan.Pairwise fun a b => a.2 = none → b.2 = none) ∧
    ∀ v ∈ plan, ∃ r, (v.1, r) ∈ vs ∧ ∀ f, v.2 = some f → r.phase ≠ .closing ∧ f < r.keptFoot ∧ ∃ x ∈ r.image.places, x.foot = f) ∧
  -- a shrink drains by DRAIN, then reloads the sites kept; an eviction aborts what may abort, and releases the region
  (∀ (d : Dev) (k f : Nat) (r : Region), d.region k = some r → r.phase = .open_ → (d.insts.map (·.1)).Nodup →
    (d.instsOf k = [] → (d.shrink k f).region k = some { r with
      foot := f, phase := .loading d.cycle, cfg := configTokens r.image f, loaded := d.cycle, rings := [], active := d.cycle }) ∧
    (d.instsOf k ≠ [] → hdrDrain r.image.hdr = true →
      (d.shrink k f).region k = some { r with phase := .draining d.cycle f, active := d.cycle } ∧ (d.shrink k f).insts = d.insts) ∧
    (hdrDrain r.image.hdr = false → ∀ p ∈ (d.shrink k f).insts, p.2.reg = k → p.2.atPoint = true) ∧
    (∀ p ∈ (d.evict k).insts, p.2.reg = k → p.2.atPoint = true) ∧
    ((∀ p ∈ d.insts, p.2.reg = k → p.2.atPoint = false) → (d.evict k).region k = none ∧
      (r.comps = [] → ∀ p ∈ d.insts, p.2.reg = k → ∀ t, d.thread p.2.tid = some t →
        ∃ u, (d.evict k).thread p.2.tid = some u ∧ (u.st = .queued ∨ u.st = .trapped) ∧ u.since = t.before ∧
          u.g = t.g ∧ u.v = t.v ∧ u.k = t.k ∧ u.pc = t.pc ∧ u.slot = t.slot))) ∧
  (∀ (d : Dev) (die : Nat), (d.candidates die).Pairwise fun a b => b.rank ≤ a.rank) ∧
  (∀ (used : List Nat) (foot n : Nat), freeGroup used foot = some n →
    let free (m : Nat) : Prop := footAligned foot m = true ∧ ∀ x ∈ footSites foot m, x < 128 ∧ x ∉ used
    free n ∧ ∀ m, m < n → ¬ free m) ∧
  (∀ (d : Dev) (die site foot asid rcb : Nat) (b : Word) (im : Image), d.region d.nextRegion = none →
    ∃ r, (d.loadRegion die site foot asid b rcb im).region d.nextRegion = some r ∧ r.die = die ∧ r.site = site ∧ r.foot = foot ∧
      r.asid = asid ∧ r.part = im.part ∧ r.blk = b ∧ r.rcb = rcb ∧ r.phase = .loading d.cycle ∧
      (r.pinned = true ↔ hdrPin im.hdr = true ∧ d.pinnedSites die + foot ≤ 96) ∧
      (foot ≤ 4 → r.cfg.map (fun t => (t.kind, t.tag.toNat)) = (List.range (32 * foot)).map fun n => (Kind.config, n))) ∧
  (∀ (s : State) (k : Nat) (r : Region), s.dev.balk = false → s.dev.region k = some r →
    (∀ n, r.phase = .loading n → s.dev.oldWork k r = false → r.cfg = [] → ∃ e, Does (.configLoadComplete k) s e ∧
      e.region k = some { r with phase := .open_, idle := s.dev.cycle, active := s.dev.cycle }) ∧
    (∀ n f, r.phase = .draining n f → n + 16384 ≤ s.dev.cycle →
      Occurs (.drainTimeout k) s (s.dev.clearInsts k).settleRegions ∧
        ∀ p ∈ (s.dev.clearInsts k).insts, p.2.reg = k → p.2.atPoint = true) ∧
    (r.pinned = false → r.phase = .open_ → s.dev.regionQuiet k r = true → r.idle + 65536 ≤ s.dev.cycle →
        r.bare + 1024 + 65536 ≤ s.dev.cycle →
      Occurs (.idleRelease k) s (s.dev.freeRegion k) ∧ (s.dev.freeRegion k).region k = none)) ∧
  (∀ (s : State) (die addr : Nat), s.dev.silentSet die ≠ [] →
    let es := s.dev.silentSet die
    let order := (extensionOrder es).findSome? fun e => (s.dev.extNeed e).map fun n => (e, n)
    (∀ e n, order = some (e, n) → s.dev.dripFree n addr = true → (s.dev.extend e n addr).balk = false →
      ∃ d, Does (.quiescenceExtension die addr) s d ∧
      d.mem = (s.dev.extend e n addr).mem ∧ d.threads = (s.dev.extend e n addr).threads ∧ d.insts = (s.dev.extend e n addr).insts) ∧
    (order = none → let d := s.dev.raiseDeadlock ((es.map (·.reg)).eraseDups)
      Occurs (.quiescenceExtension die addr) s d ∧ (∀ x ∈ es, d.region x.reg = none) ∧
      ∀ x ∈ es, ∀ p ∈ s.dev.insts, p.2.reg = x.reg → (s.dev.insts.map (·.1)).Nodup → d.inst p.1 = none))

/-! ### Translation, compressed memory and migration (R365..R382) -/

/-- Page walks, grants of sectors, the Ladle's four states, the decode watchdog and merges (R366, R372..R378); the home
and pool registers (R371); and migration: a command is accepted or finishes with PROTECTION, each line is copied, the
leaf is switched to the new frame, and the old frame is freed (R380..R382); one that finds a migration of its page under way
waits for it, and of a host's and a device's command in one cycle the device's stands. The model's readings and choices in it are: how the home finds
a leaf's size (log 25), that the switch writes TIER (log 26), that the device's own small updates are charged to no RCB (log 42), and
that a host-copy entry with reserved bits is consumed silently (log 66). -/
def Obligations.MemorySystemEvents : Prop :=
  (∀ (s : State) (die asid : Nat) (va : Word) (wr : Bool), die ≤ 8 → asid < 4096 → s.dev.balk = false →
    let c : XCtx := ⟨asid, nfld (s.dev.num (s.dev.asidtb.toNat + 16 * asid) 16) 69 64, die, true, none, none, false⟩
    ∃ d, Does (.pageWalk die asid va wr) s d ∧ d.threads = s.dev.threads ∧ d.queues = s.dev.queues ∧ d.parts = s.dev.parts ∧
      (∀ er, s.dev.leafFor c va = .error er → d = s.dev) ∧
      (∀ l, s.dev.leafFor c va = .ok l → l.nr = false → l.allows (if wr then .write else .read) true = true →
        ∃ t ∈ (d.die die).tlb, t.serves c va = true)) ∧
  (∀ (s : State) (home part : Nat), s.dev.balk = false → home < 14 →
    let d := s.dev
    let p := d.pool part home
    let wait := d.waitNeed part home
    -- the oldest reservation is granted when its need fits
    (∀ r i x, d.resvs.find? (fun r => r.home == home && r.part == part) = some r → r.need ≤ p.free → r.who = .inst i → r.rcb = 0 →
      d.inst i = some x → ∃ e, Does (.reservationGrant home part) s e ∧ e.resvs = d.resvs.erase r ∧
        (e.pool part home).held = p.held + r.need ∧ (e.chunk r.chunk).resv = (d.chunk r.chunk).resv + r.need ∧
        e.inst i = some { x with resv := fillResv r.chunk r.need x.resv }) ∧
    -- ZERO, BALLOON, HOST: an empty list leads on, unless enough is free again
    (let after (i : Instr) (n : Nat) : Prop := ∃ e, Does i s e ∧ e.mem = d.mem ∧
        (e.pool part home) = { p with lstate := if p.low + wait ≤ p.free ∧ n ≤ 3 then 0 else n }
     (p.lstate = 1 → d.zerosOf home part = [] → after (.ladleZero home part) 2) ∧
     (p.lstate = 2 → p.blHead = p.blTail → after (.ladleBalloon home part) 3) ∧
     (p.lstate = 3 → p.hcHead = p.hcTail → after (.ladleHostCopy home part) 4)) ∧
    -- a zero chunk, a ballooned page and a copied frame give their sectors back
    (∀ c, p.lstate = 1 → (d.zerosOf home part).find? (fun c => !d.inFlight none c) = some c → (d.chunk c).cls ≠ 1 →
      (d.chunk c).secs ≠ 0 → (d.bytes (c * 4096) 4096).all (· == 0) = true →
      Occurs (.ladleZero home part) s (((d.dropZero home c).zeroChunk c).ladleRest part home)) ∧
    -- the next entry of a list: HEAD moves over what is consumed, and one that a transfer uses is passed over (R379)
    (∀ k ks, p.lstate = 2 → p.blHead ≠ p.blTail → entriesLeft p.blHead p.blTail p.blDone p.blPass = k :: ks →
      let v := d.num (p.blBase + 8 * k) 8
      nfld v 63 52 = 0 → nfld v 11 0 = 0 → (d.memAt v).bind Mem.home = some home →
      (d.inFlight none (v / 4096) = false → ∃ e, Does (.ladleBalloon home part) s e ∧ e.mem = (d.zeroChunk (v / 4096)).mem ∧
        ((e.pool part home).blHead, (e.pool part home).blDone) = headOver (p.blDone.length + 1) p.blHead (k :: p.blDone)) ∧
      (d.inFlight none (v / 4096) = true → ∃ e, Does (.ladleBalloon home part) s e ∧ e.mem = d.mem ∧
        (e.pool part home).blHead = p.blHead ∧ (e.pool part home).blPass = p.blPass ++ [k])) ∧
    (p.blDone = [] → headOver 1 p.blHead [p.blHead] = ((p.blHead + 1) % 2 ^ 32, [])) ∧
    (∀ k ks, p.lstate = 3 → p.hcHead ≠ p.hcTail → entriesLeft p.hcHead p.hcTail p.hcDone (p.hcPass.map (·.1)) = k :: ks →
      let v := d.num (p.hcBase + 8 * k) 8
      let went (e : Dev) : Prop := Does (.ladleHostCopy home part) s e ∧
        ((e.pool part home).hcHead, (e.pool part home).hcDone) = headOver (p.hcDone.length + 1) p.hcHead (k :: p.hcDone)
      (nfld v 63 52 ≠ 0 ∨ nfld v 3 0 ≠ 0 → ∃ e, went e ∧ e.mem = d.mem) ∧
      (∀ pa size, nfld v 63 52 = 0 → nfld v 3 0 = 0 → d.hostCopyFrame v = some (pa, size) →
        let d1 := (d.agentWrite (v + 7) [BitVec.ofNat 8 (d.num (v + 7) 1 ||| 2 ^ 5)]).dropLeaf v
        (d1.pageQuiet v pa size = true → ∃ e, went e ∧ e.mem = (d1.zeroFrame pa size).mem) ∧
        (d1.pageQuiet v pa size = false → ∃ e, Does (.ladleHostCopy home part) s e ∧ e.mem = d1.mem ∧
          (e.pool part home).hcHead = p.hcHead ∧ (e.pool part home).hcPass = p.hcPass ++ [(k, pa, size)]))) ∧
    -- FAIL: an instance that waits aborts to SPACE
    (∀ r i x t, p.lstate = 4 → d.resvs = [r] → r.part = part → r.home = home → r.who = .inst i → d.inst i = some x →
      d.thread x.tid = some t → ∃ e u, Does (.ladleFail home part) s e ∧ (e.pool part home).lstate = 0 ∧
        e.thread x.tid = some u ∧ u.st = .space ∧ u.pc = t.pc ∧ u.g = t.g ∧ u.v = t.v ∧ u.flags = t.flags)) ∧
  (∀ (s : State) (c : Nat), s.dev.balk = false → (chunkHome c).isSome = true → (s.dev.chunk c).secs ≠ 0 → (s.dev.chunk c).cut = false →
    ∃ d, Does (.decodeWatchdog c) s d ∧ d.chunk c = { s.dev.chunk c with cut := true } ∧ (∀ k, k ≠ c → d.chunk k = s.dev.chunk k) ∧
      d = { s.dev with chunks := d.chunks }) ∧
  (∀ (s : State) (die slot : Nat) (b : Bounce) (l : Leaf), tget (die, slot) s.dev.bounce = some b → s.dev.slotLeaf b = some l →
    s.dev.claims (.pager die slot) = false →
    s.dev.roomFor b.part b.rcb (b.cells.map fun c => (l.at (pageVa b.page) + c.1, c.2)) l.cls = .fits →
    Occurs (.pagerMerge die slot) s (s.dev.mergeInto die slot b l) ∧ tget (die, slot) (s.dev.mergeInto die slot b l).bounce = none) ∧
  (∀ (s : State) (fn home : Nat) (v : Word), s.dev.balk = false → home < 14 →
    let d := s.dev
    (let n := nfld v.toNat 31 0
     let bad : Prop := (∃ p ∈ d.pools, p.1.2 = home ∧ p.2.held ≠ 0) ∨ Nat.min ((homeWindow home).2 / 4096) (Config.sectors home / 4) < n
     (bad → Does (.hpresWrite home v) s d) ∧
     (¬ bad → ∃ e, Does (.hpresWrite home v) s e ∧ e = { d with pres := e.pres } ∧ e.presented home = n ∧
       ∀ k, k ≠ home → e.presented k = d.presented k)) ∧
    (fn < 64 →
      let p := d.pool fn home
      let only (e : Dev) (q : Pool) : Prop := e = { d with pools := e.pools } ∧ e.pool fn home = q ∧
        ∀ k, k ≠ (fn, home) → e.pool k.1 k.2 = d.pool k.1 k.2
      (let n := nfld v.toNat 32 0
       let others := ((d.pools.filter fun q => q.1.2 == home && q.1.1 != fn).map fun q => q.2.quota).sum
       (Config.sectors home < others + n ∨ n < p.held → Does (.pquotaWrite fn home v) s d) ∧
       (others + n ≤ Config.sectors home → p.held ≤ n → ∃ e, Does (.pquotaWrite fn home v) s e ∧ only e { p with quota := n })) ∧
      (∃ e, Does (.blidxWrite fn home v) s e ∧ only e { p with
        blTail := nfld v.toNat 63 32, blHead := if p.blHead = p.blTail then nfld v.toNat 31 0 else p.blHead }) ∧
      (∃ e, Does (.hcidxWrite fn home v) s e ∧ only e { p with
        hcTail := nfld v.toNat 63 32, hcHead := if p.hcHead = p.hcTail then nfld v.toNat 31 0 else p.hcHead }))) ∧
  (∀ (s : State) (die cmd : Nat), die < 8 → cmd < 2 ^ 52 →
    let d := s.dev
    let c := d.migCmd cmd
    let loses (d : Dev) : Dev := { d.migComp c.comp 0 16 with settle := tput c.leaf (d.cycle + d.migsettle) d.settle }
    (d.migOf die c d.cycle = none → Occurs (.migrationPost die cmd) s (d.migComp c.comp 0 Cause.protection.num)) ∧
    (∀ m, d.migOf die c d.cycle = some m →
      -- none of the page came in this cycle
      ((∀ p ∈ d.migs, p.2.leaf = c.leaf → p.2.at_ ≠ d.cycle) → (∀ q ∈ d.migq, (d.migCmd q.2.1).leaf = c.leaf → q.2.2 ≠ d.cycle) →
        (m.host = true → d.settled c.leaf = true → Occurs (.migrationPost die cmd) s (d.migComp c.comp 0 16)) ∧
        (s.dev.balk = false → (m.host = true → d.settled c.leaf = false) →
          ((∀ p ∈ d.migs, p.2.leaf ≠ c.leaf) →
            ∃ e, Does (.migrationPost die cmd) s e ∧ e.migs = d.migs ++ [(d.nextMig, m)] ∧ e.mem = d.mem) ∧
          ((∃ p ∈ d.migs, p.2.leaf = c.leaf) →
            Does (.migrationPost die cmd) s { d with migq := d.migq ++ [(die, cmd, d.cycle)] }))) ∧
      -- a host's command loses against a device's of its cycle, and so does a host's migration that began in it
      (m.host = true → (∃ p ∈ d.migs, p.2.leaf = c.leaf ∧ p.2.at_ = d.cycle ∧ p.2.host = false) →
        Occurs (.migrationPost die cmd) s (loses d)) ∧
      (m.host = false → Occurs (.migrationPost die cmd) s ((d.hostLoses c.leaf d.cycle).migServe die cmd d.cycle)) ∧
      (∀ k p, d.migs = [(k, p)] → d.migq = [] → p.leaf = c.leaf → p.at_ = d.cycle → p.host = true → p.switched = false →
        let e := d.migStop k p .queue
        d.hostLoses c.leaf d.cycle = { e with settle := tput c.leaf (e.cycle + e.migsettle) e.settle } ∧ e.migs = []))) ∧
  (∀ (s : State) (k : Nat) (m : Mig), tget k s.dev.migs = some m → s.dev.balk = false →
    let d := s.dev
    (∀ i, m.switched = false → d.claims (.mig k) = false → m.nextLine = some i → { m with copied := m.copied ++ [i] }.nextLine ≠ none →
      d.copyNeed m i = none →
      ∃ e, Does (.migrationLineCopy k) s e ∧ tget k e.migs = some { m with copied := m.copied ++ [i] } ∧
        (MemOk s → ∀ a < 64, e.byte (m.new_ + 64 * i + a) = d.byte (m.old + 64 * i + a))) ∧
    (m.switched = false → d.claims (.mig k) = false → m.nextLine = none → d.frameAsked m = false →
      Occurs (.migrationLineCopy k) s (d.migSwitch k m)) ∧
    (m.switched = true → (∀ j < m.size / 4096, d.inFlight (some k) (m.old / 4096 + j) = false) →
      Occurs (.migrationFinish k) s ((({ d with migs := tdel k d.migs }.zeroFrame m.old m.size).migComp m.comp m.size 0).migNext m.leaf)) ∧
    (m.new_ < 2 ^ 52 → m.new_ % 4096 = 0 → m.slot = none →
      let e := d.num m.leaf 8
      let e' := d.entryAfter m
      nfld e' 45 6 = m.new_ / 4096 ∧ nfld e' 5 0 = nfld e 5 0 ∧ nfld e' 63 48 = nfld e 63 48 ∧
        nfld e' 47 46 = match d.memAt m.new_ with | some x => x.tier | none => 0)) ∧
  (∀ (s : State) (page n : Nat), s.dev.balk = false → tget page s.dev.settle = some n → n ≤ s.dev.cycle →
    ∃ d, Does (.migsettleExpiry page) s d ∧ d = { s.dev with settle := d.settle } ∧ d.settled page = false)

/-! ### The host, peers and the Sieve (R302, R308, R311, R317, R398, R402..R409, R420) -/

/-- Accesses of the host through a function's aperture and of peers through the peer table reach memory, or answer with
ones, a record or an error completion; links go down and return; a host invalidation is posted, taken and completed; an
image is registered; registers are written; and a bound's pages are admitted, looked up and answered (R302, R308, R311,
R317, R371, R398, R406..R409, R420). The model's choices and readings in it are: another package's requests for a block, of which
R302 and R317 say only what they ask for (log 19), a registration record's layout (log 24), that an SVBND reads its header and entries
at its admission (log 36), and the cause of a host's or peer's access that a shelf's state turns away (log 38). -/
def Obligations.HostAndSieveEvents : Prop :=
  (∀ (s : State) (fn off n : Nat) (v : Word) (bs : List Byte), s.dev.balk = false → fn < 64 →
    let d := s.dev
    let f := d.func fn
    let va := f.apAddr off
    -- APCTL
    (FnOpen s fn → v.getLsbD 0 = true → d.asidIn fn (nfld v.toNat 63 52) = false → Does (.apctlWrite fn v) s d) ∧
    (FnOpen s fn → v.getLsbD 0 = false ∨ d.asidIn fn (nfld v.toNat 63 52) = true → ∃ e, Does (.apctlWrite fn v) s e ∧ e = { d with funcs := e.funcs } ∧
      e.func fn = { f with apasid := nfld v.toNat 63 52, apbase := nfld v.toNat 51 31, apen := v.getLsbD 0 } ∧
      ∀ k, k ≠ fn → e.func k = d.func k) ∧
    -- the aperture
    (pieceOk off n = true → FnOpen s fn →
      let reply (d : Dev) (bs : List Byte) : Dev := { d with out := .hostRead fn bs :: d.out }
      (d.apOpen fn = false → Does (.apertureRead fn off n) s (reply d (List.replicate n 0xFF))) ∧
      (∀ d1 e, d.apOpen fn = true → d.hostCheck f.apasid fn va n false = .err d1 e →
        Occurs (.apertureRead fn off n) s (reply (d1.hostRecord fn f.apasid (hostCause e) (failAddr e va)) (List.replicate n 0xFF))) ∧
      (d.apOpen fn = true → d.hostCheck f.apasid fn va n false = .ring →
        Does (.apertureRead fn off n) s (reply d (List.replicate n 0xFF))) ∧
      (∀ d1 pa l, d.apOpen fn = true → d.hostCheck f.apasid fn va n false = .ok d1 pa l → isWindow pa = false →
        d1.inRefresh l pa = false → l.kind = 2 → Occurs (.apertureRead fn off n) s (reply d1 (d1.bytes pa n))) ∧
      (∀ d1 d2 pa l, d.apOpen fn = true → d.hostCheck f.apasid fn va n false = .ok d1 pa l → isWindow pa = false →
        d1.inRefresh l pa = false → l.kind ≠ 2 → d1.agentTry ⟨.host, pa, n, false, false, va⟩ = some d2 →
        Occurs (.apertureRead fn off n) s (reply (d2.noteRead pa n) (d2.bytes pa n)))) ∧
    (pieceOk off bs.length = true → FnOpen s fn →
      (d.apOpen fn = false → Does (.apertureWrite fn off bs) s d) ∧
      (∀ d1 e, d.apOpen fn = true → d.hostCheck f.apasid fn va bs.length true = .err d1 e →
        Occurs (.apertureWrite fn off bs) s (d1.hostRecord fn f.apasid (hostCause e) (failAddr e va))) ∧
      (∀ d1 d2 pa l, d.apOpen fn = true → d.hostCheck f.apasid fn va bs.length true = .ok d1 pa l → isWindow pa = false →
        (∀ x ∈ cellsAt pa bs, isWindow x.1 = false) → d1.roomFor fn 0 (cellsAt pa bs) l.cls = .fits →
        d1.agentTry ⟨.host, pa, bs.length, true, false, va⟩ = some d2 →
        Occurs (.apertureWrite fn off bs) s (d2.writeLeaf (cellsAt pa bs) l.cls l.sideOf fn 0).wake)) ∧
    -- registers without a row: QBASE while the queue is off, the peer table, and what is ignored
    (∀ q g, FnOpen s fn → q < 16384 → d.globalQ fn q = some g →
      let i := Instr.registerWrite fn 2 (0x100008 + 0x40 * q) v
      ((d.queue g).en = true → Does i s d) ∧
      ((d.queue g).en = false → ∃ e, Does i s e ∧ e.queue g = { d.queue g with base := v &&& 0xFFFFFFFFFFFFFFC0#64 })) ∧
    (d.hostHeld = false → ∀ p < 1024, ∃ e, Does (.registerWrite 0 0 (0x80000 + 8 * p) v) s e ∧
      e.peer p = { d.peer p with en := v.getLsbD 63, part := nfld v.toNat 17 12, asid := nfld v.toNat 11 0 }) ∧
    (FnOpen s fn → fn ≠ 0 → off % 8 = 0 → Does (.registerWrite fn 0 off v) s d)) ∧
  (∀ (s : State) (p n : Nat) (a v : Word) (bs : List Byte) (bf reset : Bool), s.dev.balk = false → p < 1024 →
    let d := s.dev
    let x := d.peer p
    let answers (i : Instr) (d : Dev) (ok : Bool) (bs : List Byte) : Prop := Occurs i s { d with out := .peerReply p ok bs :: d.out }
    (d.peerHeld p = false → bs.length % (if bf then 2 else 4) ≠ 0 → answers (.peerAdd p a bf bs) d false []) ∧
    (d.peerHeld p = false → x.en = false →
      answers (.peerWrite p a bs) d false [] ∧ (n ≤ 4096 → answers (.peerRead p a n) d false []) ∧
      (bs.length % (if bf then 2 else 4) = 0 → answers (.peerAdd p a bf bs) d false [])) ∧
    (∀ d1 d2 pa l, d.peerHeld p = false → x.en = true → 0 < n → a.toNat % 64 + n ≤ 64 →
      d.hostCheck x.asid x.part a n false = .ok d1 pa l → isWindow pa = false → d1.inRefresh l pa = false → l.kind ≠ 2 →
      d1.agentTry ⟨.host, pa, n, false, false, a⟩ = some d2 →
      answers (.peerRead p a n) (d2.noteRead pa n) true (d2.bytes pa n)) ∧
    (∀ d1 d2 pa l, d.peerHeld p = false → x.en = true → 0 < bs.length → a.toNat % 64 + bs.length ≤ 64 →
      d.hostCheck x.asid x.part a bs.length true = .ok d1 pa l →
      let puts (i : Instr) (new_ : List Byte) : Prop := d1.roomFor (d1.peer p).part 0 (cellsAt pa new_) l.cls = .fits →
        d1.agentTry ⟨.host, pa, bs.length, true, false, a⟩ = some d2 → (∀ c ∈ cellsAt pa new_, isWindow c.1 = false) →
        answers i (d2.writeLeaf (cellsAt pa new_) l.cls l.sideOf (d1.peer p).part 0).wake true []
      puts (.peerWrite p a bs) bs ∧
      (bs.length % (if bf then 2 else 4) = 0 → puts (.peerAdd p a bf bs) (addElems bf (d1.bytes pa bs.length) bs))) ∧
    -- links
    (x.down = false → (∀ o ∈ d.ops, o.2.kind ≠ .xfer) → ∃ e, Does (.linkDown p) s e ∧ e = { d with peers := e.peers } ∧
      e.peer p = { x with down := true }) ∧
    (x.down = true → ∃ e, Does (.linkReturn (p, reset)) s e ∧ e.peer p = { x with down := false } ∧ e.mem = d.mem ∧
      ∀ i,
        let mine (q : Decr) : Prop := entRmt q.entry.toNat = true ∧ entPeer q.entry.toNat = p
        (∀ q ∈ (d.die i).held, (mine q → q ∉ (e.die i).held ∧ (reset = false → q ∈ (e.die i).decrs)) ∧
          (¬ mine q → q ∈ (e.die i).held)) ∧
        (∀ q ∈ (d.die i).decrs, (reset = false ∨ ¬ mine q → q ∈ (e.die i).decrs)) ∧
        (reset = true → ∀ q ∈ (e.die i).decrs, q ∈ (d.die i).decrs ∧ ¬ mine q)) ∧
    -- host invalidation
    (d.xlRoom = true → Does (.xlpostWrite v) s { d with xlq := d.xlq ++ [nfld v.toNat 63 5 * 32], xlbusy := true }) ∧
    (d.xlRoom = false → Does (.xlpostWrite v) s { d with xlerr := true }) ∧
    Does .xlstatErrClear s { d with xlerr := false } ∧
    (∀ a r, d.xlcur = none → d.xlq = a :: r → Occurs .hostXlinvCommand s (Dev.xlTake { d with xlq := r } a)) ∧
    (∀ as range m, d.xlcur = some (m, as, range) → d.invalidDone none m as range = true →
      Does .hostXlinvComplete s { d with xldone := (d.xldone + 1) % 2 ^ 64, xlcur := none, xlbusy := !d.xlq.isEmpty }) ∧
    (∃ e r, Does (.imageRegistration v) s e ∧ e.regImgs = r :: d.regImgs ∧ e.mem = d.mem ∧
      let w (k : Nat) : Nat := d.num (v.toNat % 2 ^ 52 + 8 * k) 8
      r.part = w 0 % 64 ∧ r.asid = w 1 % 4096 ∧ r.base = w 2 ∧ r.len = w 3 ∧ r.lutPa = w 5)) ∧
  (∀ (s : State) (die page : Nat) (remote : Option (BitVec 512)) (ok : Bool), s.dev.balk = false →
    let d := s.dev
    -- admission
    (∀ v c d1 h, ((d.die die).sieve.filter fun v => v.hdr.isSome).length < 16 →
      (d.die die).sieve.find? (fun v => v.hdr.isNone) = some v → d.fxOf v.inst v.idx = some c →
      d.readAt c v.s 64 64 = .ok d1 h → seqHdr h = none →
      Occurs (.sieveAdmit die) s ((d1.endSvb die v).sendBounds c (errTok .perm v.s) (errTok .perm v.s))) ∧
    (∀ v c d1 d2 h hd ps, ((d.die die).sieve.filter fun v => v.hdr.isSome).length < 16 →
      (d.die die).sieve.find? (fun v => v.hdr.isNone) = some v → d.fxOf v.inst v.idx = some c →
      d.readAt c v.s 64 64 = .ok d1 h → seqHdr h = some hd → d1.readEntries c v.s (entLines hd.pages) [] = some (d2, ps) →
      (d2.inst c.i).isSome = true → Occurs (.sieveAdmit die) s (d2.emitPairs die c (cdiv hd.pages 16 + 1) { v with
        hdr := some (hd.len, hd.ppp, hd.hw), pages := ps })) ∧
    -- a lookup for a page of this package
    (∀ k v e c, d.sievePage die page = some (k, v, .waiting e) → d.lookups die < 64 → d.fxOf v.inst v.idx = some c →
      entRmt e.toNat = false →
      let tab := if entDie e.toNat = c.t.die then (c.x.cr.kvbtb, c.x.cr.kvbtn) else ((d.die (entDie e.toNat)).kvbtb, (d.die (entDie e.toNat)).kvbtn)
      d.sideCut (entDie e.toNat) (entGbn e.toNat) c.t.part tab = false →
      Occurs (.stage2Lookup die page none) s (d.setSvb die { v with
        pages := v.pages.set k (.asked e (d.lookup (entDie e.toNat) (entGbn e.toNat) c.t.part tab)) })) ∧
    -- another package's request for a block of this die
    (∀ p gbn part q, d.peerHeld p = false → (d.peer p).en = false →
      Does (.stage2Lookup die page (some (p, gbn, part, q))) s { d with out := .peerReply p false [] :: d.out }) ∧
    (∀ p gbn part, d.peerHeld p = false → (d.peer p).en = true →
      Does (.stage2Lookup die page (some (p, gbn, part, .side))) s { d with out := .peerStage2 p (d.lookup die gbn part) :: d.out }) ∧
    (∀ p gbn part b d1, d.peerHeld p = false → (d.peer p).en = true → d.stage2 die gbn part = some b →
      d.agentTry ⟨.host, b.pa + 24, 4, true, true, 0⟩ = some d1 →
      let done (d : Dev) : Dev := { d with out := .peerReply p true [] :: d.out }
      Occurs (.stage2Lookup die page (some (p, gbn, part, .raise))) s (done (d1.refsUp b)) ∧
      Occurs (.stage2Lookup die page (some (p, gbn, part, .drop))) s (done (d1.refsDown b))) ∧
    -- its reply bounds the page
    (∀ k v e c x len ppp hw, d.sievePage die page = some (k, v, .asked e (some x)) → d.fxOf v.inst v.idx = some c →
      entRmt e.toNat = false → v.hdr = some (len, ppp, hw) →
      Occurs (.sieveLookupReply die page remote) s (d.emitPairs die c (cdiv v.pages.length 16 + 1)
        { v with pages := v.pages.set k (.bounded (scoreBound (queryLanes v.q) hw x)) })) ∧
    -- decrements of REFS
    (∀ q r, (d.die die).decrs = q :: r →
      let d0 := d.modDie die fun x => { x with decrs := r }
      (entRmt q.entry.toNat = false ∨ d.reach (entPeer q.entry.toNat) = true →
        Occurs (.kvfreeDecrement (die, ok)) s (d0.refsDrop q.asid q.part q.entry.toNat q.addr q.who ok)) ∧
      (entRmt q.entry.toNat = true → d.reach (entPeer q.entry.toNat) = false →
        ∃ e, Does (.kvfreeDecrement (die, ok)) s e ∧ (e.die die).decrs = r ∧ (e.die die).held = (d.die die).held ++ [q])))

/-! ### The root of trust and power (R410..R418) -/

/-- The root of trust's commands and the power states (R410..R418). A command reads its request, and the completion
writes its reply, clears BUSY and signals vector 2; a request of a wrong length or with a reserved field set replies
MALFORMED. NONCE, EXTEND, PROVISION, FWUPDATE, DEBUG, UNLOCK and LOCK change the state as R411..R416 say. PWRCTL changes
the power state at once, or through the entry to P2 and the wake; cold bring-up starts from reset. The order of UNLOCK's checks
is the model's reading (log 16), and so are the order in which held accesses are made after the wake, what an entry to P2 waits for, and
that P3 answers nothing but a cold bring-up (log 15). -/
def Obligations.RootOfTrustEvents : Prop :=
  (∀ (s : State) (buf : Word), s.dev.balk = false → s.rot.power ≠ .p3 →
    let d := s.dev
    let r := s.rot
    let pa := 2 ^ 51 + nfld buf.toNat 63 12 * 4096 % 2 ^ 51
    let b (n : Nat) : List Byte := d.bytes (pa + 8) n
    let fld (n at_ k : Nat) : Nat := natOfBytes (((b n).drop at_).take k)
    let whole (n : Nat) : Prop := d.num pa 4 = n ∧ d.num (pa + 4) 4 = 0
    let d1 : Dev := { d with freeSeq := d.freeSeq + 1 }
    -- a command that replies with a result and leaves the state `q`, but for M3
    let gives (i : Instr) (op : Nat) (x : RtResult) (body : List Byte) (q : RoT) : Prop :=
      ∃ m, exec i s = .next ⟨d1, { q with
        rtbuf := nfld buf.toNat 63 12 * 4096, rtop := op, busy := true, reply := some (pa, x, body), m := m }⟩ ∧
        ∀ k (h : k < 8), k ≠ 3 → m.get ⟨k, h⟩ = q.m.get ⟨k, h⟩
    (r.busy = true → exec (.nonceCmd buf) s = .next s ∧ exec (.lockCmd buf) s = .next s ∧ exec (.unlockCmd buf) s = .next s) ∧
    (r.busy = false →
      (¬ whole 0 → gives (.nonceCmd buf) 1 .malformed [] r ∧ gives (.lockCmd buf) 8 .malformed [] r) ∧
      (whole 0 → let n := bytesOfNat 32 (Config.nonce d.freeSeq).toNat
        gives (.nonceCmd buf) 1 .done n { r with nonce := some n }) ∧
      (whole 0 → (r.sec ≠ .ownerDebug → gives (.lockCmd buf) 8 .state [] r) ∧
        (r.sec = .ownerDebug → gives (.lockCmd buf) 8 .done [] { r with sec := .locked, dbg := [] })) ∧
      (¬ whole 32 → gives (.attestCmd buf) 3 .malformed [] r) ∧
      (whole 32 → let msg := b 32 ++ r.m.toList.flatten ++ bytesOfNat 8 r.sec.num ++ bytesOfNat 8 Config.serial.toNat
        gives (.attestCmd buf) 3 .done
          (msg ++ bytesOfNat 64 (Config.edSign msg).toNat ++ bytesOfNat 3309 (Config.mlSign msg).toNat) r) ∧
      (whole 56 → fld 56 1 7 = 0 →
        (7 < fld 56 0 1 → gives (.extendCmd buf) 4 .malformed [] r) ∧ (fld 56 0 1 < 4 → gives (.extendCmd buf) 4 .state [] r) ∧
        (∀ h : fld 56 0 1 < 8, 4 ≤ fld 56 0 1 → gives (.extendCmd buf) 4 .done [] { r with
          m := r.m.set (fld 56 0 1) (sha3_384 (r.m.get ⟨fld 56 0 1, h⟩ ++ (b 56).drop 8)) })) ∧
      (whole 1984 → (r.sec ≠ .unprovisioned → gives (.provisionCmd buf) 5 .state [] r) ∧
        (r.sec = .unprovisioned → gives (.provisionCmd buf) 5 .done [] { r with
          sec := .locked, dbg := [], ownerEd := some ((b 1984).take 32), ownerMl := some ((b 1984).drop 32) })) ∧
      (whole 24 → let len := fld 24 16 8
        let obj := d.bytes (2 ^ 51 + fld 24 8 8) len
        let payload := obj.take (len - 64 - 3309 - 8)
        let v := natOfBytes ((obj.drop (len - 64 - 3309 - 8)).take 8)
        let signed := verified Config.vendorEd Config.vendorMl (obj.take (len - 64 - 3309)) (obj.drop (len - 64 - 3309))
        fld 24 0 1 ≤ 1 → fld 24 1 7 = 0 → 8 + 64 + 3309 ≤ len → fld 24 8 8 + len ≤ 2 ^ 51 →
        (signed = false → gives (.fwupdateCmd buf) 6 .signature [] r) ∧
        (signed = true → fld 24 0 1 = 0 → (v < r.fuses.1 → gives (.fwupdateCmd buf) 6 .state [] r) ∧
          (r.fuses.1 ≤ v → gives (.fwupdateCmd buf) 6 .done [] { r with fw := some (payload, v) })) ∧
        (signed = true → fld 24 0 1 = 1 → (v < r.fuses.2 → gives (.fwupdateCmd buf) 6 .state [] r) ∧
          (r.fuses.2 ≤ v → gives (.fwupdateCmd buf) 6 .done [] { r with tables := some (payload, v) }))) ∧
      (whole 24 → fld 24 0 1 < 64 → fld 24 2 6 = 0 →
        (fld 24 1 1 = 0 → gives (.debugCmd buf) 7 .done [] { r with dbg := tdel (fld 24 0 1) r.dbg }) ∧
        (∀ st, (fld 24 1 1, st) ∈ [(1, Dbg.observe), (2, .invasive)] → fld 24 8 8 % 64 = 0 → 4 ≤ fld 24 16 1 → fld 24 16 1 ≤ 16 →
          fld 24 17 7 = 0 →
          let no : Prop := r.power = .p2 ∨ r.sec = .locked ∨ r.sec = .returned ∧ st = .invasive ∧ fld 24 0 1 ≠ 0
          (no → gives (.debugCmd buf) 7 .state [] r) ∧
          (¬ no → gives (.debugCmd buf) 7 .done [] { r with
            dbg := tput (fld 24 0 1) st r.dbg, traces := tput (fld 24 0 1) ⟨fld 24 8 8, fld 24 16 1⟩ r.traces }))) ∧
      (¬ whole 3477 → gives (.unlockCmd buf) 2 .malformed [] { r with nonce := none }) ∧
      (∀ ed ml, whole 3477 → fld 3477 0 4 = 1 → 1 ≤ fld 3477 20 1 → fld 3477 20 1 ≤ 4 → fld 3477 21 3 = 0 →
        r.tokenKeys = some (ed, ml) →
        let named : Prop := fld 3477 4 8 = Config.serial.toNat ∧ r.nonce = some (((b 3477).drop 24).take 32) ∧
          ((b 3477).drop 56).take 48 = sha3_384 (ed ++ ml)
        let signed := verified ed ml ((b 3477).take 104) ((b 3477).drop 104)
        (¬ named → gives (.unlockCmd buf) 2 .identity [] { r with nonce := none }) ∧
        (named → signed = false → gives (.unlockCmd buf) 2 .signature [] { r with nonce := none }) ∧
        -- levels 1 and 2: every partition of the mask enters the state, where R410 lets each of them
        (∀ st, named → signed = true → (fld 3477 20 1, st) ∈ [(1, Dbg.observe), (2, .invasive)] →
          let parts := (List.range 64).filter fun f => (fld 3477 12 8).testBit f
          let no : Prop := ∃ f ∈ parts, r.power = .p2 ∨ r.sec = .returned ∧ st = .invasive ∧ f ≠ 0
          (no → gives (.unlockCmd buf) 2 .state [] { r with nonce := none }) ∧
          (¬ no → gives (.unlockCmd buf) 2 .done [] { r with nonce := none, dbg := parts.foldl (fun t f => tput f st t) r.dbg })) ∧
        (named → signed = true → fld 3477 20 1 = 3 ∧ r.sec ≠ .locked ∨ fld 3477 20 1 = 4 ∧ r.sec ≠ .locked ∧ r.sec ≠ .ownerDebug →
          gives (.unlockCmd buf) 2 .state [] { r with nonce := none }) ∧
        (named → signed = true → fld 3477 20 1 = 3 → r.sec = .locked →
          gives (.unlockCmd buf) 2 .done [] { r with nonce := none, sec := .ownerDebug }) ∧
        (named → signed = true → fld 3477 20 1 = 4 → r.sec = .locked ∨ r.sec = .ownerDebug →
          gives (.unlockCmd buf) 2 .done [] { r with
            nonce := none, sec := .returned, dbg := r.dbg.filter fun p => p.1 == 0 || p.2 != .invasive
            ownerEd := none, ownerMl := none, secrets := false }))) ∧
    -- completion
    (∀ at_ x body, r.reply = some (at_, x, body) → r.asked = [] →
      let bs := bytesOfNat 4 body.length ++ bytesOfNat 4 x.num ++ body
      let d2 := (((d.agentMust ⟨.agent, at_, bs.length, true, false, 0⟩).agentWrite at_ bs).wake).msix 0 2
      d2.balk = false → exec .rootOfTrustComplete s = .next ⟨d2, { r with reply := none, busy := r.waking, result := x }⟩)) ∧
  (∀ (s : State), s.dev.balk = false →
    let d := s.dev
    let r := s.rot
    -- PWRCTL: at once, or in arrival order once what is under way is done
    (r.busy = true → r.power = .p0 ∨ r.power = .p1 →
      ∀ x ∈ [(Instr.powerReqP0, Power.p0), (.powerReqP1, .p1), (.powerReqP2, .p2), (.powerReqP3, .p3)],
        exec x.1 s = .next ⟨d, { r with req := x.2, asked := r.asked ++ [x.2] }⟩) ∧
    (r.busy = false → r.asked = [] → r.power = .p0 ∨ r.power = .p1 →
      exec .powerReqP0 s = .next ⟨d, { r with req := .p0, power := .p0 }⟩ ∧
      exec .powerReqP1 s = .next ⟨d, { r with req := .p1, power := .p1 }⟩ ∧
      exec .powerReqP3 s = .next ⟨d, { r with req := .p3, power := .p3 }⟩ ∧
      let fs := (List.range 64).filter fun f => !d.suspended f
      let e := fs.foldl Dev.suspend d
      e.balk = false → exec .powerReqP2 s = .next ⟨e, { r with
        req := .p2, before := r.power, entering := true, busy := true, suspd := fs }⟩ ∧
        ∀ f < 64, e.suspended f = true) ∧
    -- REQ = 2 changes nothing while CUR reads 2, during the wake too
    (r.power = .p2 → exec .powerReqP2 s = .next ⟨d, { r with req := .p2 }⟩ ∧
      (r.busy = false → r.asked = [] → exec .powerReqP0 s = .next ⟨d, { r with
        req := .p0, before := .p0, waking := true, busy := true }⟩)) ∧
    (r.power = .p3 → ∀ i ∈ [Instr.powerReqP0, .powerReqP1, .powerReqP2, .powerReqP3], ∃ n, exec i s = .refused (.notEnabled n)) ∧
    -- P2
    (r.entering = true → d.atRest = true → r.asked = [] → ∃ e,
      exec .p2EntryComplete s = .next ⟨e, { r with power := .p2, entering := false, busy := false }⟩ ∧
      e.mem = d.mem ∧ ∀ i, (e.die i).cache = []) ∧
    (r.power = .p2 → r.waking = false → r.heldOps ≠ [] →
      exec .p2WakeAccess s = .next ⟨d, { r with waking := true, busy := true }⟩) ∧
    (r.waking = true → r.asked = [] → ∃ e,
      exec .wakeComplete s = .next ⟨e, { r with
        power := r.before, waking := false, busy := r.reply.isSome, suspd := [], heldOps := [] }⟩ ∧
      e.mem = d.mem ∧ (∀ f ∈ r.suspd, e.suspended f = false) ∧ e.agenda = r.heldOps.map Move.op ++ d.agenda) ∧
    -- cold bring-up
    (∃ t, exec .coldBringUp s = .next t ∧ t.dev = { Dev.reset with
        mem := d.mem.filter fun c => 2 ^ 51 ≤ c.1, agenda := d.agenda, freeSeq := d.freeSeq, out := d.out } ∧
      t.rot.power = .p0 ∧ t.rot.nonce = none ∧ t.rot.dbg = [] ∧ t.rot.busy = false ∧
      t.rot.sec = (if r.sec = .ownerDebug then .locked else r.sec) ∧ t.rot.ownerEd = r.ownerEd ∧ t.rot.ownerMl = r.ownerMl ∧
      (∀ x, r.fw = some x → t.rot.fwNow = x.1 ∧ t.rot.fuses.1 = x.2) ∧ (r.fw = none → t.rot.fwNow = r.fwNow ∧ t.rot.fuses.1 = r.fuses.1) ∧
      (∀ x, r.tables = some x → t.rot.tabNow = x.1 ∧ t.rot.fuses.2 = x.2) ∧
      (r.tables = none → t.rot.tabNow = r.tabNow ∧ t.rot.fuses.2 = r.fuses.2)))

end Statements
end

