-- ==== Sys2Proof/Laws/Encoding.lean ====
section
/-!
SUPPORT. The encodings of fields undo their decodings (R62..R68, R78): what a statement about words cites.
-/

namespace Sys2Proof

@[simp] theorem decPred_encPred (p : Pred) : decPred (encPred p) = p := by cases p <;> rfl
@[simp] theorem decBool_encBool (b : Bool) : decBool (encBool b) = b := by cases b <;> rfl
@[simp] theorem decRFile_encRFile (x : RFile) : decRFile (encRFile x) = x := by cases x <;> rfl
@[simp] theorem decRole_encRole (x : JoinRole) : decRole (encRole x) = x := by cases x <;> rfl
@[simp] theorem decASize_encASize (x : ASize) : decASize (encASize x) = x := by cases x <;> rfl
@[simp] theorem decOrder_encOrder (x : MOrder) : decOrder (encOrder x) = x := by cases x <;> rfl
@[simp] theorem decScope_encScope (x : Scope) : decScope (encScope x) = x := by cases x <;> rfl
@[simp] theorem decRounding_encRounding (x : Rounding) : decRounding (encRounding x) = x := by cases x <;> rfl
@[simp] theorem decLaneW_encLaneW (x : LaneW) : decLaneW (encLaneW x) = x := by cases x <;> rfl
@[simp] theorem decShuf_encShuf (x : Shuf) : decShuf (encShuf x) = x := by cases x <;> rfl
@[simp] theorem decRedOp_encRedOp (x : RedOp) : decRedOp (encRedOp x) = x := by cases x <;> rfl
@[simp] theorem decSlot_encSlot (x : Slot) : decSlot (encSlot x) = x := by cases x <;> rfl

/-- The low bits of a join. -/
theorem extract_low {m n : Nat} (x : BitVec m) (y : BitVec n) : (x ++ y).extractLsb' 0 n = y := by
  ext i hi
  simp [BitVec.getLsbD_append, hi]

/-- The high bits of a join. -/
theorem extract_high {m n : Nat} (x : BitVec m) (y : BitVec n) : (x ++ y).extractLsb' n m = x := by
  ext i hi
  simp [BitVec.getElem_extractLsb', BitVec.getLsbD_append, hi]

theorem encSlot_ne (x : Slot) : encSlot x ≠ 3#2 := by cases x <;> decide

theorem encTgt_some_ne (t : Target) : encTgt (some t) ≠ 0x1FF#9 := by
  intro h
  have h2 := congrArg (BitVec.extractLsb' 0 2) h
  simp only [encTgt, extract_low] at h2
  exact encSlot_ne t.slot (by rw [h2]; rfl)

/-- A target field reads back (R67). -/
@[simp] theorem decTgt_encTgt (t : Tgt) : decTgt (encTgt t) = t := by
  cases t with
  | none => rfl
  | some t =>
    have h : ¬ encTgt (some t) = (511 : BitVec 9) := encTgt_some_ne t
    rw [decTgt, if_neg h]
    have h1 : (encTgt (some t)).extractLsb' 0 2 = encSlot t.slot := extract_low t.idx (encSlot t.slot)
    have h2 : (encTgt (some t)).extractLsb' 2 7 = t.idx := extract_high t.idx (encSlot t.slot)
    rw [h1, h2, decSlot_encSlot]

/-- An encoded target has no slot code 11 but in 0x1FF (R67). -/
@[simp] theorem tgtOk_encTgt (t : Tgt) : tgtOk (encTgt t) = true := by
  cases t with
  | none => rfl
  | some t =>
    have h1 : (encTgt (some t)).extractLsb' 0 2 = encSlot t.slot := extract_low t.idx (encSlot t.slot)
    rw [tgtOk, h1]
    simp [encSlot_ne]

/-- The fields that a form's absent words leave at their held values (R66). -/
def Fields.held (f : Fields) : Bool :=
  match f.form with
  | .s => f.imm == 0 && f.t3 == 0x1FF && f.ext == 0 && f.lit == 0
  | .w => f.lit == 0
  | .l => true

theorem formOf_first (f : Fields) : formOf f.first = some f.form := by
  have h : f.first.extractLsb' 0 2 = f.form.code := by rw [Fields.first, extract_low]
  rw [formOf, h]
  cases f.form <;> rfl

/-- A field within the low part of a join. -/
theorem extract_in_low {m n : Nat} (x : BitVec m) (y : BitVec n) (k w : Nat) (h : k + w ≤ n) :
    (x ++ y).extractLsb' k w = y.extractLsb' k w := by
  apply BitVec.eq_of_getLsbD_eq
  intro i hi
  simp [BitVec.getLsbD_append, hi, show k + i < n by omega]

/-- A field within the high part of a join. -/
theorem extract_in_high {m n : Nat} (x : BitVec m) (y : BitVec n) (k w : Nat) (h : n ≤ k) :
    (x ++ y).extractLsb' k w = x.extractLsb' (k - n) w := by
  apply BitVec.eq_of_getLsbD_eq
  intro i hi
  have : k + i - n = k - n + i := by omega
  simp [BitVec.getLsbD_append, hi, show ¬ k + i < n by omega, this]

theorem first_opcode (f : Fields) : f.first.extractLsb' 2 8 = f.opcode := by
  rw [Fields.first, extract_in_high _ _ _ _ (by omega)]; exact extract_low _ _

theorem first_pred (f : Fields) : f.first.extractLsb' 10 2 = f.pred := by
  rw [Fields.first, extract_in_high _ _ _ _ (by omega), extract_in_high _ _ _ _ (by omega)]; exact extract_low _ _

theorem first_t1 (f : Fields) : f.first.extractLsb' 12 9 = f.t1 := by
  rw [Fields.first, extract_in_high _ _ _ _ (by omega), extract_in_high _ _ _ _ (by omega),
    extract_in_high _ _ _ _ (by omega)]; exact extract_low _ _

theorem first_t2 (f : Fields) : f.first.extractLsb' 21 9 = f.t2 := by
  rw [Fields.first, extract_in_high _ _ _ _ (by omega), extract_in_high _ _ _ _ (by omega),
    extract_in_high _ _ _ _ (by omega), extract_in_high _ _ _ _ (by omega)]; exact extract_low _ _

theorem first_variant (f : Fields) : f.first.extractLsb' 30 2 = f.variant := by
  rw [Fields.first, extract_in_high _ _ _ _ (by omega), extract_in_high _ _ _ _ (by omega),
    extract_in_high _ _ _ _ (by omega), extract_in_high _ _ _ _ (by omega)]; exact extract_high _ _

theorem second_imm (f : Fields) : f.second.extractLsb' 0 16 = f.imm := by
  rw [Fields.second]; exact extract_low _ _

theorem second_t3 (f : Fields) : f.second.extractLsb' 16 9 = f.t3 := by
  rw [Fields.second, extract_in_high _ _ _ _ (by omega)]; exact extract_low _ _

theorem second_ext (f : Fields) : f.second.extractLsb' 25 7 = f.ext := by
  rw [Fields.second, extract_in_high _ _ _ _ (by omega)]; exact extract_high _ _

/-- The decoder reads from the words of fields exactly those fields, and leaves what follows (R62..R66). -/
theorem takeFields_words (f : Fields) (h : f.held = true) (rest : List Word32) :
    takeFields (f.words ++ rest) = .ok (f, rest) := by
  obtain ⟨form, opcode, pred, variant, t1, t2, t3, ext, imm, lit⟩ := f
  cases form <;>
    simp only [Fields.words, List.cons_append, List.nil_append, takeFields, formOf_first, fieldsOfWords, first_opcode,
      first_pred, first_t1, first_t2, first_variant, second_imm, second_t3, second_ext, Fields.held,
      Bool.and_eq_true, beq_iff_eq, reduceCtorEq, if_true, if_false] at h ⊢
  · obtain ⟨⟨⟨rfl, rfl⟩, rfl⟩, rfl⟩ := h; rfl
  · subst h; rfl

end Sys2Proof
end

