-- ==== Sys2Proof/Laws/Memory.lean ====
section
/-!
SUPPORT. Memory: reading after writing, and that every write keeps the canonical form.
-/

namespace Sys2Proof.Laws

open Machine

/-- A canonical memory lists nothing below its first address. -/
theorem memWf_tail {k : Nat} {b : Byte} {r : List Host.Cell} (h : memWf ((k, b) :: r) = true) :
    memWf r = true ∧ b ≠ unlisted ∧ ∀ a ≤ k, memGet r a = unlisted := by
  cases r with
  | nil => simp_all [memWf, memGet]
  | cons p q =>
    obtain ⟨k', b'⟩ := p
    simp only [memWf, Bool.and_eq_true, bne_iff_ne, decide_eq_true_eq] at h
    refine ⟨h.2, h.1.1, fun a ha => ?_⟩
    have h1 : k' ≠ a := by omega
    have h2 : a < k' := by omega
    simp [memGet, h1, h2]

/-- Every address that a canonical memory lists is at least the bound on its first. -/
def Above (n : Nat) (m : List Host.Cell) : Prop := ∀ c ∈ m.head?, n ≤ c.1

theorem memWf_cons {k : Nat} {b : Byte} {r : List Host.Cell} (h1 : memWf r = true) (h2 : b ≠ unlisted) (h3 : Above (k + 1) r) :
    memWf ((k, b) :: r) = true := by
  cases r with
  | nil => simpa [memWf] using h2
  | cons p q =>
    obtain ⟨k', b'⟩ := p
    have : k < k' := by have := h3 (k', b') (by simp); simp at this; omega
    simp [memWf, h1, h2, this]

theorem above_tail {k : Nat} {b : Byte} {r : List Host.Cell} (h : memWf ((k, b) :: r) = true) : Above (k + 1) r := by
  intro c hc
  cases r with
  | nil => simp at hc
  | cons p q => simp at hc; subst hc; simp [memWf] at h; omega

theorem memPut_above {n a : Nat} {v : Byte} {m : List Host.Cell} (h : Above n m) (ha : n ≤ a) (hw : memWf m = true) :
    Above n (memPut m a v) := by
  cases m with
  | nil => simp only [memPut]; split <;> simp [Above, ha]
  | cons p r =>
    obtain ⟨k, b⟩ := p
    have hk : n ≤ k := h (k, b) (by simp)
    simp only [memPut]
    split
    · split <;> simp [Above, ha, hk]
    · split
      · split
        · intro c hc; have := above_tail hw c hc; omega
        · simp [Above, ha]
      · simp [Above, hk]

theorem memWf_memPut {m : List Host.Cell} (h : memWf m = true) (a : Nat) (v : Byte) : memWf (memPut m a v) = true := by
  induction m with
  | nil => simp only [memPut]; split <;> simp_all [memWf]
  | cons p r ih =>
    obtain ⟨k, b⟩ := p
    obtain ⟨h1, h2, -⟩ := memWf_tail h
    simp only [memPut]
    split
    · split
      · exact h
      · exact memWf_cons h (by assumption) (by simp [Above]; omega)
    · split
      · split
        · exact h1
        · next e _ => subst e; exact memWf_cons h1 (by assumption) (above_tail h)
      · exact memWf_cons (ih h1) h2 (memPut_above (above_tail h) (by omega) h1)

theorem memWf_memPutList {m : List Host.Cell} (h : memWf m = true) (a : Nat) (bs : List Byte) :
    memWf (memPutList m a bs) = true := by
  induction bs generalizing m a with
  | nil => exact h
  | cons b r ih => exact ih (memWf_memPut h a b) (a + 1)

theorem memWf_memPutAt {m : List Host.Cell} (h : memWf m = true) (cs : List (Nat × Byte)) : memWf (memPutAt m cs) = true := by
  induction cs generalizing m with
  | nil => exact h
  | cons c r ih => exact ih (memWf_memPut h c.1 c.2)

/-- Reading after writing one byte of a canonical memory. -/
theorem memGet_memPut {m : List Host.Cell} (h : memWf m = true) (a j : Nat) (v : Byte) :
    memGet (memPut m a v) j = if j = a then v else memGet m j := by
  induction m with
  | nil =>
    simp only [memPut]
    split
    · simp_all [memGet]
    · by_cases hj : j = a
      · simp [memGet, hj]
      · simp [memGet, hj, Ne.symm hj]
  | cons p r ih =>
    obtain ⟨k, b⟩ := p
    obtain ⟨h1, -, h3⟩ := memWf_tail h
    simp only [memPut]
    split
    · next hak =>
      split
      · next hv => by_cases hj : j = a
                   · subst hj; simp [memGet, hv, show k ≠ j by omega, hak]
                   · simp [hj]
      · by_cases hj : j = a
        · simp [memGet, hj]
        · simp only [hj, if_false]
          by_cases hja : j < a
          · simp [memGet, Ne.symm hj, hja, show k ≠ j by omega, show j < k by omega]
          · have e : memGet ((a, v) :: (k, b) :: r) j =
                if a = j then v else if j < a then unlisted else memGet ((k, b) :: r) j := rfl
            rw [e]; simp [Ne.symm hj, hja]
    · next hak =>
      by_cases hka : k = a
      · subst hka
        simp only [if_true]
        split
        · next hv => by_cases hj : j = k
                     · subst hj; simp [h3 j (Nat.le_refl _), hv]
                     · simp only [hj, if_false, memGet, Ne.symm hj]
                       split
                       · exact h3 j (by omega)
                       · rfl
        · by_cases hj : j = k
          · simp [memGet, hj]
          · simp [memGet, hj, Ne.symm hj]
      · simp only [hka, if_false, memGet, ih h1]
        by_cases hj : j = a
        · subst hj; simp [hka, hak]
        · simp [hj]

theorem byte_put {d : Dev} (h : memWf d.mem = true) (a j : Nat) (v : Byte) :
    ({ d with mem := memPut d.mem a v } : Dev).byte j = if j = a then v else d.byte j := memGet_memPut h a j v

/-- The last of several bytes for one address stands. -/
theorem memGet_memPutAt {m : List Host.Cell} (h : memWf m = true) (cs : List (Nat × Byte)) (j : Nat) :
    memGet (memPutAt m cs) j = ((cs.reverse.find? fun x => x.1 == j).map (·.2)).getD (memGet m j) := by
  induction cs generalizing m with
  | nil => rfl
  | cons c r ih =>
    simp only [memPutAt, ih (memWf_memPut h c.1 c.2), memGet_memPut h, List.reverse_cons, List.find?_append]
    cases hf : r.reverse.find? fun x => x.1 == j with
    | some x => simp
    | none => by_cases hc : c.1 = j
              · simp [hc]
              · simp [hc, Ne.symm hc]

theorem memGet_memPutList {m : List Host.Cell} (h : memWf m = true) (a : Nat) (bs : List Byte) (j : Nat) :
    memGet (memPutList m a bs) j = if a ≤ j then (bs[j - a]?).getD (memGet m j) else memGet m j := by
  induction bs generalizing m a with
  | nil => simp [memPutList]
  | cons b r ih =>
    simp only [memPutList, ih (memWf_memPut h a b), memGet_memPut h]
    by_cases h1 : j = a
    · subst h1; simp [show ¬ j + 1 ≤ j by omega]
    · by_cases h2 : a ≤ j
      · obtain ⟨k, hk⟩ : ∃ k, j - a = k + 1 := ⟨j - a - 1, by omega⟩
        simp [show a + 1 ≤ j by omega, h2, hk, show j - (a + 1) = k by omega, h1]
      · simp [show ¬ a + 1 ≤ j by omega, h2, h1]

end Sys2Proof.Laws
end

