-- ==== Sys2Proof/Laws/Tables.lean ====
section
/-!
SUPPORT. Reading a table after an entry is set, changed or removed.
-/

namespace Sys2Proof.Laws

open Machine

variable {κ α : Type} [DecidableEq κ]

@[simp] theorem tget_nil (k : κ) : tget k ([] : List (κ × α)) = none := rfl

theorem tget_tput (j k : κ) (v : α) (l : List (κ × α)) : tget j (tput k v l) = if j = k then some v else tget j l := by
  induction l with
  | nil => by_cases h : j = k <;> simp [tput, tget, h, eq_comm]
  | cons p r ih =>
    obtain ⟨a, b⟩ := p
    by_cases h : a = k
    · subst h; by_cases h2 : j = a
      · subst h2; simp [tput, tget]
      · simp [tput, tget, h2, Ne.symm h2]
    · simp only [tput, h, if_false, tget, ih]
      by_cases h2 : a = j
      · subst h2; simp [h]
      · simp [h2]

theorem tget_tmod (j k : κ) (f : α → α) (l : List (κ × α)) :
    tget j (tmod k f l) = if j = k then (tget k l).map f else tget j l := by
  induction l with
  | nil => by_cases h : j = k <;> simp [tmod, tget, h]
  | cons p r ih =>
    obtain ⟨a, b⟩ := p
    by_cases h : a = k
    · subst h; by_cases h2 : j = a
      · subst h2; simp [tmod, tget]
      · simp [tmod, tget, h2, Ne.symm h2]
    · simp only [tmod, h, if_false, tget, ih]
      by_cases h2 : a = j
      · subst h2; simp [h]
      · simp [h2]

theorem tget_tdel (j k : κ) (l : List (κ × α)) : tget j (tdel k l) = if j = k then none else tget j l := by
  induction l with
  | nil => simp [tdel, tget]
  | cons p r ih =>
    obtain ⟨a, b⟩ := p
    by_cases h : a = k
    · subst h; by_cases h2 : j = a
      · subst h2; simp [tdel, ih]
      · simp [tdel, tget, ih, h2, Ne.symm h2]
    · simp only [tdel, h, if_false, tget, ih]
      by_cases h2 : a = j
      · subst h2; simp [h]
      · simp [h2]

/-- An entry appended under a new key reads back, and no other changes. -/
theorem tget_append (j k : κ) (v : α) (l : List (κ × α)) (h : tget k l = none) :
    tget j (l ++ [(k, v)]) = if j = k then some v else tget j l := by
  induction l with
  | nil => by_cases h2 : j = k <;> simp [tget, h2, eq_comm]
  | cons p r ih =>
    obtain ⟨a, b⟩ := p
    by_cases h3 : a = k
    · simp [tget, h3] at h
    · simp only [tget, h3, if_false] at h
      simp only [List.cons_append, tget, ih h]
      by_cases h2 : a = j
      · subst h2; simp [h3]
      · simp [h2]

end Sys2Proof.Laws
end

