-- ==== Sys2Proof/Laws/State.lean ====
section
/-!
SUPPORT. The updates of the state: what each leaves of every other field, and how the entry that it changes reads.
-/

namespace Sys2Proof.Laws

open Machine

/-! ### Fields that an update leaves alone -/

@[simp] theorem modThread_cycle (d : Dev) (t : Nat) (f : Thread → Thread) : (d.modThread t f).cycle = d.cycle := rfl
@[simp] theorem modThread_freeSeq (d : Dev) (t : Nat) (f : Thread → Thread) : (d.modThread t f).freeSeq = d.freeSeq := rfl
@[simp] theorem modThread_agenda (d : Dev) (t : Nat) (f : Thread → Thread) : (d.modThread t f).agenda = d.agenda := rfl
@[simp] theorem modThread_mem (d : Dev) (t : Nat) (f : Thread → Thread) : (d.modThread t f).mem = d.mem := rfl
@[simp] theorem modThread_nextTid (d : Dev) (t : Nat) (f : Thread → Thread) : (d.modThread t f).nextTid = d.nextTid := rfl
@[simp] theorem modThread_nextOrd (d : Dev) (t : Nat) (f : Thread → Thread) : (d.modThread t f).nextOrd = d.nextOrd := rfl
@[simp] theorem modThread_commits (d : Dev) (t : Nat) (f : Thread → Thread) : (d.modThread t f).commits = d.commits := rfl
@[simp] theorem modThread_launches (d : Dev) (t : Nat) (f : Thread → Thread) : (d.modThread t f).launches = d.launches := rfl
@[simp] theorem modThread_nextLaunch (d : Dev) (t : Nat) (f : Thread → Thread) : (d.modThread t f).nextLaunch = d.nextLaunch := rfl
@[simp] theorem modThread_regions (d : Dev) (t : Nat) (f : Thread → Thread) : (d.modThread t f).regions = d.regions := rfl
@[simp] theorem modThread_nextRegion (d : Dev) (t : Nat) (f : Thread → Thread) : (d.modThread t f).nextRegion = d.nextRegion := rfl
@[simp] theorem modThread_insts (d : Dev) (t : Nat) (f : Thread → Thread) : (d.modThread t f).insts = d.insts := rfl
@[simp] theorem modThread_nextInst (d : Dev) (t : Nat) (f : Thread → Thread) : (d.modThread t f).nextInst = d.nextInst := rfl
@[simp] theorem modThread_fire (d : Dev) (t : Nat) (f : Thread → Thread) : (d.modThread t f).fire = d.fire := rfl
@[simp] theorem modThread_fetches (d : Dev) (t : Nat) (f : Thread → Thread) : (d.modThread t f).fetches = d.fetches := rfl
@[simp] theorem modThread_placed (d : Dev) (t : Nat) (f : Thread → Thread) : (d.modThread t f).placed = d.placed := rfl
@[simp] theorem modThread_rejPair (d : Dev) (t : Nat) (f : Thread → Thread) : (d.modThread t f).rejPair = d.rejPair := rfl
@[simp] theorem modThread_rejDig (d : Dev) (t : Nat) (f : Thread → Thread) : (d.modThread t f).rejDig = d.rejDig := rfl
@[simp] theorem modThread_regImgs (d : Dev) (t : Nat) (f : Thread → Thread) : (d.modThread t f).regImgs = d.regImgs := rfl
@[simp] theorem modThread_ropes (d : Dev) (t : Nat) (f : Thread → Thread) : (d.modThread t f).ropes = d.ropes := rfl
@[simp] theorem modThread_rcbs (d : Dev) (t : Nat) (f : Thread → Thread) : (d.modThread t f).rcbs = d.rcbs := rfl
@[simp] theorem modThread_streams (d : Dev) (t : Nat) (f : Thread → Thread) : (d.modThread t f).streams = d.streams := rfl
@[simp] theorem modThread_drip (d : Dev) (t : Nat) (f : Thread → Thread) : (d.modThread t f).drip = d.drip := rfl
@[simp] theorem modThread_windows (d : Dev) (t : Nat) (f : Thread → Thread) : (d.modThread t f).windows = d.windows := rfl
@[simp] theorem modThread_queues (d : Dev) (t : Nat) (f : Thread → Thread) : (d.modThread t f).queues = d.queues := rfl
@[simp] theorem modThread_rr (d : Dev) (t : Nat) (f : Thread → Thread) : (d.modThread t f).rr = d.rr := rfl
@[simp] theorem modThread_devq (d : Dev) (t : Nat) (f : Thread → Thread) : (d.modThread t f).devq = d.devq := rfl
@[simp] theorem modThread_tears (d : Dev) (t : Nat) (f : Thread → Thread) : (d.modThread t f).tears = d.tears := rfl
@[simp] theorem modThread_recs (d : Dev) (t : Nat) (f : Thread → Thread) : (d.modThread t f).recs = d.recs := rfl
@[simp] theorem modThread_holds (d : Dev) (t : Nat) (f : Thread → Thread) : (d.modThread t f).holds = d.holds := rfl
@[simp] theorem modThread_ops (d : Dev) (t : Nat) (f : Thread → Thread) : (d.modThread t f).ops = d.ops := rfl
@[simp] theorem modThread_nextOp (d : Dev) (t : Nat) (f : Thread → Thread) : (d.modThread t f).nextOp = d.nextOp := rfl
@[simp] theorem modThread_nodes (d : Dev) (t : Nat) (f : Thread → Thread) : (d.modThread t f).nodes = d.nodes := rfl
@[simp] theorem modThread_shelves (d : Dev) (t : Nat) (f : Thread → Thread) : (d.modThread t f).shelves = d.shelves := rfl
@[simp] theorem modThread_chunks (d : Dev) (t : Nat) (f : Thread → Thread) : (d.modThread t f).chunks = d.chunks := rfl
@[simp] theorem modThread_pools (d : Dev) (t : Nat) (f : Thread → Thread) : (d.modThread t f).pools = d.pools := rfl
@[simp] theorem modThread_pres (d : Dev) (t : Nat) (f : Thread → Thread) : (d.modThread t f).pres = d.pres := rfl
@[simp] theorem modThread_resvs (d : Dev) (t : Nat) (f : Thread → Thread) : (d.modThread t f).resvs = d.resvs := rfl
@[simp] theorem modThread_zeros (d : Dev) (t : Nat) (f : Thread → Thread) : (d.modThread t f).zeros = d.zeros := rfl
@[simp] theorem modThread_bounce (d : Dev) (t : Nat) (f : Thread → Thread) : (d.modThread t f).bounce = d.bounce := rfl
@[simp] theorem modThread_migs (d : Dev) (t : Nat) (f : Thread → Thread) : (d.modThread t f).migs = d.migs := rfl
@[simp] theorem modThread_nextMig (d : Dev) (t : Nat) (f : Thread → Thread) : (d.modThread t f).nextMig = d.nextMig := rfl
@[simp] theorem modThread_migq (d : Dev) (t : Nat) (f : Thread → Thread) : (d.modThread t f).migq = d.migq := rfl
@[simp] theorem modThread_settle (d : Dev) (t : Nat) (f : Thread → Thread) : (d.modThread t f).settle = d.settle := rfl
@[simp] theorem modThread_dies (d : Dev) (t : Nat) (f : Thread → Thread) : (d.modThread t f).dies = d.dies := rfl
@[simp] theorem modThread_parts (d : Dev) (t : Nat) (f : Thread → Thread) : (d.modThread t f).parts = d.parts := rfl
@[simp] theorem modThread_funcs (d : Dev) (t : Nat) (f : Thread → Thread) : (d.modThread t f).funcs = d.funcs := rfl
@[simp] theorem modThread_peers (d : Dev) (t : Nat) (f : Thread → Thread) : (d.modThread t f).peers = d.peers := rfl
@[simp] theorem modThread_asidtb (d : Dev) (t : Nat) (f : Thread → Thread) : (d.modThread t f).asidtb = d.asidtb := rfl
@[simp] theorem modThread_migsettle (d : Dev) (t : Nat) (f : Thread → Thread) : (d.modThread t f).migsettle = d.migsettle := rfl
@[simp] theorem modThread_xlq (d : Dev) (t : Nat) (f : Thread → Thread) : (d.modThread t f).xlq = d.xlq := rfl
@[simp] theorem modThread_xlbusy (d : Dev) (t : Nat) (f : Thread → Thread) : (d.modThread t f).xlbusy = d.xlbusy := rfl
@[simp] theorem modThread_xldone (d : Dev) (t : Nat) (f : Thread → Thread) : (d.modThread t f).xldone = d.xldone := rfl
@[simp] theorem modThread_xlerr (d : Dev) (t : Nat) (f : Thread → Thread) : (d.modThread t f).xlerr = d.xlerr := rfl
@[simp] theorem modThread_xlcur (d : Dev) (t : Nat) (f : Thread → Thread) : (d.modThread t f).xlcur = d.xlcur := rfl
@[simp] theorem modThread_pend (d : Dev) (t : Nat) (f : Thread → Thread) : (d.modThread t f).pend = d.pend := rfl
@[simp] theorem modThread_recq (d : Dev) (t : Nat) (f : Thread → Thread) : (d.modThread t f).recq = d.recq := rfl
@[simp] theorem modThread_names (d : Dev) (t : Nat) (f : Thread → Thread) : (d.modThread t f).names = d.names := rfl
@[simp] theorem modThread_ident (d : Dev) (t : Nat) (f : Thread → Thread) : (d.modThread t f).ident = d.ident := rfl
@[simp] theorem modThread_out (d : Dev) (t : Nat) (f : Thread → Thread) : (d.modThread t f).out = d.out := rfl
@[simp] theorem modThread_balk (d : Dev) (t : Nat) (f : Thread → Thread) : (d.modThread t f).balk = d.balk := rfl

@[simp] theorem modInst_cycle (d : Dev) (i : Nat) (f : Inst → Inst) : (d.modInst i f).cycle = d.cycle := rfl
@[simp] theorem modInst_freeSeq (d : Dev) (i : Nat) (f : Inst → Inst) : (d.modInst i f).freeSeq = d.freeSeq := rfl
@[simp] theorem modInst_agenda (d : Dev) (i : Nat) (f : Inst → Inst) : (d.modInst i f).agenda = d.agenda := rfl
@[simp] theorem modInst_mem (d : Dev) (i : Nat) (f : Inst → Inst) : (d.modInst i f).mem = d.mem := rfl
@[simp] theorem modInst_threads (d : Dev) (i : Nat) (f : Inst → Inst) : (d.modInst i f).threads = d.threads := rfl
@[simp] theorem modInst_nextTid (d : Dev) (i : Nat) (f : Inst → Inst) : (d.modInst i f).nextTid = d.nextTid := rfl
@[simp] theorem modInst_nextOrd (d : Dev) (i : Nat) (f : Inst → Inst) : (d.modInst i f).nextOrd = d.nextOrd := rfl
@[simp] theorem modInst_commits (d : Dev) (i : Nat) (f : Inst → Inst) : (d.modInst i f).commits = d.commits := rfl
@[simp] theorem modInst_launches (d : Dev) (i : Nat) (f : Inst → Inst) : (d.modInst i f).launches = d.launches := rfl
@[simp] theorem modInst_nextLaunch (d : Dev) (i : Nat) (f : Inst → Inst) : (d.modInst i f).nextLaunch = d.nextLaunch := rfl
@[simp] theorem modInst_regions (d : Dev) (i : Nat) (f : Inst → Inst) : (d.modInst i f).regions = d.regions := rfl
@[simp] theorem modInst_nextRegion (d : Dev) (i : Nat) (f : Inst → Inst) : (d.modInst i f).nextRegion = d.nextRegion := rfl
@[simp] theorem modInst_nextInst (d : Dev) (i : Nat) (f : Inst → Inst) : (d.modInst i f).nextInst = d.nextInst := rfl
@[simp] theorem modInst_fire (d : Dev) (i : Nat) (f : Inst → Inst) : (d.modInst i f).fire = d.fire := rfl
@[simp] theorem modInst_fetches (d : Dev) (i : Nat) (f : Inst → Inst) : (d.modInst i f).fetches = d.fetches := rfl
@[simp] theorem modInst_placed (d : Dev) (i : Nat) (f : Inst → Inst) : (d.modInst i f).placed = d.placed := rfl
@[simp] theorem modInst_rejPair (d : Dev) (i : Nat) (f : Inst → Inst) : (d.modInst i f).rejPair = d.rejPair := rfl
@[simp] theorem modInst_rejDig (d : Dev) (i : Nat) (f : Inst → Inst) : (d.modInst i f).rejDig = d.rejDig := rfl
@[simp] theorem modInst_regImgs (d : Dev) (i : Nat) (f : Inst → Inst) : (d.modInst i f).regImgs = d.regImgs := rfl
@[simp] theorem modInst_ropes (d : Dev) (i : Nat) (f : Inst → Inst) : (d.modInst i f).ropes = d.ropes := rfl
@[simp] theorem modInst_rcbs (d : Dev) (i : Nat) (f : Inst → Inst) : (d.modInst i f).rcbs = d.rcbs := rfl
@[simp] theorem modInst_streams (d : Dev) (i : Nat) (f : Inst → Inst) : (d.modInst i f).streams = d.streams := rfl
@[simp] theorem modInst_drip (d : Dev) (i : Nat) (f : Inst → Inst) : (d.modInst i f).drip = d.drip := rfl
@[simp] theorem modInst_windows (d : Dev) (i : Nat) (f : Inst → Inst) : (d.modInst i f).windows = d.windows := rfl
@[simp] theorem modInst_queues (d : Dev) (i : Nat) (f : Inst → Inst) : (d.modInst i f).queues = d.queues := rfl
@[simp] theorem modInst_rr (d : Dev) (i : Nat) (f : Inst → Inst) : (d.modInst i f).rr = d.rr := rfl
@[simp] theorem modInst_devq (d : Dev) (i : Nat) (f : Inst → Inst) : (d.modInst i f).devq = d.devq := rfl
@[simp] theorem modInst_tears (d : Dev) (i : Nat) (f : Inst → Inst) : (d.modInst i f).tears = d.tears := rfl
@[simp] theorem modInst_recs (d : Dev) (i : Nat) (f : Inst → Inst) : (d.modInst i f).recs = d.recs := rfl
@[simp] theorem modInst_holds (d : Dev) (i : Nat) (f : Inst → Inst) : (d.modInst i f).holds = d.holds := rfl
@[simp] theorem modInst_ops (d : Dev) (i : Nat) (f : Inst → Inst) : (d.modInst i f).ops = d.ops := rfl
@[simp] theorem modInst_nextOp (d : Dev) (i : Nat) (f : Inst → Inst) : (d.modInst i f).nextOp = d.nextOp := rfl
@[simp] theorem modInst_nodes (d : Dev) (i : Nat) (f : Inst → Inst) : (d.modInst i f).nodes = d.nodes := rfl
@[simp] theorem modInst_shelves (d : Dev) (i : Nat) (f : Inst → Inst) : (d.modInst i f).shelves = d.shelves := rfl
@[simp] theorem modInst_chunks (d : Dev) (i : Nat) (f : Inst → Inst) : (d.modInst i f).chunks = d.chunks := rfl
@[simp] theorem modInst_pools (d : Dev) (i : Nat) (f : Inst → Inst) : (d.modInst i f).pools = d.pools := rfl
@[simp] theorem modInst_pres (d : Dev) (i : Nat) (f : Inst → Inst) : (d.modInst i f).pres = d.pres := rfl
@[simp] theorem modInst_resvs (d : Dev) (i : Nat) (f : Inst → Inst) : (d.modInst i f).resvs = d.resvs := rfl
@[simp] theorem modInst_zeros (d : Dev) (i : Nat) (f : Inst → Inst) : (d.modInst i f).zeros = d.zeros := rfl
@[simp] theorem modInst_bounce (d : Dev) (i : Nat) (f : Inst → Inst) : (d.modInst i f).bounce = d.bounce := rfl
@[simp] theorem modInst_migs (d : Dev) (i : Nat) (f : Inst → Inst) : (d.modInst i f).migs = d.migs := rfl
@[simp] theorem modInst_nextMig (d : Dev) (i : Nat) (f : Inst → Inst) : (d.modInst i f).nextMig = d.nextMig := rfl
@[simp] theorem modInst_migq (d : Dev) (i : Nat) (f : Inst → Inst) : (d.modInst i f).migq = d.migq := rfl
@[simp] theorem modInst_settle (d : Dev) (i : Nat) (f : Inst → Inst) : (d.modInst i f).settle = d.settle := rfl
@[simp] theorem modInst_dies (d : Dev) (i : Nat) (f : Inst → Inst) : (d.modInst i f).dies = d.dies := rfl
@[simp] theorem modInst_parts (d : Dev) (i : Nat) (f : Inst → Inst) : (d.modInst i f).parts = d.parts := rfl
@[simp] theorem modInst_funcs (d : Dev) (i : Nat) (f : Inst → Inst) : (d.modInst i f).funcs = d.funcs := rfl
@[simp] theorem modInst_peers (d : Dev) (i : Nat) (f : Inst → Inst) : (d.modInst i f).peers = d.peers := rfl
@[simp] theorem modInst_asidtb (d : Dev) (i : Nat) (f : Inst → Inst) : (d.modInst i f).asidtb = d.asidtb := rfl
@[simp] theorem modInst_migsettle (d : Dev) (i : Nat) (f : Inst → Inst) : (d.modInst i f).migsettle = d.migsettle := rfl
@[simp] theorem modInst_xlq (d : Dev) (i : Nat) (f : Inst → Inst) : (d.modInst i f).xlq = d.xlq := rfl
@[simp] theorem modInst_xlbusy (d : Dev) (i : Nat) (f : Inst → Inst) : (d.modInst i f).xlbusy = d.xlbusy := rfl
@[simp] theorem modInst_xldone (d : Dev) (i : Nat) (f : Inst → Inst) : (d.modInst i f).xldone = d.xldone := rfl
@[simp] theorem modInst_xlerr (d : Dev) (i : Nat) (f : Inst → Inst) : (d.modInst i f).xlerr = d.xlerr := rfl
@[simp] theorem modInst_xlcur (d : Dev) (i : Nat) (f : Inst → Inst) : (d.modInst i f).xlcur = d.xlcur := rfl
@[simp] theorem modInst_pend (d : Dev) (i : Nat) (f : Inst → Inst) : (d.modInst i f).pend = d.pend := rfl
@[simp] theorem modInst_recq (d : Dev) (i : Nat) (f : Inst → Inst) : (d.modInst i f).recq = d.recq := rfl
@[simp] theorem modInst_names (d : Dev) (i : Nat) (f : Inst → Inst) : (d.modInst i f).names = d.names := rfl
@[simp] theorem modInst_ident (d : Dev) (i : Nat) (f : Inst → Inst) : (d.modInst i f).ident = d.ident := rfl
@[simp] theorem modInst_out (d : Dev) (i : Nat) (f : Inst → Inst) : (d.modInst i f).out = d.out := rfl
@[simp] theorem modInst_balk (d : Dev) (i : Nat) (f : Inst → Inst) : (d.modInst i f).balk = d.balk := rfl

@[simp] theorem modRegion_cycle (d : Dev) (k : Nat) (f : Region → Region) : (d.modRegion k f).cycle = d.cycle := rfl
@[simp] theorem modRegion_freeSeq (d : Dev) (k : Nat) (f : Region → Region) : (d.modRegion k f).freeSeq = d.freeSeq := rfl
@[simp] theorem modRegion_agenda (d : Dev) (k : Nat) (f : Region → Region) : (d.modRegion k f).agenda = d.agenda := rfl
@[simp] theorem modRegion_mem (d : Dev) (k : Nat) (f : Region → Region) : (d.modRegion k f).mem = d.mem := rfl
@[simp] theorem modRegion_threads (d : Dev) (k : Nat) (f : Region → Region) : (d.modRegion k f).threads = d.threads := rfl
@[simp] theorem modRegion_nextTid (d : Dev) (k : Nat) (f : Region → Region) : (d.modRegion k f).nextTid = d.nextTid := rfl
@[simp] theorem modRegion_nextOrd (d : Dev) (k : Nat) (f : Region → Region) : (d.modRegion k f).nextOrd = d.nextOrd := rfl
@[simp] theorem modRegion_commits (d : Dev) (k : Nat) (f : Region → Region) : (d.modRegion k f).commits = d.commits := rfl
@[simp] theorem modRegion_launches (d : Dev) (k : Nat) (f : Region → Region) : (d.modRegion k f).launches = d.launches := rfl
@[simp] theorem modRegion_nextLaunch (d : Dev) (k : Nat) (f : Region → Region) : (d.modRegion k f).nextLaunch = d.nextLaunch := rfl
@[simp] theorem modRegion_nextRegion (d : Dev) (k : Nat) (f : Region → Region) : (d.modRegion k f).nextRegion = d.nextRegion := rfl
@[simp] theorem modRegion_insts (d : Dev) (k : Nat) (f : Region → Region) : (d.modRegion k f).insts = d.insts := rfl
@[simp] theorem modRegion_nextInst (d : Dev) (k : Nat) (f : Region → Region) : (d.modRegion k f).nextInst = d.nextInst := rfl
@[simp] theorem modRegion_fire (d : Dev) (k : Nat) (f : Region → Region) : (d.modRegion k f).fire = d.fire := rfl
@[simp] theorem modRegion_fetches (d : Dev) (k : Nat) (f : Region → Region) : (d.modRegion k f).fetches = d.fetches := rfl
@[simp] theorem modRegion_placed (d : Dev) (k : Nat) (f : Region → Region) : (d.modRegion k f).placed = d.placed := rfl
@[simp] theorem modRegion_rejPair (d : Dev) (k : Nat) (f : Region → Region) : (d.modRegion k f).rejPair = d.rejPair := rfl
@[simp] theorem modRegion_rejDig (d : Dev) (k : Nat) (f : Region → Region) : (d.modRegion k f).rejDig = d.rejDig := rfl
@[simp] theorem modRegion_regImgs (d : Dev) (k : Nat) (f : Region → Region) : (d.modRegion k f).regImgs = d.regImgs := rfl
@[simp] theorem modRegion_ropes (d : Dev) (k : Nat) (f : Region → Region) : (d.modRegion k f).ropes = d.ropes := rfl
@[simp] theorem modRegion_rcbs (d : Dev) (k : Nat) (f : Region → Region) : (d.modRegion k f).rcbs = d.rcbs := rfl
@[simp] theorem modRegion_streams (d : Dev) (k : Nat) (f : Region → Region) : (d.modRegion k f).streams = d.streams := rfl
@[simp] theorem modRegion_drip (d : Dev) (k : Nat) (f : Region → Region) : (d.modRegion k f).drip = d.drip := rfl
@[simp] theorem modRegion_windows (d : Dev) (k : Nat) (f : Region → Region) : (d.modRegion k f).windows = d.windows := rfl
@[simp] theorem modRegion_queues (d : Dev) (k : Nat) (f : Region → Region) : (d.modRegion k f).queues = d.queues := rfl
@[simp] theorem modRegion_rr (d : Dev) (k : Nat) (f : Region → Region) : (d.modRegion k f).rr = d.rr := rfl
@[simp] theorem modRegion_devq (d : Dev) (k : Nat) (f : Region → Region) : (d.modRegion k f).devq = d.devq := rfl
@[simp] theorem modRegion_tears (d : Dev) (k : Nat) (f : Region → Region) : (d.modRegion k f).tears = d.tears := rfl
@[simp] theorem modRegion_recs (d : Dev) (k : Nat) (f : Region → Region) : (d.modRegion k f).recs = d.recs := rfl
@[simp] theorem modRegion_holds (d : Dev) (k : Nat) (f : Region → Region) : (d.modRegion k f).holds = d.holds := rfl
@[simp] theorem modRegion_ops (d : Dev) (k : Nat) (f : Region → Region) : (d.modRegion k f).ops = d.ops := rfl
@[simp] theorem modRegion_nextOp (d : Dev) (k : Nat) (f : Region → Region) : (d.modRegion k f).nextOp = d.nextOp := rfl
@[simp] theorem modRegion_nodes (d : Dev) (k : Nat) (f : Region → Region) : (d.modRegion k f).nodes = d.nodes := rfl
@[simp] theorem modRegion_shelves (d : Dev) (k : Nat) (f : Region → Region) : (d.modRegion k f).shelves = d.shelves := rfl
@[simp] theorem modRegion_chunks (d : Dev) (k : Nat) (f : Region → Region) : (d.modRegion k f).chunks = d.chunks := rfl
@[simp] theorem modRegion_pools (d : Dev) (k : Nat) (f : Region → Region) : (d.modRegion k f).pools = d.pools := rfl
@[simp] theorem modRegion_pres (d : Dev) (k : Nat) (f : Region → Region) : (d.modRegion k f).pres = d.pres := rfl
@[simp] theorem modRegion_resvs (d : Dev) (k : Nat) (f : Region → Region) : (d.modRegion k f).resvs = d.resvs := rfl
@[simp] theorem modRegion_zeros (d : Dev) (k : Nat) (f : Region → Region) : (d.modRegion k f).zeros = d.zeros := rfl
@[simp] theorem modRegion_bounce (d : Dev) (k : Nat) (f : Region → Region) : (d.modRegion k f).bounce = d.bounce := rfl
@[simp] theorem modRegion_migs (d : Dev) (k : Nat) (f : Region → Region) : (d.modRegion k f).migs = d.migs := rfl
@[simp] theorem modRegion_nextMig (d : Dev) (k : Nat) (f : Region → Region) : (d.modRegion k f).nextMig = d.nextMig := rfl
@[simp] theorem modRegion_migq (d : Dev) (k : Nat) (f : Region → Region) : (d.modRegion k f).migq = d.migq := rfl
@[simp] theorem modRegion_settle (d : Dev) (k : Nat) (f : Region → Region) : (d.modRegion k f).settle = d.settle := rfl
@[simp] theorem modRegion_dies (d : Dev) (k : Nat) (f : Region → Region) : (d.modRegion k f).dies = d.dies := rfl
@[simp] theorem modRegion_parts (d : Dev) (k : Nat) (f : Region → Region) : (d.modRegion k f).parts = d.parts := rfl
@[simp] theorem modRegion_funcs (d : Dev) (k : Nat) (f : Region → Region) : (d.modRegion k f).funcs = d.funcs := rfl
@[simp] theorem modRegion_peers (d : Dev) (k : Nat) (f : Region → Region) : (d.modRegion k f).peers = d.peers := rfl
@[simp] theorem modRegion_asidtb (d : Dev) (k : Nat) (f : Region → Region) : (d.modRegion k f).asidtb = d.asidtb := rfl
@[simp] theorem modRegion_migsettle (d : Dev) (k : Nat) (f : Region → Region) : (d.modRegion k f).migsettle = d.migsettle := rfl
@[simp] theorem modRegion_xlq (d : Dev) (k : Nat) (f : Region → Region) : (d.modRegion k f).xlq = d.xlq := rfl
@[simp] theorem modRegion_xlbusy (d : Dev) (k : Nat) (f : Region → Region) : (d.modRegion k f).xlbusy = d.xlbusy := rfl
@[simp] theorem modRegion_xldone (d : Dev) (k : Nat) (f : Region → Region) : (d.modRegion k f).xldone = d.xldone := rfl
@[simp] theorem modRegion_xlerr (d : Dev) (k : Nat) (f : Region → Region) : (d.modRegion k f).xlerr = d.xlerr := rfl
@[simp] theorem modRegion_xlcur (d : Dev) (k : Nat) (f : Region → Region) : (d.modRegion k f).xlcur = d.xlcur := rfl
@[simp] theorem modRegion_pend (d : Dev) (k : Nat) (f : Region → Region) : (d.modRegion k f).pend = d.pend := rfl
@[simp] theorem modRegion_recq (d : Dev) (k : Nat) (f : Region → Region) : (d.modRegion k f).recq = d.recq := rfl
@[simp] theorem modRegion_names (d : Dev) (k : Nat) (f : Region → Region) : (d.modRegion k f).names = d.names := rfl
@[simp] theorem modRegion_ident (d : Dev) (k : Nat) (f : Region → Region) : (d.modRegion k f).ident = d.ident := rfl
@[simp] theorem modRegion_out (d : Dev) (k : Nat) (f : Region → Region) : (d.modRegion k f).out = d.out := rfl
@[simp] theorem modRegion_balk (d : Dev) (k : Nat) (f : Region → Region) : (d.modRegion k f).balk = d.balk := rfl

@[simp] theorem setRcb_cycle (d : Dev) (k : Nat) (u : RcbUse) : (d.setRcb k u).cycle = d.cycle := rfl
@[simp] theorem setRcb_freeSeq (d : Dev) (k : Nat) (u : RcbUse) : (d.setRcb k u).freeSeq = d.freeSeq := rfl
@[simp] theorem setRcb_agenda (d : Dev) (k : Nat) (u : RcbUse) : (d.setRcb k u).agenda = d.agenda := rfl
@[simp] theorem setRcb_mem (d : Dev) (k : Nat) (u : RcbUse) : (d.setRcb k u).mem = d.mem := rfl
@[simp] theorem setRcb_threads (d : Dev) (k : Nat) (u : RcbUse) : (d.setRcb k u).threads = d.threads := rfl
@[simp] theorem setRcb_nextTid (d : Dev) (k : Nat) (u : RcbUse) : (d.setRcb k u).nextTid = d.nextTid := rfl
@[simp] theorem setRcb_nextOrd (d : Dev) (k : Nat) (u : RcbUse) : (d.setRcb k u).nextOrd = d.nextOrd := rfl
@[simp] theorem setRcb_commits (d : Dev) (k : Nat) (u : RcbUse) : (d.setRcb k u).commits = d.commits := rfl
@[simp] theorem setRcb_launches (d : Dev) (k : Nat) (u : RcbUse) : (d.setRcb k u).launches = d.launches := rfl
@[simp] theorem setRcb_nextLaunch (d : Dev) (k : Nat) (u : RcbUse) : (d.setRcb k u).nextLaunch = d.nextLaunch := rfl
@[simp] theorem setRcb_regions (d : Dev) (k : Nat) (u : RcbUse) : (d.setRcb k u).regions = d.regions := rfl
@[simp] theorem setRcb_nextRegion (d : Dev) (k : Nat) (u : RcbUse) : (d.setRcb k u).nextRegion = d.nextRegion := rfl
@[simp] theorem setRcb_insts (d : Dev) (k : Nat) (u : RcbUse) : (d.setRcb k u).insts = d.insts := rfl
@[simp] theorem setRcb_nextInst (d : Dev) (k : Nat) (u : RcbUse) : (d.setRcb k u).nextInst = d.nextInst := rfl
@[simp] theorem setRcb_fire (d : Dev) (k : Nat) (u : RcbUse) : (d.setRcb k u).fire = d.fire := rfl
@[simp] theorem setRcb_fetches (d : Dev) (k : Nat) (u : RcbUse) : (d.setRcb k u).fetches = d.fetches := rfl
@[simp] theorem setRcb_placed (d : Dev) (k : Nat) (u : RcbUse) : (d.setRcb k u).placed = d.placed := rfl
@[simp] theorem setRcb_rejPair (d : Dev) (k : Nat) (u : RcbUse) : (d.setRcb k u).rejPair = d.rejPair := rfl
@[simp] theorem setRcb_rejDig (d : Dev) (k : Nat) (u : RcbUse) : (d.setRcb k u).rejDig = d.rejDig := rfl
@[simp] theorem setRcb_regImgs (d : Dev) (k : Nat) (u : RcbUse) : (d.setRcb k u).regImgs = d.regImgs := rfl
@[simp] theorem setRcb_ropes (d : Dev) (k : Nat) (u : RcbUse) : (d.setRcb k u).ropes = d.ropes := rfl
@[simp] theorem setRcb_streams (d : Dev) (k : Nat) (u : RcbUse) : (d.setRcb k u).streams = d.streams := rfl
@[simp] theorem setRcb_drip (d : Dev) (k : Nat) (u : RcbUse) : (d.setRcb k u).drip = d.drip := rfl
@[simp] theorem setRcb_windows (d : Dev) (k : Nat) (u : RcbUse) : (d.setRcb k u).windows = d.windows := rfl
@[simp] theorem setRcb_queues (d : Dev) (k : Nat) (u : RcbUse) : (d.setRcb k u).queues = d.queues := rfl
@[simp] theorem setRcb_rr (d : Dev) (k : Nat) (u : RcbUse) : (d.setRcb k u).rr = d.rr := rfl
@[simp] theorem setRcb_devq (d : Dev) (k : Nat) (u : RcbUse) : (d.setRcb k u).devq = d.devq := rfl
@[simp] theorem setRcb_tears (d : Dev) (k : Nat) (u : RcbUse) : (d.setRcb k u).tears = d.tears := rfl
@[simp] theorem setRcb_recs (d : Dev) (k : Nat) (u : RcbUse) : (d.setRcb k u).recs = d.recs := rfl
@[simp] theorem setRcb_holds (d : Dev) (k : Nat) (u : RcbUse) : (d.setRcb k u).holds = d.holds := rfl
@[simp] theorem setRcb_ops (d : Dev) (k : Nat) (u : RcbUse) : (d.setRcb k u).ops = d.ops := rfl
@[simp] theorem setRcb_nextOp (d : Dev) (k : Nat) (u : RcbUse) : (d.setRcb k u).nextOp = d.nextOp := rfl
@[simp] theorem setRcb_nodes (d : Dev) (k : Nat) (u : RcbUse) : (d.setRcb k u).nodes = d.nodes := rfl
@[simp] theorem setRcb_shelves (d : Dev) (k : Nat) (u : RcbUse) : (d.setRcb k u).shelves = d.shelves := rfl
@[simp] theorem setRcb_chunks (d : Dev) (k : Nat) (u : RcbUse) : (d.setRcb k u).chunks = d.chunks := rfl
@[simp] theorem setRcb_pools (d : Dev) (k : Nat) (u : RcbUse) : (d.setRcb k u).pools = d.pools := rfl
@[simp] theorem setRcb_pres (d : Dev) (k : Nat) (u : RcbUse) : (d.setRcb k u).pres = d.pres := rfl
@[simp] theorem setRcb_resvs (d : Dev) (k : Nat) (u : RcbUse) : (d.setRcb k u).resvs = d.resvs := rfl
@[simp] theorem setRcb_zeros (d : Dev) (k : Nat) (u : RcbUse) : (d.setRcb k u).zeros = d.zeros := rfl
@[simp] theorem setRcb_bounce (d : Dev) (k : Nat) (u : RcbUse) : (d.setRcb k u).bounce = d.bounce := rfl
@[simp] theorem setRcb_migs (d : Dev) (k : Nat) (u : RcbUse) : (d.setRcb k u).migs = d.migs := rfl
@[simp] theorem setRcb_nextMig (d : Dev) (k : Nat) (u : RcbUse) : (d.setRcb k u).nextMig = d.nextMig := rfl
@[simp] theorem setRcb_migq (d : Dev) (k : Nat) (u : RcbUse) : (d.setRcb k u).migq = d.migq := rfl
@[simp] theorem setRcb_settle (d : Dev) (k : Nat) (u : RcbUse) : (d.setRcb k u).settle = d.settle := rfl
@[simp] theorem setRcb_dies (d : Dev) (k : Nat) (u : RcbUse) : (d.setRcb k u).dies = d.dies := rfl
@[simp] theorem setRcb_parts (d : Dev) (k : Nat) (u : RcbUse) : (d.setRcb k u).parts = d.parts := rfl
@[simp] theorem setRcb_funcs (d : Dev) (k : Nat) (u : RcbUse) : (d.setRcb k u).funcs = d.funcs := rfl
@[simp] theorem setRcb_peers (d : Dev) (k : Nat) (u : RcbUse) : (d.setRcb k u).peers = d.peers := rfl
@[simp] theorem setRcb_asidtb (d : Dev) (k : Nat) (u : RcbUse) : (d.setRcb k u).asidtb = d.asidtb := rfl
@[simp] theorem setRcb_migsettle (d : Dev) (k : Nat) (u : RcbUse) : (d.setRcb k u).migsettle = d.migsettle := rfl
@[simp] theorem setRcb_xlq (d : Dev) (k : Nat) (u : RcbUse) : (d.setRcb k u).xlq = d.xlq := rfl
@[simp] theorem setRcb_xlbusy (d : Dev) (k : Nat) (u : RcbUse) : (d.setRcb k u).xlbusy = d.xlbusy := rfl
@[simp] theorem setRcb_xldone (d : Dev) (k : Nat) (u : RcbUse) : (d.setRcb k u).xldone = d.xldone := rfl
@[simp] theorem setRcb_xlerr (d : Dev) (k : Nat) (u : RcbUse) : (d.setRcb k u).xlerr = d.xlerr := rfl
@[simp] theorem setRcb_xlcur (d : Dev) (k : Nat) (u : RcbUse) : (d.setRcb k u).xlcur = d.xlcur := rfl
@[simp] theorem setRcb_pend (d : Dev) (k : Nat) (u : RcbUse) : (d.setRcb k u).pend = d.pend := rfl
@[simp] theorem setRcb_recq (d : Dev) (k : Nat) (u : RcbUse) : (d.setRcb k u).recq = d.recq := rfl
@[simp] theorem setRcb_names (d : Dev) (k : Nat) (u : RcbUse) : (d.setRcb k u).names = d.names := rfl
@[simp] theorem setRcb_ident (d : Dev) (k : Nat) (u : RcbUse) : (d.setRcb k u).ident = d.ident := rfl
@[simp] theorem setRcb_out (d : Dev) (k : Nat) (u : RcbUse) : (d.setRcb k u).out = d.out := rfl
@[simp] theorem setRcb_balk (d : Dev) (k : Nat) (u : RcbUse) : (d.setRcb k u).balk = d.balk := rfl

@[simp] theorem setPool_cycle (d : Dev) (a b : Nat) (p : Pool) : (d.setPool a b p).cycle = d.cycle := rfl
@[simp] theorem setPool_freeSeq (d : Dev) (a b : Nat) (p : Pool) : (d.setPool a b p).freeSeq = d.freeSeq := rfl
@[simp] theorem setPool_agenda (d : Dev) (a b : Nat) (p : Pool) : (d.setPool a b p).agenda = d.agenda := rfl
@[simp] theorem setPool_mem (d : Dev) (a b : Nat) (p : Pool) : (d.setPool a b p).mem = d.mem := rfl
@[simp] theorem setPool_threads (d : Dev) (a b : Nat) (p : Pool) : (d.setPool a b p).threads = d.threads := rfl
@[simp] theorem setPool_nextTid (d : Dev) (a b : Nat) (p : Pool) : (d.setPool a b p).nextTid = d.nextTid := rfl
@[simp] theorem setPool_nextOrd (d : Dev) (a b : Nat) (p : Pool) : (d.setPool a b p).nextOrd = d.nextOrd := rfl
@[simp] theorem setPool_commits (d : Dev) (a b : Nat) (p : Pool) : (d.setPool a b p).commits = d.commits := rfl
@[simp] theorem setPool_launches (d : Dev) (a b : Nat) (p : Pool) : (d.setPool a b p).launches = d.launches := rfl
@[simp] theorem setPool_nextLaunch (d : Dev) (a b : Nat) (p : Pool) : (d.setPool a b p).nextLaunch = d.nextLaunch := rfl
@[simp] theorem setPool_regions (d : Dev) (a b : Nat) (p : Pool) : (d.setPool a b p).regions = d.regions := rfl
@[simp] theorem setPool_nextRegion (d : Dev) (a b : Nat) (p : Pool) : (d.setPool a b p).nextRegion = d.nextRegion := rfl
@[simp] theorem setPool_insts (d : Dev) (a b : Nat) (p : Pool) : (d.setPool a b p).insts = d.insts := rfl
@[simp] theorem setPool_nextInst (d : Dev) (a b : Nat) (p : Pool) : (d.setPool a b p).nextInst = d.nextInst := rfl
@[simp] theorem setPool_fire (d : Dev) (a b : Nat) (p : Pool) : (d.setPool a b p).fire = d.fire := rfl
@[simp] theorem setPool_fetches (d : Dev) (a b : Nat) (p : Pool) : (d.setPool a b p).fetches = d.fetches := rfl
@[simp] theorem setPool_placed (d : Dev) (a b : Nat) (p : Pool) : (d.setPool a b p).placed = d.placed := rfl
@[simp] theorem setPool_rejPair (d : Dev) (a b : Nat) (p : Pool) : (d.setPool a b p).rejPair = d.rejPair := rfl
@[simp] theorem setPool_rejDig (d : Dev) (a b : Nat) (p : Pool) : (d.setPool a b p).rejDig = d.rejDig := rfl
@[simp] theorem setPool_regImgs (d : Dev) (a b : Nat) (p : Pool) : (d.setPool a b p).regImgs = d.regImgs := rfl
@[simp] theorem setPool_ropes (d : Dev) (a b : Nat) (p : Pool) : (d.setPool a b p).ropes = d.ropes := rfl
@[simp] theorem setPool_rcbs (d : Dev) (a b : Nat) (p : Pool) : (d.setPool a b p).rcbs = d.rcbs := rfl
@[simp] theorem setPool_streams (d : Dev) (a b : Nat) (p : Pool) : (d.setPool a b p).streams = d.streams := rfl
@[simp] theorem setPool_drip (d : Dev) (a b : Nat) (p : Pool) : (d.setPool a b p).drip = d.drip := rfl
@[simp] theorem setPool_windows (d : Dev) (a b : Nat) (p : Pool) : (d.setPool a b p).windows = d.windows := rfl
@[simp] theorem setPool_queues (d : Dev) (a b : Nat) (p : Pool) : (d.setPool a b p).queues = d.queues := rfl
@[simp] theorem setPool_rr (d : Dev) (a b : Nat) (p : Pool) : (d.setPool a b p).rr = d.rr := rfl
@[simp] theorem setPool_devq (d : Dev) (a b : Nat) (p : Pool) : (d.setPool a b p).devq = d.devq := rfl
@[simp] theorem setPool_tears (d : Dev) (a b : Nat) (p : Pool) : (d.setPool a b p).tears = d.tears := rfl
@[simp] theorem setPool_recs (d : Dev) (a b : Nat) (p : Pool) : (d.setPool a b p).recs = d.recs := rfl
@[simp] theorem setPool_holds (d : Dev) (a b : Nat) (p : Pool) : (d.setPool a b p).holds = d.holds := rfl
@[simp] theorem setPool_ops (d : Dev) (a b : Nat) (p : Pool) : (d.setPool a b p).ops = d.ops := rfl
@[simp] theorem setPool_nextOp (d : Dev) (a b : Nat) (p : Pool) : (d.setPool a b p).nextOp = d.nextOp := rfl
@[simp] theorem setPool_nodes (d : Dev) (a b : Nat) (p : Pool) : (d.setPool a b p).nodes = d.nodes := rfl
@[simp] theorem setPool_shelves (d : Dev) (a b : Nat) (p : Pool) : (d.setPool a b p).shelves = d.shelves := rfl
@[simp] theorem setPool_chunks (d : Dev) (a b : Nat) (p : Pool) : (d.setPool a b p).chunks = d.chunks := rfl
@[simp] theorem setPool_pres (d : Dev) (a b : Nat) (p : Pool) : (d.setPool a b p).pres = d.pres := rfl
@[simp] theorem setPool_resvs (d : Dev) (a b : Nat) (p : Pool) : (d.setPool a b p).resvs = d.resvs := rfl
@[simp] theorem setPool_zeros (d : Dev) (a b : Nat) (p : Pool) : (d.setPool a b p).zeros = d.zeros := rfl
@[simp] theorem setPool_bounce (d : Dev) (a b : Nat) (p : Pool) : (d.setPool a b p).bounce = d.bounce := rfl
@[simp] theorem setPool_migs (d : Dev) (a b : Nat) (p : Pool) : (d.setPool a b p).migs = d.migs := rfl
@[simp] theorem setPool_nextMig (d : Dev) (a b : Nat) (p : Pool) : (d.setPool a b p).nextMig = d.nextMig := rfl
@[simp] theorem setPool_migq (d : Dev) (a b : Nat) (p : Pool) : (d.setPool a b p).migq = d.migq := rfl
@[simp] theorem setPool_settle (d : Dev) (a b : Nat) (p : Pool) : (d.setPool a b p).settle = d.settle := rfl
@[simp] theorem setPool_dies (d : Dev) (a b : Nat) (p : Pool) : (d.setPool a b p).dies = d.dies := rfl
@[simp] theorem setPool_parts (d : Dev) (a b : Nat) (p : Pool) : (d.setPool a b p).parts = d.parts := rfl
@[simp] theorem setPool_funcs (d : Dev) (a b : Nat) (p : Pool) : (d.setPool a b p).funcs = d.funcs := rfl
@[simp] theorem setPool_peers (d : Dev) (a b : Nat) (p : Pool) : (d.setPool a b p).peers = d.peers := rfl
@[simp] theorem setPool_asidtb (d : Dev) (a b : Nat) (p : Pool) : (d.setPool a b p).asidtb = d.asidtb := rfl
@[simp] theorem setPool_migsettle (d : Dev) (a b : Nat) (p : Pool) : (d.setPool a b p).migsettle = d.migsettle := rfl
@[simp] theorem setPool_xlq (d : Dev) (a b : Nat) (p : Pool) : (d.setPool a b p).xlq = d.xlq := rfl
@[simp] theorem setPool_xlbusy (d : Dev) (a b : Nat) (p : Pool) : (d.setPool a b p).xlbusy = d.xlbusy := rfl
@[simp] theorem setPool_xldone (d : Dev) (a b : Nat) (p : Pool) : (d.setPool a b p).xldone = d.xldone := rfl
@[simp] theorem setPool_xlerr (d : Dev) (a b : Nat) (p : Pool) : (d.setPool a b p).xlerr = d.xlerr := rfl
@[simp] theorem setPool_xlcur (d : Dev) (a b : Nat) (p : Pool) : (d.setPool a b p).xlcur = d.xlcur := rfl
@[simp] theorem setPool_pend (d : Dev) (a b : Nat) (p : Pool) : (d.setPool a b p).pend = d.pend := rfl
@[simp] theorem setPool_recq (d : Dev) (a b : Nat) (p : Pool) : (d.setPool a b p).recq = d.recq := rfl
@[simp] theorem setPool_names (d : Dev) (a b : Nat) (p : Pool) : (d.setPool a b p).names = d.names := rfl
@[simp] theorem setPool_ident (d : Dev) (a b : Nat) (p : Pool) : (d.setPool a b p).ident = d.ident := rfl
@[simp] theorem setPool_out (d : Dev) (a b : Nat) (p : Pool) : (d.setPool a b p).out = d.out := rfl
@[simp] theorem setPool_balk (d : Dev) (a b : Nat) (p : Pool) : (d.setPool a b p).balk = d.balk := rfl

@[simp] theorem setDie_cycle (d : Dev) (k : Nat) (x : Die) : (d.setDie k x).cycle = d.cycle := rfl
@[simp] theorem setDie_freeSeq (d : Dev) (k : Nat) (x : Die) : (d.setDie k x).freeSeq = d.freeSeq := rfl
@[simp] theorem setDie_agenda (d : Dev) (k : Nat) (x : Die) : (d.setDie k x).agenda = d.agenda := rfl
@[simp] theorem setDie_mem (d : Dev) (k : Nat) (x : Die) : (d.setDie k x).mem = d.mem := rfl
@[simp] theorem setDie_threads (d : Dev) (k : Nat) (x : Die) : (d.setDie k x).threads = d.threads := rfl
@[simp] theorem setDie_nextTid (d : Dev) (k : Nat) (x : Die) : (d.setDie k x).nextTid = d.nextTid := rfl
@[simp] theorem setDie_nextOrd (d : Dev) (k : Nat) (x : Die) : (d.setDie k x).nextOrd = d.nextOrd := rfl
@[simp] theorem setDie_commits (d : Dev) (k : Nat) (x : Die) : (d.setDie k x).commits = d.commits := rfl
@[simp] theorem setDie_launches (d : Dev) (k : Nat) (x : Die) : (d.setDie k x).launches = d.launches := rfl
@[simp] theorem setDie_nextLaunch (d : Dev) (k : Nat) (x : Die) : (d.setDie k x).nextLaunch = d.nextLaunch := rfl
@[simp] theorem setDie_regions (d : Dev) (k : Nat) (x : Die) : (d.setDie k x).regions = d.regions := rfl
@[simp] theorem setDie_nextRegion (d : Dev) (k : Nat) (x : Die) : (d.setDie k x).nextRegion = d.nextRegion := rfl
@[simp] theorem setDie_insts (d : Dev) (k : Nat) (x : Die) : (d.setDie k x).insts = d.insts := rfl
@[simp] theorem setDie_nextInst (d : Dev) (k : Nat) (x : Die) : (d.setDie k x).nextInst = d.nextInst := rfl
@[simp] theorem setDie_fire (d : Dev) (k : Nat) (x : Die) : (d.setDie k x).fire = d.fire := rfl
@[simp] theorem setDie_fetches (d : Dev) (k : Nat) (x : Die) : (d.setDie k x).fetches = d.fetches := rfl
@[simp] theorem setDie_placed (d : Dev) (k : Nat) (x : Die) : (d.setDie k x).placed = d.placed := rfl
@[simp] theorem setDie_rejPair (d : Dev) (k : Nat) (x : Die) : (d.setDie k x).rejPair = d.rejPair := rfl
@[simp] theorem setDie_rejDig (d : Dev) (k : Nat) (x : Die) : (d.setDie k x).rejDig = d.rejDig := rfl
@[simp] theorem setDie_regImgs (d : Dev) (k : Nat) (x : Die) : (d.setDie k x).regImgs = d.regImgs := rfl
@[simp] theorem setDie_ropes (d : Dev) (k : Nat) (x : Die) : (d.setDie k x).ropes = d.ropes := rfl
@[simp] theorem setDie_rcbs (d : Dev) (k : Nat) (x : Die) : (d.setDie k x).rcbs = d.rcbs := rfl
@[simp] theorem setDie_streams (d : Dev) (k : Nat) (x : Die) : (d.setDie k x).streams = d.streams := rfl
@[simp] theorem setDie_drip (d : Dev) (k : Nat) (x : Die) : (d.setDie k x).drip = d.drip := rfl
@[simp] theorem setDie_windows (d : Dev) (k : Nat) (x : Die) : (d.setDie k x).windows = d.windows := rfl
@[simp] theorem setDie_queues (d : Dev) (k : Nat) (x : Die) : (d.setDie k x).queues = d.queues := rfl
@[simp] theorem setDie_rr (d : Dev) (k : Nat) (x : Die) : (d.setDie k x).rr = d.rr := rfl
@[simp] theorem setDie_devq (d : Dev) (k : Nat) (x : Die) : (d.setDie k x).devq = d.devq := rfl
@[simp] theorem setDie_tears (d : Dev) (k : Nat) (x : Die) : (d.setDie k x).tears = d.tears := rfl
@[simp] theorem setDie_recs (d : Dev) (k : Nat) (x : Die) : (d.setDie k x).recs = d.recs := rfl
@[simp] theorem setDie_holds (d : Dev) (k : Nat) (x : Die) : (d.setDie k x).holds = d.holds := rfl
@[simp] theorem setDie_ops (d : Dev) (k : Nat) (x : Die) : (d.setDie k x).ops = d.ops := rfl
@[simp] theorem setDie_nextOp (d : Dev) (k : Nat) (x : Die) : (d.setDie k x).nextOp = d.nextOp := rfl
@[simp] theorem setDie_nodes (d : Dev) (k : Nat) (x : Die) : (d.setDie k x).nodes = d.nodes := rfl
@[simp] theorem setDie_shelves (d : Dev) (k : Nat) (x : Die) : (d.setDie k x).shelves = d.shelves := rfl
@[simp] theorem setDie_chunks (d : Dev) (k : Nat) (x : Die) : (d.setDie k x).chunks = d.chunks := rfl
@[simp] theorem setDie_pools (d : Dev) (k : Nat) (x : Die) : (d.setDie k x).pools = d.pools := rfl
@[simp] theorem setDie_pres (d : Dev) (k : Nat) (x : Die) : (d.setDie k x).pres = d.pres := rfl
@[simp] theorem setDie_resvs (d : Dev) (k : Nat) (x : Die) : (d.setDie k x).resvs = d.resvs := rfl
@[simp] theorem setDie_zeros (d : Dev) (k : Nat) (x : Die) : (d.setDie k x).zeros = d.zeros := rfl
@[simp] theorem setDie_bounce (d : Dev) (k : Nat) (x : Die) : (d.setDie k x).bounce = d.bounce := rfl
@[simp] theorem setDie_migs (d : Dev) (k : Nat) (x : Die) : (d.setDie k x).migs = d.migs := rfl
@[simp] theorem setDie_nextMig (d : Dev) (k : Nat) (x : Die) : (d.setDie k x).nextMig = d.nextMig := rfl
@[simp] theorem setDie_migq (d : Dev) (k : Nat) (x : Die) : (d.setDie k x).migq = d.migq := rfl
@[simp] theorem setDie_settle (d : Dev) (k : Nat) (x : Die) : (d.setDie k x).settle = d.settle := rfl
@[simp] theorem setDie_parts (d : Dev) (k : Nat) (x : Die) : (d.setDie k x).parts = d.parts := rfl
@[simp] theorem setDie_funcs (d : Dev) (k : Nat) (x : Die) : (d.setDie k x).funcs = d.funcs := rfl
@[simp] theorem setDie_peers (d : Dev) (k : Nat) (x : Die) : (d.setDie k x).peers = d.peers := rfl
@[simp] theorem setDie_asidtb (d : Dev) (k : Nat) (x : Die) : (d.setDie k x).asidtb = d.asidtb := rfl
@[simp] theorem setDie_migsettle (d : Dev) (k : Nat) (x : Die) : (d.setDie k x).migsettle = d.migsettle := rfl
@[simp] theorem setDie_xlq (d : Dev) (k : Nat) (x : Die) : (d.setDie k x).xlq = d.xlq := rfl
@[simp] theorem setDie_xlbusy (d : Dev) (k : Nat) (x : Die) : (d.setDie k x).xlbusy = d.xlbusy := rfl
@[simp] theorem setDie_xldone (d : Dev) (k : Nat) (x : Die) : (d.setDie k x).xldone = d.xldone := rfl
@[simp] theorem setDie_xlerr (d : Dev) (k : Nat) (x : Die) : (d.setDie k x).xlerr = d.xlerr := rfl
@[simp] theorem setDie_xlcur (d : Dev) (k : Nat) (x : Die) : (d.setDie k x).xlcur = d.xlcur := rfl
@[simp] theorem setDie_pend (d : Dev) (k : Nat) (x : Die) : (d.setDie k x).pend = d.pend := rfl
@[simp] theorem setDie_recq (d : Dev) (k : Nat) (x : Die) : (d.setDie k x).recq = d.recq := rfl
@[simp] theorem setDie_names (d : Dev) (k : Nat) (x : Die) : (d.setDie k x).names = d.names := rfl
@[simp] theorem setDie_ident (d : Dev) (k : Nat) (x : Die) : (d.setDie k x).ident = d.ident := rfl
@[simp] theorem setDie_out (d : Dev) (k : Nat) (x : Die) : (d.setDie k x).out = d.out := rfl
@[simp] theorem setDie_balk (d : Dev) (k : Nat) (x : Die) : (d.setDie k x).balk = d.balk := rfl

@[simp] theorem modPart_cycle (d : Dev) (k : Nat) (f : Part → Part) : (d.modPart k f).cycle = d.cycle := rfl
@[simp] theorem modPart_freeSeq (d : Dev) (k : Nat) (f : Part → Part) : (d.modPart k f).freeSeq = d.freeSeq := rfl
@[simp] theorem modPart_agenda (d : Dev) (k : Nat) (f : Part → Part) : (d.modPart k f).agenda = d.agenda := rfl
@[simp] theorem modPart_mem (d : Dev) (k : Nat) (f : Part → Part) : (d.modPart k f).mem = d.mem := rfl
@[simp] theorem modPart_threads (d : Dev) (k : Nat) (f : Part → Part) : (d.modPart k f).threads = d.threads := rfl
@[simp] theorem modPart_nextTid (d : Dev) (k : Nat) (f : Part → Part) : (d.modPart k f).nextTid = d.nextTid := rfl
@[simp] theorem modPart_nextOrd (d : Dev) (k : Nat) (f : Part → Part) : (d.modPart k f).nextOrd = d.nextOrd := rfl
@[simp] theorem modPart_commits (d : Dev) (k : Nat) (f : Part → Part) : (d.modPart k f).commits = d.commits := rfl
@[simp] theorem modPart_launches (d : Dev) (k : Nat) (f : Part → Part) : (d.modPart k f).launches = d.launches := rfl
@[simp] theorem modPart_nextLaunch (d : Dev) (k : Nat) (f : Part → Part) : (d.modPart k f).nextLaunch = d.nextLaunch := rfl
@[simp] theorem modPart_regions (d : Dev) (k : Nat) (f : Part → Part) : (d.modPart k f).regions = d.regions := rfl
@[simp] theorem modPart_nextRegion (d : Dev) (k : Nat) (f : Part → Part) : (d.modPart k f).nextRegion = d.nextRegion := rfl
@[simp] theorem modPart_insts (d : Dev) (k : Nat) (f : Part → Part) : (d.modPart k f).insts = d.insts := rfl
@[simp] theorem modPart_nextInst (d : Dev) (k : Nat) (f : Part → Part) : (d.modPart k f).nextInst = d.nextInst := rfl
@[simp] theorem modPart_fire (d : Dev) (k : Nat) (f : Part → Part) : (d.modPart k f).fire = d.fire := rfl
@[simp] theorem modPart_fetches (d : Dev) (k : Nat) (f : Part → Part) : (d.modPart k f).fetches = d.fetches := rfl
@[simp] theorem modPart_placed (d : Dev) (k : Nat) (f : Part → Part) : (d.modPart k f).placed = d.placed := rfl
@[simp] theorem modPart_rejPair (d : Dev) (k : Nat) (f : Part → Part) : (d.modPart k f).rejPair = d.rejPair := rfl
@[simp] theorem modPart_rejDig (d : Dev) (k : Nat) (f : Part → Part) : (d.modPart k f).rejDig = d.rejDig := rfl
@[simp] theorem modPart_regImgs (d : Dev) (k : Nat) (f : Part → Part) : (d.modPart k f).regImgs = d.regImgs := rfl
@[simp] theorem modPart_ropes (d : Dev) (k : Nat) (f : Part → Part) : (d.modPart k f).ropes = d.ropes := rfl
@[simp] theorem modPart_rcbs (d : Dev) (k : Nat) (f : Part → Part) : (d.modPart k f).rcbs = d.rcbs := rfl
@[simp] theorem modPart_streams (d : Dev) (k : Nat) (f : Part → Part) : (d.modPart k f).streams = d.streams := rfl
@[simp] theorem modPart_drip (d : Dev) (k : Nat) (f : Part → Part) : (d.modPart k f).drip = d.drip := rfl
@[simp] theorem modPart_windows (d : Dev) (k : Nat) (f : Part → Part) : (d.modPart k f).windows = d.windows := rfl
@[simp] theorem modPart_queues (d : Dev) (k : Nat) (f : Part → Part) : (d.modPart k f).queues = d.queues := rfl
@[simp] theorem modPart_rr (d : Dev) (k : Nat) (f : Part → Part) : (d.modPart k f).rr = d.rr := rfl
@[simp] theorem modPart_devq (d : Dev) (k : Nat) (f : Part → Part) : (d.modPart k f).devq = d.devq := rfl
@[simp] theorem modPart_tears (d : Dev) (k : Nat) (f : Part → Part) : (d.modPart k f).tears = d.tears := rfl
@[simp] theorem modPart_recs (d : Dev) (k : Nat) (f : Part → Part) : (d.modPart k f).recs = d.recs := rfl
@[simp] theorem modPart_holds (d : Dev) (k : Nat) (f : Part → Part) : (d.modPart k f).holds = d.holds := rfl
@[simp] theorem modPart_ops (d : Dev) (k : Nat) (f : Part → Part) : (d.modPart k f).ops = d.ops := rfl
@[simp] theorem modPart_nextOp (d : Dev) (k : Nat) (f : Part → Part) : (d.modPart k f).nextOp = d.nextOp := rfl
@[simp] theorem modPart_nodes (d : Dev) (k : Nat) (f : Part → Part) : (d.modPart k f).nodes = d.nodes := rfl
@[simp] theorem modPart_shelves (d : Dev) (k : Nat) (f : Part → Part) : (d.modPart k f).shelves = d.shelves := rfl
@[simp] theorem modPart_chunks (d : Dev) (k : Nat) (f : Part → Part) : (d.modPart k f).chunks = d.chunks := rfl
@[simp] theorem modPart_pools (d : Dev) (k : Nat) (f : Part → Part) : (d.modPart k f).pools = d.pools := rfl
@[simp] theorem modPart_pres (d : Dev) (k : Nat) (f : Part → Part) : (d.modPart k f).pres = d.pres := rfl
@[simp] theorem modPart_resvs (d : Dev) (k : Nat) (f : Part → Part) : (d.modPart k f).resvs = d.resvs := rfl
@[simp] theorem modPart_zeros (d : Dev) (k : Nat) (f : Part → Part) : (d.modPart k f).zeros = d.zeros := rfl
@[simp] theorem modPart_bounce (d : Dev) (k : Nat) (f : Part → Part) : (d.modPart k f).bounce = d.bounce := rfl
@[simp] theorem modPart_migs (d : Dev) (k : Nat) (f : Part → Part) : (d.modPart k f).migs = d.migs := rfl
@[simp] theorem modPart_nextMig (d : Dev) (k : Nat) (f : Part → Part) : (d.modPart k f).nextMig = d.nextMig := rfl
@[simp] theorem modPart_migq (d : Dev) (k : Nat) (f : Part → Part) : (d.modPart k f).migq = d.migq := rfl
@[simp] theorem modPart_settle (d : Dev) (k : Nat) (f : Part → Part) : (d.modPart k f).settle = d.settle := rfl
@[simp] theorem modPart_dies (d : Dev) (k : Nat) (f : Part → Part) : (d.modPart k f).dies = d.dies := rfl
@[simp] theorem modPart_funcs (d : Dev) (k : Nat) (f : Part → Part) : (d.modPart k f).funcs = d.funcs := rfl
@[simp] theorem modPart_peers (d : Dev) (k : Nat) (f : Part → Part) : (d.modPart k f).peers = d.peers := rfl
@[simp] theorem modPart_asidtb (d : Dev) (k : Nat) (f : Part → Part) : (d.modPart k f).asidtb = d.asidtb := rfl
@[simp] theorem modPart_migsettle (d : Dev) (k : Nat) (f : Part → Part) : (d.modPart k f).migsettle = d.migsettle := rfl
@[simp] theorem modPart_xlq (d : Dev) (k : Nat) (f : Part → Part) : (d.modPart k f).xlq = d.xlq := rfl
@[simp] theorem modPart_xlbusy (d : Dev) (k : Nat) (f : Part → Part) : (d.modPart k f).xlbusy = d.xlbusy := rfl
@[simp] theorem modPart_xldone (d : Dev) (k : Nat) (f : Part → Part) : (d.modPart k f).xldone = d.xldone := rfl
@[simp] theorem modPart_xlerr (d : Dev) (k : Nat) (f : Part → Part) : (d.modPart k f).xlerr = d.xlerr := rfl
@[simp] theorem modPart_xlcur (d : Dev) (k : Nat) (f : Part → Part) : (d.modPart k f).xlcur = d.xlcur := rfl
@[simp] theorem modPart_pend (d : Dev) (k : Nat) (f : Part → Part) : (d.modPart k f).pend = d.pend := rfl
@[simp] theorem modPart_recq (d : Dev) (k : Nat) (f : Part → Part) : (d.modPart k f).recq = d.recq := rfl
@[simp] theorem modPart_names (d : Dev) (k : Nat) (f : Part → Part) : (d.modPart k f).names = d.names := rfl
@[simp] theorem modPart_ident (d : Dev) (k : Nat) (f : Part → Part) : (d.modPart k f).ident = d.ident := rfl
@[simp] theorem modPart_out (d : Dev) (k : Nat) (f : Part → Part) : (d.modPart k f).out = d.out := rfl
@[simp] theorem modPart_balk (d : Dev) (k : Nat) (f : Part → Part) : (d.modPart k f).balk = d.balk := rfl

@[simp] theorem modFunc_cycle (d : Dev) (k : Nat) (f : Func → Func) : (d.modFunc k f).cycle = d.cycle := rfl
@[simp] theorem modFunc_freeSeq (d : Dev) (k : Nat) (f : Func → Func) : (d.modFunc k f).freeSeq = d.freeSeq := rfl
@[simp] theorem modFunc_agenda (d : Dev) (k : Nat) (f : Func → Func) : (d.modFunc k f).agenda = d.agenda := rfl
@[simp] theorem modFunc_mem (d : Dev) (k : Nat) (f : Func → Func) : (d.modFunc k f).mem = d.mem := rfl
@[simp] theorem modFunc_threads (d : Dev) (k : Nat) (f : Func → Func) : (d.modFunc k f).threads = d.threads := rfl
@[simp] theorem modFunc_nextTid (d : Dev) (k : Nat) (f : Func → Func) : (d.modFunc k f).nextTid = d.nextTid := rfl
@[simp] theorem modFunc_nextOrd (d : Dev) (k : Nat) (f : Func → Func) : (d.modFunc k f).nextOrd = d.nextOrd := rfl
@[simp] theorem modFunc_commits (d : Dev) (k : Nat) (f : Func → Func) : (d.modFunc k f).commits = d.commits := rfl
@[simp] theorem modFunc_launches (d : Dev) (k : Nat) (f : Func → Func) : (d.modFunc k f).launches = d.launches := rfl
@[simp] theorem modFunc_nextLaunch (d : Dev) (k : Nat) (f : Func → Func) : (d.modFunc k f).nextLaunch = d.nextLaunch := rfl
@[simp] theorem modFunc_regions (d : Dev) (k : Nat) (f : Func → Func) : (d.modFunc k f).regions = d.regions := rfl
@[simp] theorem modFunc_nextRegion (d : Dev) (k : Nat) (f : Func → Func) : (d.modFunc k f).nextRegion = d.nextRegion := rfl
@[simp] theorem modFunc_insts (d : Dev) (k : Nat) (f : Func → Func) : (d.modFunc k f).insts = d.insts := rfl
@[simp] theorem modFunc_nextInst (d : Dev) (k : Nat) (f : Func → Func) : (d.modFunc k f).nextInst = d.nextInst := rfl
@[simp] theorem modFunc_fire (d : Dev) (k : Nat) (f : Func → Func) : (d.modFunc k f).fire = d.fire := rfl
@[simp] theorem modFunc_fetches (d : Dev) (k : Nat) (f : Func → Func) : (d.modFunc k f).fetches = d.fetches := rfl
@[simp] theorem modFunc_placed (d : Dev) (k : Nat) (f : Func → Func) : (d.modFunc k f).placed = d.placed := rfl
@[simp] theorem modFunc_rejPair (d : Dev) (k : Nat) (f : Func → Func) : (d.modFunc k f).rejPair = d.rejPair := rfl
@[simp] theorem modFunc_rejDig (d : Dev) (k : Nat) (f : Func → Func) : (d.modFunc k f).rejDig = d.rejDig := rfl
@[simp] theorem modFunc_regImgs (d : Dev) (k : Nat) (f : Func → Func) : (d.modFunc k f).regImgs = d.regImgs := rfl
@[simp] theorem modFunc_ropes (d : Dev) (k : Nat) (f : Func → Func) : (d.modFunc k f).ropes = d.ropes := rfl
@[simp] theorem modFunc_rcbs (d : Dev) (k : Nat) (f : Func → Func) : (d.modFunc k f).rcbs = d.rcbs := rfl
@[simp] theorem modFunc_streams (d : Dev) (k : Nat) (f : Func → Func) : (d.modFunc k f).streams = d.streams := rfl
@[simp] theorem modFunc_drip (d : Dev) (k : Nat) (f : Func → Func) : (d.modFunc k f).drip = d.drip := rfl
@[simp] theorem modFunc_windows (d : Dev) (k : Nat) (f : Func → Func) : (d.modFunc k f).windows = d.windows := rfl
@[simp] theorem modFunc_queues (d : Dev) (k : Nat) (f : Func → Func) : (d.modFunc k f).queues = d.queues := rfl
@[simp] theorem modFunc_rr (d : Dev) (k : Nat) (f : Func → Func) : (d.modFunc k f).rr = d.rr := rfl
@[simp] theorem modFunc_devq (d : Dev) (k : Nat) (f : Func → Func) : (d.modFunc k f).devq = d.devq := rfl
@[simp] theorem modFunc_tears (d : Dev) (k : Nat) (f : Func → Func) : (d.modFunc k f).tears = d.tears := rfl
@[simp] theorem modFunc_recs (d : Dev) (k : Nat) (f : Func → Func) : (d.modFunc k f).recs = d.recs := rfl
@[simp] theorem modFunc_holds (d : Dev) (k : Nat) (f : Func → Func) : (d.modFunc k f).holds = d.holds := rfl
@[simp] theorem modFunc_ops (d : Dev) (k : Nat) (f : Func → Func) : (d.modFunc k f).ops = d.ops := rfl
@[simp] theorem modFunc_nextOp (d : Dev) (k : Nat) (f : Func → Func) : (d.modFunc k f).nextOp = d.nextOp := rfl
@[simp] theorem modFunc_nodes (d : Dev) (k : Nat) (f : Func → Func) : (d.modFunc k f).nodes = d.nodes := rfl
@[simp] theorem modFunc_shelves (d : Dev) (k : Nat) (f : Func → Func) : (d.modFunc k f).shelves = d.shelves := rfl
@[simp] theorem modFunc_chunks (d : Dev) (k : Nat) (f : Func → Func) : (d.modFunc k f).chunks = d.chunks := rfl
@[simp] theorem modFunc_pools (d : Dev) (k : Nat) (f : Func → Func) : (d.modFunc k f).pools = d.pools := rfl
@[simp] theorem modFunc_pres (d : Dev) (k : Nat) (f : Func → Func) : (d.modFunc k f).pres = d.pres := rfl
@[simp] theorem modFunc_resvs (d : Dev) (k : Nat) (f : Func → Func) : (d.modFunc k f).resvs = d.resvs := rfl
@[simp] theorem modFunc_zeros (d : Dev) (k : Nat) (f : Func → Func) : (d.modFunc k f).zeros = d.zeros := rfl
@[simp] theorem modFunc_bounce (d : Dev) (k : Nat) (f : Func → Func) : (d.modFunc k f).bounce = d.bounce := rfl
@[simp] theorem modFunc_migs (d : Dev) (k : Nat) (f : Func → Func) : (d.modFunc k f).migs = d.migs := rfl
@[simp] theorem modFunc_nextMig (d : Dev) (k : Nat) (f : Func → Func) : (d.modFunc k f).nextMig = d.nextMig := rfl
@[simp] theorem modFunc_migq (d : Dev) (k : Nat) (f : Func → Func) : (d.modFunc k f).migq = d.migq := rfl
@[simp] theorem modFunc_settle (d : Dev) (k : Nat) (f : Func → Func) : (d.modFunc k f).settle = d.settle := rfl
@[simp] theorem modFunc_dies (d : Dev) (k : Nat) (f : Func → Func) : (d.modFunc k f).dies = d.dies := rfl
@[simp] theorem modFunc_parts (d : Dev) (k : Nat) (f : Func → Func) : (d.modFunc k f).parts = d.parts := rfl
@[simp] theorem modFunc_peers (d : Dev) (k : Nat) (f : Func → Func) : (d.modFunc k f).peers = d.peers := rfl
@[simp] theorem modFunc_asidtb (d : Dev) (k : Nat) (f : Func → Func) : (d.modFunc k f).asidtb = d.asidtb := rfl
@[simp] theorem modFunc_migsettle (d : Dev) (k : Nat) (f : Func → Func) : (d.modFunc k f).migsettle = d.migsettle := rfl
@[simp] theorem modFunc_xlq (d : Dev) (k : Nat) (f : Func → Func) : (d.modFunc k f).xlq = d.xlq := rfl
@[simp] theorem modFunc_xlbusy (d : Dev) (k : Nat) (f : Func → Func) : (d.modFunc k f).xlbusy = d.xlbusy := rfl
@[simp] theorem modFunc_xldone (d : Dev) (k : Nat) (f : Func → Func) : (d.modFunc k f).xldone = d.xldone := rfl
@[simp] theorem modFunc_xlerr (d : Dev) (k : Nat) (f : Func → Func) : (d.modFunc k f).xlerr = d.xlerr := rfl
@[simp] theorem modFunc_xlcur (d : Dev) (k : Nat) (f : Func → Func) : (d.modFunc k f).xlcur = d.xlcur := rfl
@[simp] theorem modFunc_pend (d : Dev) (k : Nat) (f : Func → Func) : (d.modFunc k f).pend = d.pend := rfl
@[simp] theorem modFunc_recq (d : Dev) (k : Nat) (f : Func → Func) : (d.modFunc k f).recq = d.recq := rfl
@[simp] theorem modFunc_names (d : Dev) (k : Nat) (f : Func → Func) : (d.modFunc k f).names = d.names := rfl
@[simp] theorem modFunc_ident (d : Dev) (k : Nat) (f : Func → Func) : (d.modFunc k f).ident = d.ident := rfl
@[simp] theorem modFunc_out (d : Dev) (k : Nat) (f : Func → Func) : (d.modFunc k f).out = d.out := rfl
@[simp] theorem modFunc_balk (d : Dev) (k : Nat) (f : Func → Func) : (d.modFunc k f).balk = d.balk := rfl

@[simp] theorem modQueue_cycle (d : Dev) (k : Nat) (f : Queue → Queue) : (d.modQueue k f).cycle = d.cycle := rfl
@[simp] theorem modQueue_freeSeq (d : Dev) (k : Nat) (f : Queue → Queue) : (d.modQueue k f).freeSeq = d.freeSeq := rfl
@[simp] theorem modQueue_agenda (d : Dev) (k : Nat) (f : Queue → Queue) : (d.modQueue k f).agenda = d.agenda := rfl
@[simp] theorem modQueue_mem (d : Dev) (k : Nat) (f : Queue → Queue) : (d.modQueue k f).mem = d.mem := rfl
@[simp] theorem modQueue_threads (d : Dev) (k : Nat) (f : Queue → Queue) : (d.modQueue k f).threads = d.threads := rfl
@[simp] theorem modQueue_nextTid (d : Dev) (k : Nat) (f : Queue → Queue) : (d.modQueue k f).nextTid = d.nextTid := rfl
@[simp] theorem modQueue_nextOrd (d : Dev) (k : Nat) (f : Queue → Queue) : (d.modQueue k f).nextOrd = d.nextOrd := rfl
@[simp] theorem modQueue_commits (d : Dev) (k : Nat) (f : Queue → Queue) : (d.modQueue k f).commits = d.commits := rfl
@[simp] theorem modQueue_launches (d : Dev) (k : Nat) (f : Queue → Queue) : (d.modQueue k f).launches = d.launches := rfl
@[simp] theorem modQueue_nextLaunch (d : Dev) (k : Nat) (f : Queue → Queue) : (d.modQueue k f).nextLaunch = d.nextLaunch := rfl
@[simp] theorem modQueue_regions (d : Dev) (k : Nat) (f : Queue → Queue) : (d.modQueue k f).regions = d.regions := rfl
@[simp] theorem modQueue_nextRegion (d : Dev) (k : Nat) (f : Queue → Queue) : (d.modQueue k f).nextRegion = d.nextRegion := rfl
@[simp] theorem modQueue_insts (d : Dev) (k : Nat) (f : Queue → Queue) : (d.modQueue k f).insts = d.insts := rfl
@[simp] theorem modQueue_nextInst (d : Dev) (k : Nat) (f : Queue → Queue) : (d.modQueue k f).nextInst = d.nextInst := rfl
@[simp] theorem modQueue_fire (d : Dev) (k : Nat) (f : Queue → Queue) : (d.modQueue k f).fire = d.fire := rfl
@[simp] theorem modQueue_fetches (d : Dev) (k : Nat) (f : Queue → Queue) : (d.modQueue k f).fetches = d.fetches := rfl
@[simp] theorem modQueue_placed (d : Dev) (k : Nat) (f : Queue → Queue) : (d.modQueue k f).placed = d.placed := rfl
@[simp] theorem modQueue_rejPair (d : Dev) (k : Nat) (f : Queue → Queue) : (d.modQueue k f).rejPair = d.rejPair := rfl
@[simp] theorem modQueue_rejDig (d : Dev) (k : Nat) (f : Queue → Queue) : (d.modQueue k f).rejDig = d.rejDig := rfl
@[simp] theorem modQueue_regImgs (d : Dev) (k : Nat) (f : Queue → Queue) : (d.modQueue k f).regImgs = d.regImgs := rfl
@[simp] theorem modQueue_ropes (d : Dev) (k : Nat) (f : Queue → Queue) : (d.modQueue k f).ropes = d.ropes := rfl
@[simp] theorem modQueue_rcbs (d : Dev) (k : Nat) (f : Queue → Queue) : (d.modQueue k f).rcbs = d.rcbs := rfl
@[simp] theorem modQueue_streams (d : Dev) (k : Nat) (f : Queue → Queue) : (d.modQueue k f).streams = d.streams := rfl
@[simp] theorem modQueue_drip (d : Dev) (k : Nat) (f : Queue → Queue) : (d.modQueue k f).drip = d.drip := rfl
@[simp] theorem modQueue_windows (d : Dev) (k : Nat) (f : Queue → Queue) : (d.modQueue k f).windows = d.windows := rfl
@[simp] theorem modQueue_rr (d : Dev) (k : Nat) (f : Queue → Queue) : (d.modQueue k f).rr = d.rr := rfl
@[simp] theorem modQueue_devq (d : Dev) (k : Nat) (f : Queue → Queue) : (d.modQueue k f).devq = d.devq := rfl
@[simp] theorem modQueue_tears (d : Dev) (k : Nat) (f : Queue → Queue) : (d.modQueue k f).tears = d.tears := rfl
@[simp] theorem modQueue_recs (d : Dev) (k : Nat) (f : Queue → Queue) : (d.modQueue k f).recs = d.recs := rfl
@[simp] theorem modQueue_holds (d : Dev) (k : Nat) (f : Queue → Queue) : (d.modQueue k f).holds = d.holds := rfl
@[simp] theorem modQueue_ops (d : Dev) (k : Nat) (f : Queue → Queue) : (d.modQueue k f).ops = d.ops := rfl
@[simp] theorem modQueue_nextOp (d : Dev) (k : Nat) (f : Queue → Queue) : (d.modQueue k f).nextOp = d.nextOp := rfl
@[simp] theorem modQueue_nodes (d : Dev) (k : Nat) (f : Queue → Queue) : (d.modQueue k f).nodes = d.nodes := rfl
@[simp] theorem modQueue_shelves (d : Dev) (k : Nat) (f : Queue → Queue) : (d.modQueue k f).shelves = d.shelves := rfl
@[simp] theorem modQueue_chunks (d : Dev) (k : Nat) (f : Queue → Queue) : (d.modQueue k f).chunks = d.chunks := rfl
@[simp] theorem modQueue_pools (d : Dev) (k : Nat) (f : Queue → Queue) : (d.modQueue k f).pools = d.pools := rfl
@[simp] theorem modQueue_pres (d : Dev) (k : Nat) (f : Queue → Queue) : (d.modQueue k f).pres = d.pres := rfl
@[simp] theorem modQueue_resvs (d : Dev) (k : Nat) (f : Queue → Queue) : (d.modQueue k f).resvs = d.resvs := rfl
@[simp] theorem modQueue_zeros (d : Dev) (k : Nat) (f : Queue → Queue) : (d.modQueue k f).zeros = d.zeros := rfl
@[simp] theorem modQueue_bounce (d : Dev) (k : Nat) (f : Queue → Queue) : (d.modQueue k f).bounce = d.bounce := rfl
@[simp] theorem modQueue_migs (d : Dev) (k : Nat) (f : Queue → Queue) : (d.modQueue k f).migs = d.migs := rfl
@[simp] theorem modQueue_nextMig (d : Dev) (k : Nat) (f : Queue → Queue) : (d.modQueue k f).nextMig = d.nextMig := rfl
@[simp] theorem modQueue_migq (d : Dev) (k : Nat) (f : Queue → Queue) : (d.modQueue k f).migq = d.migq := rfl
@[simp] theorem modQueue_settle (d : Dev) (k : Nat) (f : Queue → Queue) : (d.modQueue k f).settle = d.settle := rfl
@[simp] theorem modQueue_dies (d : Dev) (k : Nat) (f : Queue → Queue) : (d.modQueue k f).dies = d.dies := rfl
@[simp] theorem modQueue_parts (d : Dev) (k : Nat) (f : Queue → Queue) : (d.modQueue k f).parts = d.parts := rfl
@[simp] theorem modQueue_funcs (d : Dev) (k : Nat) (f : Queue → Queue) : (d.modQueue k f).funcs = d.funcs := rfl
@[simp] theorem modQueue_peers (d : Dev) (k : Nat) (f : Queue → Queue) : (d.modQueue k f).peers = d.peers := rfl
@[simp] theorem modQueue_asidtb (d : Dev) (k : Nat) (f : Queue → Queue) : (d.modQueue k f).asidtb = d.asidtb := rfl
@[simp] theorem modQueue_migsettle (d : Dev) (k : Nat) (f : Queue → Queue) : (d.modQueue k f).migsettle = d.migsettle := rfl
@[simp] theorem modQueue_xlq (d : Dev) (k : Nat) (f : Queue → Queue) : (d.modQueue k f).xlq = d.xlq := rfl
@[simp] theorem modQueue_xlbusy (d : Dev) (k : Nat) (f : Queue → Queue) : (d.modQueue k f).xlbusy = d.xlbusy := rfl
@[simp] theorem modQueue_xldone (d : Dev) (k : Nat) (f : Queue → Queue) : (d.modQueue k f).xldone = d.xldone := rfl
@[simp] theorem modQueue_xlerr (d : Dev) (k : Nat) (f : Queue → Queue) : (d.modQueue k f).xlerr = d.xlerr := rfl
@[simp] theorem modQueue_xlcur (d : Dev) (k : Nat) (f : Queue → Queue) : (d.modQueue k f).xlcur = d.xlcur := rfl
@[simp] theorem modQueue_pend (d : Dev) (k : Nat) (f : Queue → Queue) : (d.modQueue k f).pend = d.pend := rfl
@[simp] theorem modQueue_recq (d : Dev) (k : Nat) (f : Queue → Queue) : (d.modQueue k f).recq = d.recq := rfl
@[simp] theorem modQueue_names (d : Dev) (k : Nat) (f : Queue → Queue) : (d.modQueue k f).names = d.names := rfl
@[simp] theorem modQueue_ident (d : Dev) (k : Nat) (f : Queue → Queue) : (d.modQueue k f).ident = d.ident := rfl
@[simp] theorem modQueue_out (d : Dev) (k : Nat) (f : Queue → Queue) : (d.modQueue k f).out = d.out := rfl
@[simp] theorem modQueue_balk (d : Dev) (k : Nat) (f : Queue → Queue) : (d.modQueue k f).balk = d.balk := rfl

@[simp] theorem modWindow_cycle (d : Dev) (a b : Nat) (f : Window → Window) : (d.modWindow a b f).cycle = d.cycle := rfl
@[simp] theorem modWindow_freeSeq (d : Dev) (a b : Nat) (f : Window → Window) : (d.modWindow a b f).freeSeq = d.freeSeq := rfl
@[simp] theorem modWindow_agenda (d : Dev) (a b : Nat) (f : Window → Window) : (d.modWindow a b f).agenda = d.agenda := rfl
@[simp] theorem modWindow_mem (d : Dev) (a b : Nat) (f : Window → Window) : (d.modWindow a b f).mem = d.mem := rfl
@[simp] theorem modWindow_threads (d : Dev) (a b : Nat) (f : Window → Window) : (d.modWindow a b f).threads = d.threads := rfl
@[simp] theorem modWindow_nextTid (d : Dev) (a b : Nat) (f : Window → Window) : (d.modWindow a b f).nextTid = d.nextTid := rfl
@[simp] theorem modWindow_nextOrd (d : Dev) (a b : Nat) (f : Window → Window) : (d.modWindow a b f).nextOrd = d.nextOrd := rfl
@[simp] theorem modWindow_commits (d : Dev) (a b : Nat) (f : Window → Window) : (d.modWindow a b f).commits = d.commits := rfl
@[simp] theorem modWindow_launches (d : Dev) (a b : Nat) (f : Window → Window) : (d.modWindow a b f).launches = d.launches := rfl
@[simp] theorem modWindow_nextLaunch (d : Dev) (a b : Nat) (f : Window → Window) : (d.modWindow a b f).nextLaunch = d.nextLaunch := rfl
@[simp] theorem modWindow_regions (d : Dev) (a b : Nat) (f : Window → Window) : (d.modWindow a b f).regions = d.regions := rfl
@[simp] theorem modWindow_nextRegion (d : Dev) (a b : Nat) (f : Window → Window) : (d.modWindow a b f).nextRegion = d.nextRegion := rfl
@[simp] theorem modWindow_insts (d : Dev) (a b : Nat) (f : Window → Window) : (d.modWindow a b f).insts = d.insts := rfl
@[simp] theorem modWindow_nextInst (d : Dev) (a b : Nat) (f : Window → Window) : (d.modWindow a b f).nextInst = d.nextInst := rfl
@[simp] theorem modWindow_fire (d : Dev) (a b : Nat) (f : Window → Window) : (d.modWindow a b f).fire = d.fire := rfl
@[simp] theorem modWindow_fetches (d : Dev) (a b : Nat) (f : Window → Window) : (d.modWindow a b f).fetches = d.fetches := rfl
@[simp] theorem modWindow_placed (d : Dev) (a b : Nat) (f : Window → Window) : (d.modWindow a b f).placed = d.placed := rfl
@[simp] theorem modWindow_rejPair (d : Dev) (a b : Nat) (f : Window → Window) : (d.modWindow a b f).rejPair = d.rejPair := rfl
@[simp] theorem modWindow_rejDig (d : Dev) (a b : Nat) (f : Window → Window) : (d.modWindow a b f).rejDig = d.rejDig := rfl
@[simp] theorem modWindow_regImgs (d : Dev) (a b : Nat) (f : Window → Window) : (d.modWindow a b f).regImgs = d.regImgs := rfl
@[simp] theorem modWindow_ropes (d : Dev) (a b : Nat) (f : Window → Window) : (d.modWindow a b f).ropes = d.ropes := rfl
@[simp] theorem modWindow_rcbs (d : Dev) (a b : Nat) (f : Window → Window) : (d.modWindow a b f).rcbs = d.rcbs := rfl
@[simp] theorem modWindow_streams (d : Dev) (a b : Nat) (f : Window → Window) : (d.modWindow a b f).streams = d.streams := rfl
@[simp] theorem modWindow_drip (d : Dev) (a b : Nat) (f : Window → Window) : (d.modWindow a b f).drip = d.drip := rfl
@[simp] theorem modWindow_queues (d : Dev) (a b : Nat) (f : Window → Window) : (d.modWindow a b f).queues = d.queues := rfl
@[simp] theorem modWindow_rr (d : Dev) (a b : Nat) (f : Window → Window) : (d.modWindow a b f).rr = d.rr := rfl
@[simp] theorem modWindow_devq (d : Dev) (a b : Nat) (f : Window → Window) : (d.modWindow a b f).devq = d.devq := rfl
@[simp] theorem modWindow_tears (d : Dev) (a b : Nat) (f : Window → Window) : (d.modWindow a b f).tears = d.tears := rfl
@[simp] theorem modWindow_recs (d : Dev) (a b : Nat) (f : Window → Window) : (d.modWindow a b f).recs = d.recs := rfl
@[simp] theorem modWindow_holds (d : Dev) (a b : Nat) (f : Window → Window) : (d.modWindow a b f).holds = d.holds := rfl
@[simp] theorem modWindow_ops (d : Dev) (a b : Nat) (f : Window → Window) : (d.modWindow a b f).ops = d.ops := rfl
@[simp] theorem modWindow_nextOp (d : Dev) (a b : Nat) (f : Window → Window) : (d.modWindow a b f).nextOp = d.nextOp := rfl
@[simp] theorem modWindow_nodes (d : Dev) (a b : Nat) (f : Window → Window) : (d.modWindow a b f).nodes = d.nodes := rfl
@[simp] theorem modWindow_shelves (d : Dev) (a b : Nat) (f : Window → Window) : (d.modWindow a b f).shelves = d.shelves := rfl
@[simp] theorem modWindow_chunks (d : Dev) (a b : Nat) (f : Window → Window) : (d.modWindow a b f).chunks = d.chunks := rfl
@[simp] theorem modWindow_pools (d : Dev) (a b : Nat) (f : Window → Window) : (d.modWindow a b f).pools = d.pools := rfl
@[simp] theorem modWindow_pres (d : Dev) (a b : Nat) (f : Window → Window) : (d.modWindow a b f).pres = d.pres := rfl
@[simp] theorem modWindow_resvs (d : Dev) (a b : Nat) (f : Window → Window) : (d.modWindow a b f).resvs = d.resvs := rfl
@[simp] theorem modWindow_zeros (d : Dev) (a b : Nat) (f : Window → Window) : (d.modWindow a b f).zeros = d.zeros := rfl
@[simp] theorem modWindow_bounce (d : Dev) (a b : Nat) (f : Window → Window) : (d.modWindow a b f).bounce = d.bounce := rfl
@[simp] theorem modWindow_migs (d : Dev) (a b : Nat) (f : Window → Window) : (d.modWindow a b f).migs = d.migs := rfl
@[simp] theorem modWindow_nextMig (d : Dev) (a b : Nat) (f : Window → Window) : (d.modWindow a b f).nextMig = d.nextMig := rfl
@[simp] theorem modWindow_migq (d : Dev) (a b : Nat) (f : Window → Window) : (d.modWindow a b f).migq = d.migq := rfl
@[simp] theorem modWindow_settle (d : Dev) (a b : Nat) (f : Window → Window) : (d.modWindow a b f).settle = d.settle := rfl
@[simp] theorem modWindow_dies (d : Dev) (a b : Nat) (f : Window → Window) : (d.modWindow a b f).dies = d.dies := rfl
@[simp] theorem modWindow_parts (d : Dev) (a b : Nat) (f : Window → Window) : (d.modWindow a b f).parts = d.parts := rfl
@[simp] theorem modWindow_funcs (d : Dev) (a b : Nat) (f : Window → Window) : (d.modWindow a b f).funcs = d.funcs := rfl
@[simp] theorem modWindow_peers (d : Dev) (a b : Nat) (f : Window → Window) : (d.modWindow a b f).peers = d.peers := rfl
@[simp] theorem modWindow_asidtb (d : Dev) (a b : Nat) (f : Window → Window) : (d.modWindow a b f).asidtb = d.asidtb := rfl
@[simp] theorem modWindow_migsettle (d : Dev) (a b : Nat) (f : Window → Window) : (d.modWindow a b f).migsettle = d.migsettle := rfl
@[simp] theorem modWindow_xlq (d : Dev) (a b : Nat) (f : Window → Window) : (d.modWindow a b f).xlq = d.xlq := rfl
@[simp] theorem modWindow_xlbusy (d : Dev) (a b : Nat) (f : Window → Window) : (d.modWindow a b f).xlbusy = d.xlbusy := rfl
@[simp] theorem modWindow_xldone (d : Dev) (a b : Nat) (f : Window → Window) : (d.modWindow a b f).xldone = d.xldone := rfl
@[simp] theorem modWindow_xlerr (d : Dev) (a b : Nat) (f : Window → Window) : (d.modWindow a b f).xlerr = d.xlerr := rfl
@[simp] theorem modWindow_xlcur (d : Dev) (a b : Nat) (f : Window → Window) : (d.modWindow a b f).xlcur = d.xlcur := rfl
@[simp] theorem modWindow_pend (d : Dev) (a b : Nat) (f : Window → Window) : (d.modWindow a b f).pend = d.pend := rfl
@[simp] theorem modWindow_recq (d : Dev) (a b : Nat) (f : Window → Window) : (d.modWindow a b f).recq = d.recq := rfl
@[simp] theorem modWindow_names (d : Dev) (a b : Nat) (f : Window → Window) : (d.modWindow a b f).names = d.names := rfl
@[simp] theorem modWindow_ident (d : Dev) (a b : Nat) (f : Window → Window) : (d.modWindow a b f).ident = d.ident := rfl
@[simp] theorem modWindow_out (d : Dev) (a b : Nat) (f : Window → Window) : (d.modWindow a b f).out = d.out := rfl
@[simp] theorem modWindow_balk (d : Dev) (a b : Nat) (f : Window → Window) : (d.modWindow a b f).balk = d.balk := rfl

@[simp] theorem modOp_cycle (d : Dev) (k : Nat) (f : EngOp → EngOp) : (d.modOp k f).cycle = d.cycle := rfl
@[simp] theorem modOp_freeSeq (d : Dev) (k : Nat) (f : EngOp → EngOp) : (d.modOp k f).freeSeq = d.freeSeq := rfl
@[simp] theorem modOp_agenda (d : Dev) (k : Nat) (f : EngOp → EngOp) : (d.modOp k f).agenda = d.agenda := rfl
@[simp] theorem modOp_mem (d : Dev) (k : Nat) (f : EngOp → EngOp) : (d.modOp k f).mem = d.mem := rfl
@[simp] theorem modOp_threads (d : Dev) (k : Nat) (f : EngOp → EngOp) : (d.modOp k f).threads = d.threads := rfl
@[simp] theorem modOp_nextTid (d : Dev) (k : Nat) (f : EngOp → EngOp) : (d.modOp k f).nextTid = d.nextTid := rfl
@[simp] theorem modOp_nextOrd (d : Dev) (k : Nat) (f : EngOp → EngOp) : (d.modOp k f).nextOrd = d.nextOrd := rfl
@[simp] theorem modOp_commits (d : Dev) (k : Nat) (f : EngOp → EngOp) : (d.modOp k f).commits = d.commits := rfl
@[simp] theorem modOp_launches (d : Dev) (k : Nat) (f : EngOp → EngOp) : (d.modOp k f).launches = d.launches := rfl
@[simp] theorem modOp_nextLaunch (d : Dev) (k : Nat) (f : EngOp → EngOp) : (d.modOp k f).nextLaunch = d.nextLaunch := rfl
@[simp] theorem modOp_regions (d : Dev) (k : Nat) (f : EngOp → EngOp) : (d.modOp k f).regions = d.regions := rfl
@[simp] theorem modOp_nextRegion (d : Dev) (k : Nat) (f : EngOp → EngOp) : (d.modOp k f).nextRegion = d.nextRegion := rfl
@[simp] theorem modOp_insts (d : Dev) (k : Nat) (f : EngOp → EngOp) : (d.modOp k f).insts = d.insts := rfl
@[simp] theorem modOp_nextInst (d : Dev) (k : Nat) (f : EngOp → EngOp) : (d.modOp k f).nextInst = d.nextInst := rfl
@[simp] theorem modOp_fire (d : Dev) (k : Nat) (f : EngOp → EngOp) : (d.modOp k f).fire = d.fire := rfl
@[simp] theorem modOp_fetches (d : Dev) (k : Nat) (f : EngOp → EngOp) : (d.modOp k f).fetches = d.fetches := rfl
@[simp] theorem modOp_placed (d : Dev) (k : Nat) (f : EngOp → EngOp) : (d.modOp k f).placed = d.placed := rfl
@[simp] theorem modOp_rejPair (d : Dev) (k : Nat) (f : EngOp → EngOp) : (d.modOp k f).rejPair = d.rejPair := rfl
@[simp] theorem modOp_rejDig (d : Dev) (k : Nat) (f : EngOp → EngOp) : (d.modOp k f).rejDig = d.rejDig := rfl
@[simp] theorem modOp_regImgs (d : Dev) (k : Nat) (f : EngOp → EngOp) : (d.modOp k f).regImgs = d.regImgs := rfl
@[simp] theorem modOp_ropes (d : Dev) (k : Nat) (f : EngOp → EngOp) : (d.modOp k f).ropes = d.ropes := rfl
@[simp] theorem modOp_rcbs (d : Dev) (k : Nat) (f : EngOp → EngOp) : (d.modOp k f).rcbs = d.rcbs := rfl
@[simp] theorem modOp_streams (d : Dev) (k : Nat) (f : EngOp → EngOp) : (d.modOp k f).streams = d.streams := rfl
@[simp] theorem modOp_drip (d : Dev) (k : Nat) (f : EngOp → EngOp) : (d.modOp k f).drip = d.drip := rfl
@[simp] theorem modOp_windows (d : Dev) (k : Nat) (f : EngOp → EngOp) : (d.modOp k f).windows = d.windows := rfl
@[simp] theorem modOp_queues (d : Dev) (k : Nat) (f : EngOp → EngOp) : (d.modOp k f).queues = d.queues := rfl
@[simp] theorem modOp_rr (d : Dev) (k : Nat) (f : EngOp → EngOp) : (d.modOp k f).rr = d.rr := rfl
@[simp] theorem modOp_devq (d : Dev) (k : Nat) (f : EngOp → EngOp) : (d.modOp k f).devq = d.devq := rfl
@[simp] theorem modOp_tears (d : Dev) (k : Nat) (f : EngOp → EngOp) : (d.modOp k f).tears = d.tears := rfl
@[simp] theorem modOp_recs (d : Dev) (k : Nat) (f : EngOp → EngOp) : (d.modOp k f).recs = d.recs := rfl
@[simp] theorem modOp_holds (d : Dev) (k : Nat) (f : EngOp → EngOp) : (d.modOp k f).holds = d.holds := rfl
@[simp] theorem modOp_nextOp (d : Dev) (k : Nat) (f : EngOp → EngOp) : (d.modOp k f).nextOp = d.nextOp := rfl
@[simp] theorem modOp_nodes (d : Dev) (k : Nat) (f : EngOp → EngOp) : (d.modOp k f).nodes = d.nodes := rfl
@[simp] theorem modOp_shelves (d : Dev) (k : Nat) (f : EngOp → EngOp) : (d.modOp k f).shelves = d.shelves := rfl
@[simp] theorem modOp_chunks (d : Dev) (k : Nat) (f : EngOp → EngOp) : (d.modOp k f).chunks = d.chunks := rfl
@[simp] theorem modOp_pools (d : Dev) (k : Nat) (f : EngOp → EngOp) : (d.modOp k f).pools = d.pools := rfl
@[simp] theorem modOp_pres (d : Dev) (k : Nat) (f : EngOp → EngOp) : (d.modOp k f).pres = d.pres := rfl
@[simp] theorem modOp_resvs (d : Dev) (k : Nat) (f : EngOp → EngOp) : (d.modOp k f).resvs = d.resvs := rfl
@[simp] theorem modOp_zeros (d : Dev) (k : Nat) (f : EngOp → EngOp) : (d.modOp k f).zeros = d.zeros := rfl
@[simp] theorem modOp_bounce (d : Dev) (k : Nat) (f : EngOp → EngOp) : (d.modOp k f).bounce = d.bounce := rfl
@[simp] theorem modOp_migs (d : Dev) (k : Nat) (f : EngOp → EngOp) : (d.modOp k f).migs = d.migs := rfl
@[simp] theorem modOp_nextMig (d : Dev) (k : Nat) (f : EngOp → EngOp) : (d.modOp k f).nextMig = d.nextMig := rfl
@[simp] theorem modOp_migq (d : Dev) (k : Nat) (f : EngOp → EngOp) : (d.modOp k f).migq = d.migq := rfl
@[simp] theorem modOp_settle (d : Dev) (k : Nat) (f : EngOp → EngOp) : (d.modOp k f).settle = d.settle := rfl
@[simp] theorem modOp_dies (d : Dev) (k : Nat) (f : EngOp → EngOp) : (d.modOp k f).dies = d.dies := rfl
@[simp] theorem modOp_parts (d : Dev) (k : Nat) (f : EngOp → EngOp) : (d.modOp k f).parts = d.parts := rfl
@[simp] theorem modOp_funcs (d : Dev) (k : Nat) (f : EngOp → EngOp) : (d.modOp k f).funcs = d.funcs := rfl
@[simp] theorem modOp_peers (d : Dev) (k : Nat) (f : EngOp → EngOp) : (d.modOp k f).peers = d.peers := rfl
@[simp] theorem modOp_asidtb (d : Dev) (k : Nat) (f : EngOp → EngOp) : (d.modOp k f).asidtb = d.asidtb := rfl
@[simp] theorem modOp_migsettle (d : Dev) (k : Nat) (f : EngOp → EngOp) : (d.modOp k f).migsettle = d.migsettle := rfl
@[simp] theorem modOp_xlq (d : Dev) (k : Nat) (f : EngOp → EngOp) : (d.modOp k f).xlq = d.xlq := rfl
@[simp] theorem modOp_xlbusy (d : Dev) (k : Nat) (f : EngOp → EngOp) : (d.modOp k f).xlbusy = d.xlbusy := rfl
@[simp] theorem modOp_xldone (d : Dev) (k : Nat) (f : EngOp → EngOp) : (d.modOp k f).xldone = d.xldone := rfl
@[simp] theorem modOp_xlerr (d : Dev) (k : Nat) (f : EngOp → EngOp) : (d.modOp k f).xlerr = d.xlerr := rfl
@[simp] theorem modOp_xlcur (d : Dev) (k : Nat) (f : EngOp → EngOp) : (d.modOp k f).xlcur = d.xlcur := rfl
@[simp] theorem modOp_pend (d : Dev) (k : Nat) (f : EngOp → EngOp) : (d.modOp k f).pend = d.pend := rfl
@[simp] theorem modOp_recq (d : Dev) (k : Nat) (f : EngOp → EngOp) : (d.modOp k f).recq = d.recq := rfl
@[simp] theorem modOp_names (d : Dev) (k : Nat) (f : EngOp → EngOp) : (d.modOp k f).names = d.names := rfl
@[simp] theorem modOp_ident (d : Dev) (k : Nat) (f : EngOp → EngOp) : (d.modOp k f).ident = d.ident := rfl
@[simp] theorem modOp_out (d : Dev) (k : Nat) (f : EngOp → EngOp) : (d.modOp k f).out = d.out := rfl
@[simp] theorem modOp_balk (d : Dev) (k : Nat) (f : EngOp → EngOp) : (d.modOp k f).balk = d.balk := rfl

@[simp] theorem setStream_cycle (d : Dev) (k : Nat) (x : Stream) : (d.setStream k x).cycle = d.cycle := rfl
@[simp] theorem setStream_freeSeq (d : Dev) (k : Nat) (x : Stream) : (d.setStream k x).freeSeq = d.freeSeq := rfl
@[simp] theorem setStream_agenda (d : Dev) (k : Nat) (x : Stream) : (d.setStream k x).agenda = d.agenda := rfl
@[simp] theorem setStream_mem (d : Dev) (k : Nat) (x : Stream) : (d.setStream k x).mem = d.mem := rfl
@[simp] theorem setStream_threads (d : Dev) (k : Nat) (x : Stream) : (d.setStream k x).threads = d.threads := rfl
@[simp] theorem setStream_nextTid (d : Dev) (k : Nat) (x : Stream) : (d.setStream k x).nextTid = d.nextTid := rfl
@[simp] theorem setStream_nextOrd (d : Dev) (k : Nat) (x : Stream) : (d.setStream k x).nextOrd = d.nextOrd := rfl
@[simp] theorem setStream_commits (d : Dev) (k : Nat) (x : Stream) : (d.setStream k x).commits = d.commits := rfl
@[simp] theorem setStream_launches (d : Dev) (k : Nat) (x : Stream) : (d.setStream k x).launches = d.launches := rfl
@[simp] theorem setStream_nextLaunch (d : Dev) (k : Nat) (x : Stream) : (d.setStream k x).nextLaunch = d.nextLaunch := rfl
@[simp] theorem setStream_regions (d : Dev) (k : Nat) (x : Stream) : (d.setStream k x).regions = d.regions := rfl
@[simp] theorem setStream_nextRegion (d : Dev) (k : Nat) (x : Stream) : (d.setStream k x).nextRegion = d.nextRegion := rfl
@[simp] theorem setStream_insts (d : Dev) (k : Nat) (x : Stream) : (d.setStream k x).insts = d.insts := rfl
@[simp] theorem setStream_nextInst (d : Dev) (k : Nat) (x : Stream) : (d.setStream k x).nextInst = d.nextInst := rfl
@[simp] theorem setStream_fire (d : Dev) (k : Nat) (x : Stream) : (d.setStream k x).fire = d.fire := rfl
@[simp] theorem setStream_fetches (d : Dev) (k : Nat) (x : Stream) : (d.setStream k x).fetches = d.fetches := rfl
@[simp] theorem setStream_placed (d : Dev) (k : Nat) (x : Stream) : (d.setStream k x).placed = d.placed := rfl
@[simp] theorem setStream_rejPair (d : Dev) (k : Nat) (x : Stream) : (d.setStream k x).rejPair = d.rejPair := rfl
@[simp] theorem setStream_rejDig (d : Dev) (k : Nat) (x : Stream) : (d.setStream k x).rejDig = d.rejDig := rfl
@[simp] theorem setStream_regImgs (d : Dev) (k : Nat) (x : Stream) : (d.setStream k x).regImgs = d.regImgs := rfl
@[simp] theorem setStream_ropes (d : Dev) (k : Nat) (x : Stream) : (d.setStream k x).ropes = d.ropes := rfl
@[simp] theorem setStream_rcbs (d : Dev) (k : Nat) (x : Stream) : (d.setStream k x).rcbs = d.rcbs := rfl
@[simp] theorem setStream_drip (d : Dev) (k : Nat) (x : Stream) : (d.setStream k x).drip = d.drip := rfl
@[simp] theorem setStream_windows (d : Dev) (k : Nat) (x : Stream) : (d.setStream k x).windows = d.windows := rfl
@[simp] theorem setStream_queues (d : Dev) (k : Nat) (x : Stream) : (d.setStream k x).queues = d.queues := rfl
@[simp] theorem setStream_rr (d : Dev) (k : Nat) (x : Stream) : (d.setStream k x).rr = d.rr := rfl
@[simp] theorem setStream_devq (d : Dev) (k : Nat) (x : Stream) : (d.setStream k x).devq = d.devq := rfl
@[simp] theorem setStream_tears (d : Dev) (k : Nat) (x : Stream) : (d.setStream k x).tears = d.tears := rfl
@[simp] theorem setStream_recs (d : Dev) (k : Nat) (x : Stream) : (d.setStream k x).recs = d.recs := rfl
@[simp] theorem setStream_holds (d : Dev) (k : Nat) (x : Stream) : (d.setStream k x).holds = d.holds := rfl
@[simp] theorem setStream_ops (d : Dev) (k : Nat) (x : Stream) : (d.setStream k x).ops = d.ops := rfl
@[simp] theorem setStream_nextOp (d : Dev) (k : Nat) (x : Stream) : (d.setStream k x).nextOp = d.nextOp := rfl
@[simp] theorem setStream_nodes (d : Dev) (k : Nat) (x : Stream) : (d.setStream k x).nodes = d.nodes := rfl
@[simp] theorem setStream_shelves (d : Dev) (k : Nat) (x : Stream) : (d.setStream k x).shelves = d.shelves := rfl
@[simp] theorem setStream_chunks (d : Dev) (k : Nat) (x : Stream) : (d.setStream k x).chunks = d.chunks := rfl
@[simp] theorem setStream_pools (d : Dev) (k : Nat) (x : Stream) : (d.setStream k x).pools = d.pools := rfl
@[simp] theorem setStream_pres (d : Dev) (k : Nat) (x : Stream) : (d.setStream k x).pres = d.pres := rfl
@[simp] theorem setStream_resvs (d : Dev) (k : Nat) (x : Stream) : (d.setStream k x).resvs = d.resvs := rfl
@[simp] theorem setStream_zeros (d : Dev) (k : Nat) (x : Stream) : (d.setStream k x).zeros = d.zeros := rfl
@[simp] theorem setStream_bounce (d : Dev) (k : Nat) (x : Stream) : (d.setStream k x).bounce = d.bounce := rfl
@[simp] theorem setStream_migs (d : Dev) (k : Nat) (x : Stream) : (d.setStream k x).migs = d.migs := rfl
@[simp] theorem setStream_nextMig (d : Dev) (k : Nat) (x : Stream) : (d.setStream k x).nextMig = d.nextMig := rfl
@[simp] theorem setStream_migq (d : Dev) (k : Nat) (x : Stream) : (d.setStream k x).migq = d.migq := rfl
@[simp] theorem setStream_settle (d : Dev) (k : Nat) (x : Stream) : (d.setStream k x).settle = d.settle := rfl
@[simp] theorem setStream_dies (d : Dev) (k : Nat) (x : Stream) : (d.setStream k x).dies = d.dies := rfl
@[simp] theorem setStream_parts (d : Dev) (k : Nat) (x : Stream) : (d.setStream k x).parts = d.parts := rfl
@[simp] theorem setStream_funcs (d : Dev) (k : Nat) (x : Stream) : (d.setStream k x).funcs = d.funcs := rfl
@[simp] theorem setStream_peers (d : Dev) (k : Nat) (x : Stream) : (d.setStream k x).peers = d.peers := rfl
@[simp] theorem setStream_asidtb (d : Dev) (k : Nat) (x : Stream) : (d.setStream k x).asidtb = d.asidtb := rfl
@[simp] theorem setStream_migsettle (d : Dev) (k : Nat) (x : Stream) : (d.setStream k x).migsettle = d.migsettle := rfl
@[simp] theorem setStream_xlq (d : Dev) (k : Nat) (x : Stream) : (d.setStream k x).xlq = d.xlq := rfl
@[simp] theorem setStream_xlbusy (d : Dev) (k : Nat) (x : Stream) : (d.setStream k x).xlbusy = d.xlbusy := rfl
@[simp] theorem setStream_xldone (d : Dev) (k : Nat) (x : Stream) : (d.setStream k x).xldone = d.xldone := rfl
@[simp] theorem setStream_xlerr (d : Dev) (k : Nat) (x : Stream) : (d.setStream k x).xlerr = d.xlerr := rfl
@[simp] theorem setStream_xlcur (d : Dev) (k : Nat) (x : Stream) : (d.setStream k x).xlcur = d.xlcur := rfl
@[simp] theorem setStream_pend (d : Dev) (k : Nat) (x : Stream) : (d.setStream k x).pend = d.pend := rfl
@[simp] theorem setStream_recq (d : Dev) (k : Nat) (x : Stream) : (d.setStream k x).recq = d.recq := rfl
@[simp] theorem setStream_names (d : Dev) (k : Nat) (x : Stream) : (d.setStream k x).names = d.names := rfl
@[simp] theorem setStream_ident (d : Dev) (k : Nat) (x : Stream) : (d.setStream k x).ident = d.ident := rfl
@[simp] theorem setStream_out (d : Dev) (k : Nat) (x : Stream) : (d.setStream k x).out = d.out := rfl
@[simp] theorem setStream_balk (d : Dev) (k : Nat) (x : Stream) : (d.setStream k x).balk = d.balk := rfl

@[simp] theorem emit_cycle (d : Dev) (o : Out) : (d.emit o).cycle = d.cycle := rfl
@[simp] theorem emit_freeSeq (d : Dev) (o : Out) : (d.emit o).freeSeq = d.freeSeq := rfl
@[simp] theorem emit_agenda (d : Dev) (o : Out) : (d.emit o).agenda = d.agenda := rfl
@[simp] theorem emit_mem (d : Dev) (o : Out) : (d.emit o).mem = d.mem := rfl
@[simp] theorem emit_threads (d : Dev) (o : Out) : (d.emit o).threads = d.threads := rfl
@[simp] theorem emit_nextTid (d : Dev) (o : Out) : (d.emit o).nextTid = d.nextTid := rfl
@[simp] theorem emit_nextOrd (d : Dev) (o : Out) : (d.emit o).nextOrd = d.nextOrd := rfl
@[simp] theorem emit_commits (d : Dev) (o : Out) : (d.emit o).commits = d.commits := rfl
@[simp] theorem emit_launches (d : Dev) (o : Out) : (d.emit o).launches = d.launches := rfl
@[simp] theorem emit_nextLaunch (d : Dev) (o : Out) : (d.emit o).nextLaunch = d.nextLaunch := rfl
@[simp] theorem emit_regions (d : Dev) (o : Out) : (d.emit o).regions = d.regions := rfl
@[simp] theorem emit_nextRegion (d : Dev) (o : Out) : (d.emit o).nextRegion = d.nextRegion := rfl
@[simp] theorem emit_insts (d : Dev) (o : Out) : (d.emit o).insts = d.insts := rfl
@[simp] theorem emit_nextInst (d : Dev) (o : Out) : (d.emit o).nextInst = d.nextInst := rfl
@[simp] theorem emit_fire (d : Dev) (o : Out) : (d.emit o).fire = d.fire := rfl
@[simp] theorem emit_fetches (d : Dev) (o : Out) : (d.emit o).fetches = d.fetches := rfl
@[simp] theorem emit_placed (d : Dev) (o : Out) : (d.emit o).placed = d.placed := rfl
@[simp] theorem emit_rejPair (d : Dev) (o : Out) : (d.emit o).rejPair = d.rejPair := rfl
@[simp] theorem emit_rejDig (d : Dev) (o : Out) : (d.emit o).rejDig = d.rejDig := rfl
@[simp] theorem emit_regImgs (d : Dev) (o : Out) : (d.emit o).regImgs = d.regImgs := rfl
@[simp] theorem emit_ropes (d : Dev) (o : Out) : (d.emit o).ropes = d.ropes := rfl
@[simp] theorem emit_rcbs (d : Dev) (o : Out) : (d.emit o).rcbs = d.rcbs := rfl
@[simp] theorem emit_streams (d : Dev) (o : Out) : (d.emit o).streams = d.streams := rfl
@[simp] theorem emit_drip (d : Dev) (o : Out) : (d.emit o).drip = d.drip := rfl
@[simp] theorem emit_windows (d : Dev) (o : Out) : (d.emit o).windows = d.windows := rfl
@[simp] theorem emit_queues (d : Dev) (o : Out) : (d.emit o).queues = d.queues := rfl
@[simp] theorem emit_rr (d : Dev) (o : Out) : (d.emit o).rr = d.rr := rfl
@[simp] theorem emit_devq (d : Dev) (o : Out) : (d.emit o).devq = d.devq := rfl
@[simp] theorem emit_tears (d : Dev) (o : Out) : (d.emit o).tears = d.tears := rfl
@[simp] theorem emit_recs (d : Dev) (o : Out) : (d.emit o).recs = d.recs := rfl
@[simp] theorem emit_holds (d : Dev) (o : Out) : (d.emit o).holds = d.holds := rfl
@[simp] theorem emit_ops (d : Dev) (o : Out) : (d.emit o).ops = d.ops := rfl
@[simp] theorem emit_nextOp (d : Dev) (o : Out) : (d.emit o).nextOp = d.nextOp := rfl
@[simp] theorem emit_nodes (d : Dev) (o : Out) : (d.emit o).nodes = d.nodes := rfl
@[simp] theorem emit_shelves (d : Dev) (o : Out) : (d.emit o).shelves = d.shelves := rfl
@[simp] theorem emit_chunks (d : Dev) (o : Out) : (d.emit o).chunks = d.chunks := rfl
@[simp] theorem emit_pools (d : Dev) (o : Out) : (d.emit o).pools = d.pools := rfl
@[simp] theorem emit_pres (d : Dev) (o : Out) : (d.emit o).pres = d.pres := rfl
@[simp] theorem emit_resvs (d : Dev) (o : Out) : (d.emit o).resvs = d.resvs := rfl
@[simp] theorem emit_zeros (d : Dev) (o : Out) : (d.emit o).zeros = d.zeros := rfl
@[simp] theorem emit_bounce (d : Dev) (o : Out) : (d.emit o).bounce = d.bounce := rfl
@[simp] theorem emit_migs (d : Dev) (o : Out) : (d.emit o).migs = d.migs := rfl
@[simp] theorem emit_nextMig (d : Dev) (o : Out) : (d.emit o).nextMig = d.nextMig := rfl
@[simp] theorem emit_migq (d : Dev) (o : Out) : (d.emit o).migq = d.migq := rfl
@[simp] theorem emit_settle (d : Dev) (o : Out) : (d.emit o).settle = d.settle := rfl
@[simp] theorem emit_dies (d : Dev) (o : Out) : (d.emit o).dies = d.dies := rfl
@[simp] theorem emit_parts (d : Dev) (o : Out) : (d.emit o).parts = d.parts := rfl
@[simp] theorem emit_funcs (d : Dev) (o : Out) : (d.emit o).funcs = d.funcs := rfl
@[simp] theorem emit_peers (d : Dev) (o : Out) : (d.emit o).peers = d.peers := rfl
@[simp] theorem emit_asidtb (d : Dev) (o : Out) : (d.emit o).asidtb = d.asidtb := rfl
@[simp] theorem emit_migsettle (d : Dev) (o : Out) : (d.emit o).migsettle = d.migsettle := rfl
@[simp] theorem emit_xlq (d : Dev) (o : Out) : (d.emit o).xlq = d.xlq := rfl
@[simp] theorem emit_xlbusy (d : Dev) (o : Out) : (d.emit o).xlbusy = d.xlbusy := rfl
@[simp] theorem emit_xldone (d : Dev) (o : Out) : (d.emit o).xldone = d.xldone := rfl
@[simp] theorem emit_xlerr (d : Dev) (o : Out) : (d.emit o).xlerr = d.xlerr := rfl
@[simp] theorem emit_xlcur (d : Dev) (o : Out) : (d.emit o).xlcur = d.xlcur := rfl
@[simp] theorem emit_pend (d : Dev) (o : Out) : (d.emit o).pend = d.pend := rfl
@[simp] theorem emit_recq (d : Dev) (o : Out) : (d.emit o).recq = d.recq := rfl
@[simp] theorem emit_names (d : Dev) (o : Out) : (d.emit o).names = d.names := rfl
@[simp] theorem emit_ident (d : Dev) (o : Out) : (d.emit o).ident = d.ident := rfl
@[simp] theorem emit_balk (d : Dev) (o : Out) : (d.emit o).balk = d.balk := rfl

/-! ### The entry that an update changes -/

theorem thread_modThread (d : Dev) (k t : Nat) (f : Thread → Thread) :
    (d.modThread t f).thread k = if k = t then (d.thread t).map f else d.thread k := tget_tmod k t f d.threads

theorem inst_modInst (d : Dev) (k i : Nat) (f : Inst → Inst) :
    (d.modInst i f).inst k = if k = i then (d.inst i).map f else d.inst k := tget_tmod k i f d.insts

theorem region_modRegion (d : Dev) (k r : Nat) (f : Region → Region) :
    (d.modRegion r f).region k = if k = r then (d.region r).map f else d.region k := tget_tmod k r f d.regions

theorem rcbUse_setRcb (d : Dev) (k r : Nat) (u : RcbUse) : (d.setRcb r u).rcbUse k = if k = r then u else d.rcbUse k := by
  by_cases h : k = r <;> simp [Dev.rcbUse, Dev.setRcb, tget_tput, h]

theorem pool_setPool (d : Dev) (a b a' b' : Nat) (p : Pool) :
    (d.setPool a' b' p).pool a b = if a = a' ∧ b = b' then p else d.pool a b := by
  by_cases h : (a, b) = (a', b')
  · simp only [Prod.mk.injEq] at h; simp [Dev.pool, Dev.setPool, tget_tput, h]
  · have h2 := h; simp only [Prod.mk.injEq] at h2; simp [Dev.pool, Dev.setPool, tget_tput, h2]

theorem die_setDie (d : Dev) (k i : Nat) (x : Die) : (d.setDie i x).die k = if k = i then x else d.die k := by
  by_cases h : k = i <;> simp [Dev.die, Dev.setDie, tget_tput, h]

theorem part_modPart (d : Dev) (k i : Nat) (f : Part → Part) : (d.modPart i f).part k = if k = i then f (d.part i) else d.part k := by
  by_cases h : k = i <;> simp [Dev.part, Dev.modPart, tget_tput, h]

theorem func_modFunc (d : Dev) (k i : Nat) (f : Func → Func) : (d.modFunc i f).func k = if k = i then f (d.func i) else d.func k := by
  by_cases h : k = i <;> simp [Dev.func, Dev.modFunc, tget_tput, h]

theorem queue_modQueue (d : Dev) (k g : Nat) (f : Queue → Queue) :
    (d.modQueue g f).queue k = if k = g then f (d.queue g) else d.queue k := by
  by_cases h : k = g <;> simp [Dev.queue, Dev.modQueue, tget_tput, h]

theorem window_modWindow (d : Dev) (a b a' b' : Nat) (f : Window → Window) :
    (d.modWindow a' b' f).window a b = if a = a' ∧ b = b' then f (d.window a' b') else d.window a b := by
  by_cases h : (a, b) = (a', b')
  · simp only [Prod.mk.injEq] at h; obtain ⟨rfl, rfl⟩ := h; simp [Dev.window, Dev.modWindow, tget_tput]
  · have h2 := h; simp only [Prod.mk.injEq] at h2; simp [Dev.window, Dev.modWindow, tget_tput, h2]

theorem op_modOp (d : Dev) (k op : Nat) (f : EngOp → EngOp) :
    tget k (d.modOp op f).ops = if k = op then (tget op d.ops).map f else tget k d.ops := tget_tmod k op f d.ops

/-! ### Reading through the updates -/

@[simp] theorem modInst_byte (d : Dev) (i a : Nat) (f : Inst → Inst) : (d.modInst i f).byte a = d.byte a := rfl
@[simp] theorem modThread_byte (d : Dev) (t a : Nat) (f : Thread → Thread) : (d.modThread t f).byte a = d.byte a := rfl
@[simp] theorem modRegion_byte (d : Dev) (k a : Nat) (f : Region → Region) : (d.modRegion k f).byte a = d.byte a := rfl
@[simp] theorem setRcb_byte (d : Dev) (k a : Nat) (u : RcbUse) : (d.setRcb k u).byte a = d.byte a := rfl
@[simp] theorem modInst_thread (d : Dev) (i t : Nat) (f : Inst → Inst) : (d.modInst i f).thread t = d.thread t := rfl
@[simp] theorem modInst_region (d : Dev) (i k : Nat) (f : Inst → Inst) : (d.modInst i f).region k = d.region k := rfl
@[simp] theorem modThread_inst (d : Dev) (t i : Nat) (f : Thread → Thread) : (d.modThread t f).inst i = d.inst i := rfl
@[simp] theorem modRegion_inst (d : Dev) (k i : Nat) (f : Region → Region) : (d.modRegion k f).inst i = d.inst i := rfl
@[simp] theorem setRcb_inst (d : Dev) (k i : Nat) (u : RcbUse) : (d.setRcb k u).inst i = d.inst i := rfl

end Sys2Proof.Laws
end

