-- ==== Sys2Proof/Laws/Events.lean ====
section
/-!
SUPPORT. What the shared operations can do: events, buffering, sending, ending an instance, trapping and counting.
-/

namespace Sys2Proof.Laws

open Machine Safety

/-! ### Events -/

/-- An event that answers a next state has become the device that its rule gives, and no access of it waits. -/
theorem onEvent_next {s t : State} {n : String} {f : Dev → Option Dev} (h : onEvent s n f = .next t) :
    ∃ d, f s.dev = some d ∧ d.balk = false ∧ t = { s with dev := d } := by
  simp only [onEvent] at h
  split at h
  · cases h
  · next d e =>
    split at h
    · cases h
    · next b => cases h; exact ⟨d, e, by simpa using b, rfl⟩

theorem onEvent_does {s : State} {n : String} {f : Dev → Option Dev} {d : Dev} (h : f s.dev = some d) (hb : d.balk = false) :
    onEvent s n f = .next { s with dev := d } := by simp [onEvent, h, hb]

theorem onState_next {s t : State} {n : String} {f : State → Option State} (h : onState s n f = .next t) :
    f s = some t ∧ t.dev.balk = false := by
  simp only [onState] at h
  split at h
  · cases h
  · next u e =>
    split at h
    · cases h
    · next b => cases h; exact ⟨e, by simpa using b⟩

/-- An event never faults. -/
theorem onEvent_noFault (s : State) (n : String) (f : Dev → Option Dev) (x : Fault) : onEvent s n f ≠ .fault x := by
  simp only [onEvent]; split
  · simp
  · split <;> simp

theorem onState_noFault (s : State) (n : String) (f : State → Option State) (x : Fault) : onState s n f ≠ .fault x := by
  simp only [onState]; split
  · simp
  · split <;> simp

/-- A row of an instruction keeps the root of trust. -/
theorem onFire_rot {s t : State} {f : Dev → Fx → Dev} (h : onFire s f = .next t) : t.rot = s.rot := by
  simp only [onFire] at h
  split at h
  · simp at h
  · simp at h; rw [← h]

/-! ### The firing -/

/-- A latched firing's instance, thread and region stand in the device. -/
theorem fx_parts {d : Dev} {c : Fx} (h : d.fx = some c) :
    d.inst c.i = some c.x ∧ d.thread c.x.tid = some c.t ∧ d.region c.x.reg = some c.r ∧ d.fire = some c.fr ∧
      c.fr.inst = c.i ∧ c.fr.idx = c.idx := by
  simp only [Dev.fx] at h
  split at h
  · simp at h
  · next fr hf =>
    split at h
    · simp at h
    · next x hx =>
      split at h
      · next t r ht hr => simp at h; subst h; exact ⟨hx, ht, hr, hf, rfl, rfl⟩
      · simp at h

/-! ### Buffering and marking change the instance alone -/

theorem buffer_eq (d : Dev) (c : Fx) (e : Eff) : d.buffer c e = d.modInst c.i fun x => { x with effs := x.effs ++ [(c.idx, e)] } := rfl
@[simp] theorem buffer_mem (d : Dev) (c : Fx) (e : Eff) : (d.buffer c e).mem = d.mem := rfl
@[simp] theorem buffer_threads (d : Dev) (c : Fx) (e : Eff) : (d.buffer c e).threads = d.threads := rfl
@[simp] theorem buffer_balk (d : Dev) (c : Fx) (e : Eff) : (d.buffer c e).balk = d.balk := rfl
@[simp] theorem mark_mem (d : Dev) (c : Fx) (f : Marks → Marks) : (d.mark c f).mem = d.mem := rfl
@[simp] theorem mark_threads (d : Dev) (c : Fx) (f : Marks → Marks) : (d.mark c f).threads = d.threads := rfl
@[simp] theorem setOp_mem (d : Dev) (c : Fx) (s : OpSt) : (d.setOp c s).mem = d.mem := rfl
@[simp] theorem setOp_threads (d : Dev) (c : Fx) (s : OpSt) : (d.setOp c s).threads = d.threads := rfl

/-! ### A write by physical address and the counts that go with it -/

/-- `e` is `d` with memory, the counts of region control blocks, the pools, the chunks, the zero lists, the lines copied
of migrating pages and the reservations changed, and memory kept canonical. -/
def Stored (d e : Dev) : Prop :=
  ∃ m r p c z g v, e = { d with mem := m, rcbs := r, pools := p, chunks := c, zeros := z, migs := g, resvs := v } ∧
    (memWf d.mem = true → memWf m = true)

theorem Stored.refl (d : Dev) : Stored d d := ⟨_, _, _, _, _, _, _, rfl, id⟩

theorem Stored.trans {d e f : Dev} : Stored d e → Stored e f → Stored d f
  | ⟨_, _, _, _, _, _, _, h, w⟩, ⟨m, r, p, c, z, g, v, h', w'⟩ => by
    subst h; exact ⟨m, r, p, c, z, g, v, h', w' ∘ w⟩

theorem Stored.memWf {d e : Dev} (h : Stored d e) (w : memWf d.mem = true) : memWf e.mem = true := by
  obtain ⟨_, _, _, _, _, _, _, rfl, k⟩ := h; exact k w

theorem Stored.fold {α : Type} (f : Dev → α → Dev) (h : ∀ d x, Stored d (f d x)) :
    ∀ (l : List α) (d : Dev), Stored d (l.foldl f d)
  | [], d => .refl d
  | x :: l, d => (h d x).trans (Stored.fold f h l (f d x))

theorem Stored.pick {d a b : Dev} (c : Prop) [Decidable c] (ha : Stored d a) (hb : Stored d b) : Stored d (if c then a else b) := by
  split
  · exact ha
  · exact hb

theorem setPool_stored (d : Dev) (a b : Nat) (p : Pool) : Stored d (d.setPool a b p) := ⟨_, _, _, _, _, _, _, rfl, id⟩

theorem setMigs_stored (d : Dev) (g : List (Nat × Mig)) : Stored d { d with migs := g } := ⟨_, _, _, _, _, _, _, rfl, id⟩

theorem putList_stored (d : Dev) (a : Nat) (bs : List Byte) : Stored d { d with mem := memPutList d.mem a bs } :=
  ⟨_, _, _, _, _, _, _, rfl, fun w => memWf_memPutList w _ _⟩

theorem putChunk_stored (d : Dev) (c : Nat) (k : Chunk) : Stored d (d.putChunk c k) := ⟨_, _, _, _, _, _, _, rfl, id⟩

theorem chargeAll_stored (d : Dev) (rs : List Nat) (f : RcbUse → RcbUse) : Stored d (d.chargeAll rs f) :=
  Stored.fold _ (fun _ _ => ⟨_, _, _, _, _, _, _, rfl, fun w => memWf_memPutList w _ _⟩) rs d

theorem charge_stored (d : Dev) (r : Nat) (f : RcbUse → RcbUse) : Stored d (d.charge r f) := chargeAll_stored d _ f

theorem wakeLadle_stored (d : Dev) (part home : Nat) (b : Bool) : Stored d (d.wakeLadle part home b) := by
  simp only [Dev.wakeLadle]; split
  · exact setPool_stored ..
  · exact .refl d

theorem moveSectors_stored (d : Dev) (part home rcb plus minus : Nat) : Stored d (d.moveSectors part home rcb plus minus) := by
  simp only [Dev.moveSectors]
  split
  · exact .refl d
  · have h := (setPool_stored d part home { d.pool part home with held := (d.pool part home).held + plus - minus }).trans
      (Stored.pick (rcb = 0) (.refl _) (charge_stored _ rcb fun u => { u with sectors := u.sectors + plus - minus }))
    exact h.trans (.pick _ (.refl _) (wakeLadle_stored ..))

theorem noteZero_stored (d : Dev) (home c : Nat) : Stored d (d.noteZero home c) := by
  simp only [Dev.noteZero]; split
  · exact ⟨_, _, _, _, _, _, _, rfl, id⟩
  · exact .refl d

theorem setCodes_stored (d : Dev) (c : Nat) (codes : List (BitVec 4)) (cls : BitVec 2) (part rcb : Nat) (w : Bool) :
    Stored d (d.setCodes c codes cls part rcb w) := by
  simp only [Dev.setCodes]; split
  · exact .refl d
  · exact (((moveSectors_stored ..).trans (moveSectors_stored ..)).trans (putChunk_stored ..)).trans (noteZero_stored ..)

theorem recode_stored (d : Dev) (ln : Nat) (cls : BitVec 2) (part rcb : Nat) (w : Bool) :
    Stored d (d.recode ln cls part rcb w) := setCodes_stored ..

theorem copyLine_stored (d : Dev) (m : Nat) (g : Mig) (i : Nat) : Stored d (d.copyLine m g i) :=
  ((putList_stored d _ _).trans (recode_stored ..)).trans (setMigs_stored _ _)

theorem queueResv_stored (d : Dev) (part rcb chunk need : Nat) (who : Claimant) (va : Word) (idx : Nat) :
    Stored d (d.queueResv part rcb chunk need who va idx) := by
  simp only [Dev.queueResv]; split
  · exact .refl d
  · exact Stored.trans ⟨_, _, _, _, _, _, _, rfl, id⟩ (wakeLadle_stored ..)

theorem copyOrWait_stored (d : Dev) (m : Nat) (g : Mig) (i : Nat) : Stored d (d.copyOrWait m g i) := by
  simp only [Dev.copyOrWait]; split
  · exact copyLine_stored ..
  · split
    · exact setMigs_stored ..
    · exact (setMigs_stored d _).trans (queueResv_stored ..)

theorem mirror_stored (d : Dev) (lns : List Nat) (copied : Bool) : Stored d (d.mirror lns copied) :=
  Stored.fold _ (fun e p => by
    split
    · exact .refl e
    · exact Stored.fold _ (fun e i => copyOrWait_stored e _ _ i) _ e) _ d

/-- A write by physical address changes what `Stored` names, and nothing else. -/
theorem writeAt_stored (d : Dev) (cells : List (Nat × Byte)) (cls : BitVec 2) (part rcb : Nat) :
    Stored d (d.writeAt cells cls part rcb) :=
  Stored.trans (e := { d with mem := memPutAt d.mem cells }) ⟨_, _, _, _, _, _, _, rfl, fun w => memWf_memPutAt w _⟩
    ((Stored.fold _ (fun e l => recode_stored e l cls part rcb _) _ _).trans (mirror_stored ..))

theorem noteRead_stored (d : Dev) (pa n : Nat) : Stored d (d.noteRead pa n) := mirror_stored ..

theorem agentWrite_stored (d : Dev) (a : Nat) (bs : List Byte) : Stored d (d.agentWrite a bs) := writeAt_stored ..

/-! ### A trap -/

/-- The thread that traps waits TRAPPED at its block with the information given; no other thread changes. -/
theorem trapThread_thread (d : Dev) (tid k : Nat) (info : TrapInfo) :
    (d.trapThread tid info).thread k = if k = tid then (d.thread tid).map fun t => { t with
      st := .trapped, trap := some info, trapOrd := d.nextOrd, seq := t.seq + 1 } else d.thread k := by
  simp only [Dev.trapThread, Dev.endRegion]
  cases ht : d.thread tid with
  | none =>
    simp only [Dev.thread] at ht ⊢
    rw [tget_tmod]; split <;> simp [ht]
  | some t =>
    simp only [Dev.thread] at ht ⊢
    rw [tget_tmod]
    by_cases hk : k = tid
    · simp [hk, tget_tmod, ht]
    · simp [hk, tget_tmod]

theorem trapThread_mem (d : Dev) (tid : Nat) (info : TrapInfo) : (d.trapThread tid info).mem = d.mem := by
  simp only [Dev.trapThread, Dev.endRegion]; split <;> rfl

end Sys2Proof.Laws
end

