-- ==== Sys2Proof/Laws/Gates.lean ====
section
/-!
SUPPORT. What the gate of a firing makes of selected data operands: the shared operations then act.
-/

namespace Sys2Proof.Laws

open Machine Safety

/-- A data token with a valid lane 0 reads as itself. -/
theorem scalarView_valid {t : Token} (h : t.vld 0 = true) : t.scalarView = t := by simp [Token.scalarView, h]

theorem scalarView_null {t : Token} (h : t.kind = .null) : t.scalarView = t := by simp [Token.scalarView, h]

theorem selOf_yes {m : Pred} {c : Fx} (h : Selected m c) : selOf m c.fr.p = .yes := by
  cases m with
  | always => simp [selOf]
  | onTrue =>
    obtain ⟨t, h1, h2, h3, h4⟩ := h
    have h5 : ¬ t.val = 0#64 := h4
    simp [h1, selOf, scalarView_valid h3, h2, h5]
  | onFalse =>
    obtain ⟨t, h1, h2, h3, h4⟩ := h
    simp [h1, selOf, scalarView_valid h3, h2, h4]

theorem selOf_no {m : Pred} {c : Fx} (h : Unselected m c) : selOf m c.fr.p = .no := by
  cases m with
  | always => exact h.elim
  | onTrue =>
    obtain ⟨t, h1, h2 | ⟨h2, h3, h4⟩⟩ := h
    · simp [h1, selOf, scalarView_null h2, h2]
    · simp [h1, selOf, scalarView_valid h3, h2, h4]
  | onFalse =>
    obtain ⟨t, h1, h2 | ⟨h2, h3, h4⟩⟩ := h
    · simp [h1, selOf, scalarView_null h2, h2]
    · have h5 : (t.val != 0) = true := by simpa using h4
      have h6 : (Pred.onFalse == Pred.onTrue) = false := rfl
      simp only [h1, selOf, scalarView_valid h3, h2, h5, h6]; simp

/-- A data scalar reads as itself. -/
theorem view_scalar {o : Option Token} {v : Word} (b : Bool) (h : Scalar o v) :
    ∃ t, viewOp b o = some t ∧ o = some t ∧ t.kind = .data ∧ t.val = v := by
  obtain ⟨t, rfl, h2, h3, h4⟩ := h
  exact ⟨t, by cases b <;> simp [viewOp, Token.scalarView, h3], rfl, h2, h4⟩

theorem view_data {o : Option Token} {t : Token} (h : Data o t) : viewOp false o = some t := by simp [viewOp, h.1]

/-- Data operands act. -/
theorem kindRule_data {l : List Token} {p : Option Token} (h : ∀ t ∈ l ++ p.toList, t.kind = .data) : kindRule l p none = .act := by
  have h1 : (l ++ p.toList ++ (none : Option Token).toList).find? (fun t => t.kind == .error) = none := by
    simp only [Option.toList_none, List.append_nil, List.find?_eq_none]
    intro x hx; simp [h x hx]
  have h2 : ((l ++ p.toList).any fun t => t.kind == .null) = false := by
    simp only [List.any_eq_false]; intro x hx; simp [h x hx]
  have h3 : ((l ++ p.toList).all fun t => t.kind == .data) = true := by
    simp only [List.all_eq_true]; intro x hx; simp [h x hx]
  simp only [kindRule, h1, h2, h3]; simp

theorem always_p {m : Pred} {c : Fx} (h : Selected m c) (sc : Scalars) : dataP m sc c.fr = none := by
  cases m with
  | always => simp only [Selected] at h; cases hp : sc.p <;> simp [dataP, viewOp, hp, h]
  | onTrue => simp [dataP]
  | onFalse => simp [dataP]

theorem gate0 {m : Pred} {s : State} {c : Fx} (sc : Scalars) (h : Takes0 m s c) : gateOf m sc c.fr = .act := by
  obtain ⟨-, h1, h2, h3, h4, h5⟩ := h
  have h6 : dataOps sc c.fr = [] := by
    simp only [dataOps, h2, h3, h4, h5]; cases sc.a <;> cases sc.b <;> simp [viewOp]
  simp only [gateOf, selOf_yes h1, h6, always_p h1]; exact kindRule_data (by simp)

theorem gate1 {m : Pred} {s : State} {c : Fx} {x : Word} (sc : Scalars) (h : Takes1 m s c x) :
    gateOf m sc c.fr = .act := by
  obtain ⟨-, h1, h2, h3, h4, h5⟩ := h
  obtain ⟨t, e1, -, e2, -⟩ := view_scalar sc.a h2
  have h6 : dataOps sc c.fr = [t] := by
    simp only [dataOps, e1, h3, h4, h5]; cases sc.b <;> simp [viewOp]
  simp only [gateOf, selOf_yes h1, h6, always_p h1]; exact kindRule_data (by simpa using e2)

theorem gate2 {m : Pred} {s : State} {c : Fx} {x y : Word} (sc : Scalars) (h : Takes2 m s c x y) :
    gateOf m sc c.fr = .act := by
  obtain ⟨-, h1, h2, h3, h4, h5⟩ := h
  obtain ⟨t, e1, -, e2, -⟩ := view_scalar sc.a h2
  obtain ⟨u, f1, -, f2, -⟩ := view_scalar sc.b h3
  have h6 : dataOps sc c.fr = [t, u] := by simp [dataOps, e1, f1, h4, h5]
  simp only [gateOf, selOf_yes h1, h6, always_p h1]; exact kindRule_data (by simp [e2, f2])

theorem gate3 {s : State} {c : Fx} {x y z : Word} (sc : Scalars) (h : Takes3 s c x y z) :
    gateOf .always sc c.fr = .act := by
  obtain ⟨-, h2, h3, h1, h4, h5⟩ := h
  obtain ⟨t, e1, -, e2, -⟩ := view_scalar sc.a h2
  obtain ⟨u, f1, -, f2, -⟩ := view_scalar sc.b h3
  obtain ⟨v, g1, -, g2, -⟩ := view_scalar sc.p h1
  have h6 : dataOps sc c.fr = [t, u] := by simp [dataOps, e1, f1, h4, h5]
  have h7 : dataP .always sc c.fr = some v := by simp [dataP, g1]
  simp only [gateOf, selOf, h6, h7]; exact kindRule_data (by simp [e2, f2, g2])

theorem gateT1 {m : Pred} {s : State} {c : Fx} {x : Token} (h : Token1 m s c x) : gateOf m .none c.fr = .act := by
  obtain ⟨-, h1, h2, h3, h4, h5⟩ := h
  have h6 : dataOps .none c.fr = [x] := by
    have e : viewOp false c.fr.b = none := by rw [h3]; rfl
    simp [dataOps, Scalars.none, view_data h2, e, h4, h5]
  simp only [gateOf, selOf_yes h1, h6, always_p h1]; exact kindRule_data (by simpa using h2.2)

theorem gateT2 {m : Pred} {s : State} {c : Fx} {x y : Token} (h : Token2 m s c x y) : gateOf m .none c.fr = .act := by
  obtain ⟨-, h1, h2, h3, h4, h5⟩ := h
  have h6 : dataOps .none c.fr = [x, y] := by
    simp [dataOps, Scalars.none, view_data h2, view_data h3, h4, h5]
  simp only [gateOf, selOf_yes h1, h6, always_p h1]; exact kindRule_data (by simp [h2.2, h3.2])

theorem gateT3 {s : State} {c : Fx} {x y z : Token} (h : Token3 s c x y z) : gateOf .always .none c.fr = .act := by
  obtain ⟨-, h2, h3, h1, h4, h5⟩ := h
  have h6 : dataOps .none c.fr = [x, y] := by
    simp [dataOps, Scalars.none, view_data h2, view_data h3, h4, h5]
  have h7 : dataP .always .none c.fr = some z := by simp [dataP, Scalars.none, view_data h1]
  simp only [gateOf, selOf, h6, h7]; exact kindRule_data (by simp [h2.2, h3.2, h1.2])

theorem val_a {c : Fx} {x : Word} (h : Scalar c.fr.a x) : c.a.val = x := by
  obtain ⟨t, h1, -, -, h2⟩ := h; simp [Fx.a, h1, h2]

theorem val_b {c : Fx} {x : Word} (h : Scalar c.fr.b x) : c.b.val = x := by
  obtain ⟨t, h1, -, -, h2⟩ := h; simp [Fx.b, h1, h2]

theorem val_p {c : Fx} {x : Word} (h : Scalar c.fr.p x) : c.p.val = x := by
  obtain ⟨t, h1, -, -, h2⟩ := h; simp [Fx.p, h1, h2]

theorem tok_a {c : Fx} {x : Token} (h : Data c.fr.a x) : c.a = x := by simp [Fx.a, h.1]
theorem tok_b {c : Fx} {x : Token} (h : Data c.fr.b x) : c.b = x := by simp [Fx.b, h.1]
theorem tok_p {c : Fx} {x : Token} (h : Data c.fr.p x) : c.p = x := by simp [Fx.p, h.1]

/-- A meaning runs on the latched firing. -/
theorem onFire_next {s : State} {c : Fx} (h : Fires s c) (f : Dev → Fx → Dev) :
    onFire s f = .next { s with dev := f s.dev c } := by
  simp only [Fires] at h; simp [onFire, h]

end Sys2Proof.Laws
end

