-- ==== Sys2Proof/Laws/Tokens.lean ====
section
/-!
SUPPORT. What the builders of tokens put into lanes and VALID bits: a reader of lane i gets what the builder
was given for it.
-/

namespace Sys2Proof.Laws

open Sys2Proof.Machine

theorem lanes_lt (ls : List (BitVec 32)) : ls.foldr (fun x acc => x.toNat + 2 ^ 32 * acc) 0 < 2 ^ (32 * ls.length) := by
  induction ls with
  | nil => simp
  | cons x r ih =>
    simp only [List.foldr_cons, List.length_cons, Nat.mul_add, Nat.mul_one, Nat.pow_add]
    have := x.isLt
    generalize List.foldr _ 0 r = q at *
    generalize 2 ^ (32 * r.length) = z at *
    omega

theorem lanes_div (ls : List (BitVec 32)) (i : Nat) :
    ls.foldr (fun x acc => x.toNat + 2 ^ 32 * acc) 0 / 2 ^ (32 * i) % 2 ^ 32 = (ls[i]?.getD 0).toNat := by
  induction ls generalizing i with
  | nil => simp
  | cons x r ih =>
    cases i with
    | zero => simp; omega
    | succ i =>
      simp only [List.foldr_cons, List.getElem?_cons_succ, ← ih]
      rw [Nat.mul_add, Nat.mul_one, Nat.add_comm (32 * i), Nat.pow_add, ← Nat.div_div_eq_div_mul]
      have := x.isLt
      congr 2
      omega

/-- Lane i of a data token. -/
theorem lane_dataTok (ls : List (BitVec 32)) (v f g) (h : ls.length ≤ 16) (i : Nat) :
    (dataTok ls v f g).lane i = ls[i]?.getD 0 := by
  apply BitVec.eq_of_toNat_eq
  simp only [dataTok, Token.lane, payloadOf, BitVec.extractLsb'_toNat, BitVec.toNat_ofNat, Nat.shiftRight_eq_div_pow]
  rw [← lanes_div]
  congr 2
  apply Nat.mod_eq_of_lt
  have := lanes_lt ls
  have : 2 ^ (32 * ls.length) ≤ 2 ^ 512 := Nat.pow_le_pow_right (by omega) (by omega)
  omega

theorem valid_bit (bs : List Bool) (i : Nat) :
    (bs.foldr (fun (b : Bool) (acc : Nat) => (if b then 1 else 0) + 2 * acc) 0).testBit i = bs[i]?.getD false := by
  induction bs generalizing i with
  | nil => simp
  | cons x r ih =>
    cases i with
    | zero => cases x <;> simp [Nat.testBit_zero]
    | succ i =>
      simp only [List.foldr_cons, List.getElem?_cons_succ, ← ih, Nat.testBit_succ]
      congr 1
      cases x <;> simp <;> omega

/-- VALID bit i of a list of them. -/
theorem vld_validOf (bs : List Bool) (i : Nat) (h : i < 16) : (validOf bs).getLsbD i = bs[i]?.getD false := by
  simp only [validOf, BitVec.getLsbD_ofNat, h, decide_true, Bool.true_and, valid_bit]

/-- VALID bit i of a token made from lanes. -/
theorem laneTok_vld (ls : List (Bool × BitVec 32)) (f g) (i : Nat) (hi : i < 16) :
    (laneTok ls f g).vld i = (ls[i]?.getD (false, 0)).1 := by
  simp only [laneTok, Token.vld]
  simp only [dataTok]
  rw [vld_validOf _ _ hi]
  simp
  cases ls[i]? <;> simp

/-- Lane i of a token made from lanes: an invalid one holds 0. -/
theorem laneTok_lane (ls : List (Bool × BitVec 32)) (f g) (h : ls.length ≤ 16) (i : Nat) :
    (laneTok ls f g).lane i = if (ls[i]?.getD (false, 0)).1 then (ls[i]?.getD (false, 0)).2 else 0 := by
  simp only [laneTok]
  rw [lane_dataTok _ _ _ _ (by simpa using h)]
  simp
  cases ls[i]? <;> simp

end Sys2Proof.Laws
end

