-- ==== Sys2Proof/Tests/Slice0.lean ====
section
/-!
SUPPORT. Small tests: ill-formed instructions are refused, words written out from the spec's encodings decode to the
instructions they stand for, single firings give the results that the spec prints, and every statement's hypotheses
can be met.
-/

namespace Sys2Proof.Tests

open Machine Safety

set_option Elab.async false

/-! ### Ill-formed instructions, one for each check of WellFormed -/

def n_ (k : BitVec 7) : Tgt := some ⟨k, .a⟩

theorem test_wf_read_k8 : Instr.wf (.read .always 8 .k (n_ 1) none none) = false := by decide
theorem test_wf_movx_fmt : Instr.wf (.movx .always 12 0 false (n_ 1) none none) = false := by decide
theorem test_wf_movx_scale : Instr.wf (.movx .always 1 1 true (n_ 1) none none) = false := by decide
theorem test_wf_lvlup_zero : Instr.wf (.lvlup .always 0 (n_ 1) none none) = false := by decide
theorem test_wf_lvldn_zero : Instr.wf (.lvldn .always 0 (n_ 1) none none) = false := by decide
theorem test_wf_lea_shift : Instr.wf (.lea .always 4 (n_ 1) none none) = false := by decide
theorem test_wf_sext_zero : Instr.wf (.sext .always 0 (n_ 1) none none) = false := by decide
theorem test_wf_zext_65 : Instr.wf (.zext .always 65 (n_ 1) none none) = false := by decide
theorem test_wf_bfx_width : Instr.wf (.bfx .always 32 32 (n_ 1) none none) = false := by decide
theorem test_wf_bfi_width : Instr.wf (.bfi .always 63 1 (n_ 1) none none) = false := by decide
theorem test_wf_agen_literal : Instr.wf (.agen .always 8 (n_ 1) none none) = false := by decide
theorem test_wf_agenx_literal : Instr.wf (.agenx .always 1 (n_ 1) none none) = false := by decide
theorem test_wf_vcvt_geometry : Instr.wf (.vcvt .always 1 1 .rne (n_ 1) none none) = false := by decide
theorem test_wf_vpack_fmt : Instr.wf (.vpack .always 12 (n_ 1) none none) = false := by decide
theorem test_wf_vunpk_fmt : Instr.wf (.vunpk .always 2 (n_ 1) none none) = false := by decide
theorem test_wf_vtopk_zero : Instr.wf (.vtopk .always 0 (n_ 1) none none) = false := by decide
theorem test_wf_crrd_sprel : Instr.wf (.crrd .always 0x046 (n_ 1) none none) = false := by decide
theorem test_wf_crwr_cycle : Instr.wf (.crwr .always 0x005) = false := by decide
theorem test_wf_equal_targets : Instr.wf (.add .always (n_ 1) (n_ 1)) = false := by decide
theorem test_wf_good : Instr.wf (.vtopk .onTrue 256 (n_ 1) (n_ 2) none) = true := by decide

/-! ### Words of the spec's worked encodings -/

theorem test_word_aadd : (decode [0x47838209, 0x19FF0000]).toOption = some (.aadd .always 0 .d .rlx .sys (n_ 14) (n_ 15) none, []) := by decide +kernel
theorem test_word_acq : (decode [0x3FE14235, 0x09FF0000]).toOption = some (.acq .always .die (n_ 5) none none, []) := by decide +kernel
theorem test_word_addi : (decode [0x070340C1, 0x01FFFFFF]).toOption = some (.addi .always 0xFFFF (n_ 13) (n_ 14) none, []) := by decide +kernel
theorem test_word_agen : (decode [0x3FE1C202, 0x01FF0000, 0x90]).toOption = some (.agen .always 0x90 (n_ 7) none none, []) := by decide +kernel
theorem test_word_bfn : (decode [0x3FE1415D, 0x01FF00CA]).toOption = some (.bfn 0xCA (n_ 5) none none, []) := by decide +kernel
theorem test_word_crwr : (decode [0x3FFFF3CD, 0x01FF0040]).toOption = some (.crwr .always 0x040, []) := by decide +kernel
theorem test_word_div : (decode [0x3FE28494]).toOption = some (.div .onTrue (n_ 10) none, []) := by decide +kernel
theorem test_word_fbld : (decode [0x3FFFF3B8]).toOption = some (.fbld, []) := by decide +kernel
theorem test_word_fchk : (decode [0x3FE103BD, 0x01FF0001]).toOption = some (.fchk 1 (n_ 4) none none, []) := by decide +kernel
theorem test_word_fisect : (decode [0x062303A4]).toOption = some (.fisect (n_ 12) (some ⟨12, .b⟩), []) := by decide +kernel
theorem test_word_fscan : (decode [0x048203A1, 0x00400000]).toOption = some (.fscan .always 0 (n_ 8) (n_ 9) (n_ 16), []) := by decide +kernel
theorem test_word_funion : (decode [0x030143A8]).toOption = some (.funion (n_ 5) (n_ 6), []) := by decide +kernel
theorem test_word_fvals : (decode [0x070343B4]).toOption = some (.fvals .always (n_ 13) (n_ 14), []) := by decide +kernel
theorem test_word_halt : (decode [0x3FFFF430]).toOption = some (.halt .onTrue, []) := by decide +kernel
theorem test_word_initL : (decode [0x3FE0804E, 0x01FF0000, 0x186A0]).toOption = some (.initL .always 100000 (n_ 2) none none, []) := by decide +kernel
theorem test_word_kvfork : (decode [0x0502438C]).toOption = some (.kvfork .always (n_ 9) (n_ 10), []) := by decide +kernel
theorem test_word_kvfree : (decode [0x3FFFF790]).toOption = some (.kvfree .onTrue, []) := by decide +kernel
theorem test_word_ldd : (decode [0x098301D9, 0x01FF0000]).toOption = some (.ldd .always 0 (n_ 12) (n_ 19) none, []) := by decide +kernel
theorem test_word_lea : (decode [0x3FE180ED, 0x01FF0003]).toOption = some (.lea .always 3 (n_ 6) none none, []) := by decide +kernel
theorem test_word_lith : (decode [0x3FE240EA, 0x01FF0000, 0xA5]).toOption = some (.lith .always 0xA5 (n_ 9) none none, []) := by decide +kernel
theorem test_word_lvldn : (decode [0x3FE24065, 0x01FF0001]).toOption = some (.lvldn .always 1 (n_ 9) none none, []) := by decide +kernel
theorem test_word_sjoin : (decode [0x3FFFF9A0]).toOption = some (.sjoin .onFalse .rdr, []) := by decide +kernel
theorem test_word_steerS : (decode [0x03818040]).toOption = some (.steerS .always (n_ 6) (n_ 7), []) := by decide +kernel
theorem test_word_svbnd : (decode [0x06230380]).toOption = some (.svbnd .always (n_ 12) (some ⟨12, .b⟩), []) := by decide +kernel
theorem test_word_svgth : (decode [0x3FE60384]).toOption = some (.svgth .always (n_ 24) none, []) := by decide +kernel
theorem test_word_swr : (decode [0x3FFFF188]).toOption = some (.swr .always, []) := by decide +kernel
theorem test_word_teqi : (decode [0x08C420DD, 0x01FF0000]).toOption = some (.teqi .always 0 (some ⟨16, .p⟩) (some ⟨17, .p⟩) none, []) := by decide +kernel
theorem test_word_tret : (decode [0x3FFFF3C4]).toOption = some (.tret .always, []) := by decide +kernel
theorem test_word_vrope : (decode [0x3FE18335, 0x01FF0003]).toOption = some (.vrope .always 3 (n_ 6) none none, []) := by decide +kernel
theorem test_word_vshuf : (decode [0x7FE1D2F0]).toOption = some (.vshuf .always .hi (some ⟨7, .b⟩) none, []) := by decide +kernel
theorem test_word_vtopk : (decode [0x3FE24315, 0x01FF0008]).toOption = some (.vtopk .always 8 (n_ 9) none none, []) := by decide +kernel
theorem test_word_waitc : (decode [0x3FFFF250]).toOption = some (.waitc .always, []) := by decide +kernel
theorem test_word_form_11 : (decode [0x3FFFF003]).toOption = none := by decide +kernel
theorem test_table_word_add : decodeTableWord 32 0x80 = some (.add .always (some ⟨0, .a⟩) (some ⟨0, .a⟩)) := by decide +kernel
/-! ### Small states -/

/-- The thread of a test, in partition 0. -/
def tThread : Thread := placedThread 0

/-- The region of a test: its image holds one instruction. -/
def tRegion (i : Instr) : Region := placedRegion 0 (imageOf i (encode i))

/-- An instance of it, with all registers zero and nothing sent yet. -/
def tInst : Inst := newInst Dev.reset 0 0 (tRegion (.nop .always)) 0 tThread (State.snap State.reset tThread)

/-- A latched firing with the tokens of slots a, b and p. -/
def tFr (a b p : Option Token) : Firing := ⟨0, 0, a, b, p, none, none, .new⟩

/-- A device with a firing latched in its one instance. -/
def tDev (d : Dev) (r : Region) (x : Inst) (fr : Firing) : Dev :=
  { d with threads := [(0, tThread)], regions := [(0, r)], insts := [(0, x)], fire := some fr }

def tS (d : Dev) (r : Region) (x : Inst) (fr : Firing) : State := { State.reset with dev := tDev d r x fr }

def tFx (r : Region) (x : Inst) (fr : Firing) : Fx := ⟨0, 0, x, tThread, r, fr⟩

/-- The tokens that an instruction sends to slot a of instruction 1 when it fires on the given tokens. -/
def sentBy (i : Instr) (a b p : Option Token) : List Token :=
  match exec i (tS Dev.reset (tRegion i) tInst (tFr a b p)) with
  | .next t => (match t.dev.inst 0 with | some x => x.chans.flatMap (·.q) | none => [])
  | _ => []

/-- The payload words it sends, as scalars. -/
def scalarOf (i : Instr) (a b p : Option Token) : List Word := (sentBy i a b p).map (·.val)

def sc (w : Word) : Option Token := some (scalarTok w)

/-- A token of FP32 lanes that are all valid. -/
def lanes (w : BitVec 32) : Option Token := some (dataTok (List.replicate 16 w) 0xFFFF 1 0)

/-- Lane 0 of what it sends. -/
def laneOf (i : Instr) (a b p : Option Token) : List (BitVec 32) := (sentBy i a b p).map (·.lane 0)

/-! ### Single firings, with results that the spec's tables and examples give -/

-- R112: NEG and ABS of the least number return it, MULH's high half, the unsigned order
theorem test_neg_least : scalarOf (.neg .always (n_ 1) none) (sc 0x8000000000000000) none none = [0x8000000000000000] := by decide +kernel
theorem test_abs_least : scalarOf (.abs .always (n_ 1) none) (sc 0x8000000000000000) none none = [0x8000000000000000] := by decide +kernel
theorem test_add_wraps : scalarOf (.add .always (n_ 1) none) (sc (-1)) (sc 1) none = [0] := by decide +kernel
theorem test_sub : scalarOf (.sub .always (n_ 1) none) (sc 3) (sc 5) none = [-2] := by decide +kernel
theorem test_mul : scalarOf (.mul .always (n_ 1) none) (sc (-3)) (sc 5) none = [-15] := by decide +kernel
theorem test_mulh : scalarOf (.mulh .always (n_ 1) none) (sc (-1)) (sc (-1)) none = [0] := by decide +kernel
theorem test_mulhu : scalarOf (.mulhu .always (n_ 1) none) (sc (-1)) (sc (-1)) none = [-2] := by decide +kernel
theorem test_min : scalarOf (.min .always (n_ 1) none) (sc (-1)) (sc 1) none = [-1] := by decide +kernel
theorem test_minu : scalarOf (.minu .always (n_ 1) none) (sc (-1)) (sc 1) none = [1] := by decide +kernel
theorem test_max : scalarOf (.max .always (n_ 1) none) (sc (-1)) (sc 1) none = [1] := by decide +kernel
theorem test_maxu : scalarOf (.maxu .always (n_ 1) none) (sc (-1)) (sc 1) none = [-1] := by decide +kernel
theorem test_addi_signed : scalarOf (.addi .always 0xFFFF (n_ 1) none none) (sc 0) none none = [-1] := by decide +kernel
-- R113: the corners of division
theorem test_div_least : scalarOf (.div .always (n_ 1) none) (sc 0x8000000000000000) (sc (-1)) none = [0x8000000000000000] := by decide +kernel
theorem test_rem_least : scalarOf (.rem .always (n_ 1) none) (sc 0x8000000000000000) (sc (-1)) none = [0] := by decide +kernel
theorem test_rem_sign : scalarOf (.rem .always (n_ 1) none) (sc (-7)) (sc 2) none = [-1] := by decide +kernel
theorem test_divu_zero : scalarOf (.divu .always (n_ 1) none) (sc 7) (sc 0) none = [-1] := by decide +kernel
theorem test_remu_zero : scalarOf (.remu .always (n_ 1) none) (sc 7) (sc 0) none = [7] := by decide +kernel
-- R115, R116: ANDI clears a[63:16]; amounts of 64 and more
theorem test_andi : scalarOf (.andi .always 0xFF00 (n_ 1) none none) (sc (-1)) none none = [0xFF00] := by decide +kernel
theorem test_ori : scalarOf (.ori .always 0x00F0 (n_ 1) none none) (sc 0xF) none none = [0xFF] := by decide +kernel
theorem test_xori : scalarOf (.xori .always 0xFFFF (n_ 1) none none) (sc 0xF0F0) none none = [0x0F0F] := by decide +kernel
theorem test_and : scalarOf (.and .always (n_ 1) none) (sc 0xC) (sc 0xA) none = [8] := by decide +kernel
theorem test_or : scalarOf (.or .always (n_ 1) none) (sc 0xC) (sc 0xA) none = [0xE] := by decide +kernel
theorem test_xor : scalarOf (.xor .always (n_ 1) none) (sc 0xC) (sc 0xA) none = [6] := by decide +kernel
theorem test_shl_64 : scalarOf (.shl .always (n_ 1) none) (sc 1) (sc 64) none = [0] := by decide +kernel
theorem test_shr_63 : scalarOf (.shr .always (n_ 1) none) (sc (-1)) (sc 63) none = [1] := by decide +kernel
theorem test_sar_65 : scalarOf (.sar .always (n_ 1) none) (sc 0x8000000000000000) (sc 65) none = [-1] := by decide +kernel
theorem test_rotl_60 : scalarOf (.rotl .always (n_ 1) none) (sc 0x10) (sc 60) none = [1] := by decide +kernel
theorem test_sari_63 : scalarOf (.sari .always 63 (n_ 1) none none) (sc (-2)) none none = [-1] := by decide +kernel
theorem test_shli : scalarOf (.shli .always 63 (n_ 1) none none) (sc 3) none none = [0x8000000000000000] := by decide +kernel
theorem test_shri : scalarOf (.shri .always 4 (n_ 1) none none) (sc 0x1F) none none = [1] := by decide +kernel
-- R117..R120
theorem test_clz_zero : scalarOf (.clz .always (n_ 1) none) (sc 0) none none = [64] := by decide +kernel
theorem test_ctz : scalarOf (.ctz .always (n_ 1) none) (sc 8) none none = [3] := by decide +kernel
theorem test_popc : scalarOf (.popc .always (n_ 1) none) (sc (-1)) none none = [64] := by decide +kernel
theorem test_sext_8 : scalarOf (.sext .always 8 (n_ 1) none none) (sc 0x180) none none = [-128] := by decide +kernel
theorem test_zext_64 : scalarOf (.zext .always 64 (n_ 1) none none) (sc (-1)) none none = [-1] := by decide +kernel
theorem test_bfx : scalarOf (.bfx .always 8 11 (n_ 1) none none) (sc 0x12345678) none none = [0x456] := by decide +kernel
theorem test_bfi : scalarOf (.bfi .always 4 3 (n_ 1) none none) (sc 0xFFF) (sc 0x10) none = [0xF0F] := by decide +kernel
theorem test_bfn_select : scalarOf (.bfn 0xCA (n_ 1) none none) (sc 0xF0) (sc 0xAA) (sc 0x55) = [0xA5] := by decide +kernel
-- R122..R124
theorem test_lith : scalarOf (.lith .always 1 (n_ 1) none none) (sc 0xFFFFFFFF00000002) none none = [0x100000002] := by decide +kernel
theorem test_litW : scalarOf (.litW .always 0x8000 (n_ 1) none none) none none none = [0xFFFFFFFFFFFF8000] := by decide +kernel
theorem test_tltu : scalarOf (.tltu .always (n_ 1) none) (sc 1) (sc (-1)) none = [1] := by decide +kernel
theorem test_tlt : scalarOf (.tlt .always (n_ 1) none) (sc 1) (sc (-1)) none = [0] := by decide +kernel
theorem test_sel_zero : scalarOf (.sel (n_ 1) none) (sc 5) (sc 9) (sc 0) = [9] := by decide +kernel
theorem test_sel_null_side : sentBy (.sel (n_ 1) none) (some Token.null) (sc 9) (sc 0) = [Token.null] := by decide +kernel
theorem test_lea : scalarOf (.lea .always 3 (n_ 1) none none) (sc 0x1000) (sc 5) none = [0x1028] := by decide +kernel
-- R86, R87: a firing that is not selected sends null; a null predicate too
theorem test_unselected : sentBy (.add .onTrue (n_ 1) none) (sc 1) (sc 2) (sc 0) = [Token.null] := by decide +kernel
theorem test_null_predicate : sentBy (.add .onFalse (n_ 1) none) (sc 1) (sc 2) (some Token.null) = [Token.null] := by decide +kernel
-- R99, R104, R106
theorem test_steer_false : sentBy (.steerS .always (n_ 1) none) (sc 7) (sc 0) none = [] := by decide +kernel
theorem test_stop_data : sentBy (.stopTok .always 3 (n_ 1) none none) (sc 7) none none = [stopTok 3] := by decide +kernel
theorem test_done_stop : sentBy (.doneTok .always (n_ 1) none) (some (stopTok 5)) none none = [doneTok] := by decide +kernel
theorem test_lvlup_limit : sentBy (.lvlup .always 7 (n_ 1) none none) (some (stopTok 1)) none none = [errTok .grammar 0] := by decide +kernel
theorem test_lvldn_none : sentBy (.lvldn .always 2 (n_ 1) none none) (some (stopTok 1)) none none = [] := by decide +kernel
theorem test_testk_error : scalarOf (.testk .always 8 (n_ 1) none none) (some (errTok .page 9)) none none = [1] := by decide +kernel
-- R88: stops of unequal level do not combine
theorem test_grammar : sentBy (.add .always (n_ 1) none) (some (stopTok 1)) (some (stopTok 2)) none = [errTok .grammar 0] := by decide +kernel
-- R277..R280, R6: FP32
theorem test_vadd_one : laneOf (.vadd .always (n_ 1) none) (lanes 0x3F800000) (lanes 0x3F800000) none = [0x40000000] := by decide +kernel
theorem test_vsub_infinities : laneOf (.vsub .always (n_ 1) none) (lanes 0x7F800000) (lanes 0x7F800000) none = [0x7FC00000] := by decide +kernel
theorem test_vsqrt_four : laneOf (.vsqrt .always (n_ 1) none) (lanes 0x40800000) none none = [0x40000000] := by decide +kernel
theorem test_vrcp_zero : laneOf (.vrcp .always (n_ 1) none) (lanes 0) none none = [0x7F800000] := by decide +kernel
theorem test_vexp2_one : laneOf (.vexp2 .always (n_ 1) none) (lanes 0x3F800000) none none = [0x40000000] := by decide +kernel
theorem test_vlog2_two : laneOf (.vlog2 .always (n_ 1) none) (lanes 0x40000000) none none = [0x3F800000] := by decide +kernel
theorem test_vfma : laneOf (.vfma (n_ 1) none) (lanes 0x40000000) (lanes 0x40400000) (lanes 0x3F800000) = [0x40E00000] := by decide +kernel
theorem test_vreda : laneOf (.vreda .always (n_ 1) none) (lanes 0x3F800000) none none = [0x41800000] := by decide +kernel
theorem test_viadd_i8 : laneOf (.viadd .always .i8 (n_ 1) none) (lanes 0x01FF7F80) (lanes 0x01010101) none = [0x02008081] := by decide +kernel
theorem test_vimin_i16 : laneOf (.vimin .always .i16 (n_ 1) none) (lanes 0x8000FFFF) (lanes 0x00010001) none = [0x8000FFFF] := by decide +kernel
theorem test_vformat : sentBy (.vadd .always (n_ 1) none) (some (dataTok [0] 1 4 0)) (lanes 0) none = [errTok .format 0] := by decide +kernel
/-! ### States that meet the hypotheses of the statements -/

theorem tFires (d : Dev) (r : Region) (x : Inst) (fr : Firing) (h : fr.inst = 0 ∧ fr.idx = 0 ∧ x.tid = 0 ∧ x.reg = 0) :
    Fires (tS d r x fr) (tFx r x fr) := by
  obtain ⟨h1, h2, h3, h4⟩ := h
  simp [Fires, tS, tDev, Dev.fx, Dev.inst, Dev.thread, Dev.region, tget, tFx, h1, h2, h3, h4]

/-- The state of a firing on the tokens of slots a, b and p of an instance `x`. -/
abbrev wS (d : Dev) (x : Inst) (a b p : Option Token) : State := tS d (tRegion (.nop .always)) x (tFr a b p)
abbrev wC (x : Inst) (a b p : Option Token) : Fx := tFx (tRegion (.nop .always)) x (tFr a b p)

abbrev Ok (x : Inst) : Prop := x.tid = 0 ∧ x.reg = 0

theorem wFires (d : Dev) {x : Inst} (a b p : Option Token) (h : Ok x) : Fires (wS d x a b p) (wC x a b p) :=
  tFires _ _ _ _ ⟨rfl, rfl, h.1, h.2⟩
theorem scData (w : Word) : Scalar (sc w) w := ⟨scalarTok w, rfl, rfl, by simp [Token.vld, scalarTok], by simp only [Token.val, scalarTok]; ext i hi; simp [hi, show i < 512 by omega]⟩
theorem w0 (d : Dev) {x : Inst} (h : Ok x) : Takes0 .always (wS d x none none none) (wC x none none none) :=
  ⟨wFires d _ _ _ h, rfl, rfl, rfl, rfl, rfl⟩
theorem w1 (d : Dev) {x : Inst} (h : Ok x) (a : Word) : Takes1 .always (wS d x (sc a) none none) (wC x (sc a) none none) a :=
  ⟨wFires d _ _ _ h, rfl, scData a, rfl, rfl, rfl⟩
theorem w2 (d : Dev) {x : Inst} (h : Ok x) (a b : Word) : Takes2 .always (wS d x (sc a) (sc b) none) (wC x (sc a) (sc b) none) a b :=
  ⟨wFires d _ _ _ h, rfl, scData a, scData b, rfl, rfl⟩
theorem w3 (d : Dev) {x : Inst} (h : Ok x) (a b p : Word) :
    Takes3 (wS d x (sc a) (sc b) (sc p)) (wC x (sc a) (sc b) (sc p)) a b p :=
  ⟨wFires d _ _ _ h, scData a, scData b, scData p, rfl, rfl⟩
/-- A predicated firing that is selected. -/
theorem w2p (d : Dev) {x : Inst} (h : Ok x) (a b : Word) : Takes2 .onTrue (wS d x (sc a) (sc b) (sc 1)) (wC x (sc a) (sc b) (sc 1)) a b :=
  ⟨wFires d _ _ _ h, ⟨scalarTok 1, rfl, rfl, rfl, by decide⟩, scData a, scData b, rfl, rfl⟩
theorem wTok1 (d : Dev) {x : Inst} (h : Ok x) {t : Token} (k : t.kind = .data) :
    Token1 .always (wS d x (some t) none none) (wC x (some t) none none) t :=
  ⟨wFires d _ _ _ h, rfl, ⟨rfl, k⟩, rfl, rfl, rfl⟩
theorem wTok2 (d : Dev) {x : Inst} (h : Ok x) {t u : Token} (k : t.kind = .data) (l : u.kind = .data) :
    Token2 .always (wS d x (some t) (some u) none) (wC x (some t) (some u) none) t u :=
  ⟨wFires d _ _ _ h, rfl, ⟨rfl, k⟩, ⟨rfl, l⟩, rfl, rfl⟩
theorem wTok3 (d : Dev) {x : Inst} (h : Ok x) {t u v : Token} (k : t.kind = .data) (l : u.kind = .data) (m : v.kind = .data) :
    Token3 (wS d x (some t) (some u) (some v)) (wC x (some t) (some u) (some v)) t u v :=
  ⟨wFires d _ _ _ h, ⟨rfl, k⟩, ⟨rfl, l⟩, ⟨rfl, m⟩, rfl, rfl⟩

theorem okI : Ok tInst := by decide

/-- An instance whose sampled trap enables are `ten`. -/
def tTen (ten : BitVec 3) : Inst := { tInst with cr := { tInst.cr with ten := ten } }

/-- FP32 lanes. -/
def fTok (w : BitVec 32) : Token := dataTok (List.replicate 16 w) 0xFFFF 1 0

abbrev R0 := Dev.reset

theorem witness_ScalarArithmeticResults :
    (∃ s c, Takes2 .always s c 0xFFFFFFFFFFFFFFFF 1) ∧ (∃ s c, Takes2 .onTrue s c 3 4) ∧
      (∃ s c, Takes1 .always s c 0x8000000000000000) :=
  ⟨⟨_, _, w2 R0 okI _ _⟩, ⟨_, _, w2p R0 okI _ _⟩, ⟨_, _, w1 R0 okI _⟩⟩

theorem witness_ScalarDivisionResults :
    (∃ s c, Takes2 .always s c 0x8000000000000000 0xFFFFFFFFFFFFFFFF) ∧
      (∃ s c, Takes2 .always s c 7 0 ∧ c.x.cr.ten.getLsbD 1 = false) ∧
      (∃ s c, Takes2 .always s c 7 0 ∧ c.x.cr.ten.getLsbD 1 = true) :=
  ⟨⟨_, _, w2 R0 okI _ _⟩, ⟨_, _, w2 R0 okI _ _, by decide +kernel⟩, ⟨_, _, w2 R0 (x := tTen 2) (by decide) _ _, by decide +kernel⟩⟩

theorem witness_ScalarLogicAndShiftResults :
    (∃ s c, Takes2 .always s c 5 63) ∧ (∃ s c, Takes2 .always s c 5 64) ∧ (∃ s c, Takes1 .always s c 5) :=
  ⟨⟨_, _, w2 R0 okI _ _⟩, ⟨_, _, w2 R0 okI _ _⟩, ⟨_, _, w1 R0 okI _⟩⟩

theorem witness_ScalarBitFieldResults :
    (∃ s c, Takes1 .always s c 5 ∧ 1 ≤ (64#7).toNat ∧ (64#7).toNat ≤ 64 ∧ (63#6).toNat + (0#6).toNat + 1 ≤ 64) ∧
      (∃ s c tab, Takes1 .always s c 5 ∧ tget 255 c.r.image.luts = some tab ∧ tab.length = 64) ∧
      (∃ s c, Takes2 .always s c 5 6 ∧ (0#6).toNat + (63#6).toNat + 1 ≤ 64) ∧ (∃ s c, Takes3 s c 5 6 7) := by
  refine ⟨⟨_, _, w1 R0 okI _, by decide⟩, ?_, ⟨_, _, w2 R0 okI _ _, by decide⟩, ⟨_, _, w3 R0 okI _ _ _⟩⟩
  let r : Region := { tRegion (.nop .always) with image := { imageOf (.nop .always) [] with luts := [(255, List.replicate 64 1)] } }
  exact ⟨tS R0 r tInst (tFr (sc 5) none none), tFx r tInst (tFr (sc 5) none none), List.replicate 64 1,
    ⟨tFires _ _ _ _ (by decide), rfl, scData 5, rfl, rfl, rfl⟩, by decide +kernel, by decide +kernel⟩

theorem witness_ScalarCompareAndLiteralResults :
    (∃ s c, Takes0 .always s c) ∧ (∃ s c, Takes1 .always s c 5) ∧ (∃ s c, Takes2 .always s c 5 6 ∧ (3#3).toNat ≤ 3) ∧
      (∃ s c, Takes3 s c 5 6 0) :=
  ⟨⟨_, _, w0 R0 okI⟩, ⟨_, _, w1 R0 okI _⟩, ⟨_, _, w2 R0 okI _ _, by decide⟩, ⟨_, _, w3 R0 okI _ _ _⟩⟩

theorem witness_ReadAndMoveResults :
    (∃ s c, Takes0 .always s c) ∧ (∃ s c, Fires s c ∧ Selected .always c ∧ c.fr.a = some (stopTok 7)) ∧
      (∃ s c, Fires s c ∧ Selected .always c ∧ c.fr.a = sc 5) :=
  ⟨⟨_, _, w0 R0 okI⟩, ⟨_, _, wFires R0 (some (stopTok 7)) none none okI, rfl, rfl⟩, ⟨_, _, wFires R0 (sc 5) none none okI, rfl, rfl⟩⟩

/-- A firing whose slots hold these tokens. -/
theorem wSel (a b : Option Token) (x : Inst) (h : Ok x) :
    ∃ s c, Fires s c ∧ Selected .always c ∧ c.fr.a = a ∧ c.fr.b = b ∧ c.x = x ∧ c.idx = 0 :=
  ⟨_, _, wFires R0 a b none h, rfl, rfl, rfl, rfl, rfl⟩

theorem witness_TokenControlResults :
    (∃ s c, Fires s c ∧ Selected .always c ∧ c.fr.a = some (stopTok 7) ∧ Scalar c.fr.b 0 ∧ (stopTok 7).kind ≠ .error) ∧
      (∃ s c, Fires s c ∧ Selected .always c ∧ c.fr.a = none ∧ c.fr.b = sc 5) ∧
      (∃ s c, Fires s c ∧ Selected .always c ∧ c.fr.a = none ∧ c.fr.b = some (scalarTok 5) ∧
        c.x.opst c.idx = some (.carry (some (scalarTok 4)))) ∧
      (∃ s c, Fires s c ∧ Selected .always c ∧ c.fr.a = none ∧ c.fr.b = some (stopTok 0)) ∧
      (∃ s c, Fires s c ∧ Selected .always c ∧ c.fr.a = some (scalarTok 1) ∧ c.fr.b = some (errTok .page 1)) ∧
      (∃ s c, Fires s c ∧ Selected .always c ∧ c.fr.a = some (stopTok 0) ∧ (stopTok 0).level.toNat < (1#3).toNat) ∧
      (∃ s c, Fires s c ∧ Selected .always c ∧ c.fr.a = some (stopTok 7) ∧ (7#3).toNat ≤ (stopTok 7).level.toNat) := by
  refine ⟨⟨_, _, wFires R0 (some (stopTok 7)) (sc 0) none okI, rfl, rfl, scData 0, by decide⟩,
    ⟨_, _, wFires R0 none (sc 5) none okI, rfl, rfl, rfl⟩,
    ⟨_, _, wFires R0 none (sc 5) none (x := { tInst with ops := [(0, .carry (some (scalarTok 4)))] }) (by decide), rfl, rfl, rfl, rfl⟩,
    ⟨_, _, wFires R0 none (some (stopTok 0)) none okI, rfl, rfl, rfl⟩,
    ⟨_, _, wFires R0 (sc 1) (some (errTok .page 1)) none okI, rfl, rfl, rfl⟩,
    ⟨_, _, wFires R0 (some (stopTok 0)) none none okI, rfl, rfl, by decide⟩,
    ⟨_, _, wFires R0 (some (stopTok 7)) none none okI, rfl, rfl, by decide⟩⟩

theorem firstI (a b p : Option Token) : First (wC tInst a b p) := ⟨nofun, rfl⟩

theorem witness_BufferedWriteResults :
    (∃ s c, Takes1 .always s c 5 ∧ First c) ∧
      (∃ s c, Fires s c ∧ Selected .always c ∧ First c ∧ c.fr.a = some doneTok ∧ doneTok.kind ≠ .error ∧ doneTok.kind ≠ .null) ∧
      (∃ s c, Takes1 .always s c 5 ∧ crGlobal 0x083 = true ∧ c.t.part = 0) ∧
      (∃ s c, Takes1 .always s c 5 ∧ crGlobal 0x083 = true ∧ c.t.part ≠ 0) ∧
      (∃ s c, Takes2 .always s c 3 5 ∧ (3 : Word).toNat < (s.dev.func c.t.part).qcnt) ∧
      (∃ s c, Takes2 .always s c 3 5 ∧ (s.dev.func c.t.part).qcnt ≤ (3 : Word).toNat) ∧ (∃ s c, Takes0 .always s c) := by
  refine ⟨⟨_, _, w1 R0 okI 5, firstI _ _ _⟩, ⟨_, _, wFires R0 (some doneTok) none none okI, rfl, firstI _ _ _, rfl, by decide⟩,
    ⟨_, _, w1 R0 okI 5, by decide, rfl⟩, ?_,
    ⟨_, _, w2 { R0 with funcs := [(0, { Func.reset with qcnt := 4 })] } okI 3 5, by decide⟩,
    ⟨_, _, w2 { R0 with funcs := [(0, { Func.reset with qcnt := 3 })] } okI 3 5, by decide⟩, ⟨_, _, w0 R0 okI⟩⟩
  let t : Thread := { tThread with part := 63 }
  let r := tRegion (.nop .always)
  let s : State := { State.reset with dev := { R0 with
    threads := [(0, t)], regions := [(0, r)], insts := [(0, tInst)], fire := some (tFr (sc 5) none none) } }
  exact ⟨s, ⟨0, 0, tInst, t, r, tFr (sc 5) none none⟩, ⟨rfl, rfl, scData 5, rfl, rfl, rfl⟩, by decide, by decide⟩

/-- The block that an exit with a literal names. -/
def tNamed (c : Fx) (lit : BitVec 32) : Word := c.r.blk + BitVec.ofInt 64 (lit.toInt * 16)

/-- A region whose block is the last below the hole of the address space. -/
def edgeR : Region := { tRegion (.nop .always) with blk := 0x00FFFFFFFFFFFFF0 }

theorem witness_ExitResults :
    (∃ s c, Takes0 .always s c ∧ First c ∧ c.x.exit = none ∧ (tNamed c 0).toNat % 16 = 0 ∧ canonical (tNamed c 0) = true) ∧
      (∃ s c, Takes0 .always s c ∧ First c ∧ (tNamed c 0) = 0x00FFFFFFFFFFFFF0 ∧ canonical (tNamed c 0) = true) ∧
      (∃ s c, Takes0 .always s c ∧ First c ∧ (tNamed c 1).toNat % 16 = 0 ∧ canonical (tNamed c 1) = false) ∧
      (∃ s c, Takes1 .always s c 0x00FFFFFFFFFFFFF0 ∧ First c ∧ canonical 0x00FFFFFFFFFFFFF0 = true ∧ c.x.exit = none ∧
        (tNamed c 0).toNat % 16 = 0 ∧ canonical (tNamed c 0) = true) ∧
      (∃ s c, Takes1 .always s c 0x100000000000008 ∧ First c) ∧
      (∃ s c, Takes1 .always s c 0x0100000000000000 ∧ First c ∧ canonical 0x0100000000000000 = false) ∧
      (∃ s c, Takes1 .always s c 0 ∧ First c ∧ (tNamed c 1).toNat % 16 = 0 ∧ canonical (tNamed c 1) = false) ∧
      (∃ s c, Takes1 .always s c 0 ∧ First c ∧ c.x.exit.isSome = true ∧ canonical (tNamed c 0) = true) ∧
      (∃ s c, Takes0 .always s c ∧ First c ∧ c.x.exit.isSome = true ∧ canonical (tNamed c 0) = true) := by
  let at_ (a : Option Token) : State := { State.reset with dev := { R0 with
    threads := [(0, tThread)], regions := [(0, edgeR)], insts := [(0, tInst)], fire := some (tFr a none none) } }
  let c (a : Option Token) : Fx := ⟨0, 0, tInst, tThread, edgeR, tFr a none none⟩
  let left : Inst := { tInst with exit := some .halt }
  exact ⟨⟨_, _, w0 R0 okI, firstI _ _ _, rfl, by decide, by decide⟩,
    ⟨at_ none, c none, ⟨rfl, rfl, rfl, rfl, rfl, rfl⟩, ⟨nofun, rfl⟩, by decide, by decide⟩,
    ⟨at_ none, c none, ⟨rfl, rfl, rfl, rfl, rfl, rfl⟩, ⟨nofun, rfl⟩, by decide, by decide⟩,
    ⟨_, _, w1 R0 okI _, firstI _ _ _, by decide, rfl, by decide, by decide⟩, ⟨_, _, w1 R0 okI _, firstI _ _ _⟩,
    ⟨_, _, w1 R0 okI _, firstI _ _ _, by decide⟩,
    ⟨at_ (sc 0), c (sc 0), ⟨rfl, rfl, scData 0, rfl, rfl, rfl⟩, ⟨nofun, rfl⟩, by decide, by decide⟩,
    ⟨_, _, w1 R0 (x := left) (by decide) 0, ⟨by decide, by decide⟩, rfl, by decide⟩,
    ⟨_, _, w0 R0 (x := left) (by decide), ⟨by decide, by decide⟩, rfl, by decide⟩⟩
/-! ### Memory -/

/-- A resident 4 KiB page, readable, writable and executable, of a kind. -/
def tLeaf (pa : Nat) (kind : BitVec 2) : Leaf :=
  { pa := pa, size := 4096, rd := true, wr := true, ex := true, sys := false, gl := false, nr := false, kind := kind, cls := 0,
    view := 0, sum := false, side := 0, tag := 0, entry := 0, a := true, d := true }

/-- A device whose caches hold translations of ASID 0. -/
def tMem (ps : List (Nat × Leaf)) : Dev :=
  let x : Die := { Die.reset with tlb := ps.map fun p => ⟨0, 0, p.1, p.2, false, false⟩ }
  { R0 with dies := [(0, x), (8, x)], funcs := [(0, { Func.reset with acnt := 4096, qcnt := 8192 })] }

def hostPa : Nat := 2 ^ 51
/-- A page of host memory at 0x1000, one of scratch at 0x2000, one of a shelf at 0x400_0000. -/
def tPages : Dev := tMem [(0x1000, tLeaf (hostPa + 0x1000) 0), (0x2000, tLeaf (0xA0000000000 + 0x2000) 0), (0x4000000, tLeaf 0x90000000000 2)]

theorem passes_of {d : Dev} {c : XCtx} {va : Word} {n al : Nat} {u : Use}
    (h : (match (d.check c va n al u).2 with | .ok _ => true | .error _ => false) = true) : ∃ e pa l, Passes d c va n al u e pa l := by
  cases e : d.check c va n al u with
  | mk d' r => cases r with
    | ok x => exact ⟨d', x.1, x.2, e⟩
    | error x => simp [e] at h

theorem fails_of {d : Dev} {c : XCtx} {va : Word} {n al : Nat} {u : Use}
    (h : (match (d.check c va n al u).2 with | .error e => decide (e ≠ .decode) | _ => false) = true) :
    ∃ d' e, Fails d c va n al u d' e ∧ e ≠ .decode := by
  cases e : d.check c va n al u with
  | mk d' r => cases r with
    | ok x => simp [e] at h
    | error x => exact ⟨d', x, e, by simpa [e] using h⟩

theorem ok_of {α ε : Type} {x : Except ε α} {y : α} (h : x.toOption = some y) : x = .ok y := by
  cases x with
  | ok z => cases h; rfl
  | error z => cases h

def gotOk : Got → Bool | .ok .. => true | _ => false
theorem got_of {g : Got} (h : gotOk g = true) : ∃ d pa l, g = .ok d pa l := by
  cases g <;> simp_all [gotOk]

def gotAt : Got → Nat → Leaf → Bool | .ok _ p k, pa, l => p == pa && k == l | _, _, _ => false
theorem atOk {g : Got} {pa : Nat} {l : Leaf} (h : gotAt g pa l = true) : ∃ d, g = .ok d pa l := by
  cases g <;> simp_all [gotAt]

theorem witness_AccessChecks :
    (∃ e pa l, Passes tPages (wC tInst none none none).ctx 0x1FF8 8 8 .scalarLoad e pa l) ∧
      (∃ l, tPages.leafFor (wC tInst none none none).ctx 0x1FC0 = .ok l ∧ l.nr = false ∧ l.allows Acc.read false = true ∧
        tPages.kindErr l (l.at 0x1FC0) .tokenLoad = none ∧ tPages.ringAt (l.at 0x1FC0) 64 = false ∧ tPages.cutAt (l.at 0x1FC0) 64 = false) ∧
      canonical 0x0100000000000000 = false ∧ (canonical 0x1004 = true ∧ (0x1004 : Word).toNat % 8 ≠ 0) ∧
      (∃ d' e, Fails tPages (wC tInst none none none).ctx 0x9000 8 8 .scalarLoad d' e ∧ e ≠ .decode) :=
  ⟨passes_of (by decide +kernel), ⟨tLeaf (hostPa + 0x1000) 0, ok_of (by decide +kernel), by decide +kernel⟩, by decide, by decide, fails_of (by decide +kernel)⟩

theorem witness_LoadResults :
    (∃ s c, Takes1 .always s c 0x1FF8 ∧ ∃ d pa l, s.dev.loadAt c (0x1FF8 + (7 : BitVec 16).signExtend 64) 1 1 .scalarLoad = .ok d pa l) ∧
      (∃ s c, Takes1 .always s c 0x1000 ∧ ∃ d pa l, s.dev.loadAt c (0x1000 + (2 : BitVec 16).signExtend 64) 2 2 .scalarLoad = .ok d pa l) ∧
      (∃ s c, Takes1 .always s c 0x1008 ∧ ∃ d pa l, s.dev.loadAt c (0x1008 + (0xFFFC : BitVec 16).signExtend 64) 4 4 .scalarLoad = .ok d pa l) ∧
      (∃ s c, Takes1 .always s c 0x1000 ∧ ∃ d pa l, s.dev.loadAt c (0x1000 + (0 : BitVec 16).signExtend 64) 8 8 .scalarLoad = .ok d pa l) ∧
      (∃ s c, Takes1 .always s c 0x1FC0 ∧ ∃ d pa l, s.dev.loadAt c (0x1FC0 + (0 : BitVec 16).signExtend 64) 64 64 .tokenLoad = .ok d pa l) :=
  ⟨⟨_, _, w1 tPages okI _, got_of (by decide +kernel)⟩, ⟨_, _, w1 tPages okI _, got_of (by decide +kernel)⟩,
    ⟨_, _, w1 tPages okI _, got_of (by decide +kernel)⟩, ⟨_, _, w1 tPages okI _, got_of (by decide +kernel)⟩,
    ⟨_, _, w1 tPages okI _, got_of (by decide +kernel)⟩⟩

/-- R173: a byte load of 0x80 is sign-extended. -/
theorem test_ldb_sign :
    (match exec (.ldb .always 0 (n_ 1) none none)
        (wS { tPages with mem := [(hostPa + 0x1000, 0x80)] } tInst (sc 0x1000) none none) with
      | .next t => (t.dev.inst 0).map fun x => x.reqs.map fun q => q.out.val
      | _ => none) = some [0xFFFFFFFFFFFFFF80] := by decide +kernel

theorem witness_LoadReadsMemory :
    ∃ d : Dev, isWindow (hostPa + 8) = false ∧ d.holds ≠ [] ∧
      ∀ h ∈ d.holds, h.inst = 0 → h.pa + h.size ≤ hostPa + 8 ∨ hostPa + 8 + 8 ≤ h.pa :=
  ⟨{ R0 with holds := [{ inst := 0, pa := hostPa, size := 8, cur := 1 }] }, by decide, by decide, by decide⟩

/-- A region whose image holds one descriptor for instruction 0. -/
def tAffine (v : BitVec 512) : Region := { tRegion (.nop .always) with image := { imageOf (.nop .always) [] with descs := [(0, v)] } }

theorem witness_WideLoadResults :
    (∃ s c, Takes1 .always s c 0x1000 ∧ ∃ d0 pa0 l e1 e2 d1 pt lt d2 ps ls,
      Passes s.dev c.ctx 0x1000 64 64 .tokenLoad d0 pa0 l ∧ geomSize (tagGeom l.tag) ≠ 0 ∧
        geomSize (tagGeom l.tag) ≤ 512 / fmtWidth (tagEfmt l.tag).toNat ∧
        Passes d0 c.ctx (tagSbase l.tag) 2 1 .tokenLoad e1 pt lt ∧
        Passes e1 c.ctx (tagSbase l.tag + BitVec.ofNat 64 (64 + (0x1000 : Word).toNat % l.size * 8 / fmtWidth (tagEfmt l.tag).toNat /
          geomSize (tagGeom l.tag))) (512 / fmtWidth (tagEfmt l.tag).toNat / geomSize (tagGeom l.tag)) 1 .tokenLoad e2 ps ls ∧
        e2.loadAt c (tagSbase l.tag) 2 1 .tokenLoad = .ok d1 pt lt ∧
        d1.loadAt c (tagSbase l.tag + BitVec.ofNat 64 (64 + (0x1000 : Word).toNat % l.size * 8 / fmtWidth (tagEfmt l.tag).toNat /
          geomSize (tagGeom l.tag))) (512 / fmtWidth (tagEfmt l.tag).toNat / geomSize (tagGeom l.tag)) 1 .tokenLoad = .ok d2 ps ls) ∧
      (∃ s c t d1 xs d2 pa l, Fires s c ∧ Selected .always c ∧ Scalar c.fr.a 0x1000 ∧ Data c.fr.b t ∧ NoScale c ∧
        s.dev.checkLanes c .tokenLoad (laneAddrs 0x1000 t t.vld) = (d1, .ok xs) ∧ d1.arriveLanes c xs = .ok d2 pa l) ∧
      (∃ s c, Takes1 .always s c 4 ∧ (4 : Word).toNat < nfld c.affine 351 320) ∧
      (∃ s c, Takes1 .always s c 5 ∧ nfld c.affine 351 320 ≤ (5 : Word).toNat) ∧
      (∃ s c, Takes1 .always s c 0x1000 ∧ c.x.opst c.idx = none) ∧
      (∃ s c, Fires s c ∧ c.x.opst c.idx = some (.agen 0x1000 [0])) := by
  refine ⟨?_, ?_, ?_, ?_, ⟨_, _, w1 R0 okI _, rfl⟩,
    ⟨_, _, wFires R0 none none none (x := { tInst with ops := [(0, .agen 0x1000 [0])] }) (by decide), rfl⟩⟩
  · -- an E4M3 page of 32-element blocks, whose scale area is the next page
    let tag : BitVec 64 := BitVec.ofNat 64 (4 + 3 * 16 + 0x2 * 2 ^ 19)
    let l : Leaf := { tLeaf (hostPa + 0x1000) 0 with tag := tag }
    let d : Dev := tMem [(0x1000, l), (0x2000, tLeaf (hostPa + 0x2000) 0)]
    let s := wS d tInst (sc 0x1000) none none
    let c := wC tInst (sc 0x1000) none none
    refine ⟨s, c, w1 d okI _, ?_⟩
    let x := s.dev.check c.ctx 0x1000 64 64 .tokenLoad
    have hx : Passes s.dev c.ctx 0x1000 64 64 .tokenLoad x.1 (hostPa + 0x1000) l := by
      have h : x.2 = .ok (hostPa + 0x1000, l) := ok_of (by decide +kernel)
      show x = _
      rw [← h]
    let k : Leaf := tLeaf (hostPa + 0x2000) 0
    let sa : Word := tagSbase tag + BitVec.ofNat 64 (64 + (0x1000 : Word).toNat % l.size * 8 / fmtWidth (tagEfmt tag).toNat / geomSize (tagGeom tag))
    let n : Nat := 512 / fmtWidth (tagEfmt tag).toNat / geomSize (tagGeom tag)
    let y := x.1.check c.ctx (tagSbase tag) 2 1 .tokenLoad
    have hy : Passes x.1 c.ctx (tagSbase tag) 2 1 .tokenLoad y.1 (hostPa + 0x2000) k := by
      have h : y.2 = .ok (hostPa + 0x2000, k) := ok_of (by decide +kernel)
      show y = _
      rw [← h]
    let z := y.1.check c.ctx sa n 1 .tokenLoad
    have hz : Passes y.1 c.ctx sa n 1 .tokenLoad z.1 (hostPa + 0x2000 + 64) k := by
      have h : z.2 = .ok (hostPa + 0x2000 + 64, k) := ok_of (by decide +kernel)
      show z = _
      rw [← h]
    have h1 : ∃ d1, z.1.loadAt c (tagSbase tag) 2 1 .tokenLoad = .ok d1 (hostPa + 0x2000) k := atOk (by decide +kernel)
    have h2 : (match z.1.loadAt c (tagSbase tag) 2 1 .tokenLoad with
      | .ok d1 _ _ => gotAt (d1.loadAt c sa n 1 .tokenLoad) (hostPa + 0x2000 + 64) k | _ => false) = true := by decide +kernel
    obtain ⟨d1, h1⟩ := h1
    rw [h1] at h2
    obtain ⟨d2, h3⟩ := atOk h2
    exact ⟨_, _, _, _, _, d1, _, _, d2, _, _, hx, by decide +kernel, by decide +kernel, hy, hz, h1, h3⟩
  · let t := fTok 0
    let s := wS tPages tInst (sc 0x1000) (some t) none
    let c := wC tInst (sc 0x1000) (some t) none
    have h : (match s.dev.checkLanes c .tokenLoad (laneAddrs 0x1000 t t.vld) with
      | (d1, .ok xs) => gotOk (d1.arriveLanes c xs) | _ => false) = true := by decide +kernel
    cases e : s.dev.checkLanes c .tokenLoad (laneAddrs 0x1000 t t.vld) with
    | mk d1 r => cases r with
      | error z => rw [e] at h; cases h
      | ok xs =>
        rw [e] at h
        obtain ⟨d2, pa, l, h4⟩ := got_of h
        exact ⟨s, c, t, d1, xs, d2, pa, l, wFires _ _ _ _ okI, rfl, scData _, ⟨rfl, rfl⟩, ⟨rfl, rfl⟩, e, h4⟩
  · let r := tAffine (BitVec.ofNat 512 (5 * 2 ^ 320))
    exact ⟨tS R0 r tInst (tFr (sc 4) none none), tFx r tInst (tFr (sc 4) none none),
      ⟨tFires _ _ _ _ (by decide), rfl, scData 4, rfl, rfl, rfl⟩, by decide +kernel⟩
  · let r := tAffine (BitVec.ofNat 512 (5 * 2 ^ 320))
    exact ⟨tS R0 r tInst (tFr (sc 5) none none), tFx r tInst (tFr (sc 5) none none),
      ⟨tFires _ _ _ _ (by decide), rfl, scData 5, rfl, rfl, rfl⟩, by decide +kernel⟩

/-- A pattern of two dimensions with counts 2 and 1, and stops. -/
def tPattern : Nat := 2 * 2 ^ 256 + 1 * 2 ^ 272 + 2 ^ 364 + 1 * 2 ^ 360

theorem witness_AffinePatternOrder :
    (PointOk tPattern 0 [1, 1] ∧ nextPoint tPattern 0 [1, 1] = some [2, 1]) ∧
      (PointOk tPattern 0 [2, 1] ∧ nextPoint tPattern 0 [2, 1] = none) ∧
      (PointOk tPattern 0 [2, 0] ∧ affStops tPattern = true ∧ (∀ j < 1, ([2, 0][j]?).getD 0 = affCnt tPattern j) ∧
        ([2, 0][1]?).getD 0 ≠ affCnt tPattern 1 ∧ pointEnd tPattern [2, 0] = some (stopTok 0)) := by
  simp only [PointOk]; decide +kernel
/-! ### Results of a chain of accesses, as terms -/

def gd : Got → Dev | .ok d _ _ => d | _ => R0
def gp : Got → Nat | .ok _ p _ => p | _ => 0
def gl : Got → Leaf | .ok _ _ l => l | _ => tLeaf 0 0
theorem got_eq {g : Got} (h : gotOk g = true) : g = .ok (gd g) (gp g) (gl g) := by cases g <;> simp_all [gotOk, gd, gp, gl]

def cp (r : Dev × Except TErr (Nat × Leaf)) : Nat := match r.2 with | .ok x => x.1 | _ => 0
def cl (r : Dev × Except TErr (Nat × Leaf)) : Leaf := match r.2 with | .ok x => x.2 | _ => tLeaf 0 0
def cOk (r : Dev × Except TErr (Nat × Leaf)) : Bool := match r.2 with | .ok _ => true | _ => false
theorem pass_eq {d : Dev} {c : XCtx} {va : Word} {n al : Nat} {u : Use} (h : cOk (d.check c va n al u) = true) :
    Passes d c va n al u (d.check c va n al u).1 (cp (d.check c va n al u)) (cl (d.check c va n al u)) := by
  cases e : d.check c va n al u with
  | mk d' r => cases r with
    | ok x => simp only [Passes, e, cp, cl]
    | error x => simp [e, cOk] at h

def rd : ReadR → Dev | .ok d _ => d | _ => R0
def rv : ReadR → Nat | .ok _ v => v | _ => 0
def rOk : ReadR → Bool | .ok .. => true | _ => false
theorem read_eq {r : ReadR} (h : rOk r = true) : r = .ok (rd r) (rv r) := by cases r <;> simp_all [rOk, rd, rv]

theorem pair_true {α : Type} {v : α × Bool} (h : v.2 = true) : v = (v.1, true) := by cases v; simp_all

/-- A store's chain from its check to its sectors. -/
def storeOk (d : Dev) (c : Fx) (va : Word) (bs : List Byte) (al : Nat) (u : Use) : Bool :=
  let r := d.check c.ctx va bs.length al u
  let g := r.1.arriveFx c (cp r) bs.length va true false (cl r)
  cOk r && gotOk g && (gp g == cp r) && (gl g == cl r) &&
    ((gd g).reserveCells c.i c.idx c.t.part c.t.rcb va (cellsAt (cp r) bs) (cl r).cls).2
theorem store_of {d : Dev} {c : Fx} {va : Word} {bs : List Byte} {al : Nat} {u : Use} (h : storeOk d c va bs al u = true) :
    ∃ d1 pa l d2 d3, Passes d c.ctx va bs.length al u d1 pa l ∧ d1.arriveFx c pa bs.length va true false l = .ok d2 pa l ∧
      d2.reserveCells c.i c.idx c.t.part c.t.rcb va (cellsAt pa bs) l.cls = (d3, true) := by
  simp only [storeOk, Bool.and_eq_true, beq_iff_eq] at h
  obtain ⟨⟨⟨⟨h1, h2⟩, h3⟩, h4⟩, h5⟩ := h
  have e := got_eq h2
  rw [h3, h4] at e
  exact ⟨_, _, _, _, _, pass_eq h1, e, pair_true h5⟩

/-- The lanes of SCAT, each with its address. -/
def scatLanes (a : Word) (x y : Token) : List (Nat × Word) :=
  ((List.range 16).filter fun i => x.vld i && y.vld i).map fun i => (i, a + (x.lane i).signExtend 64)

def lOk (r : Dev × Except (TErr × Word) (List (Nat × Word × Nat × Leaf))) : Bool := match r.2 with | .ok _ => true | _ => false
theorem lanes_ok {r : Dev × Except (TErr × Word) (List (Nat × Word × Nat × Leaf))} (h : lOk r = true) : ∃ d xs, r = (d, .ok xs) := by
  obtain ⟨d, x | x⟩ := r <;> simp_all [lOk]
theorem lanes_err {r : Dev × Except (TErr × Word) (List (Nat × Word × Nat × Leaf))} (h : lOk r = false) : ∃ d e w, r = (d, .error (e, w)) := by
  obtain ⟨d, x | x⟩ := r
  · exact ⟨d, x.1, x.2, rfl⟩
  · simp [lOk] at h

theorem witness_StoreResults :
    (∃ s c, Takes2 .always s c 0x1FF8 5 ∧ First c ∧ ∃ d1 pa l d2 d3,
      Passes (marked s.dev c) c.ctx (0x1FF8 + (0 : BitVec 16).signExtend 64) 8 8 .scalarStore d1 pa l ∧
      d1.arriveFx c pa 8 (0x1FF8 + (0 : BitVec 16).signExtend 64) true false l = .ok d2 pa l ∧
      d2.reserveCells c.i c.idx c.t.part c.t.rcb (0x1FF8 + (0 : BitVec 16).signExtend 64) (cellsAt pa (bytesOfNat 8 (5 : Word).toNat)) l.cls = (d3, true)) ∧
      (∃ s c d1 e, Takes2 .always s c 0x9000 5 ∧ First c ∧
        Fails (marked s.dev c) c.ctx (0x9000 + (0 : BitVec 16).signExtend 64) 1 1 .scalarStore d1 e) ∧
      (∃ s c x d1 pa l d2 pa2 l2 d3, Fires s c ∧ Selected .always c ∧ Scalar c.fr.a 0x1FC0 ∧ Data c.fr.b x ∧ NoScale c ∧ First c ∧
        Passes (marked s.dev c) c.ctx 0x1FC0 64 64 .tokenStore d1 pa l ∧ d1.arriveStv c 0x1FC0 pa l (laneRuns x pa) = .ok d2 pa2 l2 ∧
        d2.reserveCells c.i c.idx c.t.part c.t.rcb 0x1FC0 (laneCells x pa) l.cls = (d3, true)) ∧
      (∃ s c x d1 e, Fires s c ∧ Selected .always c ∧ Scalar c.fr.a 0x1FC8 ∧ Data c.fr.b x ∧ NoScale c ∧ First c ∧
        Fails (marked s.dev c) c.ctx 0x1FC8 64 64 .tokenStore d1 e) ∧
      (∃ s c x y d1 xs, Fires s c ∧ Scalar c.fr.a 0x1000 ∧ Data c.fr.b x ∧ Data c.fr.p y ∧ NoScale c ∧ First c ∧
        (marked s.dev c).checkLanes c .tokenStore (scatLanes 0x1000 x y) = (d1, .ok xs)) ∧
      (∃ s c x y d1 e w, Fires s c ∧ Scalar c.fr.a 0x9000 ∧ Data c.fr.b x ∧ Data c.fr.p y ∧ NoScale c ∧ First c ∧
        (marked s.dev c).checkLanes c .tokenStore (scatLanes 0x9000 x y) = (d1, .error (e, w))) := by
  refine ⟨⟨wS tPages tInst (sc 0x1FF8) (sc 5) none, wC tInst (sc 0x1FF8) (sc 5) none, w2 tPages okI _ _, firstI _ _ _, ?_⟩, ?_, ?_, ?_, ?_, ?_⟩
  · exact store_of (bs := bytesOfNat 8 (5 : Word).toNat) (by decide +kernel)
  · obtain ⟨d1, e, h, _⟩ : ∃ d1 e, Fails (marked (wS tPages tInst (sc 0x9000) (sc 5) none).dev (wC tInst (sc 0x9000) (sc 5) none))
        (wC tInst (sc 0x9000) (sc 5) none).ctx (0x9000 + (0 : BitVec 16).signExtend 64) 1 1 .scalarStore d1 e ∧ e ≠ .decode := fails_of (by decide +kernel)
    exact ⟨_, _, d1, e, w2 tPages okI 0x9000 5, firstI _ _ _, h⟩
  · let x := fTok 1
    let s := wS tPages tInst (sc 0x1FC0) (some x) none
    let c := wC tInst (sc 0x1FC0) (some x) none
    let r := (marked s.dev c).check c.ctx 0x1FC0 64 64 .tokenStore
    let g := r.1.arriveStv c 0x1FC0 (cp r) (cl r) (laneRuns x (cp r))
    let v := (gd g).reserveCells c.i c.idx c.t.part c.t.rcb 0x1FC0 (laneCells x (cp r)) (cl r).cls
    have hv : v.2 = true := by decide +kernel
    exact ⟨s, c, x, _, _, _, _, _, _, v.1, wFires _ _ _ _ okI, rfl, scData _, ⟨rfl, rfl⟩, ⟨rfl, rfl⟩, firstI _ _ _,
      pass_eq (by decide +kernel), got_eq (g := g) (by decide +kernel), pair_true hv⟩
  · let x := fTok 1
    obtain ⟨d1, e, h, _⟩ : ∃ d1 e, Fails (marked (wS tPages tInst (sc 0x1FC8) (some x) none).dev (wC tInst (sc 0x1FC8) (some x) none))
        (wC tInst (sc 0x1FC8) (some x) none).ctx 0x1FC8 64 64 .tokenStore d1 e ∧ e ≠ .decode := fails_of (by decide +kernel)
    exact ⟨_, _, x, d1, e, wFires tPages _ _ _ okI, rfl, scData _, ⟨rfl, rfl⟩, ⟨rfl, rfl⟩, firstI _ _ _, h⟩
  · let s := wS tPages tInst (sc 0x1000) (some (fTok 0)) (some (fTok 0))
    let c := wC tInst (sc 0x1000) (some (fTok 0)) (some (fTok 0))
    obtain ⟨d1, xs, h⟩ := lanes_ok (r := (marked s.dev c).checkLanes c .tokenStore (scatLanes 0x1000 (fTok 0) (fTok 0))) (by decide +kernel)
    exact ⟨s, c, _, _, d1, xs, wFires _ _ _ _ okI, scData _, ⟨rfl, rfl⟩, ⟨rfl, rfl⟩, ⟨rfl, rfl⟩, firstI _ _ _, h⟩
  · let s := wS tPages tInst (sc 0x9000) (some (fTok 0)) (some (fTok 0))
    let c := wC tInst (sc 0x9000) (some (fTok 0)) (some (fTok 0))
    obtain ⟨d1, e, w, h⟩ := lanes_err (r := (marked s.dev c).checkLanes c .tokenStore (scatLanes 0x9000 (fTok 0) (fTok 0))) (by decide +kernel)
    exact ⟨s, c, _, _, d1, e, w, wFires _ _ _ _ okI, scData _, ⟨rfl, rfl⟩, ⟨rfl, rfl⟩, ⟨rfl, rfl⟩, firstI _ _ _, h⟩

theorem witness_WriteThenRead : ∃ (d : Dev) (rcb a : Nat), memWf d.mem = true ∧ d.mem ≠ [] ∧ d.migs = [] ∧ d.rcbChain 9 rcb ≠ [] ∧
    ∀ x ∈ d.rcbChain 9 rcb, a < x + 48 ∨ x + 80 ≤ a :=
  ⟨{ R0 with mem := [(5, 1), (hostPa, 2)] }, hostPa, hostPa + 80, by decide +kernel, by decide, rfl, by decide +kernel, by decide +kernel⟩

theorem witness_AtomicResults :
    (∃ s c, Takes2 .always s c 0x2FF8 1 ∧ First c ∧ ∃ d1 pa l d2 d3,
      Passes (marked s.dev c) c.ctx (0x2FF8 + (0 : BitVec 16).signExtend 64) 8 8 .atomic d1 pa l ∧ memRow pa ≠ some .host ∧
      d1.arriveFx c pa 8 (0x2FF8 + (0 : BitVec 16).signExtend 64) true true l = .ok d2 pa l ∧
      let r := (d2.noteRead pa 8).loadBytes c.i pa 8
      r.1.reserveCells c.i c.idx c.t.part c.t.rcb (0x2FF8 + (0 : BitVec 16).signExtend 64)
        (cellsAt pa (bytesOfNat 8 (BitVec.ofNat 64 (natOfBytes r.2 + 1) : Word).toNat)) l.cls = (d3, true)) ∧
      (∃ s c, Takes2 .always s c 0x1000 1 ∧ First c ∧ ∃ d1 pa l,
        Passes (marked s.dev c) c.ctx (0x1000 + (0 : BitVec 16).signExtend 64) 4 4 .atomic d1 pa l ∧ memRow pa = some .host) ∧
      (∃ s c d1 e, Takes3 s c 0x2002 1 2 ∧ First c ∧
        Fails (marked s.dev c) c.ctx (0x2002 + (0 : BitVec 16).signExtend 64) 4 4 .atomic d1 e) := by
  refine ⟨?_, ?_, ?_⟩
  · let s := wS tPages tInst (sc 0x2FF8) (sc 1) none
    let c := wC tInst (sc 0x2FF8) (sc 1) none
    let va : Word := 0x2FF8 + (0 : BitVec 16).signExtend 64
    let r := (marked s.dev c).check c.ctx va 8 8 .atomic
    let g := r.1.arriveFx c (cp r) 8 va true true (cl r)
    have h1 : gp g = cp r := by decide +kernel
    have h2 : gl g = cl r := by decide +kernel
    have e := got_eq (g := g) (by decide +kernel)
    rw [h1, h2] at e
    let q := ((gd g).noteRead (cp r) 8).loadBytes c.i (cp r) 8
    let v := q.1.reserveCells c.i c.idx c.t.part c.t.rcb va (cellsAt (cp r) (bytesOfNat 8 (BitVec.ofNat 64 (natOfBytes q.2 + 1) : Word).toNat)) (cl r).cls
    have hv : v.2 = true := by decide +kernel
    exact ⟨s, c, w2 tPages okI _ _, firstI _ _ _, _, _, _, _, v.1, pass_eq (by decide +kernel), by decide +kernel, e, pair_true hv⟩
  · exact ⟨_, _, w2 tPages okI 0x1000 1, firstI _ _ _, _, _, _, pass_eq (by decide +kernel), by decide +kernel⟩
  · obtain ⟨d1, e, h, _⟩ : ∃ d1 e, Fails (marked (wS tPages tInst (sc 0x2002) (sc 1) (sc 2)).dev (wC tInst (sc 0x2002) (sc 1) (sc 2)))
        (wC tInst (sc 0x2002) (sc 1) (sc 2)).ctx (0x2002 + (0 : BitVec 16).signExtend 64) 4 4 .atomic d1 e ∧ e ≠ .decode := fails_of (by decide +kernel)
    exact ⟨_, _, d1, e, w3 tPages okI _ _ _, firstI _ _ _, h⟩

theorem witness_SynchronisationResults :
    (∃ s c, Token1 .always s c (scalarTok 5)) ∧
      (∃ s c d pa l, Takes1 .always s c 0x1000 ∧ (0x1000 : Word).toNat % 16 = 0 ∧ Passes s.dev c.ctx 0x1000 16 1 .scalarLoad d pa l ∧ d.num pa 5 = 0) ∧
      (∃ s c d pa l, Takes1 .always s c 0x1000 ∧ Passes s.dev c.ctx 0x1000 16 1 .scalarLoad d pa l ∧ d.num pa 5 ≠ 0) ∧
      (∃ s c, Takes1 .always s c 0x1008 ∧ (0x1008 : Word).toNat % 16 ≠ 0) :=
  ⟨⟨_, _, wTok1 R0 okI rfl⟩,
    ⟨_, _, _, _, _, w1 tPages okI _, by decide, pass_eq (by decide +kernel), by decide +kernel⟩,
    ⟨_, _, _, _, _, w1 { tPages with mem := [(hostPa + 0x1000, 1)] } okI _, pass_eq (by decide +kernel), by decide +kernel⟩,
    ⟨_, _, w1 R0 okI _, by decide⟩⟩

/-- The device in which BAR and WAITC have claimed their one park. -/
abbrev parked (s : State) (c : Fx) : Dev := s.dev.modInst c.i fun x => { x with parkers := 1 }

theorem witness_ForkAndWaitResults :
    (∃ s c d pa l, Takes3 s c 0x100000000 0 0x2010 ∧ (1 : Nat) ≤ (0x100000000 : Word).toNat ∧ (0x100000000 : Word).toNat ≤ 2 ^ 32 ∧
      Passes s.dev c.ctx 0x2010 16 1 .atomic d pa l) ∧
      (∃ s c, Takes3 s c 0 0 0x2010) ∧ (∃ s c, Takes3 s c 0x100000001 0 0x2010 ∧ 2 ^ 32 < (0x100000001 : Word).toNat) ∧
      (∃ s c d pa l e pb k, Takes2 .always s c 0x2008 0 ∧ c.x.parkers = 0 ∧ Passes (parked s c) c.ctx 0x2008 8 8 .atomic d pa l ∧
        d.arriveFx c pa 8 0x2008 true true l = .ok e pb k) ∧
      (∃ s c, Takes2 .always s c 0x2008 0 ∧ c.x.parkers ≠ 0 ∧ c.fr.mode ≠ .again) ∧
      (∃ s c d pa l e pb k, Takes2 .always s c 0x1FE0 0x2010 ∧ Passes s.dev c.ctx 0x1FE0 32 1 .scalarLoad d pa l ∧
        Passes d c.ctx 0x2010 16 1 .atomic e pb k) ∧
      (∃ s c, Takes2 .always s c 0x1010 0 ∧ (0x1010 : Word).toNat % 32 ≠ 0) ∧
      (∃ s c d pa l, Takes1 .always s c 0x2040 ∧ (0x2040 : Word).toNat % 64 = 0 ∧ Passes s.dev c.ctx 0x2040 64 1 .atomic d pa l) ∧
      (∃ s c, Takes1 .always s c 0x2020 ∧ (0x2020 : Word).toNat % 64 ≠ 0) ∧
      (∃ s c d pa l, Takes1 .always s c 0x1010 ∧ c.x.parkers = 0 ∧ Passes (parked s c) c.ctx 0x1010 16 1 .scalarLoad d pa l) ∧
      (∃ s c, Takes1 .always s c 0x1010 ∧ c.x.parkers ≠ 0 ∧ c.fr.mode ≠ .again) := by
  refine ⟨⟨_, _, _, _, _, w3 tPages okI _ _ _, by decide, by decide, pass_eq (by decide +kernel)⟩, ⟨_, _, w3 R0 okI _ _ _⟩,
    ⟨_, _, w3 R0 okI _ _ _, by decide⟩,
    ⟨_, _, _, _, _, _, _, _, w2 tPages okI _ _, rfl, pass_eq (by decide +kernel), got_eq (by decide +kernel)⟩,
    ⟨_, _, w2 R0 (x := { tInst with parkers := 1 }) (by decide) _ _, nofun, nofun⟩,
    ⟨_, _, _, _, _, _, _, _, w2 tPages okI _ _, pass_eq (by decide +kernel), pass_eq (by decide +kernel)⟩,
    ⟨_, _, w2 R0 okI _ _, by decide⟩, ⟨_, _, _, _, _, w1 tPages okI _, by decide, pass_eq (by decide +kernel)⟩,
    ⟨_, _, w1 R0 okI _, by decide⟩, ⟨_, _, _, _, _, w1 tPages okI _, rfl, pass_eq (by decide +kernel)⟩,
    ⟨_, _, w1 R0 (x := { tInst with parkers := 1 }) (by decide) _, nofun, nofun⟩⟩

theorem witness_ShelfResults :
    (∃ s c l, Takes1 .always s c 0x4000000 ∧ (0x4000000 : Word).toNat % 2 ^ 26 = 0 ∧ s.dev.leafFor c.ctx 0x4000000 = .ok l ∧ l.nr = false ∧
      l.allows .write c.x.cr.sys = true ∧ l.kind = 2) ∧
      (∃ s c, Takes1 .always s c 0x4000010 ∧ (0x4000010 : Word).toNat % 2 ^ 26 ≠ 0) ∧
      (∃ s c l, Takes1 .always s c 0x4000000 ∧ s.dev.leafFor c.ctx 0x4000000 = .ok l ∧ l.nr = false ∧ l.kind ≠ 2) ∧
      (∃ d : Dev, d.shelf 3 = .sealed) ∧ (∃ d : Dev, d.shelf 3 = .opened) :=
  ⟨⟨_, _, tLeaf 0x90000000000 2, w1 tPages okI _, by decide, ok_of (by decide +kernel), rfl, by decide, rfl⟩, ⟨_, _, w1 R0 okI _, by decide⟩,
    ⟨_, _, tLeaf 0x90000000000 0, w1 (tMem [(0x4000000, tLeaf 0x90000000000 0)]) okI _, ok_of (by decide +kernel), rfl, by decide⟩,
    ⟨{ R0 with shelves := [(3, .sealed)] }, by decide⟩, ⟨R0, by decide⟩⟩
/-! ### Attention -/

/-- Memory holding numbers of `n` bytes at addresses. -/
def tNums (l : List (Nat × Nat × Nat)) : List Host.Cell := l.foldl (fun m x => memPutList m x.1 (bytesOfNat x.2.1 x.2.2)) []

/-- A valid sequence header: LEN 65, PPP 64, HW 16, SPARE a block, FCOMP. -/
def tHdr (len fcomp : Nat) : Nat := len + 64 * 2 ^ 64 + 16 * 2 ^ 128 + 2 ^ 63 * 2 ^ 192 + fcomp * 2 ^ 256

/-- A table at 0x1000 with two entries, an empty one at 0x1100, and SVGTH's record at 0x1200. -/
def tSeq : Dev := { tPages with mem := tNums [(hostPa + 0x1000, 64, tHdr 65 0), (hostPa + 0x1040, 8, 2 ^ 63), (hostPa + 0x1048, 8, 2 ^ 63 + 1),
  (hostPa + 0x1100, 64, tHdr 0 0x2010), (hostPa + 0x1200, 64, 0x1000 + 0x2000 * 2 ^ 64 + 0x2010 * 2 ^ 128 + 8 * 2 ^ 192)] }

theorem witness_AttentionResults :
    (∃ s c d v h e w, Takes2 .always s c 0x1000 64 ∧ s.dev.readAt c 0x1000 64 64 = .ok d v ∧ seqHdr v = some h ∧ (64 : Word).toNat < h.len ∧
      d.readAt c (0x1000 + BitVec.ofNat 64 (64 + 8 * ((64 : Word).toNat / h.ppp))) 8 8 = .ok e w ∧ entV w = true ∧ entOk w = true) ∧
      (∃ s c d v h, Takes2 .always s c 0x1000 65 ∧ s.dev.readAt c 0x1000 64 64 = .ok d v ∧ seqHdr v = some h ∧ h.len ≤ (65 : Word).toNat) ∧
      (∃ s c d v, Takes2 .always s c 0x1080 0 ∧ s.dev.readAt c 0x1080 64 64 = .ok d v ∧ seqHdr v = none) ∧
      (∃ s c d v h e w u f pa l, Takes2 .always s c 0x1000 0x1100 ∧ s.dev.readAt c 0x1000 64 64 = .ok d v ∧ seqHdr v = some h ∧
        d.readAt c 0x1100 64 64 = .ok e w ∧ seqHdr w = some u ∧ u.len = 0 ∧ u.fcomp ≠ 0 ∧ u.fcomp % 16 = 0 ∧
        (h.len % h.ppp = 0 ∨ (entV u.spare = true ∧ entOk u.spare = true)) ∧
        Passes e c.ctx (BitVec.ofNat 64 u.fcomp) 16 1 .atomic f pa l) ∧
      (∃ s c x d v e w h f pa l, Fires s c ∧ Selected .always c ∧ Data c.fr.a x ∧ Scalar c.fr.b 0x1200 ∧ NoScale c ∧
        s.dev.readAt c 0x1200 64 64 = .ok d v ∧ nfld v 511 256 = 0 ∧ nfld v 255 192 ≤ 8 ∧ nfld v 131 128 = 0 ∧ x.fmt = 0 ∧
        d.readAt c (BitVec.ofNat 64 (nfld v 63 0)) 64 64 = .ok e w ∧ seqHdr w = some h ∧
        Passes e c.ctx (BitVec.ofNat 64 (nfld v 191 128)) 16 1 .atomic f pa l) ∧
      (∃ s c x, Fires s c ∧ Selected .always c ∧ Data c.fr.a x ∧ Scalar c.fr.b 0x1000 ∧ NoScale c ∧ x.fmt = 1 ∧ x.geom = 0) ∧
      (∃ s c d v h e pa l f es, Takes1 .always s c 0x1000 ∧ s.dev.readRaw c 0x1000 64 64 = .ok d v ∧ seqHdr v = some h ∧
        d.storeAt c 0x1000 (List.replicate 8 0) 8 .tokenStore = .ok e pa l ∧ e.freeLines c 0x1000 (entLines h.pages) [] = .inr (f, es)) ∧
      (∃ s c d v, Takes1 .always s c 0x1080 ∧ s.dev.readRaw c 0x1080 64 64 = .ok d v ∧ seqHdr v = none) := by
  refine ⟨⟨_, _, _, _, ⟨65, 64, 16, 2 ^ 63, 0⟩, _, _, w2 tSeq okI _ _, read_eq (by decide +kernel), by decide +kernel, by decide, read_eq (by decide +kernel),
      by decide +kernel⟩,
    ⟨_, _, _, _, ⟨65, 64, 16, 2 ^ 63, 0⟩, w2 tSeq okI _ _, read_eq (by decide +kernel), by decide +kernel, by decide⟩,
    ⟨_, _, _, _, w2 tSeq okI _ _, read_eq (by decide +kernel), by decide +kernel⟩,
    ⟨_, _, _, _, ⟨65, 64, 16, 2 ^ 63, 0⟩, _, _, ⟨0, 64, 16, 2 ^ 63, 0x2010⟩, _, _, _, w2 tSeq okI _ _, read_eq (by decide +kernel), by decide +kernel,
      read_eq (by decide +kernel), by decide +kernel, rfl, by decide, by decide, by decide +kernel, pass_eq (by decide +kernel)⟩,
    ⟨_, _, dataTok [0, 1] 3 0 0, _, _, _, _, ⟨65, 64, 16, 2 ^ 63, 0⟩, _, _, _, wFires tSeq (some (dataTok [0, 1] 3 0 0)) (sc 0x1200) none okI, rfl, ⟨rfl, rfl⟩, scData _,
      ⟨rfl, rfl⟩, read_eq (by decide +kernel), by decide +kernel, by decide +kernel, by decide +kernel, rfl, read_eq (by decide +kernel),
      by decide +kernel, pass_eq (by decide +kernel)⟩,
    ⟨_, _, fTok 0, wFires R0 (some (fTok 0)) (sc 0x1000) none okI, rfl, ⟨rfl, rfl⟩, scData _, ⟨rfl, rfl⟩, rfl, rfl⟩, ?_,
    ⟨_, _, _, _, w1 tSeq okI _, read_eq (by decide +kernel), by decide +kernel⟩⟩
  let s := wS tSeq tInst (sc 0x1000) none none
  let c := wC tInst (sc 0x1000) none none
  let r := s.dev.readRaw c 0x1000 64 64
  let g := (rd r).storeAt c 0x1000 (List.replicate 8 0) 8 .tokenStore
  have hz : (match (gd g).freeLines c 0x1000 (entLines (SeqHdr.pages ⟨65, 64, 16, 2 ^ 63, 0⟩)) [] with | .inr _ => true | .inl _ => false) = true := by decide +kernel
  have hr : s.dev.readRaw c 0x1000 64 64 = .ok (rd r) (rv r) := read_eq (by decide +kernel)
  have hg : (rd r).storeAt c 0x1000 (List.replicate 8 0) 8 .tokenStore = .ok (gd g) (gp g) (gl g) := got_eq (by decide +kernel)
  have hh : seqHdr (rv r) = some ⟨65, 64, 16, 2 ^ 63, 0⟩ := by decide +kernel
  cases e : (gd g).freeLines c 0x1000 (entLines (SeqHdr.pages ⟨65, 64, 16, 2 ^ 63, 0⟩)) [] with
  | inl z => rw [e] at hz; cases hz
  | inr z =>
    exact ⟨s, c, rd r, rv r, ⟨65, 64, 16, 2 ^ 63, 0⟩, gd g, gp g, gl g, z.1, z.2, w1 tSeq okI _, hr, hh, hg, e⟩

/-! ### Numbers and vectors -/

theorem witness_RoundingIsNearestEven :
    fE2m1 ∈ [fFp32, fBf16, fFp16, fE4m3, fE5m2, fE2m1] ∧ (fE2m1.round .rne 0 ⟨true, 5, -2⟩).flags.getLsbD 2 = false := by
  refine ⟨by simp, by decide +kernel⟩

/-- R263: 1.25 lies midway between 1.0 (code 2) and 1.5 (code 3) of FP4, and goes to the even code. -/
theorem test_round_tie : (fE2m1.round .rne 0 ⟨false, 5, -2⟩).code = 2 := by decide +kernel

theorem witness_VectorLaneResults :
    (∃ s c, Token2 .always s c (fTok 0x3F800000) (fTok 0x7FC00000) ∧ fpOk (fTok 0x3F800000) = true ∧ fpOk (fTok 0x7FC00000) = true) ∧
      (∃ s c, Token2 .always s c (dataTok [1] 1 4 0) (fTok 0) ∧ (fpOk (dataTok [1] 1 4 0) && fpOk (fTok 0)) = false) ∧
      (∃ s c, Token3 s c (fTok 1) (fTok 2) (fTok 0x80000000) ∧ fpOk (fTok 1) = true ∧ fpOk (fTok 2) = true ∧ fpOk (fTok 0x80000000) = true ∧
        (fTok 1).fmt = (fTok 2).fmt ∧ (fTok 1).geom = (fTok 2).geom) :=
  ⟨⟨_, _, wTok2 R0 okI rfl rfl, by decide +kernel, by decide +kernel⟩, ⟨_, _, wTok2 R0 okI rfl rfl, by decide +kernel⟩,
    ⟨_, _, wTok3 R0 okI rfl rfl rfl, by decide +kernel, by decide +kernel, by decide +kernel, rfl, rfl⟩⟩

theorem witness_VectorFunctionResults :
    (∃ s c, Token1 .always s c (fTok 0xFF800000) ∧ fpOk (fTok 0xFF800000) = true) ∧
      (∃ s c, Token1 .always s c (dataTok [1] 1 2 0) ∧ fpOk (dataTok [1] 1 2 0) = false) :=
  ⟨⟨_, _, wTok1 R0 okI rfl, by decide +kernel⟩, ⟨_, _, wTok1 R0 okI rfl, by decide +kernel⟩⟩

theorem witness_VectorMoveResults :
    (∃ s c, Token1 .always s c (dataTok [1, 2] 1 1 0) ∧ (dataTok [1, 2] 1 1 0).vld (0#4).toNat = true) ∧
      (∃ s c, Token1 .always s c (dataTok [1, 2] 1 1 0) ∧ (dataTok [1, 2] 1 1 0).vld (15#4).toNat = false) ∧
      (∃ s c, Fires s c ∧ Selected .always c ∧ Data c.fr.a (fTok 1) ∧ Scalar c.fr.b 5 ∧ NoScale c) ∧
      (∃ s c, Token2 .always s c (fTok 1) (fTok 2) ∧ (fTok 1).fmt = (fTok 2).fmt ∧ (fTok 1).geom = (fTok 2).geom) :=
  ⟨⟨_, _, wTok1 R0 okI rfl, by decide +kernel⟩, ⟨_, _, wTok1 R0 okI rfl, by decide +kernel⟩,
    ⟨_, _, wFires R0 (some (fTok 1)) (sc 5) none okI, rfl, ⟨rfl, rfl⟩, scData _, ⟨rfl, rfl⟩⟩, ⟨_, _, wTok2 R0 okI rfl rfl, rfl, rfl⟩⟩

theorem witness_VectorReductionResults :
    (∃ s c, Token1 .always s c (dataTok [] 0 1 0) ∧ fpOk (dataTok [] 0 1 0) = true ∧ (List.range 16).filter (dataTok [] 0 1 0).vld = []) ∧
      (∃ s c, Token1 .always s c (fTok 1) ∧ fpOk (fTok 1) = true ∧ (List.range 16).filter (fTok 1).vld ≠ []) ∧
      (∃ s c, Token2 .always s c (fTok 1) (fTok 2) ∧ fpOk (fTok 1) = true) ∧
      (∃ s c, Fires s c ∧ Selected .always c ∧ c.fr.a = some (stopTok 0) ∧ c.fr.b = some (stopTok 0) ∧ NoScale c) ∧
      (∃ s c, Fires s c ∧ Selected .always c ∧ c.fr.a = some doneTok ∧ c.fr.b = some doneTok ∧ NoScale c) :=
  ⟨⟨_, _, wTok1 R0 okI rfl, by decide +kernel, by decide +kernel⟩, ⟨_, _, wTok1 R0 okI rfl, by decide +kernel, by decide +kernel⟩,
    ⟨_, _, wTok2 R0 okI rfl rfl, by decide +kernel⟩, ⟨_, _, wFires R0 (some (stopTok 0)) (some (stopTok 0)) none okI, rfl, rfl, rfl, ⟨rfl, rfl⟩⟩,
    ⟨_, _, wFires R0 (some doneTok) (some doneTok) none okI, rfl, rfl, rfl, ⟨rfl, rfl⟩⟩⟩

theorem witness_TopKSelectionRanks :
    let sel : List (BitVec 32 × BitVec 32) := [(0x40000000, 7), (0x3F800000, 3)]
    sel.length ≤ 2 ∧ (∀ q ∈ sel, (fp32 q.1).isNan = false) ∧ List.Pairwise (fun q r => ranksBefore r q = false) sel := by
  have h : ranksBefore (0x3F800000, 3) (0x40000000, 7) = false := by decide +kernel
  refine ⟨by decide, fun q hq => ?_, .cons (fun r hr => ?_) (.cons nofun .nil)⟩
  · simp only [List.mem_cons, List.not_mem_nil, or_false] at hq
    rcases hq with rfl | rfl <;> decide +kernel
  · simp only [List.mem_cons, List.not_mem_nil, or_false] at hr
    rw [hr]; exact h

theorem witness_VectorConversionResults :
    (∃ s c, Token1 .always s c (fTok 1) ∧ fpOk (fTok 1) = true ∧ (11#4).toNat ≤ 11) ∧
      (∃ s c, Token1 .always s c (fTok 1) ∧ (4#4).toNat ≤ 11 ∧ fmtWidth (4#4).toNat < 32 ∧ ∀ j < 16, (fTok 1).vld j = true) ∧
      (∃ s c ts, Token1 .always s c (fTok 1) ∧ unpack (1#4) (dataTok [1] 1 2 0) = some ts ∧ c.x.cr.ten = 0) ∧
      (∃ s c, Token1 .always s c (dataTok [1] 1 1 0) ∧ unpack (0#4) (dataTok [1] 1 1 0) = none) ∧
      (∃ s c, Token1 .always s c (dataTok [1] 1 2 0) ∧ fpOk (dataTok [1] 1 2 0) = false) := by
  refine ⟨⟨_, _, wTok1 R0 okI rfl, by decide +kernel, by decide⟩, ⟨_, _, wTok1 R0 okI rfl, by decide, by decide, by decide +kernel⟩, ?_, ?_,
    ⟨_, _, wTok1 R0 okI rfl, by decide +kernel⟩⟩
  · have h : (unpack (1#4) (dataTok [1] 1 2 0)).isSome = true := by decide +kernel
    exact ⟨_, _, _, wTok1 R0 okI rfl, (Option.some_get h).symm, by decide +kernel⟩
  · exact ⟨_, _, wTok1 R0 okI rfl, by decide +kernel⟩

theorem witness_VectorIntegerResults : ∃ s c, Token2 .always s c (fTok 0x80FF7F01) (fTok 0x01010101) := ⟨_, _, wTok2 R0 okI rfl rfl⟩

/-- A token of FMT 10, INT32 lanes (R252). -/
def iTok (w : BitVec 32) (f : BitVec 4) : Token := dataTok (List.replicate 16 w) 0xFFFF f 0

theorem scalesI (a b p : Option Token) : ScalesData (wC tInst a b p) := by intro t h; cases h

theorem witness_DotAndRopeResults :
    (∃ s c, Fires s c ∧ Selected .always c ∧ Data c.fr.a (iTok 1 2) ∧ Data c.fr.b (iTok 1 2) ∧ ScalesData c ∧ dotOk c.fr (iTok 1 2) (iTok 1 2) = true ∧
        c.x.cr.ten = 0) ∧
      (∃ s c, Fires s c ∧ Selected .always c ∧ Data c.fr.a (iTok 1 2) ∧ Data c.fr.b (iTok 1 9) ∧ ScalesData c ∧ dotOk c.fr (iTok 1 2) (iTok 1 9) = false) ∧
      (∃ s c, Fires s c ∧ Data c.fr.a (iTok 1 2) ∧ Data c.fr.b (iTok 1 2) ∧ Scalar c.fr.p 5 ∧ ScalesData c ∧ dotOk c.fr (iTok 1 2) (iTok 1 2) = true ∧
        c.x.cr.ten = 0) ∧
      (∃ s c, Fires s c ∧ Data c.fr.a (iTok 1 9) ∧ Data c.fr.b (iTok 1 9) ∧ Scalar c.fr.p 5 ∧ ScalesData c ∧ dotiOk c.fr (iTok 1 9) (iTok 1 9) = true ∧
        NoScale c ∧ (iTok 1 9).geom = 0 ∧ (iTok 1 9).fmt = 9) ∧
      (∃ s c, Fires s c ∧ Data c.fr.a (iTok 1 1) ∧ Data c.fr.b (iTok 1 9) ∧ Scalar c.fr.p 5 ∧ ScalesData c ∧ dotiOk c.fr (iTok 1 1) (iTok 1 9) = false) ∧
      (∃ s c, Fires s c ∧ Selected .always c ∧ Data c.fr.a (fTok 1) ∧ Scalar c.fr.b 0xFFFFFFFF ∧ NoScale c ∧ fpOk (fTok 1) = true ∧
        c.x.cr.ten = 0 ∧ (0xFFFFFFFF : Word).toNat < 2 ^ 32) ∧
      (∃ s c, Fires s c ∧ Selected .always c ∧ Data c.fr.a (fTok 1) ∧ Scalar c.fr.b 0x100000000 ∧ NoScale c ∧ fpOk (fTok 1) = true ∧
        c.x.cr.ten.getLsbD 2 = true) := by
  refine ⟨⟨_, _, wFires R0 (some (iTok 1 2)) (some (iTok 1 2)) none okI, rfl, ⟨rfl, rfl⟩, ⟨rfl, rfl⟩, scalesI _ _ _, by decide +kernel, by decide +kernel⟩,
    ⟨_, _, wFires R0 (some (iTok 1 2)) (some (iTok 1 9)) none okI, rfl, ⟨rfl, rfl⟩, ⟨rfl, rfl⟩, scalesI _ _ _, by decide +kernel⟩,
    ⟨_, _, wFires R0 (some (iTok 1 2)) (some (iTok 1 2)) (sc 5) okI, ⟨rfl, rfl⟩, ⟨rfl, rfl⟩, scData _, scalesI _ _ _, by decide +kernel, by decide +kernel⟩,
    ⟨_, _, wFires R0 (some (iTok 1 9)) (some (iTok 1 9)) (sc 5) okI, ⟨rfl, rfl⟩, ⟨rfl, rfl⟩, scData _, scalesI _ _ _, by decide +kernel, ⟨rfl, rfl⟩, by decide +kernel⟩,
    ⟨_, _, wFires R0 (some (iTok 1 1)) (some (iTok 1 9)) (sc 5) okI, ⟨rfl, rfl⟩, ⟨rfl, rfl⟩, scData _, scalesI _ _ _, by decide +kernel⟩,
    ⟨_, _, wFires R0 (some (fTok 1)) (sc 0xFFFFFFFF) none okI, rfl, ⟨rfl, rfl⟩, scData _, ⟨rfl, rfl⟩, by decide +kernel, by decide +kernel⟩,
    ⟨_, _, wFires R0 (some (fTok 1)) (sc 0x100000000) none (x := tTen 4) (by decide), rfl, ⟨rfl, rfl⟩, scData _, ⟨rfl, rfl⟩, by decide +kernel, by decide +kernel⟩⟩

theorem witness_IntegerDotIsExact : (iTok 1 9).fmt = (iTok 0xFF 9).fmt ∧ (iTok 1 9).fmt = 9 := by decide +kernel
/-! ### Streams -/

def se : StreamAt → Dev | .ok d _ => d | _ => R0
def ss : StreamAt → Stream | .ok _ s => s | _ => parseStream 0 9
def sOk : StreamAt → Bool | .ok .. => true | _ => false
theorem use_eq {r : StreamAt} (h : sOk r = true) : r = .ok (se r) (ss r) := by cases r <;> simp_all [sOk, se, ss]

/-- What opening a stream comes to. -/
def opened (d : Dev) (c : Fx) (a : Word) (acc : Acc) (l : Leaf) : StreamAt :=
  ((d.setAD l (acc == .write)).fill c.ctx a { l with a := true, d := l.d || acc == .write }).streamUse l.pa (some c.t.die)
    (c.t.part, c.t.asid, a.toNat / 2 ^ 43)

theorem opens_of {d : Dev} {c : Fx} {a : Word} {acc : Acc} {al : Stream → Nat} {sm : Bool} {role : Stream → Bool} (l : Leaf)
    (h : ((d.leafFor c.ctx a).toOption == some l && !l.nr && l.allows acc c.x.cr.sys && l.kind == 1 && sOk (opened d c a acc l) &&
      a.toNat % al (ss (opened d c a acc l)) == 0 && (!sm || decide ((ss (opened d c a acc l)).esz ≤ 3)) &&
      role (ss (opened d c a acc l))) = true) :
    Opens d c a acc al sm role (se (opened d c a acc l)) l.pa (ss (opened d c a acc l)) := by
  simp only [Bool.and_eq_true, beq_iff_eq, Bool.not_eq_true', Bool.or_eq_true, decide_eq_true_eq] at h
  obtain ⟨⟨⟨⟨⟨⟨⟨h1, h2⟩, h3⟩, h4⟩, h5⟩, h6⟩, h7⟩, h8⟩ := h
  exact ⟨l, ok_of h1, h2, h3, h4, rfl, use_eq h5, h6, fun e => by simpa [e] using h7, h8⟩

def tSl : Leaf := { tLeaf (hostPa + 0x20000) 1 with size := 2 ^ 43 }

/-- A stream of 8-byte elements in two frames of 4 KiB, published up to 64; reader 0 has joined and released 16 bytes. -/
def tSt (pj : Bool) : Stream :=
  { parseStream 0 0 with
    hwm := 64, mem := true, esz := 3, fsz := 12, nf := 2, fbase := (hostPa + 0x40000) / 64, pj := pj
    readers := (Vector.replicate 8 ⟨false, 0, 0, false⟩).set 0 ⟨true, 16, 16, false⟩ }
def tStr (pj : Bool) : Dev := { tMem [(0, tSl)] with streams := [(hostPa + 0x20000, tSt pj)] }

theorem newI (a b p : Option Token) : (wC tInst a b p).fr.mode ≠ .again := nofun

theorem witness_StreamResults_reads :
    (∃ s c a d ds q st, c.fr.mode ≠ .again ∧ Takes1 .always s c a ∧ resolvePos a (c.x.cursorRef ds (fldN a 42 40) st) = some q ∧
      (st.reader (fldN a 42 40)).rel ≤ q ∧
      Opens (s.dev.clearOp c) c a .read Stream.esize true (fun st => (st.reader (fldN a 42 40)).joined) d ds st ∧ q + st.esize ≤ st.hwm) ∧
      (∃ s c a d ds q st, c.fr.mode ≠ .again ∧ Takes1 .always s c a ∧ resolvePos a (c.x.cursorRef ds (fldN a 42 40) st) = some q ∧
        (st.reader (fldN a 42 40)).rel ≤ q ∧
        Opens (s.dev.clearOp c) c a .read Stream.esize true (fun st => (st.reader (fldN a 42 40)).joined) d ds st ∧ st.hwm < q + st.esize) ∧
      (∃ s c a d ds q st, c.fr.mode ≠ .again ∧ Takes1 .always s c a ∧ resolvePos a (c.x.cursorRef ds (fldN a 42 40) st) = some q ∧
        (st.reader (fldN a 42 40)).rel ≤ q ∧
        Opens (s.dev.clearOp c) c a .read (fun _ => 64) false (fun st => (st.reader (fldN a 42 40)).joined) d ds st ∧ st.hwm < q + 64) ∧
      (∃ s c a d ds st, Takes1 .always s c a ∧ Opens s.dev c a .read (fun _ => 1) false (fun _ => true) d ds st ∧
        (st.reader (fldN a 42 40)).joined = true) ∧
      (∃ s c a d ds st, Takes1 .always s c a ∧ Opens s.dev c a .read (fun _ => 1) false (fun _ => true) d ds st ∧
        (st.reader (fldN a 42 40)).joined = false ∧ st.pj = false) :=
  ⟨⟨_, _, 56, _, _, 56, _, newI _ _ _, w1 (tStr false) okI _, by decide +kernel, by decide +kernel, opens_of tSl (by decide +kernel), by decide +kernel⟩,
    ⟨_, _, 64, _, _, 64, _, newI _ _ _, w1 (tStr false) okI _, by decide +kernel, by decide +kernel, opens_of tSl (by decide +kernel), by decide +kernel⟩,
    ⟨_, _, 64, _, _, 64, _, newI _ _ _, w1 (tStr false) okI _, by decide +kernel, by decide +kernel, opens_of tSl (by decide +kernel), by decide +kernel⟩,
    ⟨_, _, 3, _, _, _, w1 (tStr false) okI _, opens_of tSl (by decide +kernel), by decide +kernel⟩,
    ⟨_, _, 0x10000000003, _, _, _, w1 (tStr false) okI _, opens_of tSl (by decide +kernel), by decide +kernel, by decide +kernel⟩⟩

theorem witness_StreamResults_writes :
    (∃ s c a d ds q st, c.fr.mode ≠ .again ∧ First c ∧ Takes2 .always s c a 5 ∧ resolvePos a st.hwm = some q ∧ st.tail ≤ q ∧
      Opens ((marked s.dev c).clearOp c) c a .write Stream.esize true (fun st => !st.hpro) d ds st ∧
      q + st.esize ≤ (d.setOp c (.spos ds (fldN a 42 40) q)).limitOf ds st) ∧
      (∃ s c a d ds q st, c.fr.mode ≠ .again ∧ First c ∧ Takes2 .always s c a 5 ∧ resolvePos a st.hwm = some q ∧ st.tail ≤ q ∧
        Opens ((marked s.dev c).clearOp c) c a .write Stream.esize true (fun st => !st.hpro) d ds st ∧
        (d.setOp c (.spos ds (fldN a 42 40) q)).limitOf ds st < q + st.esize) ∧
      (∃ s c a x d ds q st, c.fr.mode ≠ .again ∧ First c ∧ Fires s c ∧ Selected .always c ∧ Scalar c.fr.a a ∧ Data c.fr.b x ∧ NoScale c ∧
        resolvePos a st.hwm = some q ∧ st.tail ≤ q ∧
        Opens ((marked s.dev c).clearOp c) c a .write (fun _ => 64) false (fun st => !st.hpro) d ds st ∧
        q + 64 ≤ (d.setOp c (.spos ds (fldN a 42 40) q)).limitOf ds st) ∧
      (∃ s c a d ds q st, c.fr.mode ≠ .again ∧ Takes1 .always s c a ∧
        Opens (s.dev.clearOp c) c a .write Stream.esize true (fun st => !st.hpro) d ds st ∧ resolvePos a st.hwm = some q ∧
        q ≤ ((d.modInst c.i fun x => { x with marks := { x.marks with rel := true, scope := .sys } }).setOp c
          (.spos ds (fldN a 42 40) q)).limitOf ds st) ∧
      (∃ s c a d ds q st, c.fr.mode ≠ .again ∧ Takes1 .always s c a ∧
        Opens (s.dev.clearOp c) c a .write Stream.esize true (fun st => !st.hpro) d ds st ∧ resolvePos a st.hwm = some q ∧
        ((d.modInst c.i fun x => { x with marks := { x.marks with rel := true, scope := .sys } }).setOp c
          (.spos ds (fldN a 42 40) q)).limitOf ds st < q) := by
  refine ⟨⟨_, _, 8184, _, _, 8184, _, newI _ _ _, firstI _ _ _, w2 (tStr false) okI _ _, by decide +kernel, by decide +kernel, opens_of tSl (by decide +kernel),
      by decide +kernel⟩,
    ⟨_, _, 8192, _, _, 8192, _, newI _ _ _, firstI _ _ _, w2 (tStr false) okI _ _, by decide +kernel, by decide +kernel, opens_of tSl (by decide +kernel), by decide +kernel⟩,
    ⟨_, _, 8128, fTok 1, _, _, 8128, _, newI _ _ _, firstI _ _ _, wFires (tStr false) (sc 8128) (some (fTok 1)) none okI, rfl, scData _, ⟨rfl, rfl⟩, ⟨rfl, rfl⟩,
      by decide +kernel, by decide +kernel, opens_of tSl (by decide +kernel), by decide +kernel⟩,
    ⟨_, _, 8192, _, _, 8192, _, newI _ _ _, w1 (tStr false) okI _, opens_of tSl (by decide +kernel), by decide +kernel, by decide +kernel⟩,
    ⟨_, _, 8200, _, _, 8200, _, newI _ _ _, w1 (tStr false) okI _, opens_of tSl (by decide +kernel), by decide +kernel, by decide +kernel⟩⟩

theorem witness_StreamResults_roles :
    (∃ s c a d ds q st, c.fr.mode ≠ .again ∧ Takes1 .always s c a ∧
      Opens (s.dev.clearOp c) c a .read Stream.esize true (fun st => (st.reader (fldN a 42 40)).joined) d ds st ∧
      resolvePos a (c.x.cursorRef ds (fldN a 42 40) st) = some q ∧ q ≤ st.hwm ∧ (st.reader (fldN a 42 40)).rel ≤ q) ∧
      (∃ s c a d ds q st, c.fr.mode ≠ .again ∧ Takes1 .always s c a ∧
        Opens (s.dev.clearOp c) c a .read Stream.esize true (fun st => (st.reader (fldN a 42 40)).joined) d ds st ∧
        resolvePos a (c.x.cursorRef ds (fldN a 42 40) st) = some q ∧ q < (st.reader (fldN a 42 40)).rel) ∧
      (∃ s c a d ds q st, c.fr.mode ≠ .again ∧ Takes1 .always s c a ∧
        Opens (s.dev.clearOp c) c a .read Stream.esize true (fun _ => true) d ds st ∧ resolvePos a st.tail = some q ∧
        (st.reader (fldN a 42 40)).joined = false ∧ d.claimed ds (fldN a 42 40) = false ∧ st.tail ≤ q ∧ q ≤ st.hwm) ∧
      (∃ s c a d ds st, c.fr.mode ≠ .again ∧ Takes1 .always s c a ∧
        Opens (s.dev.clearOp c) c a .read Stream.esize true (fun _ => true) d ds st ∧ (st.reader (fldN a 42 40)).joined = true) ∧
      (∃ s c a d ds st, Takes1 .always s c a ∧ Opens s.dev c a .write Stream.esize true (fun st => !st.hpro) d ds st ∧ st.pj = false ∧
        d.claimed ds 8 = false) ∧
      (∃ s c a d ds st, Takes1 .always s c a ∧ Opens s.dev c a .write Stream.esize true (fun st => !st.hpro) d ds st ∧ st.pj = true) :=
  ⟨⟨_, _, 16, _, _, 16, _, newI _ _ _, w1 (tStr false) okI _, opens_of tSl (by decide +kernel), by decide +kernel, by decide +kernel, by decide +kernel⟩,
    ⟨_, _, 8, _, _, 8, _, newI _ _ _, w1 (tStr false) okI _, opens_of tSl (by decide +kernel), by decide +kernel, by decide +kernel⟩,
    ⟨_, _, 0x10000000040, _, _, 64, _, newI _ _ _, w1 (tStr false) okI _, opens_of tSl (by decide +kernel), by decide +kernel, by decide +kernel, by decide +kernel,
      by decide +kernel, by decide +kernel⟩,
    ⟨_, _, 16, _, _, _, newI _ _ _, w1 (tStr false) okI _, opens_of tSl (by decide +kernel), by decide +kernel⟩,
    ⟨_, _, 0, _, _, _, w1 (tStr false) okI _, opens_of tSl (by decide +kernel), by decide +kernel, by decide +kernel⟩,
    ⟨_, _, 0, _, _, _, w1 (tStr true) okI _, opens_of tSl (by decide +kernel), by decide +kernel⟩⟩

theorem witness_StreamCommitSteps :
    ((tSt true).reader 0).joined = true ∧ ((tSt true).reader 7).joined = false ∧
      (∃ k < 8, ((tSt true).reader k).joined = true) ∧ ∀ k < 8, ((parseStream 0 0).reader k).joined = false := by decide +kernel

/-! ### Fibres -/

/-- A coordinate token whose descriptor stands at 0x1000. -/
def tCoord (c k : Nat) : Token := coordTok c k 0x1000

theorem reads_of {d : Dev} {c : Fx} {va : Word} {n : Nat}
    (h : gotOk (d.loadAt c va n n (if n = 64 then .tokenLoad else .scalarLoad)) = true) :
    Reads d c va n ((gd (d.loadAt c va n n (if n = 64 then .tokenLoad else .scalarLoad))).loadBytes c.i
        (gp (d.loadAt c va n n (if n = 64 then .tokenLoad else .scalarLoad))) n).1
      (natOfBytes ((gd (d.loadAt c va n n (if n = 64 then .tokenLoad else .scalarLoad))).loadBytes c.i
        (gp (d.loadAt c va n n (if n = 64 then .tokenLoad else .scalarLoad))) n).2) :=
  ⟨_, _, _, got_eq h, rfl, rfl⟩

/-- A level descriptor of two references at 0x1000, its positions at 0x1100, values at 0x1200. -/
def tFib : Dev := { tPages with mem := tNums [(hostPa + 0x1000, 8, 2 * 2 ^ 32), (hostPa + 0x1008, 8, 0x1100), (hostPa + 0x1010, 8, 0x1180),
  (hostPa + 0x1020, 8, 0x1200), (hostPa + 0x1104, 4, 3), (hostPa + 0x1180, 4, 9)] }

abbrev tX (st : OpSt) : Inst := { tInst with ops := [(0, st)] }

theorem tOps (d : Dev) (a b : Option Token) (st : OpSt) : Fires (wS d (tX st) a b none) (wC (tX st) a b none) := wFires d a b none ⟨rfl, rfl⟩

theorem witness_FibreResults_scan :
    (∃ s c x d1 d2 d3 v lo hi, Fires s c ∧ Selected .always c ∧ Data c.fr.a x ∧ c.fr.b = none ∧ NoScale c ∧ c.x.opst c.idx = none ∧ fibOf x = .coord ∧
      Reads s.dev c x.descAddr 64 d1 v ∧ nfld v 2 0 = (0#3).toNat ∧ levelOk v = true ∧ x.ref < nfld v 63 32 ∧
      Reads d1 c (BitVec.ofNat 64 (nfld v 127 64) + BitVec.ofNat 64 (4 * x.ref)) 4 d2 lo ∧
      Reads d2 c (BitVec.ofNat 64 (nfld v 127 64) + BitVec.ofNat 64 (4 * x.ref) + 4) 4 d3 hi ∧ lo < hi) ∧
      (∃ s c d w, Fires s c ∧ c.x.opst c.idx = some (.fscanSeg 0 3 0x1180 0x1000 (some 8)) ∧
        Reads s.dev c (0x1180 + BitVec.ofNat 64 (4 * 0)) 4 d w ∧ ∀ q, some 8 = some q → q < w) ∧
      (∃ s c x y d1 d2 v w, Fires s c ∧ Selected .always c ∧ Data c.fr.a x ∧ Data c.fr.b y ∧ NoScale c ∧ c.x.opst c.idx = none ∧ fibOf x = .hole ∧
        fibOf y = .coord ∧ Reads s.dev c y.descAddr 64 d1 v ∧ levelOk v = true ∧ nfld v 319 256 ≠ 0 ∧
        Reads d1 c (BitVec.ofNat 64 (nfld v 319 256) + BitVec.ofNat 64 (4 * y.ref)) 4 d2 w) := by
  refine ⟨⟨_, _, tCoord 5 0, _, _, _, _, _, _, wFires tFib (some (tCoord 5 0)) none none okI, rfl, ⟨rfl, rfl⟩, rfl, ⟨rfl, rfl⟩, rfl, by decide +kernel,
      reads_of (by decide +kernel), by decide +kernel, by decide +kernel, by decide +kernel, reads_of (by decide +kernel), reads_of (by decide +kernel), by decide +kernel⟩,
    ⟨_, _, _, _, tOps tFib none none (.fscanSeg 0 3 0x1180 0x1000 (some 8)), rfl, reads_of (by decide +kernel), ?_⟩,
    ⟨_, _, holeTok 5, tCoord 5 1, _, _, _, _, wFires { tFib with mem := tNums [(hostPa + 0x1020, 8, 0x1200)] } (some (holeTok 5)) (some (tCoord 5 1)) none okI, rfl, ⟨rfl, rfl⟩, ⟨rfl, rfl⟩, ⟨rfl, rfl⟩, rfl,
      by decide +kernel, by decide +kernel, reads_of (by decide +kernel), by decide +kernel, by decide +kernel, reads_of (by decide +kernel)⟩⟩
  rintro q ⟨⟩
  decide +kernel

theorem witness_FibreResults_pairs :
    (∃ s c x y, Fires s c ∧ c.fr.a = some x ∧ c.fr.b = some y ∧ c.x.opst c.idx = none ∧ x.kind = .data ∧ y.kind = .data) ∧
      (∃ s c x y, Fires s c ∧ c.fr.a = some x ∧ c.fr.b = some y ∧ c.x.opst c.idx = some (.fpair (some 4) (some 4)) ∧ x.kind = .data ∧ y.kind = .data ∧
        4 < x.coord ∧ 4 < y.coord) ∧
      (∃ s c x y, Fires s c ∧ c.fr.a = some x ∧ c.fr.b = some y ∧ c.x.opst c.idx = none ∧ x.kind = .stop ∧ y.kind = .stop ∧ x.level = y.level) ∧
      (∃ s c x, Fires s c ∧ c.fr.a = some x ∧ c.fr.b = none ∧ x.kind = .data ∧ c.x.opst c.idx = some (.fpair none (some 9))) ∧
      (∃ s c x y, Fires s c ∧ c.fr.a = some x ∧ x.kind = .data ∧ c.fr.b = some y ∧ y.kind = .data ∧ c.x.opst c.idx = none) ∧
      (∃ s c x y, Fires s c ∧ c.fr.a = some x ∧ x.kind = .data ∧ c.fr.b = none ∧ c.x.opst c.idx = some (.frpt (some y))) ∧
      (∃ s c x y, Fires s c ∧ c.fr.a = some x ∧ x.kind = .stop ∧ c.fr.b = none ∧ c.x.opst c.idx = some (.frpt (some y))) :=
  ⟨⟨_, _, _, _, wFires R0 (some (tCoord 5 0)) (some (tCoord 5 0)) none okI, rfl, rfl, rfl, rfl, rfl⟩,
    ⟨_, _, _, _, tOps R0 (some (tCoord 5 0)) (some (tCoord 5 0)) _, rfl, rfl, rfl, rfl, rfl, by decide +kernel, by decide +kernel⟩,
    ⟨_, _, _, _, wFires R0 (some (stopTok 3)) (some (stopTok 3)) none okI, rfl, rfl, rfl, rfl, rfl, rfl⟩,
    ⟨_, _, _, tOps R0 (some (tCoord 5 0)) none (.fpair none (some 9)), rfl, rfl, rfl, rfl⟩,
    ⟨_, _, _, _, wFires R0 (some (tCoord 5 0)) (some (tCoord 5 0)) none okI, rfl, rfl, rfl, rfl, rfl⟩,
    ⟨_, _, _, tCoord 1 2, tOps R0 (some (tCoord 5 0)) none _, rfl, rfl, rfl, rfl⟩,
    ⟨_, _, _, tCoord 1 2, tOps R0 (some (stopTok 0)) none _, rfl, rfl, rfl, rfl⟩⟩

theorem witness_FibreResults_folds :
    (∃ s c x, Fires s c ∧ c.fr.a = some x ∧ x.kind = .data ∧ (x.fmt = 0 ∨ x.fmt = 1) ∧ c.x.opst c.idx = some (.fred [1] true)) ∧
      (∃ s c x, Fires s c ∧ c.fr.a = some x ∧ x.kind = .stop ∧ c.x.opst c.idx = some (.fred [1] true) ∧ c.x.cr.ten = 0 ∧ x.level ≠ 0) ∧
      (∃ s c x, Fires s c ∧ c.fr.a = some x ∧ x.kind = .done ∧ c.x.opst c.idx = none) ∧
      (∃ s c x d1 d2 pa1 pa2 l1 l2, Fires s c ∧ c.fr.a = some x ∧ c.fr.b = none ∧ x.kind = .data ∧
        c.x.opst c.idx = some (.fbld 0 0x1000 1 0x1100 0x1200 none 0) ∧ x.vld 0 = true ∧ x.vld 1 = true ∧
        s.dev.storeAt c (0x1100 + BitVec.ofNat 64 (4 * 0)) (bytesOfNat 4 (x.lane 0).toNat) 4 .scalarStore = .ok d1 pa1 l1 ∧
        d1.storeAt c (0x1200 + BitVec.ofNat 64 (4 * 0)) (bytesOfNat 4 (x.lane 1).toNat) 4 .scalarStore = .ok d2 pa2 l2) ∧
      (∃ s c x d1 pa1 l1, Fires s c ∧ c.fr.a = some x ∧ c.fr.b = none ∧ x.kind = .done ∧
        c.x.opst c.idx = some (.fbld 1 0x1000 1 0x1100 0x1200 none 1) ∧
        s.dev.storeAt c (0x1000 + 24) (bytesOfNat 8 1) 8 .scalarStore = .ok d1 pa1 l1) ∧
      (∃ s c x, Fires s c ∧ c.fr.a = some x ∧ x.kind = .stop ∧ c.x.opst c.idx = none ∧ x.level.toNat ≤ (0#3).toNat) ∧
      (∃ s c x, Fires s c ∧ c.fr.a = some x ∧ x.kind = .stop ∧ c.x.opst c.idx = none ∧ (6#3).toNat < x.level.toNat) :=
  ⟨⟨_, _, _, tOps R0 (some (fTok 1)) none _, rfl, rfl, .inr rfl, rfl⟩,
    ⟨_, _, _, tOps R0 (some (stopTok 7)) none _, rfl, rfl, rfl, by decide +kernel, by decide⟩,
    ⟨_, _, _, wFires R0 (some doneTok) none none okI, rfl, rfl, rfl⟩,
    ⟨_, _, _, _, _, _, _, _, _, tOps tFib (some (dataTok [5, 6] 3 0 0)) none _, rfl, rfl, rfl, rfl, by decide +kernel, by decide +kernel,
      got_eq (by decide +kernel), got_eq (by decide +kernel)⟩,
    ⟨_, _, _, _, _, _, tOps tFib (some doneTok) none _, rfl, rfl, rfl, rfl, got_eq (by decide +kernel)⟩,
    ⟨_, _, _, wFires R0 (some (stopTok 0)) none none okI, rfl, rfl, rfl, by decide⟩,
    ⟨_, _, _, wFires R0 (some (stopTok 7)) none none okI, rfl, rfl, rfl, by decide⟩⟩
/-! ### Words, steps, kinds and sending -/

def nextOk (o : Host.Outcome State Fault Refusal) : Bool := match o with | .next _ => true | _ => false
theorem next_of {o : Host.Outcome State Fault Refusal} (h : nextOk o = true) : ∃ t, o = .next t := by
  cases o <;> simp_all [nextOk]

theorem witness_DecodeUndoesEncode :
    (Instr.vtopk .onTrue 256 (n_ 1) (n_ 2) none).fields.isSome = true ∧ Instr.wf (.vtopk .onTrue 256 (n_ 1) (n_ 2) none) = true := by decide

/-- A state whose next move is the firing of an ADD to slot a of instruction 1. -/
def tFire : State := State.reset.place (.add .always (n_ 1) none) (encode (.add .always (n_ 1) none))

/-- A state of one move, in a power state, with accesses held. -/
def tNext (m : Move) (p : Power) (held : List Instr) : State :=
  { dev := { R0 with agenda := [m] }, rot := { RoT.reset with power := p, heldOps := held } }

theorem witness_StepRunsTheNextMove :
    (∃ r d c k ins rest t, tFire.dev.agenda = .fire 0 0 :: r ∧ tFire.rot.power = .p0 ∧ (popped tFire r).dev.latch 0 0 = some d ∧ d.fx = some c ∧
      c.r.image.starts[c.idx]? = some k ∧ decode (c.r.image.words.drop k) = .ok (ins, rest) ∧
      exec ins { popped tFire r with dev := d } = .next t) ∧
      (popped State.reset []).dev.latch 0 0 = none ∧
      (∃ s : State, ∃ r t, s.dev.agenda = .op (.fnqWrite 0 5) :: r ∧ s.rot.power = .p0 ∧ (popped s r).staysBehind (.fnqWrite 0 5) = false ∧
        exec (.fnqWrite 0 5) (popped s r) = .next t) ∧
      (∃ s : State, ∃ r, s.dev.agenda = .op (.fnqWrite 0 5) :: r ∧ s.rot.power = .p0 ∧ (popped s r).staysBehind (.fnqWrite 0 5) = true) ∧
      (∃ s : State, ∃ r, s.dev.agenda = .op (.apertureRead 0 0 8) :: r ∧ s.rot.power = .p2 ∧ wakesP2 (.apertureRead 0 0 8) = true ∧ s.dev.balk = false) ∧
      (∃ s : State, ∃ r t, s.dev.agenda = .op (.nonceCmd 7) :: r ∧ s.rot.power = .p2 ∧ wakesP2 (.nonceCmd 7) = false ∧ (popped s r).staysBehind (.nonceCmd 7) = false ∧
        servedInP2 (.nonceCmd 7) = true ∧ exec (.nonceCmd 7) (popped s r) = .next t) ∧
      (∃ s : State, ∃ r, s.dev.agenda = .op (.fnqWrite 0 5) :: r ∧ s.rot.power = .p3 ∧ Instr.fnqWrite 0 5 ≠ .coldBringUp) ∧
      (∃ s : State, ∃ r, s.dev.agenda = .fire 0 0 :: r ∧ s.rot.power = .p2) ∧ (∃ s : State, ∃ r, s.dev.agenda = .wait 1 :: r ∧ s.rot.power = .p1) ∧
      State.reset.dev.agenda = [] := by
  refine ⟨?_, by decide +kernel, ⟨tNext (.op (.fnqWrite 0 5)) .p0 [], [], ?_⟩,
    ⟨tNext (.op (.fnqWrite 0 5)) .p0 [.fnqWrite 1 1], [], rfl, rfl, by decide +kernel⟩, ⟨tNext (.op (.apertureRead 0 0 8)) .p2 [], [], rfl, rfl, rfl, rfl⟩,
    ⟨tNext (.op (.nonceCmd 7)) .p2 [], [], ?_⟩, ⟨tNext (.op (.fnqWrite 0 5)) .p3 [], [], rfl, rfl, nofun⟩, ⟨tNext (.fire 0 0) .p2 [], [], rfl, rfl⟩,
    ⟨tNext (.wait 1) .p1 [], [], rfl, rfl⟩, rfl⟩
  · have h1 : ((popped tFire []).dev.latch 0 0).isSome = true := by decide +kernel
    have h2 : (((popped tFire []).dev.latch 0 0).bind Dev.fx).isSome = true := by decide +kernel
    have h3 : (match ((popped tFire []).dev.latch 0 0).bind Dev.fx with
      | some c => (match c.r.image.starts[c.idx]? with
        | some k => (match decode (c.r.image.words.drop k) with
          | .ok x => x.1 == .add .always (n_ 1) none && nextOk (exec (.add .always (n_ 1) none) { popped tFire [] with
              dev := (((popped tFire []).dev.latch 0 0).getD R0) })
          | .error _ => false)
        | none => false)
      | none => false) = true := by decide +kernel
    obtain ⟨d, hd⟩ := Option.isSome_iff_exists.mp h1
    rw [hd] at h2 h3
    obtain ⟨c, hc⟩ := Option.isSome_iff_exists.mp h2
    rw [hc] at h3
    simp only [Option.getD_some] at h3
    split at h3
    · rename_i k hk
      split at h3
      · rename_i x hx
        simp only [Bool.and_eq_true, beq_iff_eq] at h3
        obtain ⟨t, ht⟩ := next_of h3.2
        exact ⟨[], d, c, k, x.1, x.2, t, by decide +kernel, by decide +kernel, hd, hc, hk, hx, by rw [h3.1]; exact ht⟩
      · cases h3
    · cases h3
  · obtain ⟨t, h⟩ := next_of (o := exec (.fnqWrite 0 5) (popped (tNext (.op (.fnqWrite 0 5)) .p0 []) [])) (by decide +kernel)
    exact ⟨t, rfl, rfl, by decide +kernel, h⟩
  · obtain ⟨t, h⟩ := next_of (o := exec (.nonceCmd 7) (popped (tNext (.op (.nonceCmd 7)) .p2 []) [])) (by decide +kernel)
    exact ⟨t, rfl, rfl, rfl, by decide +kernel, rfl, h⟩

theorem witness_MemoryStaysCanonical : ∃ s t, MemOk s ∧ s.dev.mem ≠ [] ∧ step s = .next t := by
  obtain ⟨t, h⟩ := next_of (o := step { State.reset with dev := { R0 with mem := [(5, 1), (hostPa, 2)] } }) (by decide +kernel)
  exact ⟨_, t, by decide +kernel, by decide, h⟩

theorem witness_RootOfTrustStaysLawful : ∃ s t, RootOk s.rot ∧ s.rot.sec = .ownerDebug ∧ step s = .next t := by
  let r : RoT := { RoT.reset with sec := .ownerDebug, ownerEd := some [], ownerMl := some [], fw := some ([], 3), fuses := (3, 0) }
  let s : State := ⟨{ R0 with agenda := [.op (.lockCmd 0)] }, r⟩
  obtain ⟨t, h⟩ := next_of (o := step s) (by decide +kernel)
  refine ⟨s, t, ⟨nofun, fun _ => ⟨rfl, rfl⟩, nofun, ?_, nofun, by decide +kernel⟩, rfl, h⟩
  rintro x ⟨⟩
  decide

theorem witness_SecurityTransitions :
    (∃ s t, RootOk s.rot ∧ step s = .next t) ∧ ∃ s c, (Instr.add .always none none).fields.isSome = true ∧ Fires s c :=
  ⟨by obtain ⟨s, t, h, _, g⟩ := witness_RootOfTrustStaysLawful; exact ⟨s, t, h, g⟩, _, _, by decide, wFires R0 (sc 1) (sc 1) none okI⟩

theorem witness_KindRules :
    (∃ s c, arith (.add .onTrue none none) = true ∧ Fires s c ∧ Unselected .onTrue c ∧ c.fr.p = some Token.null) ∧
      (∃ s c, Fires s c ∧ Selected .onFalse c ∧ c.fr.a = sc 1 ∧ c.fr.b = some (errTok .page 2)) ∧
      (∃ s c, Fires s c ∧ c.fr.a = sc 1 ∧ c.fr.b = some Token.null ∧ c.fr.p = none) ∧
      (∃ s c, Fires s c ∧ c.fr.a = some (stopTok 7) ∧ c.fr.b = some (stopTok 7) ∧ c.fr.p = none) ∧
      (∃ s c, Fires s c ∧ c.fr.a = some doneTok ∧ c.fr.b = some doneTok ∧ c.fr.p = none) ∧
      (∃ s c, Fires s c ∧ c.fr.a = some (stopTok 7) ∧ c.fr.b = some (stopTok 7) ∧ c.fr.p = sc 1) ∧
      (∃ s c, Fires s c ∧ c.fr.a = some (stopTok 0) ∧ c.fr.b = sc 1 ∧ c.fr.p = none ∧ (scalarTok 1).vld 0 = true) ∧
      (∃ s c, Fires s c ∧ c.fr.a = sc 1 ∧ c.fr.b = sc 1 ∧ c.fr.p = some (errTok .page 2)) ∧
      (∃ s c, Fires s c ∧ c.fr.a = sc 1 ∧ c.fr.b = sc 1 ∧ c.fr.p = some (stopTok 0)) :=
  ⟨⟨_, _, by decide, wFires R0 (sc 1) (sc 1) (some Token.null) okI, ⟨Token.null, rfl, .inl rfl⟩, rfl⟩,
    ⟨_, _, wFires R0 (sc 1) (some (errTok .page 2)) (sc 0) okI, ⟨scalarTok 0, rfl, rfl, by decide, by decide⟩, rfl, rfl⟩,
    ⟨_, _, wFires R0 (sc 1) (some Token.null) none okI, rfl, rfl, rfl⟩, ⟨_, _, wFires R0 (some (stopTok 7)) (some (stopTok 7)) none okI, rfl, rfl, rfl⟩,
    ⟨_, _, wFires R0 (some doneTok) (some doneTok) none okI, rfl, rfl, rfl⟩,
    ⟨_, _, wFires R0 (some (stopTok 7)) (some (stopTok 7)) (sc 1) okI, rfl, rfl, rfl⟩,
    ⟨_, _, wFires R0 (some (stopTok 0)) (sc 1) none okI, rfl, rfl, rfl, by decide +kernel⟩,
    ⟨_, _, wFires R0 (sc 1) (sc 1) (some (errTok .page 2)) okI, rfl, rfl, rfl⟩, ⟨_, _, wFires R0 (sc 1) (sc 1) (some (stopTok 0)) okI, rfl, rfl, rfl⟩⟩

theorem witness_SinkRules :
    (∃ s c, Fires s c ∧ c.fr.mode ≠ .again ∧ c.x.once.contains c.idx = true) ∧
      (∃ s c, Fires s c ∧ First c ∧ Unselected .onFalse c ∧ c.x.held = [] ∧ c.x.reqs = []) ∧
      (∃ s c, Fires s c ∧ First c ∧ Selected .always c ∧ c.fr.a = some (errTok .grammar 7)) ∧
      (∃ s c, Fires s c ∧ First c ∧ Selected .always c ∧ c.fr.a = some (stopTok 3) ∧ c.fr.b = some (stopTok 3) ∧ NoScale c) ∧
      (∃ s c, Fires s c ∧ First c ∧ Selected .always c ∧ c.fr.a = some doneTok ∧ c.fr.b = none ∧ NoScale c) :=
  ⟨⟨_, _, wFires R0 (sc 1) none none (x := { tInst with once := [0] }) (by decide), nofun, by decide⟩,
    ⟨_, _, wFires R0 (sc 1) none (sc 2) okI, firstI _ _ _, ⟨scalarTok 2, rfl, .inr ⟨rfl, by decide, by decide⟩⟩, rfl, rfl⟩,
    ⟨_, _, wFires R0 (some (errTok .grammar 7)) none none okI, firstI _ _ _, rfl, rfl⟩,
    ⟨_, _, wFires R0 (some (stopTok 3)) (some (stopTok 3)) none okI, firstI _ _ _, rfl, rfl, rfl, ⟨rfl, rfl⟩⟩,
    ⟨_, _, wFires R0 (some doneTok) none none okI, firstI _ _ _, rfl, rfl, rfl, ⟨rfl, rfl⟩⟩⟩

/-- A region of three instructions: the first `m` of two READs send to slot a of the third, an ADD. -/
def tSend (m : Nat) : Region :=
  { tRegion (.nop .always) with image := { imageOf (.nop .always) [] with
      cap := 8, instrs := [.read .always 0 .g (n_ 2) none none, .read .always 1 .g (if 2 ≤ m then n_ 2 else none) none none, .add .always none none] } }

def tSendC (m : Nat) (x : Inst) : Fx := tFx (tSend m) x (tFr none none none)

theorem witness_SendingRules :
    let t : Target := ⟨2, .a⟩
    let i : Instr := .read .always 0 .g (n_ 2) none none
    let fits (m : Nat) (x : Inst) (scale : Bool) : Prop :=
      let d := (tS R0 (tSend m) x (tFr none none none)).dev
      d.inst (tSendC m x).i = some x ∧ x.held = [] ∧ d.region x.reg = some (tSend m) ∧ (tSend m).image.instr (tSendC m x).idx = some i ∧
        scale = (tSend m).image.scaleAt i t
    let full : Inst := { tInst with chans := [⟨0, 2, .a, false, List.replicate 9 (scalarTok 1), [], [], 0, []⟩] }
    let met : Inst := { tInst with chans := [⟨1, 2, .a, false, [scalarTok 1], [], [], 0, []⟩] }
    (fits 1 tInst false ∧ (tSend 1).image.feeders t false < 2 ∧ tInst.taken 0 t false = false ∧ (tS R0 (tSend 1) tInst (tFr none none none)).dev.wayOn tInst (tSend 1) 0 t false = some .fifo) ∧
      (fits 2 tInst false ∧ 2 ≤ (tSend 2).image.feeders t false) ∧
      (fits 2 met false ∧ met.taken 0 t false = true) ∧
      (fits 1 full false ∧ full.taken 0 t false = false ∧ (tS R0 (tSend 1) full (tFr none none none)).dev.room full (tSend 1) 0 t false = false) := by
  refine ⟨⟨?_, ?_, ?_, ?_⟩, ⟨?_, ?_⟩, ⟨?_, ?_⟩, ?_, ?_, ?_⟩ <;> decide +kernel

theorem witness_FiringFrame :
    ∃ s c t, (arith (.add .always none none) || flow (.add .always none none)) = true ∧ Fires s c ∧ MemOk s ∧ exec (.add .always none none) s = .next t := by
  obtain ⟨t, h⟩ := next_of (o := exec (.add .always none none) (wS tSeq tInst (sc 1) (sc 2) none)) (by decide +kernel)
  exact ⟨_, _, t, by decide, wFires tSeq (sc 1) (sc 2) none okI, by decide +kernel, h⟩

theorem witness_AccessFrame :
    ∃ s c t d pa l, Fires s c ∧ Selected .always c ∧ Scalar c.fr.a 0x1000 ∧ s.dev.migs = [] ∧ MemOk s ∧
      Passes s.dev c.ctx (0x1000 + (0 : BitVec 16).signExtend 64) 1 1 .scalarLoad d pa l ∧ exec (.ldb .always 0 none none none) s = .next t ∧
      (t.dev.inst c.i).isSome = true := by
  have h : (match exec (.ldb .always 0 none none none) (wS tSeq tInst (sc 0x1000) none none) with
    | .next t => (t.dev.inst 0).isSome | _ => false) = true := by decide +kernel
  cases e : exec (.ldb .always 0 none none none) (wS tSeq tInst (sc 0x1000) none none) with
  | next t =>
    rw [e] at h
    exact ⟨_, _, t, _, _, _, wFires tSeq (sc 0x1000) none none okI, rfl, scData _, rfl, by decide +kernel, pass_eq (by decide +kernel), e, h⟩
  | fault f => rw [e] at h; cases h
  | refused f => rw [e] at h; cases h

/-! ### Traps and system instructions -/

theorem witness_TrapEntry :
    (∃ s c, Fires s c ∧ MemOk s) ∧ (∃ s c, Takes0 .always s c ∧ s.rot.dbgOf c.t.part = .off) ∧
      (∃ s c, Takes0 .always s c ∧ s.rot.dbgOf c.t.part = .observe) ∧ (∃ s c, Takes0 .always s c ∧ s.rot.dbgOf c.t.part = .invasive) :=
  ⟨⟨_, _, wFires R0 none none none okI, by decide⟩, ⟨_, _, w0 R0 okI, by decide⟩,
    ⟨{ wS R0 tInst none none none with rot := { RoT.reset with dbg := [(0, .observe)] } }, wC tInst none none none, w0 R0 okI, by decide⟩,
    ⟨{ wS R0 tInst none none none with rot := { RoT.reset with dbg := [(0, .invasive)] } }, wC tInst none none none, w0 R0 okI, by decide⟩⟩

/-- A trapped thread. -/
def tTrap : Thread := { tThread with
  st := .trapped
  trap := some { cause := .brk, index := 0, faddr := 0, raddr := 0, code := 7, kind := 1, rpc := 0, gmask := 1, vmask := 0, list := [], frame := none, stuck := false, other := none } }
/-- A device with it, and four frames at 0x1000 in ASID 0. -/
def tExc (en : Word) : Dev := { tPages with threads := [(5, tTrap)], nextTid := 6, parts := [(0, { Part.reset with thctl := en, tframe := 0x1002 })] }

def ffOk : Dev × FrameFind → Bool | (_, .found ..) => true | _ => false
theorem found_of {x : Dev × FrameFind} (h : ffOk x = true) : ∃ e va pa l, x = (e, .found va pa l) := by
  obtain ⟨d, f⟩ := x
  cases f with
  | found va pa l => exact ⟨d, va, pa, l, rfl⟩
  | bad va e => cases h
  | none_ => cases h

theorem witness_ExceptionTaken :
    (∃ d : Dev, d.thread 5 = some tTrap ∧ tTrap.trap.isSome = true ∧ d.nextTrap tTrap.part = some 5 ∧ d.suspended tTrap.part = false ∧
      (d.part tTrap.part).thctl.getLsbD 12 = false ∧ ∀ i, tTrap.trap = some i → (d.trapRecord tTrap i).balk = false) ∧
      (∃ (d e : Dev) (va : Word) (pa : Nat) (l : Leaf), d.thread 5 = some tTrap ∧ tTrap.trap.isSome = true ∧ d.nextTrap tTrap.part = some 5 ∧
        d.suspended tTrap.part = false ∧ (d.part tTrap.part).thctl.getLsbD 12 = true ∧
        d.findFrame tTrap.part ((d.part tTrap.part).thctl.toNat % 4096) (d.part tTrap.part).frameBase (d.part tTrap.part).frames 0 = (e, .found va pa l)) ∧
      ({ tExc 0x1000 with mem := tNums [(hostPa + 13, 1, 0xFF)] } : Dev).rcbOk hostPa = true ∧ (tExc 0x1000).rcbOk (hostPa + 8) = false ∧
      (∃ d : Dev, (d.func tTrap.part).susp = true) ∧ (∃ d : Dev, (d.func tTrap.part).susp = false) ∧
      (∃ q : DevLaunch, q.n = 1 ∧ (tExc 0).thread (tExc 0).nextTid = none) := by
  refine ⟨⟨tExc 0, rfl, rfl, by decide +kernel, by decide +kernel, by decide +kernel, ?_⟩, ?_,
    by decide +kernel, by decide +kernel, ⟨{ R0 with funcs := [(0, { Func.reset with susp := true })] }, rfl⟩, ⟨R0, rfl⟩,
    ⟨⟨0, 0, 0, 0, 0, 1, 0, 0, false, none, none, none, 0, 0⟩, rfl, by decide +kernel⟩⟩
  · rintro i ⟨⟩; decide +kernel
  · obtain ⟨e, va, pa, l, h⟩ := found_of (x := (tExc 0x1000).findFrame 0 0 0x1000 4 0) (by decide +kernel)
    exact ⟨tExc 0x1000, e, va, pa, l, rfl, rfl, by decide +kernel, by decide +kernel, by decide +kernel, h⟩

/-- An instance of a thread whose partition's frames lie at 0x1000. -/
def tTret : Inst := { tInst with cr := { tInst.cr with tframe := 0x1002 } }
/-- A frame in use at 0x1000 whose fields are `more`. -/
def tFrame (more : List (Nat × Nat × Nat)) : Dev := { tPages with mem := tNums ((hostPa + 0x1000 + 460, 1, 4) :: more) }

/-- A device whose frame at 0x1000 names thread 5, which is trapped, and a handler's instance that returns to it. -/
def tBack : Dev := { tFrame [(hostPa + 0x1000 + 432, 8, 5)] with threads := [(5, tTrap)] }
def tGone : Inst := { tTret with
  atPoint := true, exit := some (.tret 0x1000 (hostPa + 0x1000)), effs := [(0, .store [(hostPa + 0x11CC, 0)] 0 none)] }
def tGoes : State := { State.reset with dev := { tBack with threads := [(0, tThread), (5, tTrap)], regions := [(0, tRegion (.nop .always))], insts := [(0, tGone)] } }

theorem witness_ReturnFromTrap :
    (∃ s c f, Takes1 .always s c f ∧ First c ∧ c.x.exit = none ∧ frameOf c.x.cr.tframe f = false) ∧
      (∃ s c d1 pa l, Takes1 .always s c 0x1000 ∧ First c ∧ c.x.exit = none ∧ frameOf c.x.cr.tframe 0x1000 = true ∧
        (marked s.dev c).loadAt c 0x1000 512 1 .tokenLoad = .ok d1 pa l ∧ nfld (natOfBytes (d1.loadBytes c.i pa 512).2) 3683 3682 ≠ 1) ∧
      (∃ s c d1 pa l d2 pa2 l2, Takes1 .always s c 0x1000 ∧ First c ∧ c.x.exit = none ∧ frameOf c.x.cr.tframe 0x1000 = true ∧
        (marked s.dev c).loadAt c 0x1000 512 1 .tokenLoad = .ok d1 pa l ∧
        let r := d1.loadBytes c.i pa 512
        let v := natOfBytes r.2
        nfld v 3683 3682 = 1 ∧ nfld v 3629 3628 = 0 ∧ nfld v 4095 3684 = 0 ∧ v.testBit 3607 = false ∧ nfld v 3391 3328 % 16 = 0 ∧
          canonical (BitVec.ofNat 64 (nfld v 3391 3328)) = true ∧
          r.1.storeAt c (0x1000 + 460) [BitVec.ofNat 8 (nfld v 3681 3680)] 1 .tokenStore = .ok d2 pa2 l2) ∧
      (∃ s c d1 pa l, Takes1 .always s c 0x1000 ∧ First c ∧ c.x.exit = none ∧ frameOf c.x.cr.tframe 0x1000 = true ∧
        (marked s.dev c).loadAt c 0x1000 512 1 .tokenLoad = .ok d1 pa l ∧
        let v := natOfBytes (d1.loadBytes c.i pa 512).2
        nfld v 3683 3682 = 1 ∧ nfld v 3629 3628 = 0 ∧ nfld v 4095 3684 = 0 ∧ v.testBit 3607 = false ∧ nfld v 3391 3328 % 16 ≠ 0) ∧
      ((tExc 0).thread (nfld (5 * 2 ^ 3456) 3519 3456) = some tTrap ∧ tTrap.st = .trapped ∧ nfld (5 * 2 ^ 3456) 3629 3628 = 0) ∧
      (∃ (d : Dev) (l : Launch), d.thread (nfld (5 * 2 ^ 3456 + 2 ^ 3628) 3519 3456) = some tTrap ∧ nfld (5 * 2 ^ 3456 + 2 ^ 3628) 3629 3628 ≠ 0 ∧
        tget tTrap.launch d.launches = some l ∧ l.node = none ∧ l.obj = false) ∧
      (∃ (d : Dev) (f : Nat), d.thread (nfld f 3519 3456) = none) ∧
      (∃ (s : State) (i tid pa : Nat) (a : Word) (c : Done) (t : Thread), s.dev.balk = false ∧ s.dev.doneOf i = some c ∧ c.x.atPoint = true ∧
        s.dev.commitsAfter c = false ∧ c.x.exit = some (.tret a pa) ∧ (∀ p ∈ s.dev.regions, p.2.phase = .open_) ∧
        (s.dev.threads.map (·.1)).Nodup ∧ c.x.effs ≠ [] ∧
        (∀ e ∈ c.x.effs, ∃ cells cls side, e.2 = .store cells cls side ∧ ∀ x ∈ cells, isWindow x.1 = false) ∧
        nfld (s.dev.num pa 512) 3519 3456 = tid ∧ tid ≠ c.tid ∧ s.dev.thread tid = some t ∧ t.st = .trapped ∧
        nfld (s.dev.num pa 512) 3629 3628 = 0) := by
  have six {A B C D E F G : Prop} (h : A ∧ B ∧ C ∧ D ∧ E ∧ F) (g : G) : A ∧ B ∧ C ∧ D ∧ E ∧ F ∧ G :=
    ⟨h.1, h.2.1, h.2.2.1, h.2.2.2.1, h.2.2.2.2.1, h.2.2.2.2.2, g⟩
  refine ⟨⟨_, _, 0x1008, w1 tPages (x := tTret) (by decide) _, ⟨nofun, by decide⟩, by decide, by decide +kernel⟩,
    ⟨_, _, _, _, _, w1 tPages (x := tTret) (by decide) _, ⟨nofun, by decide⟩, by decide, by decide +kernel, got_eq (by decide +kernel), by decide +kernel⟩,
    ⟨_, _, _, _, _, _, _, _, w1 (tFrame []) (x := tTret) (by decide) _, ⟨nofun, by decide⟩, by decide, by decide +kernel, got_eq (by decide +kernel),
      six (by and_intros <;> decide +kernel) (got_eq (by decide +kernel))⟩,
    ⟨_, _, _, _, _, w1 (tFrame [(hostPa + 0x1000 + 416, 1, 8)]) (x := tTret) (by decide) _, ⟨nofun, by decide⟩, by decide, by decide +kernel, got_eq (by decide +kernel),
      by decide +kernel⟩,
    by decide +kernel, ⟨{ tExc 0 with launches := [(0, ⟨0, 0, 0, 0, 0, false, none, 1⟩)] }, ⟨0, 0, 0, 0, 0, false, none, 1⟩, by decide +kernel⟩,
    ⟨R0, 0, by decide +kernel⟩, ⟨tGoes, 0, 5, hostPa + 0x1000, 0x1000, ⟨0, tGone, 0, tThread, tRegion (.nop .always)⟩, tTrap,
      rfl, rfl, rfl, by decide +kernel, rfl, ?_, by decide, by decide, ?_, by decide +kernel, by decide, rfl, rfl, by decide +kernel⟩⟩
  · intro p hp
    simp only [tGoes, List.mem_singleton] at hp
    subst hp; rfl
  · intro e he
    simp only [tGone, List.mem_singleton] at he
    subst he
    exact ⟨_, _, _, rfl, by decide +kernel⟩

theorem witness_SystemResults :
    (∃ s c, Takes0 .always s c ∧ c.t.part = 0) ∧ (∃ s c a, Takes1 .always s c a ∧ a.toNat % 16 ≠ 0) ∧
      (∃ s c d pa l, Takes1 .always s c 0x1010 ∧ (0x1010 : Word).toNat % 16 = 0 ∧ s.dev.loadAt c 0x1010 16 1 .tokenLoad = .ok d pa l ∧
        let w := natOfBytes (d.loadBytes c.i pa 16).2
        nfld w 127 109 = 0 ∧ (d.loadBytes c.i pa 16).1.asidIn c.t.part (nfld w 107 96) = true ∧ nfld w 63 0 % 4096 = 0 ∧
          canonical (BitVec.ofNat 64 (nfld w 63 0)) = true) ∧
      (∃ s c d pa l, Takes1 .always s c 0x1000 ∧ s.dev.loadAt c 0x1000 16 1 .tokenLoad = .ok d pa l ∧ nfld (natOfBytes (d.loadBytes c.i pa 16).2) 127 109 ≠ 0) ∧
      (∃ s c d pa l, Takes1 .always s c 0x1020 ∧ (0x1020 : Word).toNat % 32 = 0 ∧ s.dev.loadAt c 0x1020 32 1 .tokenLoad = .ok d pa l ∧
        let w := natOfBytes (d.loadBytes c.i pa 32).2
        nfld w 191 141 = 0 ∧ (d.loadBytes c.i pa 32).1.asidIn c.t.part (nfld w 139 128) = true ∧ nfld w 255 192 % 16 = 0 ∧ nfld w 63 0 % 16 = 0) :=
  ⟨⟨_, _, w0 R0 okI, rfl⟩, ⟨_, _, 0x1008, w1 R0 okI _, by decide⟩,
    ⟨_, _, _, _, _, w1 tPages okI _, by decide, got_eq (by decide +kernel), by decide +kernel⟩,
    ⟨_, _, _, _, _, w1 { tPages with mem := [(hostPa + 0x100F, 1)] } okI _, got_eq (by decide +kernel), by decide +kernel⟩,
    ⟨_, _, _, _, _, w1 tPages okI _, by decide, got_eq (by decide +kernel), by decide +kernel⟩⟩
/-! ### Instances, contexts, waits and replies -/

/-- Witnesses of a value that is there. -/
theorem some_of {α : Type} {o : Option α} (h : o.isSome = true) : ∃ x, o = some x := Option.isSome_iff_exists.mp h

/-- A thread queued at the block of the test's region, with its context resident. -/
def tQueued (mark : Option (Word × Other)) : Thread := { tThread with st := .queued, slot := some 0, mark := mark }
def tEntry (mark : Option (Word × Other)) : Dev := { R0 with threads := [(0, tQueued mark)], regions := [(0, tRegion (.nop .always))] }

/-- A complete instance: it has buffered a register and a store, and leaves by HALT. -/
def tDone (pt : Bool) : Inst := { tInst with
  effs := [(0, .gw 3 7), (1, .store [(hostPa, 1)] 0 none)], exit := some .halt, atPoint := pt, start := [] }
/-- A region whose one instruction is HALT. -/
def tHalt : Region := { tRegion (.halt .always) with image := { imageOf (.halt .always) [] with instrs := [.halt .always] } }
def tCommit (x : Inst) : Dev := { R0 with threads := [(0, tThread)], regions := [(0, tHalt)], insts := [(0, x)] }

theorem witness_InstanceLife :
    (∃ (d : Dev) (r : Region) (p : Nat × Thread) (slot : Nat), d.balk = false ∧ d.region 0 = some r ∧ r.phase = .open_ ∧ d.nextFor r = some p ∧
      d.instSlot 0 = some slot ∧ p.2.mark = some (5, .host)) ∧
      (∃ (d : Dev) (r : Region) (p : Nat × Thread) (slot : Nat), d.balk = false ∧ d.region 0 = some r ∧ r.phase = .open_ ∧ d.nextFor r = some p ∧
        d.instSlot 0 = some slot ∧ p.2.mark = none ∧ d.inst d.nextInst = none) ∧
      (∃ (d : Dev) (c : Done), d.balk = false ∧ d.doneOf 0 = some c ∧ c.x.atPoint = false ∧ d.commitable 0 c.x c.r c.t = true) ∧
      (∃ (s : State) (c : Done), s.dev.balk = false ∧ s.dev.doneOf 0 = some c ∧ c.x.atPoint = true ∧ MemOk s ∧ c.x.resv = [] ∧ c.x.marks = .none ∧
        s.dev.migs = [] ∧ (∀ p ∈ s.dev.regions, p.2.phase = .open_) ∧ (∀ h ∈ s.dev.holds, h.inst ≠ 0) ∧ (s.dev.threads.map (·.1)).Nodup ∧
        (∀ a pa, c.x.exit ≠ some (.tret a pa)) ∧ c.x.effs ≠ [] ∧
        (∀ e ∈ c.x.effs, match e.2 with
          | .gw .. => True | .vw .. => True | .store cells _ side => side = none ∧ ∀ x ∈ cells, memRow x.1 = some .host
          | _ => False)) ∧
      (∃ (d : Dev) (c : Done), d.balk = false ∧ d.doneOf 0 = some c ∧ d.stalled c = true ∧ (∀ p ∈ d.regions, p.2.phase = .open_) ∧ c.x.resv = []) := by
  refine ⟨⟨tEntry (some (5, .host)), tRegion (.nop .always), (0, tQueued (some (5, .host))), 0, rfl, rfl, rfl, by decide +kernel, by decide +kernel, rfl⟩,
    ⟨tEntry none, tRegion (.nop .always), (0, tQueued none), 0, rfl, rfl, rfl, by decide +kernel, by decide +kernel, rfl, rfl⟩,
    ⟨tCommit (tDone false), ⟨0, tDone false, 0, tThread, tHalt⟩, rfl, rfl, rfl, by decide +kernel⟩,
    ⟨{ State.reset with dev := tCommit (tDone true) }, ⟨0, tDone true, 0, tThread, tHalt⟩, rfl, rfl, rfl, by decide, rfl, rfl, rfl, by decide, nofun, by decide,
      by simp [tDone], nofun, ?_⟩,
    ⟨tCommit { tInst with start := [] }, ⟨0, { tInst with start := [] }, 0, tThread, tHalt⟩, rfl, rfl, by decide +kernel, by decide, rfl⟩⟩
  intro e he
  simp only [tDone, List.mem_cons, List.not_mem_nil, or_false] at he
  rcases he with rfl | rfl
  · trivial
  · exact ⟨rfl, by decide⟩

theorem witness_ContextsWaitsAndReplies :
    (∃ (d : Dev) (t : Thread), d.balk = false ∧ d.thread 0 = some t ∧ t.writable = true) ∧
      (∃ (d : Dev) (t : Thread) (n : Nat), d.balk = false ∧ d.thread 0 = some t ∧ t.slot = none ∧ t.st ≠ .retired ∧ t.st ≠ .running ∧
        d.slotBudget t.rcb 1 = true ∧ d.freeSlot t.die = some n) ∧
      (∃ (d : Dev) (t : Thread) (l : Launch), d.balk = false ∧ d.thread 0 = some t ∧ t.st = .retired ∧ tget t.launch d.launches = some l ∧ l.node = none ∧
        l.obj = false ∧ (d.retire 0 0).balk = false) ∧
      (∃ d : Dev, ∃ r ∈ d.recs, r.owner = .region 0 3 ∧ r.ended.isSome = true) ∧
      (∃ (d : Dev) (x : Inst) (q : Req), d.inst 0 = some x ∧ x.reqs = [q] ∧ q.idx = 4 ∧ q.back = false) ∧
      (∃ (d : Dev) (x : Inst) (f : Firing), d.inst 0 = some x ∧ x.blocked = [(f, .access)] ∧ f.idx = 0) ∧
      (∃ (d : Dev) (x : Inst) (f : Firing) (ds : Nat) (st : Stream), d.inst 0 = some x ∧ x.blocked = [(f, .hwm ds 64)] ∧ tget ds d.streams = some st ∧
        64 ≤ st.hwm) ∧
      (∃ (d : Dev) (x : Inst) (f : Firing), d.inst 0 = some x ∧ x.blocked = [(f, .entry)] ∧ d.entryFree 0 = true) ∧
      (∃ (d : Dev) (st : Stream) (n pa rcb : Nat) (r : List (Nat × Nat)), tget 5 d.streams = some st ∧ tget 5 d.drip = some (n, (pa, rcb) :: r) ∧ 0 < st.ovu ∧
        n < st.tail / st.fsize + st.nf) := by
  let l : Launch := ⟨0, 0, 0, 0, 0, false, none, 1⟩
  let f : Firing := tFr none none none
  exact ⟨⟨tEntry none, tQueued none, rfl, rfl, rfl⟩,
    ⟨{ R0 with threads := [(0, { tQueued none with slot := none, st := .parkC })] }, { tQueued none with slot := none, st := .parkC }, 0, rfl, rfl, rfl, nofun, nofun,
      by decide +kernel, by decide +kernel⟩,
    ⟨{ R0 with threads := [(0, { tThread with st := .retired, launch := 2 })], launches := [(2, l)] }, { tThread with st := .retired, launch := 2 }, l, rfl, rfl, rfl, rfl, rfl, rfl,
      by decide +kernel⟩,
    ⟨{ R0 with recs := [⟨.region 0 3, .agent, none, 0, 4, true, false, 0, some .rgn, 0, 0⟩] }, _, List.mem_singleton.mpr rfl, rfl, rfl⟩,
    ⟨tCommit { tInst with reqs := [⟨4, doneTok, false, false, 1, []⟩] }, _, ⟨4, doneTok, false, false, 1, []⟩, rfl, rfl, rfl, rfl⟩,
    ⟨tCommit { tInst with blocked := [(f, .access)] }, _, f, rfl, rfl, rfl⟩,
    ⟨{ tCommit { tInst with blocked := [(f, .hwm 5 64)] } with streams := [(5, tSt true)] }, _, f, 5, tSt true, rfl, rfl, rfl, by decide⟩,
    ⟨tCommit { tInst with blocked := [(f, .entry)] }, _, f, rfl, rfl, by decide +kernel⟩,
    ⟨{ R0 with streams := [(5, { tSt true with ovu := 1 })], drip := [(5, (1, [(hostPa, 0)]))] }, { tSt true with ovu := 1 }, 1, hostPa, 0, [], rfl, rfl, by decide, by decide⟩⟩

/-! ### Queues -/

/-- Queue 0 of function 0, switched on, with one entry whose stamp has been found. -/
def tQ (found : Bool) : Queue := { Queue.reset with en := true, log2n := 4, base := 0x1000, t := 1, found := found }
def tQD (found : Bool) : Dev := { tPages with queues := [(0, tQ found)] }

theorem witness_QueueRegisterWrites :
    (R0.globalQ 0 5 = none) ∧
      (tQD true).globalQ 0 0 = some 0 ∧ ((tQD true).queue 0).en = true ∧ (1 : Word).getLsbD 0 = true ∧
      (tPages.globalQ 0 7 = some 7 ∧ (tPages.queue 7).en = false ∧
        let v := 0x400001 ||| (4095#64 <<< 36)
        v.getLsbD 0 = true ∧ 4 ≤ nfld v.toNat 24 20 ∧ nfld v.toNat 24 20 ≤ 16 ∧ tPages.asidIn 0 (nfld v.toNat 47 36) = true ∧
          nfld v.toNat 18 16 ≤ (tPages.func 0).maxprio ∧ canonical (tPages.queue 7).base = true) ∧
      ((tPages.asidIn 0 4096) = false) ∧
      (R0.fnBusy 3 = false ∧ nfld (0x200000000000 : Word).toNat 12 0 + nfld (0x200000000000 : Word).toNat 45 32 ≤ 8192 ∧ R0.funcs = []) ∧
      (R0.fnBusy 3 = false ∧ nfld (0x10000000 : Word).toNat 11 0 + nfld (0x10000000 : Word).toNat 28 16 ≤ 4096) ∧
      (∃ p ∈ tPages.funcs, p.1 ≠ 3 ∧ rangesMeet p.2.qbas p.2.qcnt 8191 1 = true) ∧
      RoT.reset.holdsAll = false ∧ ({ RoT.reset with power := .p2 } : RoT).holdsAll = true ∧ FnOpen State.reset 0 ∧
      FnOpen { State.reset with rot := { RoT.reset with sec := .returned } } 0 := by
  and_intros <;> decide +kernel

/-- What an access of an agent translates to. -/
def tXl (d : Dev) (g n : Nat) : Dev × Except TErr Leaf := d.agentXlate (d.queue g).asid (d.fnOfQ g) ((d.queue g).slotVa (d.queue g).h) .read n
def xOk (r : Dev × Except TErr Leaf) : Bool := match r.2 with | .ok _ => true | .error _ => false
theorem xl_ok {r : Dev × Except TErr Leaf} (h : xOk r = true) : ∃ d l, r = (d, .ok l) := by
  obtain ⟨d, x⟩ := r; cases x with
  | ok l => exact ⟨d, l, rfl⟩
  | error e => cases h
theorem xl_err {r : Dev × Except TErr Leaf} (h : xOk r = false) : ∃ d e, r = (d, .error e) := by
  obtain ⟨d, x⟩ := r; cases x with
  | ok l => cases h
  | error e => exact ⟨d, e, rfl⟩

/-- A launch for two threads on die 8 under the RCB at 0x1000 of host memory, a root. -/
def tLaunch : DevLaunch := ⟨8, hostPa + 0x2000, 0, 0, 0x1000, 2, 7, 0, false, none, none, none, 0, 0⟩
def tRoot : List (Nat × Nat × Nat) := [(hostPa + 0x2000, 128, 0xFF * 2 ^ 104)]

/-- The queue's entry: a stamp, an ENTRY, one thread under that RCB. -/
def tQE (stamp entry : Nat) : Dev :=
  { tQD true with mem := tNums ((hostPa + 0x1000, 64, stamp + entry * 2 ^ 128 + 2 ^ 192 + 8 * 2 ^ 320 + (hostPa + 0x2000) * 2 ^ 384) :: tRoot) }

/-- The entry at queue 0's head is taken, with this reason. -/
def tEnters (d0 : Dev) (r : Option (BitVec 8)) : Prop :=
  ∃ d1 l, tXl d0 0 64 = (d1, .ok l) ∧ d1.num (l.at ((d0.queue 0).slotVa (d0.queue 0).h)) 8 = (d0.queue 0).h ∧ (d0.queue 0).mir = 0 ∧
    let d2 := d1.agentMust ⟨.agent, l.at ((d0.queue 0).slotVa (d0.queue 0).h), 64, false, false, (d0.queue 0).slotVa (d0.queue 0).h⟩
    let e := d2.num (l.at ((d0.queue 0).slotVa (d0.queue 0).h)) 64
    d2.entryReason ((d0.queue 0).launch 0 e) e (d0.queue 0).torn = r

theorem tEnters_of {d0 : Dev} {r : Option (BitVec 8)} (h : (match tXl d0 0 64 with
    | (d1, .ok l) =>
      let a := (d0.queue 0).slotVa (d0.queue 0).h
      let d2 := d1.agentMust ⟨.agent, l.at a, 64, false, false, a⟩
      let e := d2.num (l.at a) 64
      d1.num (l.at a) 8 == (d0.queue 0).h && (d0.queue 0).mir == 0 && d2.entryReason ((d0.queue 0).launch 0 e) e (d0.queue 0).torn == r
    | _ => false) = true) : tEnters d0 r := by
  split at h
  · rename_i d1 l e
    simp only [Bool.and_eq_true, beq_iff_eq] at h
    exact ⟨d1, l, e, h.1.1, h.1.2, h.2⟩
  · cases h

theorem witness_QueueService :
    (∃ d l, ((tQD false).queue 0).en = true ∧ ((tQD false).queue 0).h < ((tQD false).queue 0).t ∧ ((tQD false).queue 0).found = false ∧
      ((tQD false).queue 0).stall = false ∧ tXl (tQD false) 0 8 = (d, .ok l) ∧ ((tQD false).queue 0).mir = 0) ∧
      (∃ d e, tXl { tQD false with dies := [] } 0 8 = (d, .error e)) ∧
      (∃ d l, tXl (tQE 1 0x1000) 0 64 = (d, .ok l) ∧ d.num (l.at (((tQE 1 0x1000).queue 0).slotVa ((tQE 1 0x1000).queue 0).h)) 8 ≠ ((tQE 1 0x1000).queue 0).h) ∧
      tEnters (tQE 0 0x1000) none ∧ tEnters (tQE 0 0x1008) (some 0x04) ∧ tEnters { tQE 0 0x1000 with tears := [.function 0] } (some 0x07) ∧
      ((∀ l ∈ (tQD true).devq, (tQD true).suspended l.part = true) ∧ (tQD true).nextQueue = some 0) ∧
      (∃ (s : State) (l : DevLaunch) (r : List DevLaunch), s.dev.devq = l :: r ∧ s.dev.suspended l.part = false ∧ 0 < l.n ∧ l.n ≤ 2 ^ 32 ∧ l.die ≤ 8 ∧
        Dev.rcbOk { s.dev with devq := r } l.rcb = true ∧ l.entry.toNat % 16 = 0 ∧ canonical l.entry = true) ∧
      (∃ (d : Dev) (x : BitVec 8), d.devReason { tLaunch with n := 0 } = some x) ∧
      (∃ d : Dev, (∀ p ∈ d.insts, p.2.atPoint = false) ∧ (d.threads.map (·.1)).Nodup ∧ (∀ p ∈ d.threads, p.2.st ≠ .retired) ∧ d.threads ≠ [] ∧ d.insts ≠ [] ∧
        ∀ p ∈ d.windows, p.1.1 = 0 → p.2.join = false) := by
  refine ⟨?_, xl_err (by decide +kernel), ?_, tEnters_of (by decide +kernel), tEnters_of (by decide +kernel), tEnters_of (by decide +kernel),
    by decide +kernel, ⟨{ State.reset with dev := { tPages with mem := tNums tRoot, devq := [tLaunch] } }, tLaunch, [], rfl, by decide +kernel, by decide, by decide,
      by decide, by decide +kernel, by decide, by decide⟩, ⟨R0, _, (some_of (by decide +kernel)).choose_spec⟩, ⟨tCommit tInst, by decide, by decide, by decide, nofun, nofun, nofun⟩⟩
  · obtain ⟨d, l, h⟩ := xl_ok (r := tXl (tQD false) 0 8) (by decide +kernel)
    exact ⟨d, l, by decide, by decide, by decide, by decide, h, by decide⟩
  · have g : (match tXl (tQE 1 0x1000) 0 64 with | (d, .ok l) => d.num (l.at 0x1000) 8 != 0 | _ => false) = true := by decide +kernel
    obtain ⟨d, l, h⟩ := xl_ok (r := tXl (tQE 1 0x1000) 0 64) (by decide +kernel)
    rw [h] at g
    have e1 : ((tQE 1 0x1000).queue 0).slotVa ((tQE 1 0x1000).queue 0).h = 0x1000 := by decide +kernel
    have e2 : ((tQE 1 0x1000).queue 0).h = 0 := by decide +kernel
    exact ⟨d, l, h, by rw [e1, e2]; simpa using g⟩
/-- A queue entry that launches two threads of the block at 0x1000 under the RCB at 0x2000 of host memory. -/
def tEnt : Dev := { tQD true with mem := tNums ((hostPa + 0x1000, 64, 0x1000 * 2 ^ 128 + 2 * 2 ^ 192 + 8 * 2 ^ 320 + (hostPa + 0x2000) * 2 ^ 384) :: tRoot) }

theorem witness_QueueService_consume :
    ∃ d1 l, tXl tEnt 0 64 = (d1, .ok l) ∧
      let x := tEnt.queue 0
      let d2 := d1.agentMust ⟨.agent, l.at (x.slotVa x.h), 64, false, false, x.slotVa x.h⟩
      let e := d2.num (l.at (x.slotVa x.h)) 64
      let ln := x.launch (tEnt.fnOfQ 0) e
      let d3 : Dev := { d2.modQueue 0 fun y => { y with h := (y.h + 1) % 2 ^ 64, found := false, last := d2.cycle + 1, polled := 0 } with
        rr := d2.rr.setIfInBounds x.prio ((0 + 1) % 8192) }
      x.mir = 0 ∧ nfld e 511 448 = 0 ∧ nfld e 383 324 = 0 ∧ 0 < ln.n ∧ ln.n ≤ 2 ^ 32 ∧ d3.compOk x.asid (tEnt.fnOfQ 0) ln.comp = true ∧
        ln.entry.toNat % 16 = 0 ∧ canonical ln.entry = true ∧ ln.die ≤ 8 ∧ d3.rcbOk ln.rcb = true := by
  have h : (match tXl tEnt 0 64 with
    | (d1, .ok l) =>
      let x := tEnt.queue 0
      let d2 := d1.agentMust ⟨.agent, l.at (x.slotVa x.h), 64, false, false, x.slotVa x.h⟩
      let e := d2.num (l.at (x.slotVa x.h)) 64
      let ln := x.launch (tEnt.fnOfQ 0) e
      let d3 : Dev := { d2.modQueue 0 fun y => { y with h := (y.h + 1) % 2 ^ 64, found := false, last := d2.cycle + 1, polled := 0 } with
        rr := d2.rr.setIfInBounds x.prio ((0 + 1) % 8192) }
      decide (x.mir = 0 ∧ nfld e 511 448 = 0 ∧ nfld e 383 324 = 0 ∧ 0 < ln.n ∧ ln.n ≤ 2 ^ 32 ∧ d3.compOk x.asid (tEnt.fnOfQ 0) ln.comp = true ∧
        ln.entry.toNat % 16 = 0 ∧ canonical ln.entry = true ∧ ln.die ≤ 8 ∧ d3.rcbOk ln.rcb = true)
    | _ => false) = true := by decide +kernel
  obtain ⟨d1, l, e⟩ := xl_ok (r := tXl tEnt 0 64) (by decide +kernel)
  rw [e] at h
  exact ⟨d1, l, e, of_decide_eq_true h⟩

/-! ### Host participants and engines -/

def wnOk (r : Dev × Option (Nat × Stream)) : Bool := r.2.isSome
theorem wn_of {r : Dev × Option (Nat × Stream)} (h : wnOk r = true) : ∃ d ds st, r = (d, some (ds, st)) := by
  obtain ⟨d, _ | ⟨ds, st⟩⟩ := r
  · cases h
  · exact ⟨d, ds, st, rfl⟩
theorem wn_none {r : Dev × Option (Nat × Stream)} (h : wnOk r = false) : ∃ d, r = (d, none) := by
  obtain ⟨d, _ | x⟩ := r
  · exact ⟨d, rfl⟩
  · cases h

/-- A joined window on reader 0, as a reader or the producer. -/
def tWin (role : Bool) : Window := { Window.reset with join := true, role := role, desc := hostPa + 0x20000 }
def tWD (role : Bool) : Dev := { tStr false with windows := [((0, 3), tWin role)], streams := [(hostPa + 0x20000, { tSt false with hpro := role })] }

theorem witness_HostStreamEvents :
    (∃ d ds st, ((tStr false).modWindow 0 3 fun _ => Window.reset).windowStream 0 { Window.reset with view := 1 } = (d, some (ds, st)) ∧
      (st.reader 1).joined = false ∧ d.claimed ds 1 = false ∧ d.balk = false) ∧
      (∃ d ds st, ((tStr false).modWindow 0 3 fun _ => Window.reset).windowStream 0 Window.reset = (d, some (ds, st)) ∧ (st.reader 0).joined = true) ∧
      (∃ d, R0.windowStream 0 Window.reset = (d, none)) ∧ (R0.window 0 3).join = false ∧ ((tWD true).window 0 3).role = true ∧
      (∃ d ds st, (tWD true).windowStream 0 (tWin true) = (d, some (ds, st)) ∧ (tWin true).view < 8 ∧ d.balk = false ∧ (8192 : Word).toNat % 2 ^ st.esz = 0 ∧
        st.hpro = true ∧ (8192 : Word).toNat ≤ d.limitOf ds st) ∧
      (∃ d ds st, (tWD true).windowStream 0 (tWin true) = (d, some (ds, st)) ∧ d.limitOf ds st < (8200 : Word).toNat) ∧
      (∃ d ds st, (tWD false).windowStream 0 (tWin false) = (d, some (ds, st)) ∧ d.balk = false ∧ (64 : Word).toNat % 2 ^ st.esz = 0 ∧ (st.reader 0).joined = true ∧
        (st.reader 0).rel ≤ (64 : Word).toNat ∧ (64 : Word).toNat ≤ st.hwm) ∧
      (∃ d ds st, (tWD false).windowStream 0 (tWin false) = (d, some (ds, st)) ∧ st.hwm < (72 : Word).toNat) ∧
      (∃ d ds st, (tWD false).windowStream 0 (tWin false) = (d, some (ds, st)) ∧ (65 : Word).toNat % 2 ^ st.esz ≠ 0) ∧
      FnOpen { State.reset with dev := tWD false } 0 ∧
      (∃ d1 st, ((tWD false).modWindow 0 3 fun y => { y with join := false, desc := 0 }).streamUse (tWin false).desc none
        (0, (tWin false).asid, (tWin false).addr.toNat / 2 ^ 43) = .ok d1 st ∧ d1.balk = false ∧ (tWin false).view < 8) := by
  have pick {r : Dev × Option (Nat × Stream)} {p : Dev → Nat → Stream → Bool}
      (h : (match r with | (d, some (ds, st)) => p d ds st | _ => false) = true) : ∃ d ds st, r = (d, some (ds, st)) ∧ p d ds st = true := by
    obtain ⟨d, _ | ⟨ds, st⟩⟩ := r
    · cases h
    · exact ⟨d, ds, st, rfl, h⟩
  refine ⟨?_, ?_, wn_none (by decide +kernel), by decide, by decide, ?_, ?_, ?_, ?_, ?_, ⟨by decide, nofun⟩, ?_⟩
  · obtain ⟨d, ds, st, h, g⟩ := pick (r := ((tStr false).modWindow 0 3 fun _ => Window.reset).windowStream 0 { Window.reset with view := 1 })
      (p := fun d ds st => !(st.reader 1).joined && !d.claimed ds 1 && !d.balk) (by decide +kernel)
    exact ⟨d, ds, st, h, by simpa [and_assoc] using g⟩
  · obtain ⟨d, ds, st, h, g⟩ := pick (r := ((tStr false).modWindow 0 3 fun _ => Window.reset).windowStream 0 Window.reset)
      (p := fun _ _ st => (st.reader 0).joined) (by decide +kernel)
    exact ⟨d, ds, st, h, g⟩
  · obtain ⟨d, ds, st, h, g⟩ := pick (r := (tWD true).windowStream 0 (tWin true))
      (p := fun d ds st => decide ((tWin true).view < 8 ∧ d.balk = false ∧ (8192 : Word).toNat % 2 ^ st.esz = 0 ∧ st.hpro = true ∧ (8192 : Word).toNat ≤ d.limitOf ds st)) (by decide +kernel)
    exact ⟨d, ds, st, h, of_decide_eq_true g⟩
  · obtain ⟨d, ds, st, h, g⟩ := pick (r := (tWD true).windowStream 0 (tWin true)) (p := fun d ds st => decide (d.limitOf ds st < (8200 : Word).toNat)) (by decide +kernel)
    exact ⟨d, ds, st, h, of_decide_eq_true g⟩
  · obtain ⟨d, ds, st, h, g⟩ := pick (r := (tWD false).windowStream 0 (tWin false))
      (p := fun d _ st => decide (d.balk = false ∧ (64 : Word).toNat % 2 ^ st.esz = 0 ∧ (st.reader 0).joined = true ∧ (st.reader 0).rel ≤ (64 : Word).toNat ∧ (64 : Word).toNat ≤ st.hwm))
      (by decide +kernel)
    exact ⟨d, ds, st, h, of_decide_eq_true g⟩
  · obtain ⟨d, ds, st, h, g⟩ := pick (r := (tWD false).windowStream 0 (tWin false)) (p := fun _ _ st => decide (st.hwm < (72 : Word).toNat)) (by decide +kernel)
    exact ⟨d, ds, st, h, of_decide_eq_true g⟩
  · obtain ⟨d, ds, st, h, g⟩ := pick (r := (tWD false).windowStream 0 (tWin false)) (p := fun _ _ st => decide ((65 : Word).toNat % 2 ^ st.esz ≠ 0)) (by decide +kernel)
    exact ⟨d, ds, st, h, of_decide_eq_true g⟩
  · exact ⟨_, _, use_eq (by decide +kernel), by decide +kernel, by decide⟩

/-- An engine operation of a kind with a command read, having moved `pos` bytes. -/
def tEng (kind : EngKind) (cmd : Option (BitVec 256)) (pos : Nat) : EngOp :=
  { who := ⟨0, 0, 0, 0, 0, 0, 0, 0, false, 0⟩, kind := kind, cmd := 0x1000, dst := 0x2000, comp := 0, node := none, sel := [1], start := cmd, pos := pos, dpos := pos,
    bytes := pos, ended := false, cause := none, torn := false, struck := false, foe := none, forkAt := 0, bnc := [], raised := [], blk := [], seqh := none, resv := [], img := [] }
/-- COPY or XFER from 0x1000 to 0x2000 of 100 bytes; XFER has an operation number. -/
def tCmd (op : Nat) : BitVec 256 := BitVec.ofNat 256 (0x1000 + 0x2000 * 2 ^ 64 + 100 * 2 ^ 128 + op * 2 ^ 168)
def tOp (d : Dev) (e : EngOp) : Dev := { d with ops := [(0, e)] }
def goOk (p : Piece) : Bool := match p with | .go .. => true | _ => false
theorem go_of {p : Piece} (h : goOk p = true) : ∃ d n m, p = .go d n m := by cases p <;> simp_all [goOk]
def erOk (p : EngR) : Bool := match p with | .ok _ bs => !bs.isEmpty | _ => false
theorem er_of {p : EngR} (h : erOk p = true) : ∃ d bs, p = .ok d bs ∧ bs ≠ [] := by
  cases p with
  | ok d bs => exact ⟨d, bs, rfl, by simpa [erOk] using h⟩
  | stop d bs c a => cases h
  | wait => cases h
def ewOk (p : EngW) : Bool := match p with | .ok _ => true | _ => false
theorem ew_of {p : EngW} (h : ewOk p = true) : ∃ d, p = .ok d := by cases p <;> simp_all [ewOk]

def tRun (d : Dev) (op : Nat) (e : EngOp) (k : EngKind) : Bool :=
  e.kind == k && !e.torn && !e.struck && !d.claims (.engine op) && e.begun && !e.ended && tget op d.ops == some e

/-- Block 1 of die 0, whose key, value and side pages lie in host memory, behind entry 1 of the table at 0x1000. -/
def tKv : Dev := { tSeq with
  dies := tSeq.dies.map fun p => (p.1, { p.2 with kvbtb := BitVec.ofNat 64 (hostPa + 0x3000), kvbtn := 2 })
  mem := tNums [(hostPa + 0x1000, 64, tHdr 65 0), (hostPa + 0x1040, 8, 2 ^ 63), (hostPa + 0x1048, 8, 2 ^ 63 + 1),
    (hostPa + 0x3020, 32, (hostPa / 4096 + 8) + (hostPa / 4096 + 16) * 2 ^ 64 + (hostPa / 64 + 2048) * 2 ^ 128 + 1 * 2 ^ 192)] }

def e1 : EngOp := tEng .copy (some (tCmd 0)) 36
def e2 : EngOp := tEng .xfer (some (tCmd 1)) 0
def e3 : EngOp := tEng .xfer (some (tCmd 3)) 0
def e4 : EngOp := { tEng .gather none 0 with seqh := some (65, 64, 16), blk := [.here hostPa (hostPa + 4096) 0] }
def e5 : EngOp := { tEng .gather none 0 with seqh := some (65, 64, 16) }
def e6 (pos : Nat) : EngOp := { tEng .fork none pos with seqh := some (65, 64, 16) }
/-- The bytes and the place of a GET's next piece. -/
def e3j : Nat := Nat.min (e3.command.len - e3.pos) (Nat.min (64 - (e3.command.dst + BitVec.ofNat 64 e3.pos).toNat % 64) (64 - (e3.command.src + BitVec.ofNat 64 e3.dpos).toNat % 64))

theorem tBegin : ∃ d bs, (tEng .copy none 0).begun = false ∧ (tOp tPages (tEng .copy none 0)).engFree 0 (tEng .copy none 0) = true ∧
    (tOp { tPages with mem := tNums [(hostPa + 0x1000, 32, (tCmd 0).toNat)] } (tEng .copy none 0)).engRead 0 (tEng .copy none 0) 0x1000 32 = .ok d bs ∧ bs ≠ [] := by
  obtain ⟨d, bs, h, g⟩ := er_of (p := (tOp { tPages with mem := tNums [(hostPa + 0x1000, 32, (tCmd 0).toNat)] } (tEng .copy none 0)).engRead 0 (tEng .copy none 0) 0x1000 32)
    (by decide +kernel)
  exact ⟨d, bs, rfl, by decide +kernel, h, g⟩

theorem witness_EngineEvents_copies :
    (∃ d bs, (tEng .copy none 0).begun = false ∧ (tOp tPages (tEng .copy none 0)).engFree 0 (tEng .copy none 0) = true ∧
        (tOp { tPages with mem := tNums [(hostPa + 0x1000, 32, (tCmd 0).toNat)] } (tEng .copy none 0)).engRead 0 (tEng .copy none 0) 0x1000 32 = .ok d bs ∧ bs ≠ []) ∧
      (∀ op < 4, { tEng .xfer (some (tCmd op)) 0 with start := some (tCmd op) }.badStart = none) ∧ (tEng .copy (some (tCmd 0)) 0).badStart = none ∧
      (tRun (tOp tPages (tEng .copy (some (tCmd 0)) 100)) 0 (tEng .copy (some (tCmd 0)) 100) .copy = true ∧ (tEng .copy (some (tCmd 0)) 100).command.total ≤ 100) ∧
      (tRun (tOp tPages e1) 0 e1 .copy = true ∧ e1.pos < e1.command.total ∧
        ∃ d n m, (tOp tPages e1).copyPiece 0 e1 (.va e1.cursor) (e1.command.dst + BitVec.ofNat 64 (e1.pos / e1.command.len * e1.command.dpitch + e1.dpos)) e1.dpos
          (e1.command.len - e1.pos % e1.command.len) = .go d n m) ∧
      (tget 0 (tOp tPages { tEng .gather none 0 with torn := true }).ops = some { tEng .gather none 0 with torn := true }) :=
  ⟨tBegin, by decide, by decide, by decide +kernel, ⟨by decide +kernel, by decide +kernel, go_of (by decide +kernel)⟩, by decide +kernel⟩

theorem witness_EngineEvents_transfers :
    (tRun (tOp tPages e2) 0 e2 .xfer = true ∧ e2.pos < e2.command.total ∧ (tOp tPages e2).reach e2.command.peer = true ∧ e2.command.op = 1 ∧
        ∃ d bs, (tOp tPages e2).engRead 0 e2 e2.cursor
          (Nat.min (e2.command.len - e2.pos) (Nat.max e2.command.elem (Nat.min (64 - e2.cursor.toNat % 64) (64 - (e2.command.dst + BitVec.ofNat 64 e2.pos).toNat % 64) / e2.command.elem * e2.command.elem))) = .ok d bs ∧ bs ≠ []) ∧
      (tRun (tOp tPages e3) 0 e3 .xfer = true ∧ e3.command.op = 3 ∧ (List.replicate e3j (0 : Byte)).length = e3j ∧
        ∃ d n m, ((tOp tPages e3).emit (.peerRead e3.command.peer (e3.command.dst + BitVec.ofNat 64 e3.pos) e3j)).copyPiece 0 e3 (.data (List.replicate e3j 0))
          (e3.command.src + BitVec.ofNat 64 e3.dpos) e3.dpos (e3.command.len - e3.pos) = .go d n m) :=
  ⟨⟨by decide +kernel, by decide +kernel, by decide +kernel, by decide +kernel, er_of (by decide +kernel)⟩,
    ⟨by decide +kernel, by decide +kernel, by decide +kernel, go_of (by decide +kernel)⟩⟩

theorem witness_EngineEvents_gathers :
    (tRun (tOp tKv e4) 0 e4 .gather = true ∧ e4.pos < e4.ranks * (2 * (64 * 64)) ∧
        ∃ d n m, (tOp tKv e4).copyPiece 0 e4 (.pa hostPa) (e4.into + BitVec.ofNat 64 (e4.pos / 4096 * 4096 + e4.dpos)) e4.dpos 4096 = .go d n m) ∧
      (tRun (tOp tKv e5) 0 e5 .gather = true ∧ e5.blk = [] ∧
        ∃ d bs x, (tOp tKv e5).engRead 0 e5 (entAddr e5.table 1) 8 = .ok d bs ∧ bs ≠ [] ∧ entV (natOfBytes bs) = true ∧ entOk (natOfBytes bs) = true ∧
          entRmt (natOfBytes bs) = false ∧ d.stage2 (entDie (natOfBytes bs)) (entGbn (natOfBytes bs)) e5.who.part = some x) ∧
      (tRun (tOp tPages (e6 2)) 0 (e6 2) .fork = true ∧ (e6 2).pos = cdiv 65 64 ∧
        ∃ d, (tOp tPages (e6 2)).engWrite 0 (e6 2) ((e6 2).dst + 16) (bytesOfNat 8 16) true = .ok d) ∧
      (tRun (tOp tPages (e6 3)) 0 (e6 3) .fork = true ∧ (e6 3).pos = cdiv 65 64 + 1 ∧
        ∃ d, (tOp tPages (e6 3)).engWrite 0 (e6 3) ((e6 3).dst + 8) (bytesOfNat 8 64) true = .ok d) ∧
      (tRun (tOp tPages (e6 4)) 0 (e6 4) .fork = true ∧ (e6 4).pos = cdiv 65 64 + 2 ∧
        ∃ d, (tOp tPages (e6 4)).engWrite 0 (e6 4) (e6 4).dst (bytesOfNat 8 65) true = .ok d) := by
  refine ⟨⟨by decide +kernel, by decide +kernel, go_of (by decide +kernel)⟩, ⟨by decide +kernel, by decide +kernel, ?_⟩,
    ⟨by decide +kernel, by decide +kernel, ew_of (by decide +kernel)⟩, ⟨by decide +kernel, by decide +kernel, ew_of (by decide +kernel)⟩,
    ⟨by decide +kernel, by decide +kernel, ew_of (by decide +kernel)⟩⟩
  have h : (match (tOp tKv e5).engRead 0 e5 (entAddr e5.table 1) 8 with
    | .ok d bs => !bs.isEmpty && entV (natOfBytes bs) && entOk (natOfBytes bs) && !entRmt (natOfBytes bs) && (d.stage2 (entDie (natOfBytes bs)) (entGbn (natOfBytes bs)) e5.who.part).isSome
    | _ => false) = true := by decide +kernel
  cases e : (tOp tKv e5).engRead 0 e5 (entAddr e5.table 1) 8 with
  | ok d bs =>
    rw [e] at h
    simp only [Bool.and_eq_true, Bool.not_eq_true', List.isEmpty_eq_false_iff] at h
    obtain ⟨⟨⟨⟨h1, h2⟩, h3⟩, h4⟩, h5⟩ := h
    obtain ⟨x, hx⟩ := some_of h5
    exact ⟨d, bs, x, rfl, h1, h2, h3, h4, hx⟩
  | stop d bs c a => rw [e] at h; cases h
  | wait => rw [e] at h; cases h

theorem witness_EngineEvents_others :
    (tget 0 (tOp tPages { tEng .copy none 0 with ended := true }).ops = some { tEng .copy none 0 with ended := true }) ∧
      (∃ (d : Dev) (who : Party), (d.die 0).walk = [(who, 0x1000, 0)]) ∧
      (∃ d : Dev, ∃ p ∈ d.ops, p.2.ended = true ∧ ∀ r ∈ d.recq, r.2 ≠ .engine p.1) ∧
      (∃ d : Dev, d.shelf 3 = .pending 2 ∧ d.ops ≠ [] ∧ ∀ p ∈ d.ops, p.1 < 2 → d.mayWriteShelf p.2 3 = false) ∧
      (R0.die 7).winGap = 0 ∧ (∃ d : Dev, (d.die 7).winGap ≠ 0 ∧ d.cycle = (d.die 7).nextWin) ∧
      ∃ d : Dev, (d.die 7).inWin = true ∧ (d.die 7).winEnd ≤ d.cycle :=
  ⟨by decide +kernel, ⟨{ R0 with dies := [(0, { Die.reset with walk := [(⟨0, 0, 0, 0, 0, 0, 0, 0, false, 0⟩, 0x1000, 0)] })] }, _, rfl⟩,
    ⟨tOp R0 { tEng .copy none 0 with ended := true }, _, List.mem_singleton.mpr rfl, rfl, nofun⟩,
    ⟨{ tOp R0 { tEng .copy (some (tCmd 0)) 0 with ended := true } with shelves := [(3, .pending 2)] }, by decide, by decide, by decide +kernel⟩, rfl,
    ⟨{ R0 with dies := [(7, { Die.reset with winGap := 900 })] }, by decide, by decide⟩, ⟨{ R0 with dies := [(7, { Die.reset with inWin := true })] }, rfl, by decide⟩⟩
/-! ### Blocks -/

/-- A block of one HALT, at 0x1000. -/
def tBody : List Byte := (encode (.halt .always)).flatMap fun w => bytesOfNat 4 w.toNat
def tHead : List Byte := bytesOfNat 12 (1 + 2 ^ 11)
def tBlock : List Byte := tHead ++ bytesOfNat 4 (crc32c (tHead ++ tBody)).toNat ++ tBody

/-- A device with a thread queued at it. -/
def tWant : Dev := { tPages with
  mem := memPutList [] (hostPa + 0x1000) tBlock
  threads := [(0, { tQueued none with pc := 0x1000 })] }

def fcOk (r : Dev × Option XCtx) : Bool := r.2.isSome
theorem fc_of {r : Dev × Option XCtx} (h : fcOk r = true) : ∃ d c, r = (d, some c) := by
  obtain ⟨d, _ | c⟩ := r
  · cases h
  · exact ⟨d, c, rfl⟩

theorem witness_BlockEvents_fetch :
    ∃ d1 c1 d2 c2, tWant.queuedAt (some 0) 0 0x1000 ≠ [] ∧ tWant.fetches = [] ∧ tWant.regions = [] ∧ (tWant.die 0).cache = [] ∧ tWant.rejPair = [] ∧
      (tWant.modDie 0 fun x => { x with want := x.want.filter fun w => !(w.1 == 0 && w.2.2 == 0x1000) }).fetchFor 0 0 0 0x1000 0x1000 16 0 = (d1, some c1) ∧
      d1.fetchFor 0 0 0 0x1000 0x1000 (16 + 4 * hdrWords (hdrOf (d1.fetchBytes c1 0x1000 16))) (hdrOf (d1.fetchBytes c1 0x1000 16)) = (d2, some c2) ∧
      d2.balk = false := by
  let d0 := tWant.modDie 0 fun x => { x with want := x.want.filter fun w => !(w.1 == 0 && w.2.2 == 0x1000) }
  have h : (match d0.fetchFor 0 0 0 0x1000 0x1000 16 0 with
    | (d1, some c1) => (match d1.fetchFor 0 0 0 0x1000 0x1000 (16 + 4 * hdrWords (hdrOf (d1.fetchBytes c1 0x1000 16))) (hdrOf (d1.fetchBytes c1 0x1000 16)) with
      | (d2, some _) => !d2.balk
      | _ => false)
    | _ => false) = true := by decide +kernel
  obtain ⟨d1, c1, e1⟩ := fc_of (r := d0.fetchFor 0 0 0 0x1000 0x1000 16 0) (by decide +kernel)
  rw [e1] at h
  dsimp only at h
  split at h
  · rename_i d2 c2 e2
    exact ⟨d1, c1, d2, c2, by decide, rfl, rfl, rfl, rfl, e1, e2, by simpa using h⟩
  · cases h

def tFetch (st : FetchSt) : Fetch := ⟨0, 0, 0, 0x1000, st, false⟩
def tMine (f : Fetch) : Bool := f.die == 0 && f.asid == 0 && f.blk == 0x1000

theorem witness_BlockEvents_check :
    (∃ (d : Dev) (r : RejRec), d.fetches.find? tMine = some (tFetch (.fetched (0 :: tBlock.tail))) ∧ headerCheck (0 :: tBlock.tail) = some r ∧ d.rejDig = [] ∧
      (d.threads.map (·.1)).Nodup) ∧
      (∃ (d : Dev) (is : List Instr) (n : List Nat) (ls : List (Nat × List Byte)) (ds : List (Nat × BitVec 512)), d.fetches.find? tMine = some (tFetch (.fetched tBlock)) ∧
        (∀ fetch, checkBlock fetch 0x1000 (d.lutsFor 0 0 0x1000) tBlock = .ok is n ls ds) ∧ hdrSysb (hdrOf tBlock) = false ∧ d.rejDig = [] ∧ (d.die 0).cache = []) := by
  have k : headerCheck tBlock = none := by decide +kernel
  have e1 : wordsOfBytes (tBlock.drop 16) = encode (.halt .always) := by decide +kernel
  have e2 : ((hdrOf tBlock).extractLsb' 4 7).toNat + 1 = 1 := by decide +kernel
  have e3 : blockChecks (hdrOf tBlock) [.halt .always] = none := by decide +kernel
  refine ⟨⟨{ tWant with fetches := [tFetch (.fetched (0 :: tBlock.tail))] }, ⟨1, 0⟩, by decide +kernel, by decide +kernel, rfl, by decide⟩,
    ⟨{ tWant with fetches := [tFetch (.fetched tBlock)] }, [.halt .always], [0], [], [], by decide +kernel, fun fetch => ?_, by decide +kernel, rfl, rfl⟩⟩
  simp only [checkBlock, k, e1, e2]
  have e4 : scanBlock fetch 0x1000 (Dev.lutsFor { tWant with fetches := [tFetch (.fetched tBlock)] } 0 0 0x1000) (headWords 1 (encode (.halt .always))) 1 1 0
      (encode (.halt .always)) [] [] [] [] = .ok [.halt .always] [0] [] [] := by rfl
  rw [e4]
  simp only [e3]

/-- The image of the block, and a die that keeps it. -/
def tImg : Image := mkImage 0 tBlock [.halt .always] [] [] 77 [⟨1, [0]⟩] 8 0
def tKept : Dev := tWant.modDie 0 fun x => { x with cache := [⟨tImg, [(0, 0x1000)], 0⟩] }

theorem witness_BlockEvents_place :
    (∃ (d e : Dev) (im : Image), d.fetches.find? tMine = some (tFetch (.checked tBlock [.halt .always] [] [] 77)) ∧
      d.placed.find? (fun im => im.digest == 77 && im.placesFit [.halt .always] (hdrFoot (hdrOf tBlock))) = some im ∧
      Dev.cacheImage { d with fetches := d.fetches.filter fun g => g != tFetch (.checked tBlock [.halt .always] [] [] 77) } 0 0 0x1000
        (mkImage 0 tBlock [.halt .always] [] [] 77 im.places im.cap im.lat) = some e) ∧
      (∃ (d e : Dev), d.fetches.find? tMine = some (tFetch (.checked tBlock [.halt .always] [] [] 77)) ∧ d.placed = [] ∧
        carried [.halt .always] (hdrFoot (hdrOf tBlock)) = [1] ∧ placeOk [.halt .always] 1 [0] = true ∧
        Dev.cacheImage { d with fetches := [], placed := [tImg] } 0 0 0x1000 tImg = some e) ∧
      (∃ (c : Cand) (cs : List Cand) (im : Image) (f site : Nat), (tKept.die 0).decided ≤ tKept.cycle / 16 ∧
        let d0 := (tKept.settleRegions.noteIdle).modDie 0 fun x => { x with decided := tKept.cycle / 16 + 1 }
        d0.candidates 0 = c :: cs ∧ d0.cachedImage 0 c.asid c.part c.blk = some im ∧ (d0.siteFor 0 c.rcb (im.places.map (·.foot))).1 = some (f, site)) := by
  refine ⟨?_, ?_, ?_⟩
  · obtain ⟨e, h⟩ := some_of (o := Dev.cacheImage { tWant with placed := [tImg], fetches := [] } 0 0 0x1000 (mkImage 0 tBlock [.halt .always] [] [] 77 tImg.places tImg.cap tImg.lat)) (by decide +kernel)
    refine ⟨{ tWant with placed := [tImg], fetches := [tFetch (.checked tBlock [.halt .always] [] [] 77)] }, e, tImg, by decide +kernel, by decide +kernel, ?_⟩
    have g : ([tFetch (.checked tBlock [.halt .always] [] [] 77)].filter fun g => g != tFetch (.checked tBlock [.halt .always] [] [] 77)) = [] := by decide +kernel
    simp only [g]
    exact h
  · obtain ⟨e, h⟩ := some_of (o := Dev.cacheImage { tWant with fetches := [], placed := [tImg] } 0 0 0x1000 tImg) (by decide +kernel)
    exact ⟨{ tWant with fetches := [tFetch (.checked tBlock [.halt .always] [] [] 77)] }, e, by decide +kernel, rfl, by decide +kernel, by decide +kernel, h⟩
  · let d0 := (tKept.settleRegions.noteIdle).modDie 0 fun x => { x with decided := tKept.cycle / 16 + 1 }
    have h : (match d0.candidates 0 with
      | c :: _ => (match d0.cachedImage 0 c.asid c.part c.blk with
        | some im => (d0.siteFor 0 c.rcb (im.places.map (·.foot))).1.isSome
        | none => false)
      | [] => false) = true := by decide +kernel
    split at h
    · rename_i c cs e1
      split at h
      · rename_i im e2
        obtain ⟨⟨f, site⟩, e3⟩ := some_of h
        exact ⟨c, cs, im, f, site, by decide +kernel, e1, e2, e3⟩
      · cases h
    · cases h

/-- A region in a phase, long idle. -/
def tPh (ph : Phase) : Region := { tHalt with phase := ph }
/-- An instance that holds an output back for want of room, silent for 4096 cycles. -/
def tQuiet (budget : Bool) : Dev := { R0 with
  mem := tNums tRoot, cycle := 4096, threads := [(0, tThread)], regions := [(0, { tHalt with rcb := if budget then 0 else hostPa + 0x2000 })],
  insts := [(0, { tInst with held := [(0, ⟨0, .a⟩, false, doneTok)] })] }

theorem witness_BlockEvents_regions :
    (∃ (d : Dev) (r : Region), d.region 0 = some r ∧ r.phase = .loading 5 ∧ d.oldWork 0 r = false) ∧
      (∃ (d : Dev) (r : Region), d.region 0 = some r ∧ r.phase = .draining 5 1 ∧ 5 + 16384 ≤ d.cycle ∧ d.balk = false) ∧
      (∃ (d : Dev) (r : Region), d.region 0 = some r ∧ r.pinned = false ∧ r.phase = .open_ ∧ d.regionQuiet 0 r = true ∧ r.idle + 65536 ≤ d.cycle ∧
        r.bare + 1024 + 65536 ≤ d.cycle) ∧
      (∃ (d : Dev) (e : EdgeAt) (n : ExtNeed), d.silentSet 0 ≠ [] ∧
        ((extensionOrder (d.silentSet 0)).findSome? fun e => (d.extNeed e).map fun n => (e, n)) = some (e, n) ∧ d.dripFree n (scratchBase 0) = true ∧
        (d.extend e n (scratchBase 0)).balk = false) ∧
      (∃ d : Dev, d.silentSet 0 ≠ [] ∧ ((extensionOrder (d.silentSet 0)).findSome? fun e => (d.extNeed e).map fun n => (e, n)) = none ∧
        (d.insts.map (·.1)).Nodup) := by
  refine ⟨⟨{ R0 with regions := [(0, tPh (.loading 5))] }, _, rfl, rfl, by decide⟩, ⟨{ R0 with cycle := 16389, regions := [(0, tPh (.draining 5 1))] }, _, rfl, rfl, by decide, rfl⟩,
    ⟨{ R0 with cycle := 66560, regions := [(0, tPh .open_)] }, _, rfl, rfl, rfl, by decide +kernel, by decide, by decide⟩, ?_,
    ⟨tQuiet false, by decide +kernel, by decide +kernel, by decide⟩⟩
  obtain ⟨⟨e, n⟩, h⟩ := some_of (o := (extensionOrder ((tQuiet true).silentSet 0)).findSome? fun e => ((tQuiet true).extNeed e).map fun n => (e, n)) (by decide +kernel)
  have g : (match (extensionOrder ((tQuiet true).silentSet 0)).findSome? fun e => ((tQuiet true).extNeed e).map fun n => (e, n) with
    | some (e, n) => (tQuiet true).dripFree n (scratchBase 0) && !((tQuiet true).extend e n (scratchBase 0)).balk
    | none => false) = true := by decide +kernel
  rw [h] at g
  simp only [Bool.and_eq_true, Bool.not_eq_true'] at g
  exact ⟨tQuiet true, e, n, by decide +kernel, h, g.1, g.2⟩
/-! ### The memory system -/

def tTier : Nat := match memRow hostPa with | some m => m.tier | none => 0
/-- A present leaf entry of a host page that may be read and written, with more bits. -/
def tPte (pa more : Nat) : Nat := 2 ^ 63 + 2 ^ 60 + 2 ^ 59 + tTier * 2 ^ 46 + pa / 4096 * 2 ^ 6 + more
def tNode (pa : Nat) : Nat := 2 ^ 63 + 2 ^ 62 + pa / 64

/-- Tables of ASID 0 in which the page at 0x1000 is mapped by the entry at hostPa + 0x18010, and more memory. -/
def tWalk (more : Nat) (l : List (Nat × Nat × Nat)) : Dev := { R0 with
  asidtb := BitVec.ofNat 64 hostPa
  funcs := [(0, { Func.reset with acnt := 4096, qcnt := 8192 })]
  mem := tNums ([(hostPa, 8, 2 ^ 63 + (hostPa + 0x10000) / 64), (hostPa + 0x10000, 8, tNode (hostPa + 0x12000)), (hostPa + 0x12000, 8, tNode (hostPa + 0x14000)),
    (hostPa + 0x14000, 8, tNode (hostPa + 0x16000)), (hostPa + 0x16000, 8, tNode (hostPa + 0x18000)), (hostPa + 0x18010, 8, tPte (hostPa + 0x1000) more)] ++ l) }

theorem witness_MemorySystemEvents_walk :
    (∃ l, (tWalk 0 []).leafFor ⟨0, 0, 8, true, none, none, false⟩ 0x1000 = .ok l ∧ l.nr = false ∧ l.allows .write true = true) ∧
      ∃ er, R0.leafFor ⟨0, 0, 0, true, none, none, false⟩ 0x1000 = .error er := by
  have h : (match (tWalk 0 []).leafFor ⟨0, 0, 8, true, none, none, false⟩ 0x1000 with | .ok l => !l.nr && l.allows .write true | .error _ => false) = true := by decide +kernel
  have g : (match R0.leafFor ⟨0, 0, 0, true, none, none, false⟩ 0x1000 with | .ok _ => false | .error _ => true) = true := by decide +kernel
  constructor
  · split at h
    · rename_i l e
      simp only [Bool.and_eq_true, Bool.not_eq_true'] at h
      exact ⟨l, e, h.1, h.2⟩
    · cases h
  · split at g
    · cases g
    · rename_i e he
      exact ⟨e, he⟩

/-- Chunk 0 of near memory of die 0, which holds a sector of zeros, and a pool in a state of the Ladle. -/
def tChunk : Nat := (homeWindow 0).1 / 4096
def tPool (st : Nat) (r : List Resv) : Dev := { R0 with
  pools := [((0, 0), { Pool.reset with quota := 10, held := 1, low := 10, lstate := st, blBase := hostPa, hcBase := hostPa, blTail := if st = 2 then 1 else 0, hcTail := if st = 3 then 1 else 0 })]
  chunks := [(tChunk, { Chunk.zero with sps := [0] })], zeros := [(0, [tChunk])], pres := [(0, 5)], resvs := r }

theorem witness_MemorySystemEvents_grants :
    (∃ (d : Dev) (r : Resv) (x : Inst), d.resvs.find? (fun r => r.home == 0 && r.part == 0) = some r ∧ r.need ≤ (d.pool 0 0).free ∧ r.who = .inst 0 ∧ r.rcb = 0 ∧ d.inst 0 = some x) ∧
      (((R0.setPool 0 0 { Pool.reset with lstate := 1 }).pool 0 0).lstate = 1 ∧ (R0.setPool 0 0 { Pool.reset with lstate := 1 }).zerosOf 0 0 = []) ∧
      (∃ d : Dev, (d.pool 0 0).lstate = 2 ∧ (d.pool 0 0).blHead = (d.pool 0 0).blTail) ∧ (∃ d : Dev, (d.pool 0 0).lstate = 3 ∧ (d.pool 0 0).hcHead = (d.pool 0 0).hcTail) ∧
      (((tPool 1 []).pool 0 0).lstate = 1 ∧ ((tPool 1 []).zerosOf 0 0).find? (fun c => !(tPool 1 []).inFlight none c) = some tChunk ∧ ((tPool 1 []).chunk tChunk).cls ≠ 1 ∧
        ((tPool 1 []).chunk tChunk).secs ≠ 0 ∧ ((tPool 1 []).bytes (tChunk * 4096) 4096).all (· == 0) = true) := by
  refine ⟨⟨{ tPool 0 [⟨0, 0, tChunk, 9, 0, .inst 0, 0, 0⟩] with insts := [(0, tInst)] }, _, tInst, by rfl, by decide +kernel, rfl, rfl, rfl⟩, by decide, ⟨R0.setPool 0 0 { Pool.reset with lstate := 2 }, by decide⟩,
    ⟨R0.setPool 0 0 { Pool.reset with lstate := 3 }, by decide⟩, ?_⟩
  decide +kernel

/-- A migration of the page at hostPa + 0x1000 to hostPa + 0x30000, with lines copied. -/
def tMig (copied : List Nat) (switched : Bool) : Mig :=
  { die := 0, leaf := hostPa + 0x18010, old := hostPa + 0x1000, new_ := hostPa + 0x30000, size := 4096, comp := 0, slot := none, part := 0, cls := 0, copied := copied,
    switched := switched, failed := false, host := true, at_ := 0 }

theorem witness_MemorySystemEvents_ladle :
    (let d : Dev := { tPool 2 [] with mem := tNums [(hostPa, 8, tChunk * 4096)] }
     (d.pool 0 0).lstate = 2 ∧ (d.pool 0 0).blHead ≠ (d.pool 0 0).blTail ∧ nfld (d.num hostPa 8) 63 52 = 0 ∧ nfld (d.num hostPa 8) 11 0 = 0 ∧
       (d.memAt (d.num hostPa 8)).bind Mem.home = some 0 ∧ d.inFlight none (d.num hostPa 8 / 4096) = false ∧ (d.pool 0 0).blDone = [] ∧
       entriesLeft (d.pool 0 0).blHead (d.pool 0 0).blTail (d.pool 0 0).blDone (d.pool 0 0).blPass = [0]) ∧
      (let d : Dev := { tPool 2 [] with mem := tNums [(hostPa, 8, tChunk * 4096)], migs := [(0, { tMig [] false with old := tChunk * 4096 })] }
       (d.pool 0 0).lstate = 2 ∧ d.inFlight none (d.num hostPa 8 / 4096) = true) ∧
      (let d : Dev := { tPool 3 [] with mem := tNums [(hostPa, 8, 1)] }
       (d.pool 0 0).lstate = 3 ∧ (d.pool 0 0).hcHead ≠ (d.pool 0 0).hcTail ∧ nfld (d.num hostPa 8) 3 0 ≠ 0 ∧
       entriesLeft (d.pool 0 0).hcHead (d.pool 0 0).hcTail (d.pool 0 0).hcDone ((d.pool 0 0).hcPass.map (·.1)) = [0]) ∧
      (∃ (d : Dev) (r : Resv) (x : Inst) (t : Thread), (d.pool 0 0).lstate = 4 ∧ d.resvs = [r] ∧ r.part = 0 ∧ r.home = 0 ∧ r.who = .inst 0 ∧ d.inst 0 = some x ∧
        d.thread x.tid = some t) ∧
      (chunkHome tChunk).isSome = true ∧ ((tPool 0 []).chunk tChunk).secs ≠ 0 ∧ ((tPool 0 []).chunk tChunk).cut = false := by
  refine ⟨by decide +kernel, by decide +kernel, by decide +kernel, ⟨{ tPool 4 [⟨0, 0, tChunk, 9, 0, .inst 0, 0, 0⟩] with insts := [(0, tInst)], threads := [(0, tThread)] }, _, tInst, tThread, by decide, rfl, rfl, rfl, rfl,
    rfl, rfl⟩, by decide +kernel, by decide, by decide⟩

/-- The device once a host-copy entry's first step is done. -/
def tNr : Dev :=
  let d : Dev := tWalk (2 ^ 48) []
  (d.agentWrite (hostPa + 0x18010 + 7) [BitVec.ofNat 8 (d.num (hostPa + 0x18010 + 7) 1 ||| 2 ^ 5)]).dropLeaf (hostPa + 0x18010)

theorem witness_MemorySystemEvents_hostCopy :
    let d : Dev := { tWalk (2 ^ 48) [(hostPa + 0x8000, 8, hostPa + 0x18010)] with pools := [((0, 0), { Pool.reset with lstate := 3, hcBase := hostPa + 0x8000, hcTail := 1 })] }
    (d.pool 0 0).lstate = 3 ∧ d.num (hostPa + 0x8000) 8 = hostPa + 0x18010 ∧ d.hostCopyFrame (hostPa + 0x18010) = some (hostPa + 0x1000, 4096) ∧
      tNr.pageQuiet (hostPa + 0x18010) (hostPa + 0x1000) 4096 = true ∧
      ({ tNr with insts := [(0, { tInst with reqs := [⟨0, doneTok, false, false, 1, [hostPa + 0x18010]⟩] })] } : Dev).pageQuiet
        (hostPa + 0x18010) (hostPa + 0x1000) 4096 = false := by
  and_intros <;> decide +kernel

def tMigs (m : Mig) : Dev := { tWalk 0 [(hostPa + 0x8000, 32, (hostPa + 0x18010) * 2 ^ 64 + (hostPa + 0x30000) * 2 ^ 128)] with migs := [(0, m)] }

theorem witness_MemorySystemEvents_migrations :
    (R0.migOf 0 (R0.migCmd 0) 0 = none) ∧
      ((tWalk 0 [(hostPa + 0x8000, 32, (hostPa + 0x18010) * 2 ^ 64 + (hostPa + 0x30000) * 2 ^ 128)]).migOf 0
        ((tWalk 0 [(hostPa + 0x8000, 32, (hostPa + 0x18010) * 2 ^ 64 + (hostPa + 0x30000) * 2 ^ 128)]).migCmd (hostPa + 0x8000)) 0).isSome = true ∧
      ((tMig [] false).switched = false ∧ (tMigs (tMig [] false)).claims (.mig 0) = false ∧ (tMig [] false).nextLine = some 0 ∧
        { tMig [] false with copied := [0] }.nextLine ≠ none ∧
        (tMigs (tMig [] false)).copyNeed (tMig [] false) 0 = none) ∧
      ((tMig (List.range 64) false).nextLine = none ∧ (tMigs (tMig (List.range 64) false)).frameAsked (tMig (List.range 64) false) = false) ∧
      (∀ j < 4096 / 4096, (tMigs (tMig (List.range 64) true)).inFlight (some 0) ((hostPa + 0x1000) / 4096 + j) = false) ∧
      (tMig [] false).new_ < 2 ^ 52 ∧ (tMig [] false).new_ % 4096 = 0 ∧ (∃ d : Dev, tget 5 d.settle = some 7 ∧ 7 ≤ d.cycle) := by
  refine ⟨by decide +kernel, by decide +kernel, ⟨by decide +kernel, by decide +kernel, by decide, by decide, by decide +kernel⟩, by decide +kernel, by decide +kernel, by decide, by decide, ⟨{ R0 with cycle := 7, settle := [(5, 7)] }, by decide⟩⟩

theorem witness_MemorySystemEvents_merges :
    let b : Bounce := ⟨0, 0, 1, 0, [(0, 5)]⟩
    let d : Dev := { tWalk 0 [] with bounce := [((0, 0), b)] }
    tget (0, 0) d.bounce = some b ∧ (∃ l, d.slotLeaf b = some l ∧ d.roomFor 0 0 (b.cells.map fun c => (l.at (pageVa b.page) + c.1, c.2)) l.cls = .fits) ∧
      d.claims (.pager 0 0) = false := by
  refine ⟨by decide, ?_, by decide⟩
  have h : (match Dev.slotLeaf { tWalk 0 [] with bounce := [((0, 0), ⟨0, 0, 1, 0, [(0, 5)]⟩)] } ⟨0, 0, 1, 0, [(0, 5)]⟩ with
    | some l => Dev.roomFor { tWalk 0 [] with bounce := [((0, 0), ⟨0, 0, 1, 0, [(0, 5)]⟩)] } 0 0 [(l.at (pageVa 1) + 0, 5)] l.cls == .fits
    | none => false) = true := by decide +kernel
  split at h
  · rename_i l e
    exact ⟨l, e, by simpa using h⟩
  · cases h

theorem witness_MemorySystemEvents_registers :
    ((∃ p ∈ (tPool 0 []).pools, p.1.2 = 0 ∧ p.2.held ≠ 0) ∧ ¬ (∃ p ∈ R0.pools, p.1.2 = 0 ∧ p.2.held ≠ 0)) ∧
      ¬ Nat.min ((homeWindow 0).2 / 4096) (Config.sectors 0 / 4) < nfld (0 : Word).toNat 31 0 ∧
      ((R0.pools.filter fun q => q.1.2 == 0 && q.1.1 != 0).map fun q => q.2.quota).sum + nfld (0 : Word).toNat 32 0 ≤ Config.sectors 0 ∧
      (R0.pool 0 0).held ≤ nfld (0 : Word).toNat 32 0 :=
  ⟨by decide, by simp [nfld], Nat.zero_le _, by decide⟩

/-! ### The host, peers and the Sieve -/

def haOk (r : HostAcc) : Bool := match r with | .ok .. => true | _ => false
def hd (r : HostAcc) : Dev := match r with | .ok d _ _ => d | _ => R0
def hp (r : HostAcc) : Nat := match r with | .ok _ p _ => p | _ => 0
def hl (r : HostAcc) : Leaf := match r with | .ok _ _ l => l | _ => tSl
theorem ha_eq {r : HostAcc} (h : haOk r = true) : r = .ok (hd r) (hp r) (hl r) := by cases r <;> simp_all [haOk, hd, hp, hl]
def heOk (r : HostAcc) : Bool := match r with | .err .. => true | _ => false
theorem he_of {r : HostAcc} (h : heOk r = true) : ∃ d e, r = .err d e := by cases r <;> simp_all [heOk]

/-- The aperture of function 0 and peer 3 are open to ASID 0. -/
def tAp : Dev := { tPages with funcs := [(0, { Func.reset with acnt := 4096, apen := true })], peers := [(3, ⟨true, 0, 0, false⟩)] }
abbrev tVa (n : Nat) : Word := (tAp.func 0).apAddr n

/-- The same with its shelf sealed, and with a spill ring in the page at 0x1000. -/
def tSh : Dev := { tAp with shelves := [(shelfOf 0x90000000000, .sealed)] }
def tRinged : Dev := { tAp with regions := [(0, { tHalt with rings := [⟨0, 0, .a, false, hostPa + 0x1000, 4096, 0⟩] })] }
def hrOk (r : HostAcc) : Bool := match r with | .ring => true | _ => false
theorem hr_of {r : HostAcc} (h : hrOk r = true) : r = .ring := by cases r <;> simp_all [hrOk]

theorem witness_HostAndSieveEvents_aperture :
    ((1 : Word).getLsbD 0 = true ∧ R0.asidIn 0 (nfld (1 : Word).toNat 63 52) = false) ∧ ((1 : Word).getLsbD 0 = true ∧ tAp.asidIn 0 (nfld (1 : Word).toNat 63 52) = true) ∧
      (pieceOk 0x103C 4 = true ∧ FnOpen State.reset 0 ∧ R0.apOpen 0 = false) ∧ (tAp.apOpen 0 = true ∧ ∃ d1 e, tAp.hostCheck 0 0 (tVa 0x9000) 4 false = .err d1 e) ∧
      (∃ d1 d2 pa l, tAp.apOpen 0 = true ∧ tAp.hostCheck 0 0 (tVa 0x103C) 4 false = .ok d1 pa l ∧ isWindow pa = false ∧ d1.inRefresh l pa = false ∧ l.kind ≠ 2 ∧
        d1.agentTry ⟨.host, pa, 4, false, false, tVa 0x103C⟩ = some d2) ∧
      (∃ d1 d2 pa l, tAp.apOpen 0 = true ∧ tAp.hostCheck 0 0 (tVa 0x1000) 4 true = .ok d1 pa l ∧ isWindow pa = false ∧ (∀ x ∈ cellsAt pa [1, 2, 3, 4], isWindow x.1 = false) ∧
        d1.roomFor 0 0 (cellsAt pa [1, 2, 3, 4]) l.cls = .fits ∧ d1.agentTry ⟨.host, pa, 4, true, false, tVa 0x1000⟩ = some d2) ∧
      (∃ d1 pa l, tSh.hostCheck 0 0 (tVa 0x4000000) 4 false = .ok d1 pa l ∧ isWindow pa = false ∧ d1.inRefresh l pa = false ∧ l.kind = 2) ∧
      tRinged.hostCheck 0 0 (tVa 0x1000) 4 false = .ring ∧
      (tPages.globalQ 0 7 = some 7 ∧ (tPages.queue 7).en = false ∧ R0.hostHeld = false) ∧ ((tQD true).globalQ 0 0 = some 0 ∧ ((tQD true).queue 0).en = true) := by
  refine ⟨by decide, by decide, ⟨by decide, ⟨rfl, nofun⟩, by decide⟩, ⟨by decide +kernel, he_of (by decide +kernel)⟩, ?_, ?_,
    ⟨_, _, _, ha_eq (by decide +kernel), by decide +kernel, by decide +kernel, by decide +kernel⟩, hr_of (by decide +kernel), by decide +kernel, by decide +kernel⟩
  · obtain ⟨d2, h⟩ := some_of (o := (hd (tAp.hostCheck 0 0 (tVa 0x103C) 4 false)).agentTry ⟨.host, hp (tAp.hostCheck 0 0 (tVa 0x103C) 4 false), 4, false, false, tVa 0x103C⟩) (by decide +kernel)
    exact ⟨_, d2, _, _, by decide +kernel, ha_eq (by decide +kernel), by decide +kernel, by decide +kernel, by decide +kernel, h⟩
  · obtain ⟨d2, h⟩ := some_of (o := (hd (tAp.hostCheck 0 0 (tVa 0x1000) 4 true)).agentTry ⟨.host, hp (tAp.hostCheck 0 0 (tVa 0x1000) 4 true), 4, true, false, tVa 0x1000⟩) (by decide +kernel)
    exact ⟨_, d2, _, _, by decide +kernel, ha_eq (by decide +kernel), by decide +kernel, by decide +kernel, by decide +kernel, h⟩

theorem witness_HostAndSieveEvents_peers :
    ((R0.peer 3).en = false ∧ R0.peerHeld 3 = false ∧ ([1, 2, 3] : List Byte).length % 4 ≠ 0) ∧
      (∃ d1 d2 pa l, tAp.peerHeld 3 = false ∧ (tAp.peer 3).en = true ∧ tAp.hostCheck 0 0 0x103C 4 false = .ok d1 pa l ∧ isWindow pa = false ∧
        d1.inRefresh l pa = false ∧ l.kind ≠ 2 ∧ d1.agentTry ⟨.host, pa, 4, false, false, 0x103C⟩ = some d2) ∧
      (∃ d1 d2 pa l, (tAp.peer 3).en = true ∧ tAp.hostCheck 0 0 0x1000 4 true = .ok d1 pa l ∧ d1.roomFor (d1.peer 3).part 0 (cellsAt pa [1, 2, 3, 4]) l.cls = .fits ∧
        d1.agentTry ⟨.host, pa, 4, true, false, 0x1000⟩ = some d2 ∧ ∀ c ∈ cellsAt pa [1, 2, 3, 4], isWindow c.1 = false) ∧
      ((R0.peer 3).down = false ∧ ∀ o ∈ R0.ops, o.2.kind ≠ .xfer) ∧ (∃ d : Dev, (d.peer 3).down = true ∧ ∃ q ∈ (d.die 0).held, entPeer q.entry.toNat = 3) ∧ R0.xlRoom = true ∧ (∃ d : Dev, d.xlRoom = false) ∧
      (∃ d : Dev, d.xlcur = none ∧ d.xlq = [0]) ∧ (∃ d : Dev, d.xlcur = some (0, none, none) ∧ d.invalidDone none 0 none none = true) := by
  refine ⟨by decide, ?_, ?_, ⟨by decide, by decide⟩, ⟨{ R0 with peers := [(3, ⟨true, 0, 0, true⟩)], dies := [(0, { Die.reset with held := [⟨0, 0, 0x4000000000000000 + 3 * 2 ^ 52, 0, none⟩] })] },
      by decide, _, List.mem_singleton.mpr rfl, by decide⟩, by decide, ⟨{ R0 with xlq := List.replicate 1000 0 }, by decide +kernel⟩,
    ⟨{ R0 with xlq := [0] }, rfl, rfl⟩, ⟨{ R0 with xlcur := some (0, none, none) }, by decide +kernel⟩⟩
  · obtain ⟨d2, h⟩ := some_of (o := (hd (tAp.hostCheck 0 0 0x103C 4 false)).agentTry ⟨.host, hp (tAp.hostCheck 0 0 0x103C 4 false), 4, false, false, 0x103C⟩) (by decide +kernel)
    exact ⟨_, d2, _, _, by decide +kernel, by decide +kernel, ha_eq (by decide +kernel), by decide +kernel, by decide +kernel, by decide +kernel, h⟩
  · obtain ⟨d2, h⟩ := some_of (o := (hd (tAp.hostCheck 0 0 0x1000 4 true)).agentTry ⟨.host, hp (tAp.hostCheck 0 0 0x1000 4 true), 4, true, false, 0x1000⟩) (by decide +kernel)
    exact ⟨_, d2, _, _, by decide +kernel, ha_eq (by decide +kernel), by decide +kernel, h, by decide +kernel⟩

/-- An SVBND of the instance in die 0's Sieve, over the table at `s`. -/
def tSvb (s : Word) (ps : List PageRes) : Svb :=
  { inst := 0, idx := 0, q := fTok 0, s := s, hdr := if ps.isEmpty then none else some (65, 64, 16), pages := ps, sent := 0, waited := false }
def tSv (d : Dev) (v : Svb) : Dev := { d.modDie 0 (fun x => { x with sieve := [v] }) with threads := [(0, tThread)], regions := [(0, tHalt)], insts := [(0, tInst)] }

/-- The block table that a lookup at die `k` uses: the instance's sample at its own die, the die's registers at another. -/
def tTab (d : Dev) (k : Nat) (c : Fx) : Word × Word := if k = c.t.die then (c.x.cr.kvbtb, c.x.cr.kvbtn) else ((d.die k).kvbtb, (d.die k).kvbtn)

theorem witness_HostAndSieveEvents_sieve :
    (∃ c d1 h, (((tSv tSeq (tSvb 0x1080 [])).die 0).sieve.filter fun v => v.hdr.isSome).length < 16 ∧
      ((tSv tSeq (tSvb 0x1080 [])).die 0).sieve.find? (fun v => v.hdr.isNone) = some (tSvb 0x1080 []) ∧ (tSv tSeq (tSvb 0x1080 [])).fxOf 0 0 = some c ∧
      (tSv tSeq (tSvb 0x1080 [])).readAt c 0x1080 64 64 = .ok d1 h ∧ seqHdr h = none) ∧
      (∃ c d1 h d2 ps, (tSv tSeq (tSvb 0x1000 [])).fxOf 0 0 = some c ∧ (tSv tSeq (tSvb 0x1000 [])).readAt c 0x1000 64 64 = .ok d1 h ∧
        seqHdr h = some ⟨65, 64, 16, 2 ^ 63, 0⟩ ∧ d1.readEntries c 0x1000 (entLines (SeqHdr.pages ⟨65, 64, 16, 2 ^ 63, 0⟩)) [] = some (d2, ps) ∧ (d2.inst c.i).isSome = true) ∧
      (∃ c, (tSv tSeq (tSvb 0x1000 [.waiting 0])).sievePage 0 0 = some (0, tSvb 0x1000 [.waiting 0], .waiting 0) ∧
        (tSv tSeq (tSvb 0x1000 [.waiting 0])).lookups 0 < 64 ∧ (tSv tSeq (tSvb 0x1000 [.waiting 0])).fxOf 0 0 = some c ∧ entRmt (0 : Word).toNat = false ∧
        (tSv tSeq (tSvb 0x1000 [.waiting 0])).sideCut (entDie (0 : Word).toNat) (entGbn (0 : Word).toNat) c.t.part (tTab (tSv tSeq (tSvb 0x1000 [.waiting 0])) 0 c) = false) ∧
      (∃ c, (tSv tSeq (tSvb 0x1000 [.asked 0 (some 5)])).sievePage 0 0 = some (0, tSvb 0x1000 [.asked 0 (some 5)], .asked 0 (some 5)) ∧
        (tSv tSeq (tSvb 0x1000 [.asked 0 (some 5)])).fxOf 0 0 = some c) ∧
      ((R0.peer 3).en = false ∧ (tAp.peer 3).en = true ∧ ∃ b d1, tKv.stage2 0 1 0 = some b ∧ tKv.agentTry ⟨.host, b.pa + 24, 4, true, true, 0⟩ = some d1) ∧
      (∃ (d : Dev) (q : Decr), (d.die 0).decrs = [q] ∧ entRmt q.entry.toNat = true ∧ d.reach (entPeer q.entry.toNat) = false) := by
  have fx (s : Word) (ps : List PageRes) : ∃ c, (tSv tSeq (tSvb s ps)).fxOf 0 0 = some c := some_of (by rfl)
  refine ⟨?_, ?_, ?_, ?_, ⟨by decide, by decide, ?_⟩, ⟨{ R0 with dies := [(0, { Die.reset with decrs := [⟨0, 0, 0x4000000000000000, 0, none⟩] })], peers := [(0, ⟨true, 0, 0, true⟩)] }, _, rfl, by decide, by decide⟩⟩
  · obtain ⟨c, hc⟩ := fx 0x1080 []
    have h : (match (tSv tSeq (tSvb 0x1080 [])).fxOf 0 0 with
      | some c => rOk ((tSv tSeq (tSvb 0x1080 [])).readAt c 0x1080 64 64) && (seqHdr (rv ((tSv tSeq (tSvb 0x1080 [])).readAt c 0x1080 64 64))).isNone
      | none => false) = true := by decide +kernel
    rw [hc] at h
    simp only [Bool.and_eq_true, Option.isNone_iff_eq_none] at h
    exact ⟨c, _, _, by decide +kernel, by decide +kernel, hc, read_eq h.1, h.2⟩
  · obtain ⟨c, hc⟩ := fx 0x1000 []
    have h : (match (tSv tSeq (tSvb 0x1000 [])).fxOf 0 0 with
      | some c => rOk ((tSv tSeq (tSvb 0x1000 [])).readAt c 0x1000 64 64) &&
          seqHdr (rv ((tSv tSeq (tSvb 0x1000 [])).readAt c 0x1000 64 64)) == some ⟨65, 64, 16, 2 ^ 63, 0⟩ &&
          (match (rd ((tSv tSeq (tSvb 0x1000 [])).readAt c 0x1000 64 64)).readEntries c 0x1000 (entLines (SeqHdr.pages ⟨65, 64, 16, 2 ^ 63, 0⟩)) [] with
            | some x => (x.1.inst c.i).isSome | none => false)
      | none => false) = true := by decide +kernel
    rw [hc] at h
    simp only [Bool.and_eq_true, beq_iff_eq] at h
    obtain ⟨⟨h1, h2⟩, h3⟩ := h
    split at h3
    · rename_i x e
      exact ⟨c, _, _, x.1, x.2, hc, read_eq h1, h2, e, h3⟩
    · cases h3
  · obtain ⟨c, hc⟩ := fx 0x1000 [.waiting 0]
    have cut : (tSv tSeq (tSvb 0x1000 [.waiting 0])).sideCut (entDie (0 : Word).toNat) (entGbn (0 : Word).toNat) c.t.part (tTab (tSv tSeq (tSvb 0x1000 [.waiting 0])) 0 c) = false := by
      have h : (match (tSv tSeq (tSvb 0x1000 [.waiting 0])).fxOf 0 0 with
        | some c => !(tSv tSeq (tSvb 0x1000 [.waiting 0])).sideCut (entDie (0 : Word).toNat) (entGbn (0 : Word).toNat) c.t.part (tTab (tSv tSeq (tSvb 0x1000 [.waiting 0])) 0 c)
        | none => false) = true := by decide +kernel
      rw [hc] at h
      simpa using h
    exact ⟨c, by decide +kernel, by decide +kernel, hc, by decide, cut⟩
  · obtain ⟨c, hc⟩ := fx 0x1000 [.asked 0 (some 5)]
    exact ⟨c, by decide +kernel, hc⟩
  · have h : (match tKv.stage2 0 1 0 with | some b => (tKv.agentTry ⟨.host, b.pa + 24, 4, true, true, 0⟩).isSome | none => false) = true := by decide +kernel
    split at h
    · rename_i b e
      obtain ⟨d1, h⟩ := some_of h
      exact ⟨b, d1, e, h⟩
    · cases h

/-! ### The root of trust and power -/

/-- A device whose request buffer at bus address 0x1000 holds a length and bytes. -/
def tReq (n : Nat) (l : List (Nat × Nat × Nat)) : Dev := { R0 with mem := tNums ((hostPa + 0x1000, 4, n) :: l) }
def tOwned (s : Sec) : RoT := { RoT.reset with sec := s, ownerEd := some [], ownerMl := some [] }

theorem witness_RootOfTrustEvents_requests :
    let pa := 2 ^ 51 + nfld (0x1000 : Word).toNat 63 12 * 4096 % 2 ^ 51
    let whole (d : Dev) (n : Nat) : Prop := d.num pa 4 = n ∧ d.num (pa + 4) 4 = 0
    let fld (d : Dev) (n at_ k : Nat) : Nat := natOfBytes (((d.bytes (pa + 8) n).drop at_).take k)
    whole (tReq 0 []) 0 ∧ ¬ whole (tReq 1 []) 0 ∧ whole (tReq 32 []) 32 ∧
      (whole (tReq 56 [(hostPa + 0x1008, 1, 7)]) 56 ∧ fld (tReq 56 [(hostPa + 0x1008, 1, 7)]) 56 0 1 = 7 ∧ fld (tReq 56 [(hostPa + 0x1008, 1, 7)]) 56 1 7 = 0) ∧
      whole (tReq 1984 []) 1984 ∧
      (let d := tReq 24 [(hostPa + 0x1018, 2, 4000)]
       whole d 24 ∧ fld d 24 0 1 ≤ 1 ∧ fld d 24 1 7 = 0 ∧ 8 + 64 + 3309 ≤ fld d 24 16 8 ∧ fld d 24 8 8 + fld d 24 16 8 ≤ 2 ^ 51) ∧
      (let d := tReq 24 [(hostPa + 0x1009, 1, 1), (hostPa + 0x1018, 1, 4)]
       whole d 24 ∧ fld d 24 0 1 < 64 ∧ fld d 24 1 1 = 1 ∧ fld d 24 2 6 = 0 ∧ fld d 24 8 8 % 64 = 0 ∧ 4 ≤ fld d 24 16 1 ∧ fld d 24 16 1 ≤ 16 ∧ fld d 24 17 7 = 0) ∧
      (let d := tReq 3477 [(hostPa + 0x1008, 1, 1), (hostPa + 0x1008 + 20, 1, 3)]
       whole d 3477 ∧ fld d 3477 0 4 = 1 ∧ 1 ≤ fld d 3477 20 1 ∧ fld d 3477 20 1 ≤ 4 ∧ fld d 3477 21 3 = 0 ∧ (tOwned .locked).tokenKeys = some ([], [])) := by
  and_intros <;> decide +kernel

theorem witness_RootOfTrustEvents_power :
    (∃ (d : Dev) (r : RoT), d.balk = false ∧ r.reply = some (hostPa, .done, []) ∧ r.asked = [] ∧
      ((((d.agentMust ⟨.agent, hostPa, 8, true, false, 0⟩).agentWrite hostPa (bytesOfNat 4 0 ++ bytesOfNat 4 0 ++ [])).wake).msix 0 2).balk = false) ∧
      (∃ r : RoT, r.busy = true ∧ r.power = .p1) ∧ (∃ r : RoT, r.power = .p2 ∧ r.busy = false ∧ r.asked = []) ∧
      (RoT.reset.busy = false ∧ RoT.reset.asked = [] ∧ RoT.reset.power = .p0 ∧ (((List.range 64).filter fun f => !R0.suspended f).foldl Dev.suspend R0).balk = false) ∧
      (∃ r : RoT, r.power = .p2 ∧ r.busy = false ∧ r.waking = false ∧ r.heldOps ≠ []) ∧ (∃ r : RoT, r.power = .p3) ∧
      (∃ (d : Dev) (r : RoT), r.entering = true ∧ d.atRest = true ∧ r.asked = []) ∧ (∃ r : RoT, r.waking = true ∧ r.asked = [] ∧ r.suspd ≠ []) :=
  ⟨⟨R0, { RoT.reset with reply := some (hostPa, .done, []) }, rfl, rfl, rfl, by decide +kernel⟩, ⟨{ RoT.reset with busy := true, power := .p1 }, rfl, rfl⟩,
    ⟨{ RoT.reset with power := .p2 }, rfl, rfl, rfl⟩, by decide +kernel,
    ⟨{ RoT.reset with power := .p2, heldOps := [.nop .always] }, rfl, rfl, rfl, nofun⟩, ⟨{ RoT.reset with power := .p3 }, rfl⟩,
    ⟨R0, { RoT.reset with entering := true }, rfl, by decide +kernel, rfl⟩, ⟨{ RoT.reset with waking := true, suspd := [3] }, rfl, rfl, nofun⟩⟩
/-! ### Further clauses of the statements on events -/

/-- A stream that only reader 0 has joined, at its tail. -/
def tJoined : Stream := (parseStream 0 0).modReader 0 fun _ => ⟨true, 0, 0, false⟩

theorem witness_StreamCommitSteps_joins :
    (tJoined.reader 0).joined = true ∧ (tJoined.reader 0).rel = tJoined.tail ∧ (tJoined.reader 1).joined = false ∧
      ∀ m < 8, m ≠ 0 → (tJoined.reader m).joined = false := by decide +kernel

def refused (n : Option Bool) (o : Host.Outcome State Fault Refusal) : Bool :=
  match o with | .refused (.notEnabled _) => n == some false | .refused (.mustWait _) => n == some true | _ => false
theorem cannot_of {o : Host.Outcome State Fault Refusal} (h : refused (some false) o = true) : ∃ n, o = .refused (.notEnabled n) := by
  cases o with
  | refused x => cases x with
    | notEnabled n => exact ⟨n, rfl⟩
    | _ => simp [refused] at h
  | _ => simp [refused] at h
theorem waits_of {o : Host.Outcome State Fault Refusal} (h : refused (some true) o = true) : ∃ n, o = .refused (.mustWait n) := by
  cases o with
  | refused x => cases x with
    | mustWait n => exact ⟨n, rfl⟩
    | _ => simp [refused] at h
  | _ => simp [refused] at h

/-- A state of one event, on a device that has found that it must wait. -/
def tBalk (i : Instr) : State := { dev := { R0 with agenda := [.op i], balk := true }, rot := RoT.reset }

theorem witness_StepRunsTheNextMove_passed :
    ((popped (tNext (.op .deviceLaunchStart) .p2 []) []).staysBehind .deviceLaunchStart = false ∧ servedInP2 .deviceLaunchStart = false ∧
        wakesP2 .deviceLaunchStart = false) ∧
      (∃ n, exec .deviceLaunchStart (popped (tNext (.op .deviceLaunchStart) .p0 []) []) = .refused (.notEnabled n)) ∧
      (fromOutside (.refreshWindow 0 true 1 1000) = false ∧
        ∃ n, exec (.refreshWindow 0 true 1 1000) (popped (tBalk (.refreshWindow 0 true 1 1000)) []) = .refused (.mustWait n)) ∧
      (fromOutside (.fnqWrite 0 5) = true ∧ (popped (tBalk (.fnqWrite 0 5)) []).staysBehind (.fnqWrite 0 5) = false ∧
        ∃ n, exec (.fnqWrite 0 5) (popped (tBalk (.fnqWrite 0 5)) []) = .refused (.mustWait n)) :=
  ⟨by decide +kernel, cannot_of (by decide +kernel), ⟨by decide, waits_of (by decide +kernel)⟩, by decide, by decide +kernel, waits_of (by decide +kernel)⟩

/-- A frame that ends its thread, number 5, whose launch has an object at 0x2000. -/
def tEnds : Nat := 5 * 2 ^ 3456 + 2 ^ 3628
def tObj : Launch := ⟨0, 0, 0, 0, 0x2000, true, none, 1⟩
def tObjD : Dev := { tExc 0 with launches := [(0, tObj)] }

theorem witness_ReturnFromTrap_ends :
    (∃ (u : Thread) (e : Dev), tObjD.thread (nfld tEnds 3519 3456) = some tTrap ∧ nfld tEnds 3629 3628 ≠ 0 ∧ tget tTrap.launch tObjD.launches = some tObj ∧
        let r := (tObjD.modThread (nfld tEnds 3519 3456) fun t => { t with st := .retired, trap := none }).flushStreams (nfld tEnds 3519 3456)
        r.thread (nfld tEnds 3519 3456) = some u ∧ tget u.launch r.launches = some tObj ∧
          r.compAt 0 0 0x2000 0 (nfld tEnds 3599 3584) (some (r.partyOf (nfld tEnds 3519 3456) u)) = some e) ∧
      (∃ s c d1 pa l, Takes1 .always s c 0x1000 ∧ First c ∧ c.x.exit = none ∧ frameOf c.x.cr.tframe 0x1000 = true ∧
        (marked s.dev c).loadAt c 0x1000 512 1 .tokenLoad = .ok d1 pa l ∧
        nfld (natOfBytes (d1.loadBytes c.i pa 512).2) (3072 + 64 * 3 + 63) (3072 + 64 * 3 + 40) ≠ 0) := by
  refine ⟨?_, ⟨_, _, _, _, _, w1 (tFrame [(hostPa + 0x1000 + 384 + 31, 1, 1)]) (x := tTret) (by decide) _, ⟨nofun, by decide⟩, by decide, by decide +kernel,
    got_eq (by decide +kernel), by decide +kernel⟩⟩
  obtain ⟨e, h⟩ := some_of (o := Dev.compAt ((tObjD.modThread 5 fun t => { t with st := .retired, trap := none }).flushStreams 5) 0 0 0x2000 0
    (nfld tEnds 3599 3584) (some (Dev.partyOf ((tObjD.modThread 5 fun t => { t with st := .retired, trap := none }).flushStreams 5) 5 { tTrap with st := .retired, trap := none })))
    (by decide +kernel)
  have k : nfld tEnds 3519 3456 = 5 := by decide +kernel
  refine ⟨{ tTrap with st := .retired, trap := none }, e, by rw [k]; rfl, by decide +kernel, rfl, ?_⟩
  rw [k]
  exact ⟨by decide +kernel, by decide +kernel, h⟩

theorem witness_SystemResults_elsewhere : ∃ s c, Takes0 .always s c ∧ c.t.part ≠ 0 := by
  let t : Thread := { tThread with part := 1 }
  let r := tRegion (.nop .always)
  let s : State := { State.reset with dev := { R0 with threads := [(0, t)], regions := [(0, r)], insts := [(0, tInst)], fire := some (tFr none none none) } }
  exact ⟨s, ⟨0, 0, tInst, t, r, tFr none none none⟩, ⟨by rfl, rfl, rfl, rfl, rfl, rfl⟩, by decide⟩

/-- An instance of a HALT at its commit point, with these effects buffered, on a device. -/
def tAt (es : List (Nat × Eff)) : Inst := { tInst with marks := { Marks.none with halt := true }, exit := some .halt, atPoint := true, start := [], effs := es }
def tLeaves (d : Dev) (es : List (Nat × Eff)) : State :=
  { State.reset with dev := { d with threads := (0, tThread) :: d.threads, regions := [(0, tHalt)], insts := [(0, tAt es)] } }

/-- It commits, and leaves by HALT. -/
def CommitsNow (s : State) (es : List (Nat × Eff)) : Prop :=
  let c : Done := ⟨0, tAt es, 0, tThread, tHalt⟩
  s.dev.balk = false ∧ s.dev.doneOf 0 = some c ∧ c.x.atPoint = true ∧ s.dev.commitsAfter c = false ∧ MemOk s ∧ c.x.resv = [] ∧ s.dev.migs = [] ∧
    (∀ p ∈ s.dev.regions, p.2.phase = .open_) ∧ (s.dev.threads.map (·.1)).Nodup ∧ ∀ a pa, c.x.exit ≠ some (.tret a pa)

/-- What the instance has done besides registers. -/
def tOnly (es : List (Nat × Eff)) : List (Nat × Eff) := (tAt es).effs.filter fun x => match x.2 with | .gw .. => false | .vw .. => false | _ => true

/-- A register's write, an atomic's word and a store; SPREL with a thread in SPACE; and PFCNT. -/
def tEs : List (Nat × Eff) := [(0, .gw 3 7), (1, .atomic hostPa 8 1 none), (2, .store [(hostPa + 8, 1)] 0 none), (3, .crwr 0x003 0), (4, .crwr 0x046 (1 <<< 63))]
def tEsD : Dev := { R0 with holds := [⟨hostPa, 8, 0, 5⟩], threads := [(1, { tThread with st := .space })] }

theorem witness_InstanceLife_registers :
    CommitsNow (tLeaves tEsD tEs) tEs ∧ (tAt tEs).marks.halt = true ∧
      (∀ e ∈ tEs, match e.2 with
        | .gw .. => True | .vw .. => True | .crwr .. => True
        | .atomic _ _ _ side => side = none
        | .store cells _ side => side = none ∧ ∀ x ∈ cells, isWindow x.1 = false
        | _ => False) ∧
      (∃ u, (tLeaves tEsD tEs).dev.thread 1 = some u ∧ u.st = .space ∧ u.part = tThread.part) := by
  refine ⟨⟨rfl, by rfl, rfl, by decide +kernel, by decide +kernel, rfl, rfl, by decide, by decide, nofun⟩, rfl, ?_, ⟨{ tThread with st := .space }, by rfl, rfl, rfl⟩⟩
  intro e he
  simp only [tEs, List.mem_cons, List.not_mem_nil, or_false] at he
  rcases he with rfl | rfl | rfl | rfl | rfl <;> trivial

/-- Two effects on one stream. -/
def tStrEs : List (Nat × Eff) := [(0, .swr 5 64 [(64, 1)]), (1, .spub 5 72)]
def tStrD : Dev := { R0 with streams := [(5, tSt true)] }

theorem witness_InstanceLife_effects :
    (CommitsNow (tLeaves tStrD tStrEs) tStrEs ∧ tget 5 (tLeaves tStrD tStrEs).dev.streams = some (tSt true) ∧ (tLeaves tStrD tStrEs).dev.holds = [] ∧
        (tStrEs.filter fun e => e.2.streamOf == some 5) ≠ [] ∧ ∀ e ∈ tStrEs, e.2.streamOf = some 5) ∧
      (∀ e ∈ [Eff.qpost 0 1, .task 0x1000 hostPa, .spawn 0x1000 1 0 0x2000 hostPa, .engine .copy 0x1000 0x2000 0 hostPa []],
        CommitsNow (tLeaves R0 [(0, e)]) [(0, e)] ∧ tOnly [(0, e)] = [(0, e)] ∧ (tLeaves R0 [(0, e)]).dev.holds = [] ∧ Calm (tLeaves R0 [(0, e)]).dev) ∧
      R0.globalQ 0 0 = none ∧ (tQD true).globalQ 0 0 = some 0 ∧
      Calm R0 ∧ R0.migs = [] ∧ memWf R0.mem = true ∧ (R0.clsFor ⟨0, tInst, 0, tThread, tHalt⟩ 0x1000).2 = none := by
  refine ⟨⟨⟨rfl, by rfl, rfl, by decide +kernel, by decide +kernel, rfl, rfl, by decide, by decide, nofun⟩, by rfl, rfl, by decide, by decide⟩, ?_,
    by decide +kernel, by decide +kernel, ⟨rfl, rfl, rfl⟩, rfl, by decide, by decide +kernel⟩
  intro e he
  refine ⟨⟨rfl, by rfl, rfl, ?_, ?_, rfl, rfl, ?_, ?_, nofun⟩, ?_, rfl, rfl, rfl, rfl⟩ <;>
    (simp only [List.mem_cons, List.not_mem_nil, or_false] at he; rcases he with rfl | rfl | rfl | rfl <;> decide +kernel)

/-- A stream whose tail stands in a frame, while its first extension frame, numbered 1, is to be returned. -/
def tDrip (tail : Nat) : Dev := { R0 with streams := [(5, { tSt true with ovu := 1, tail := tail })], drip := [(5, (1, [(hostPa, hostPa + 0x2000)]))], mem := tNums tRoot }

theorem witness_ContextsWaits_returns (tail : Nat) (h : tail = 0 ∨ tail = 8192) :
    let s : State := { State.reset with dev := tDrip tail }
    s.dev.balk = false ∧ MemOk s ∧ s.dev.migs = [] ∧ tget 5 s.dev.drip = some (1, [(hostPa, hostPa + 0x2000)]) ∧ s.dev.rcbChain 9 (hostPa + 0x2000) ≠ [] ∧
      (∀ x ∈ s.dev.rcbChain 9 (hostPa + 0x2000), hostPa < x + 48 ∨ x + 80 ≤ hostPa) ∧
      ∃ st, tget 5 s.dev.streams = some st ∧ 0 < st.ovu ∧ 1 < st.tail / st.fsize + st.nf ∧ (st.tail / st.fsize ≤ 1 ↔ tail = 0) := by
  rcases h with rfl | rfl <;>
    exact ⟨rfl, by decide +kernel, rfl, rfl, by decide +kernel, by decide +kernel, _, rfl, by decide, by decide +kernel, by decide +kernel⟩

/-- A teardown of function 0 has met the entry while it waited for its turn. -/
def tDoomed : Dev := { tQE 0 0x1000 with queues := [(0, { tQ true with torn := [.function 0] })] }

/-- A retired thread, whose launch has an object, or is a task node with threads left to count. -/
def tLast (obj : Bool) (node : Option (Nat × Word)) (left : Nat) : Dev :=
  { tWalk 0 [(hostPa + 0x1100, 16, 2)] with
    threads := [(3, { tThread with st := .retired, launch := 2 })], launches := [(2, ⟨0, 0, 0, 0, 0x1100, obj, node, 1⟩)]
    nodes := [(hostPa + 0x1100, ⟨⟨0, 0, 0, 0, 0, 0, 0, 0, false, 0⟩, left, false⟩)] }

theorem witness_QueueService_counts :
    tEnters tDoomed (some 0x07) ∧
      ((tQD true).queues.map (·.1)).Nodup ∧ (tget 0 (tQD true).queues).isSome = true ∧ ((tQD true).queue 0).found = true ∧
      (∃ (t : Thread) (l : Launch) (e : Dev), (tLast true none 1).thread 3 = some t ∧ tget t.launch (tLast true none 1).launches = some l ∧ l.node = none ∧ l.obj = true ∧
        (tLast true none 1).compAt l.asid l.part l.comp 0 17 (some ((tLast true none 1).partyOf 3 t)) = some e) ∧
      (∀ left ∈ [1, 2], (((tLast false (some (0, 0x1100)) left).freeThread 3).nodes.find? fun p =>
        (((tLast false (some (0, 0x1100)) left).freeThread 3).walk 0 0 0x1100).toOption.any fun (f : Leaf) => f.at 0x1100 == p.1).isSome = true) ∧
      (∃ d1 l, (tLast true none 1).agentXlate 0 0 0x1100 .write 16 = (d1, .ok l) ∧ Calm d1 ∧ nfld (d1.num (l.at 0x1100) 16) 39 0 ≠ 0) := by
  refine ⟨tEnters_of (by decide +kernel), by decide, by decide, by decide, ?_, by decide +kernel, ?_⟩
  · obtain ⟨e, h⟩ := some_of (o := (tLast true none 1).compAt 0 0 0x1100 0 17 (some ((tLast true none 1).partyOf 3 { tThread with st := .retired, launch := 2 }))) (by decide +kernel)
    exact ⟨{ tThread with st := .retired, launch := 2 }, ⟨0, 0, 0, 0, 0x1100, true, none, 1⟩, e, rfl, rfl, rfl, rfl, h⟩
  · have h : (match (tLast true none 1).agentXlate 0 0 0x1100 .write 16 with
      | (d1, .ok l) => d1.recs.isEmpty && d1.holds.isEmpty && !d1.balk && nfld (d1.num (l.at 0x1100) 16) 39 0 != 0
      | _ => false) = true := by decide +kernel
    obtain ⟨d1, l, e⟩ := xl_ok (r := (tLast true none 1).agentXlate 0 0 0x1100 .write 16) (by decide +kernel)
    rw [e] at h
    simp only [Bool.and_eq_true, Bool.not_eq_true', List.isEmpty_iff, bne_iff_ne] at h
    exact ⟨d1, l, e, ⟨h.1.1.1, h.1.1.2, h.1.2⟩, h.2⟩

/-- One thread, that a teardown of function 0 ends, whose launch has an object. -/
theorem witness_QueueService_ends :
    let d : Dev := { tLast true none 1 with threads := [(3, { tThread with st := .parkC, launch := 2 })] }
    Calm d ∧ d.regions = [] ∧ d.insts = [] ∧ d.devq = [] ∧ d.streams = [] ∧ (d.threads.map (·.1)).Nodup ∧
      (∃ t l, d.thread 3 = some t ∧ t.st ≠ .retired ∧ tget t.launch d.launches = some l ∧ l.node = none ∧ l.obj = true) ∧
      ∀ p ∈ d.threads, (Tear.function 0).covers p.2.asid p.2.part (d.effFdom p.2.rcb) = true ↔ p.1 = 3 :=
  ⟨⟨rfl, rfl, rfl⟩, rfl, rfl, rfl, rfl, by decide, ⟨_, _, rfl, nofun, rfl, rfl, rfl⟩, by decide +kernel⟩
/-- GET of a whole page to the page at 0x1000, whose chunk's content cannot be decoded. -/
def e7 : EngOp := tEng .xfer (some (BitVec.ofNat 256 (0x1000 + 0x3000 * 2 ^ 64 + 4096 * 2 ^ 128 + 3 * 2 ^ 168))) 0
def tCut : Dev := tOp { tPages with chunks := [((hostPa + 0x1000) / 4096, { Chunk.zero with sps := [0], cut := true })] } e7
def tAsked : Dev := tCut.emit (.peerRead e7.command.peer (e7.command.dst + BitVec.ofNat 64 e7.pos) 64)
def partOk (p : Piece) : Bool := match p with | .part .. => true | _ => false
theorem part_of {p : Piece} (h : partOk p = true) : ∃ d b, p = .part d b := by cases p <;> simp_all [partOk]
def stopOk (p : Piece) : Bool := match p with | .stop .. => true | _ => false
theorem stop_of {p : Piece} (h : stopOk p = true) : ∃ d n z a, p = .stop d n z a := by cases p <;> simp_all [stopOk]

/-- COPY from the page at 0x1000 to an address where nothing is mapped. -/
def e8 : EngOp := tEng .copy (some (BitVec.ofNat 256 (0x1000 + 0x9000 * 2 ^ 64 + 100 * 2 ^ 128))) 0

theorem witness_EngineEvents_pieces :
    (tRun tCut 0 e7 .xfer = true ∧ e7.pos < e7.command.total ∧ tCut.reach e7.command.peer = true ∧ e7.command.op = 3 ∧
        (let dst := e7.command.src + BitVec.ofNat 64 e7.dpos
         Nat.min (e7.command.len - e7.pos) (Nat.min (64 - (e7.command.dst + BitVec.ofNat 64 e7.pos).toNat % 64) (if e7.img = [] then 64 - dst.toNat % 64 else 64 - e7.img.length % 64)) = 64) ∧
        ∃ d b, tAsked.copyPiece 0 e7 (.data (List.replicate 64 0)) (e7.command.src + BitVec.ofNat 64 e7.dpos) e7.dpos (e7.command.len - e7.pos) = .part d b) ∧
      (∀ e ∈ [e2, e3], tRun (tOp { tPages with peers := [(e.command.peer, ⟨true, 0, 0, true⟩)] } e) 0 e .xfer = true ∧ e.pos < e.command.total ∧
        (tOp { tPages with peers := [(e.command.peer, ⟨true, 0, 0, true⟩)] } e).reach e.command.peer = false) ∧
      (tRun (tOp tPages e8) 0 e8 .copy = true ∧ e8.pos < e8.command.total ∧
        ∃ d n z a, (tOp tPages e8).copyPiece 0 e8 (.va e8.cursor) (e8.command.dst + BitVec.ofNat 64 (e8.pos / e8.command.len * e8.command.dpitch + e8.dpos)) e8.dpos
          (e8.command.len - e8.pos % e8.command.len) = .stop d n z a) :=
  ⟨⟨by decide +kernel, by decide +kernel, by decide +kernel, by decide +kernel, by decide +kernel, part_of (by decide +kernel)⟩, by decide +kernel,
    by decide +kernel, by decide +kernel, stop_of (by decide +kernel)⟩

/-! A block's further lines, a fetch that fails, and victims. -/

/-- A fetch that has read the header, and one of a block whose page is not mapped. -/
def tLines (st : FetchSt) : Dev := { tWant with fetches := [tFetch st] }
def tLost : Dev := { tWant with threads := [(0, { tQueued none with pc := 0x9000 })] }
def tLostF : Fetch := ⟨0, 0, 0, 0x9000, .lines (tBlock.take 16), false⟩

theorem fc_none {r : Dev × Option XCtx} (h : (!r.2.isSome && !r.1.balk) = true) : ∃ d, r = (d, none) ∧ d.balk = false := by
  obtain ⟨d, _ | c⟩ := r
  · exact ⟨d, rfl, by simpa using h⟩
  · cases h
theorem fc_some {r : Dev × Option XCtx} (h : (r.2.isSome && !r.1.balk) = true) : ∃ d c, r = (d, some c) ∧ d.balk = false := by
  obtain ⟨d, _ | c⟩ := r
  · cases h
  · exact ⟨d, c, rfl, by simpa using h⟩

theorem witness_BlockEvents_lines :
    ((tLines (.lines (tBlock.take 16))).fetches.find? tMine = some (tFetch (.lines (tBlock.take 16))) ∧
        ∃ e c, (tLines (.lines (tBlock.take 16))).fetchFor 0 0 0 0x1000 (0x1000 + BitVec.ofNat 64 16) (Nat.min (64 - (0x1000 + 16) % 64) (20 - 16)) (hdrOf (tBlock.take 16)) =
          (e, some c) ∧ e.balk = false) ∧
      (tLost.queuedAt (some 0) 0 0x9000 ≠ [] ∧ tLost.fetches = [] ∧ tLost.regions = [] ∧ (tLost.die 0).cache = [] ∧ tLost.rejPair = [] ∧
        ∃ e, (tLost.modDie 0 fun x => { x with want := x.want.filter fun w => !(w.1 == 0 && w.2.2 == 0x9000) }).fetchFor 0 0 0 0x9000 0x9000 16 0 = (e, none) ∧ e.balk = false) ∧
      (∃ e, { tLost with fetches := [tLostF] }.fetchFor 0 0 0 0x9000 (0x9000 + BitVec.ofNat 64 16) 4 (hdrOf (tBlock.take 16)) = (e, none) ∧ e.balk = false) ∧
      (tLost.threads.map (·.1)).Nodup :=
  ⟨⟨by decide +kernel, fc_some (by decide +kernel)⟩, ⟨by decide, rfl, rfl, rfl, rfl, fc_none (by decide +kernel)⟩, fc_none (by decide +kernel), by decide⟩

/-- Die 0 with regions of class 0 on every site, and a thread at 0x1000 whose RCB has a class and a budget of sites. -/
def tFull (budget : Nat) (cls : Nat := 3) : Dev := { tKept with
  cycle := 100, regions := (List.range 32).map fun n => (n + 1, { tHalt with foot := 4, site := 2 * (n % 4) + 16 * (n / 4), idle := 100, bare := 100 })
  threads := [(0, { tQueued none with pc := 0x1000, rcb := hostPa + 0x2000 })]
  mem := memPutList tKept.mem (hostPa + 0x2000) (bytesOfNat 128 (cls * 2 ^ 70 + 0xFF * 2 ^ 104 + budget * 2 ^ 128)) }
def tDecides (d : Dev) : Dev := d.settleRegions.noteIdle.modDie 0 fun x => { x with decided := d.cycle / 16 + 1 }

/-- The first candidate finds no room and no idle region; its budget and its victims are as `p` says. -/
def tNoRoom (d : Dev) (p : Dev → Cand → Nat → Bool) : Bool :=
  let d0 := tDecides d
  match d0.candidates 0 with
  | [c] => (match d0.cachedImage 0 c.asid c.part c.blk with
    | some im => (match (im.places.map (·.foot)).min? with
      | some f => d0.siteFor 0 c.rcb (im.places.map (·.foot)) == (none, false) && (d0.regions.all fun p => p.2.die != 0 || !d0.idleFree p.1 p.2 0) && p d0 c f
      | none => false)
    | none => false)
  | _ => false
def tVictims (d : Dev) (c : Cand) (f : Nat) : Option (List Victim) :=
  d.victimPlan 0 f (sortBy (fun p => d.regionScore p.2) (d.regions.filter (d.eligible 0 (d.effDclass c.rcb))))

theorem tNoRoom_of {d : Dev} {p : Dev → Cand → Nat → Bool} (h : tNoRoom d p = true) :
    ∃ c im f, (tDecides d).candidates 0 = [c] ∧ (tDecides d).cachedImage 0 c.asid c.part c.blk = some im ∧
      (tDecides d).siteFor 0 c.rcb (im.places.map (·.foot)) = (none, false) ∧ (im.places.map (·.foot)).min? = some f ∧
      (∀ p ∈ (tDecides d).regions, p.2.die = 0 → (tDecides d).idleFree p.1 p.2 0 = false) ∧ p (tDecides d) c f = true := by
  simp only [tNoRoom] at h
  split at h
  · rename_i c e1
    split at h
    · rename_i im e2
      split at h
      · rename_i f e3
        simp only [Bool.and_eq_true, beq_iff_eq, List.all_eq_true, Bool.or_eq_true, bne_iff_ne, Bool.not_eq_true'] at h
        exact ⟨c, im, f, e1, e2, h.1.1, e3, fun p hp h0 => (h.1.2 p hp).resolve_left (not_not_intro h0), h.2⟩
      · cases h
    · cases h
  · cases h

theorem witness_BlockEvents_victims :
    tNoRoom (tFull 0) (fun d c f => !d.siteBudget c.rcb f) = true ∧
      tNoRoom (tFull 9 0) (fun d c f => d.siteBudget c.rcb f && tVictims d c f == none) = true ∧
      tNoRoom (tFull 9) (fun d c f => d.siteBudget c.rcb f && match tVictims d c f with
        | some plan => (let d1 := d.preempt plan
          (freeGroup ((d1.regions.filter fun p => p.2.die == 0).flatMap d1.keptSites) f).isSome)
        | none => false) = true := by
  refine ⟨by decide +kernel, by decide +kernel, by decide +kernel⟩

/-- A region and its instances, that a shrink or an eviction meets. -/
def tShrinks (drain : Bool) (xs : List (Nat × Inst)) : Dev := { R0 with
  threads := [(0, tThread)], insts := xs
  regions := [(0, { tHalt with image := { tHalt.image with hdr := if drain then tHalt.image.hdr ||| (1 <<< 80) else tHalt.image.hdr } })] }

theorem witness_BlockEvents_shrinks :
    (∃ r, (tShrinks false []).region 0 = some r ∧ r.phase = .open_ ∧ (tShrinks false []).instsOf 0 = [] ∧ hdrDrain r.image.hdr = false ∧ r.comps = []) ∧
      (∃ r, (tShrinks true [(0, tInst)]).region 0 = some r ∧ r.phase = .open_ ∧ (tShrinks true [(0, tInst)]).instsOf 0 ≠ [] ∧ hdrDrain r.image.hdr = true ∧
        ((tShrinks true [(0, tInst)]).insts.map (·.1)).Nodup) ∧
      (∀ p ∈ (tShrinks false [(0, tInst)]).insts, p.2.reg = 0 ∧ p.2.atPoint = false) ∧
      (∃ p, (tFull 9).eligible 0 3 p = true) ∧ R0.region R0.nextRegion = none :=
  ⟨⟨_, rfl, rfl, rfl, by decide +kernel, rfl⟩, ⟨_, rfl, rfl, by decide, by decide +kernel, by decide⟩, by decide, ⟨(1, tHalt), by decide +kernel⟩, rfl⟩

/-- A command to migrate the page of the leaf at hostPa + 0x18010 to a frame. -/
def tCmds (new_ : Nat) : Dev := tWalk 0 [(hostPa + 0x8000, 32, (hostPa + 0x18010) * 2 ^ 64 + new_ * 2 ^ 128)]
def ofHost (o : Option Mig) (host : Bool) : Bool := match o with | some m => m.host == host | none => false
theorem ofHost_of {o : Option Mig} {host : Bool} (h : ofHost o host = true) : ∃ m, o = some m ∧ m.host = host := by
  cases o with
  | some m => exact ⟨m, rfl, eq_of_beq h⟩
  | none => cases h

theorem witness_MemorySystemEvents_rivals :
    let host := hostPa + 0x30000
    let near := (homeWindow 0).1
    let old : Mig := { tMig [] false with host := false }
    -- it waits for an earlier migration, or is late
    (∃ m, { tCmds host with cycle := 5, migs := [(0, old)] }.migOf 0 ({ tCmds host with cycle := 5, migs := [(0, old)] }.migCmd (hostPa + 0x8000)) 5 = some m ∧ m.host = true) ∧
      ({ tCmds host with cycle := 5, migs := [(0, old)] }.migCmd (hostPa + 0x8000)).leaf = old.leaf ∧ old.at_ ≠ 5 ∧
      (∃ m, { tCmds host with settle := [(old.leaf, 7)] }.migOf 0 ({ tCmds host with settle := [(old.leaf, 7)] }.migCmd (hostPa + 0x8000)) 0 = some m ∧ m.host = true) ∧
      { tCmds host with settle := [(old.leaf, 7)] }.settled old.leaf = true ∧
      -- a device's and a host's of one cycle
      (∃ m, { tCmds host with migs := [(0, old)] }.migOf 0 ({ tCmds host with migs := [(0, old)] }.migCmd (hostPa + 0x8000)) 0 = some m ∧ m.host = true) ∧ old.at_ = 0 ∧
      (∃ m, { tCmds near with pres := [(0, 5)], migs := [(0, tMig [] false)] }.migOf 0 ({ tCmds near with pres := [(0, 5)], migs := [(0, tMig [] false)] }.migCmd (hostPa + 0x8000)) 0 = some m ∧ m.host = false) ∧
      (tMig [] false).host = true ∧ (tMig [] false).at_ = 0 ∧ (tMig [] false).leaf = old.leaf :=
  ⟨ofHost_of (by decide +kernel), by decide +kernel, by decide, ofHost_of (by decide +kernel), by decide, ofHost_of (by decide +kernel), rfl,
    ofHost_of (by decide +kernel), rfl, rfl, rfl⟩

/-- A link is down, with a decrement towards its peer held and one on its way. -/
theorem witness_HostAndSieveEvents_links :
    let q : Decr := ⟨0, 0, 0x4000000000000000 + 3 * 2 ^ 52, 0, none⟩
    let d : Dev := { R0 with peers := [(3, ⟨true, 0, 0, true⟩)], dies := [(0, { Die.reset with held := [q], decrs := [q] })] }
    d.balk = false ∧ (d.peer 3).down = true ∧ q ∈ (d.die 0).held ∧ q ∈ (d.die 0).decrs ∧ entRmt q.entry.toNat = true ∧ entPeer q.entry.toNat = 3 := by
  decide

/-- A request to unlock, of level n for partitions of a mask; the serial number is the module's own. -/
def tUnlock (n mask : Nat) : Dev := tReq 3477 [(hostPa + 0x1008, 1, 1), (hostPa + 0x1008 + 12, 8, mask), (hostPa + 0x1008 + 20, 1, n)]

theorem witness_RootOfTrustEvents_debug :
    let pa := 2 ^ 51 + nfld (0x1000 : Word).toNat 63 12 * 4096 % 2 ^ 51
    let fld (d : Dev) (n at_ k : Nat) : Nat := natOfBytes (((d.bytes (pa + 8) n).drop at_).take k)
    (fld (tUnlock 2 5) 3477 20 1, Dbg.invasive) ∈ [(1, Dbg.observe), (2, .invasive)] ∧
      ((List.range 64).filter fun f => (fld (tUnlock 2 5) 3477 12 8).testBit f) = [0, 2] ∧
      ((List.range 64).filter fun f => (fld (tUnlock 1 1) 3477 12 8).testBit f) = [0] ∧
      (tOwned .locked).tokenKeys.isSome = true ∧ RoT.reset.tokenKeys.isSome = true ∧
      (let d := tReq 24 [(hostPa + 0x1009, 1, 2), (hostPa + 0x1018, 1, 4)]
       d.num pa 4 = 24 ∧ fld d 24 0 1 < 64 ∧ (fld d 24 1 1, Dbg.invasive) ∈ [(1, Dbg.observe), (2, .invasive)] ∧ fld d 24 2 6 = 0 ∧ fld d 24 8 8 % 64 = 0 ∧
         4 ≤ fld d 24 16 1 ∧ fld d 24 16 1 ≤ 16 ∧ fld d 24 17 7 = 0) := by
  refine ⟨by decide +kernel, by decide +kernel, by decide +kernel, by decide, by decide, by decide +kernel⟩

end Sys2Proof.Tests
end

section
/-!
SUPPORT. The usage counts of region control blocks (R50): what charging an RCB leaves of memory and of the tree.
-/

namespace Sys2Proof.Proofs

open Machine Laws

/-- The byte is no usage count of an RCB or of an ancestor of it. -/
def Uncounted (d : Dev) (rcb a : Nat) : Prop := ∀ x ∈ d.rcbChain 9 rcb, a < x + 48 ∨ x + 80 ≤ a

/-- From `d` to `e` memory stays canonical and no byte changes but the usage counts of an RCB and of its ancestors; the tree
and the migrations under way stay. -/
structure Recounts (rcb : Nat) (d e : Dev) : Prop where
  migs : e.migs = d.migs
  parent : ∀ x, (e.rcbUse x).parent = (d.rcbUse x).parent
  wf : memWf d.mem = true → memWf e.mem = true
  byte : memWf d.mem = true → ∀ a, Uncounted d rcb a → e.byte a = d.byte a

/-- The chain of an RCB follows the parent pointers alone. -/
theorem rcbChain_of_parent {d e : Dev} (h : ∀ x, (e.rcbUse x).parent = (d.rcbUse x).parent) (n r : Nat) :
    e.rcbChain n r = d.rcbChain n r := by
  induction n generalizing r with
  | zero => rfl
  | succ n ih => simp only [Dev.rcbChain, h, ih]

theorem Recounts.uncounted {rcb a : Nat} {d e : Dev} (h : Recounts rcb d e) (ha : Uncounted d rcb a) : Uncounted e rcb a := by
  simpa only [Uncounted, rcbChain_of_parent h.parent] using ha

theorem Recounts.refl (rcb : Nat) (d : Dev) : Recounts rcb d d := ⟨rfl, fun _ => rfl, id, fun _ _ _ => rfl⟩

theorem Recounts.trans {rcb : Nat} {d e f : Dev} (h : Recounts rcb d e) (k : Recounts rcb e f) : Recounts rcb d f where
  migs := k.migs.trans h.migs
  parent x := (k.parent x).trans (h.parent x)
  wf w := k.wf (h.wf w)
  byte w a ha := (k.byte (h.wf w) a (h.uncounted ha)).trans (h.byte w a ha)

theorem Recounts.fold {α : Type} {rcb : Nat} (f : Dev → α → Dev) (h : ∀ d x, Recounts rcb d (f d x)) (l : List α) (d : Dev) :
    Recounts rcb d (l.foldl f d) := by
  induction l generalizing d with
  | nil => exact .refl rcb d
  | cons x l ih => exact (h d x).trans (ih _)

/-- What charges no RCB changes no byte, whatever RCB one looks at. -/
theorem Recounts.ofZero {d e : Dev} (h : Recounts 0 d e) (rcb : Nat) : Recounts rcb d e :=
  ⟨h.migs, h.parent, h.wf, fun w a _ => h.byte w a (by simp [Uncounted, Dev.rcbChain])⟩

/-- An update of neither memory, RCBs nor migrations. -/
theorem Recounts.ofEq (rcb : Nat) {d e : Dev} (h1 : e.migs = d.migs) (h2 : e.rcbs = d.rcbs) (h3 : e.mem = d.mem) :
    Recounts rcb d e where
  migs := h1
  parent _ := by simp only [Dev.rcbUse, h2]
  wf w := h3 ▸ w
  byte _ _ _ := by simp only [Dev.byte, h3]

/-! ### Charging -/

theorem bytesOfNat_length (n v : Nat) : (bytesOfNat n v).length = n := by
  induction n generalizing v with
  | zero => rfl
  | succ n ih => simp [bytesOfNat, ih]

theorem chargeAll_cons (d : Dev) (x : Nat) (rs : List Nat) (f : RcbUse → RcbUse) :
    d.chargeAll (x :: rs) f = (d.chargeAll [x] f).chargeAll rs f := by
  simp only [Dev.chargeAll, List.foldl_cons, List.foldl_nil]

theorem chargeOne_rcbUse (d : Dev) (x : Nat) (f : RcbUse → RcbUse) (k : Nat) :
    (d.chargeAll [x] f).rcbUse k = if k = x then f (d.rcbUse x) else d.rcbUse k := by
  rw [← rcbUse_setRcb]
  simp only [Dev.chargeAll, List.foldl_cons, List.foldl_nil, Dev.rcbUse]

theorem chargeOne_byte {d : Dev} (w : memWf d.mem = true) {x a : Nat} (f : RcbUse → RcbUse) (ha : a < x + 48 ∨ x + 80 ≤ a) :
    (d.chargeAll [x] f).byte a = d.byte a := by
  simp only [Dev.chargeAll, List.foldl_cons, List.foldl_nil, Dev.byte, setRcb_mem]
  rw [memGet_memPutList w]
  split
  · rw [List.getElem?_eq_none (by simp only [List.length_append, bytesOfNat_length]; omega)]; rfl
  · rfl

theorem chargeAll_byte {d : Dev} (w : memWf d.mem = true) {rs : List Nat} {a : Nat} (f : RcbUse → RcbUse)
    (ha : ∀ x ∈ rs, a < x + 48 ∨ x + 80 ≤ a) : (d.chargeAll rs f).byte a = d.byte a := by
  induction rs generalizing d with
  | nil => rfl
  | cons x rs ih =>
    rw [List.forall_mem_cons] at ha
    rw [chargeAll_cons, ih ((chargeAll_stored d [x] f).memWf w) ha.2, chargeOne_byte w f ha.1]

theorem chargeAll_parent (d : Dev) (rs : List Nat) {f : RcbUse → RcbUse} (hf : ∀ u, (f u).parent = u.parent) (k : Nat) :
    ((d.chargeAll rs f).rcbUse k).parent = (d.rcbUse k).parent := by
  induction rs generalizing d with
  | nil => rfl
  | cons x rs ih =>
    rw [chargeAll_cons, ih, chargeOne_rcbUse]
    split
    · next h => rw [hf, h]
    · rfl

theorem chargeAll_migs (d : Dev) (rs : List Nat) (f : RcbUse → RcbUse) : (d.chargeAll rs f).migs = d.migs := by
  induction rs generalizing d with
  | nil => rfl
  | cons x rs ih =>
    rw [chargeAll_cons, ih]
    simp only [Dev.chargeAll, List.foldl_cons, List.foldl_nil, setRcb_migs]

/-- A charge that leaves the parent pointer changes no byte but the counts charged. -/
theorem charge_recounts (d : Dev) (rcb : Nat) {f : RcbUse → RcbUse} (hf : ∀ u, (f u).parent = u.parent) :
    Recounts rcb d (d.charge rcb f) where
  migs := chargeAll_migs ..
  parent := chargeAll_parent _ _ hf
  wf := (charge_stored d rcb f).memWf
  byte w _ ha := chargeAll_byte w f ha

/-! ### Sectors and codes -/

theorem setPool_recounts (rcb : Nat) (d : Dev) (a b : Nat) (p : Pool) : Recounts rcb d (d.setPool a b p) := .ofEq rcb rfl rfl rfl

theorem putChunk_recounts (rcb : Nat) (d : Dev) (c : Nat) (k : Chunk) : Recounts rcb d (d.putChunk c k) := .ofEq rcb rfl rfl rfl

theorem wakeLadle_recounts (rcb : Nat) (d : Dev) (part home : Nat) (b : Bool) : Recounts rcb d (d.wakeLadle part home b) := by
  simp only [Dev.wakeLadle]
  split
  · exact setPool_recounts ..
  · exact .refl rcb d

theorem noteZero_recounts (rcb : Nat) (d : Dev) (home c : Nat) : Recounts rcb d (d.noteZero home c) := by
  simp only [Dev.noteZero]
  split
  · exact .ofEq rcb rfl rfl rfl
  · exact .refl rcb d

theorem moveSectors_recounts (d : Dev) (part home rcb plus minus : Nat) :
    Recounts rcb d (d.moveSectors part home rcb plus minus) := by
  simp only [Dev.moveSectors]
  split
  · exact .refl rcb d
  · have charged (e : Dev) : Recounts rcb e
        (if rcb = 0 then e else e.charge rcb fun u => { u with sectors := u.sectors + plus - minus }) := by
      split
      · exact .refl rcb e
      · exact charge_recounts e rcb fun _ => rfl
    have h := (setPool_recounts rcb d part home { d.pool part home with held := (d.pool part home).held + plus - minus }).trans
      (charged _)
    split
    · exact h
    · exact h.trans (wakeLadle_recounts ..)

theorem setCodes_recounts (d : Dev) (c : Nat) (codes : List (BitVec 4)) (cls : BitVec 2) (part rcb : Nat) (w : Bool) :
    Recounts rcb d (d.setCodes c codes cls part rcb w) := by
  simp only [Dev.setCodes]
  split
  · exact .refl rcb d
  · exact (((moveSectors_recounts ..).trans ((moveSectors_recounts ..).ofZero rcb)).trans (putChunk_recounts ..)).trans
      (noteZero_recounts ..)

theorem recode_recounts (d : Dev) (ln : Nat) (cls : BitVec 2) (part rcb : Nat) (w : Bool) :
    Recounts rcb d (d.recode ln cls part rcb w) := setCodes_recounts ..

/-! ### A write by physical address -/

/-- With no migration under way nothing is mirrored. -/
theorem mirror_of_migs_nil {d : Dev} (h : d.migs = []) (lns : List Nat) (copied : Bool) : d.mirror lns copied = d := by
  simp only [Dev.mirror, h, List.foldl_nil]

/-- Settles O16: the codes of the lines written cost sectors, and so no byte but counts of RCBs. -/
theorem writeThenRead : Obligations.WriteThenRead := by
  unfold Obligations.WriteThenRead
  intro d cells cls part rcb a w hm ha
  let d1 : Dev := { d with mem := memPutAt d.mem cells }
  have w1 : memWf d1.mem = true := memWf_memPutAt w cells
  have hr : Recounts rcb d1 ((linesIn cells).foldl (fun e l => e.recode l cls part rcb) d1) :=
    .fold _ (fun e l => recode_recounts e l cls part rcb false) _ d1
  have ha1 : Uncounted d1 rcb a := by
    simpa only [Uncounted, rcbChain_of_parent (d := d) (e := d1) fun _ => rfl] using ha
  calc (d.writeAt cells cls part rcb).byte a
      = ((linesIn cells).foldl (fun e l => e.recode l cls part rcb) d1).byte a := by
        rw [Dev.writeAt, mirror_of_migs_nil (hr.migs.trans hm)]
    _ = d1.byte a := hr.byte w1 a ha1
    _ = _ := memGet_memPutAt w cells a

end Sys2Proof.Proofs
end

section
/-!
SUPPORT. What ending an instance and trapping its thread leave (R42, R43, R385).
-/

namespace Sys2Proof.Proofs

open Machine Safety Laws

/-! ### The end of an instance (R42) -/

/-- What reservations give back: sectors to their pools, and so counts of the RCB charged (R373). -/
theorem freeResv_recounts (d : Dev) (x : Inst) (rcb : Nat) : Recounts rcb d (d.freeResv x rcb) :=
  Recounts.fold _ (fun e r => by
    obtain ⟨ln, grow, n⟩ := r
    dsimp only
    split
    · exact .refl rcb e
    · exact ((moveSectors_recounts ..).trans ((moveSectors_recounts ..).ofZero rcb)).trans (putChunk_recounts ..)) _ d

theorem freeResv_stored (d : Dev) (x : Inst) (rcb : Nat) : Stored d (d.freeResv x rcb) :=
  Stored.fold _ (fun e r => by
    obtain ⟨ln, grow, n⟩ := r
    dsimp only
    split
    · exact .refl e
    · exact ((moveSectors_stored ..).trans (moveSectors_stored ..)).trans (putChunk_stored ..)) _ d

/-- Memory does not hold the sums of the prefetch counters (R184). -/
theorem countIf_mem (d : Dev) (p : Prop) [Decidable p] (rcb : Nat) (f : RcbUse → RcbUse) :
    (if p then d else d.count rcb f).mem = d.mem := by
  split <;> rfl

/-- From `d` to `e` instance `i` has ended: no entry of it stays, no word held and no record of an access; threads stand, and
no byte changes but counts of the RCB to which its reservations return. -/
structure Dropped (i rcb : Nat) (d e : Dev) : Prop where
  inst : e.inst i = none
  holds : ∀ h ∈ e.holds, h.inst ≠ i
  recs : ∀ r ∈ e.recs, r.inst ≠ some i
  threads : e.threads = d.threads
  nextOrd : e.nextOrd = d.nextOrd
  byte : memWf d.mem = true → ∀ a, Uncounted d rcb a → e.byte a = d.byte a

theorem dropInst_dropped {d : Dev} {i : Nat} {x : Inst} {t : Thread} (hx : d.inst i = some x) (ht : d.thread x.tid = some t) :
    Dropped i t.rcb d (d.dropInst i) := by
  have hs := freeResv_stored d x t.rcb
  have hr := freeResv_recounts d x t.rcb
  simp only [Dev.dropInst, hx, ht]
  generalize d.freeResv x t.rcb = e at hs hr
  constructor
  case inst => simp [Dev.inst, tget_tdel]
  case holds => simp [List.mem_filter]
  case recs => simp [List.mem_filter]
  case threads =>
    obtain ⟨m, r, p, c, z, g, v, rfl, -⟩ := hs
    dsimp only
    split <;> rfl
  case nextOrd =>
    obtain ⟨m, r, p, c, z, g, v, rfl, -⟩ := hs
    dsimp only
    split <;> rfl
  case byte =>
    intro w a ha
    rw [← hr.byte w a ha]
    simp only [Dev.byte, countIf_mem]

/-! ### The trap of a thread (R385) -/

theorem trapThread_insts (d : Dev) (tid : Nat) (info : TrapInfo) : (d.trapThread tid info).insts = d.insts := by
  simp only [Dev.trapThread, Dev.endRegion]; split <;> rfl

theorem trapThread_holds (d : Dev) (tid : Nat) (info : TrapInfo) : (d.trapThread tid info).holds = d.holds := by
  simp only [Dev.trapThread, Dev.endRegion]; split <;> rfl

/-- The end of the thread's region only removes records. -/
theorem trapThread_recs {d : Dev} {tid : Nat} {info : TrapInfo} {r : Rec} (h : r ∈ (d.trapThread tid info).recs) : r ∈ d.recs := by
  simp only [Dev.trapThread, Dev.endRegion] at h
  split at h
  · exact h
  · simp only [if_true] at h
    exact (List.mem_filter.mp h).1

/-- What a trap of the latched firing's instance leaves (R42, R43, R385): nothing of the instance, and its thread TRAPPED with
what the trap tells. -/
structure Trapped (s : State) (c : Fx) (info : TrapInfo) (d : Dev) : Prop where
  inst : d.inst c.i = none
  byte : MemOk s → ∀ b, ¬ Counted s.dev b → d.byte b = s.dev.byte b
  holds : ∀ h ∈ d.holds, h.inst ≠ c.i
  recs : ∀ r ∈ d.recs, r.inst ≠ some c.i
  thread : d.thread c.x.tid =
    some { c.t with st := .trapped, seq := c.t.seq + 1, trapOrd := s.dev.nextOrd, trap := some info }

theorem mem_of_tget {κ α : Type} [DecidableEq κ] {k : κ} {v : α} {l : List (κ × α)} (h : tget k l = some v) : (k, v) ∈ l := by
  induction l with
  | nil => simp at h
  | cons p r ih =>
    simp only [tget] at h
    split at h
    · next e => cases h; subst e; exact .head _
    · exact .tail _ (ih h)

/-- A byte that is no usage count of any thread's RCBs is none of a given thread's. -/
theorem uncounted_of_thread {d : Dev} {tid a : Nat} {t : Thread} (ht : d.thread tid = some t) (ha : ¬ Counted d a) :
    Uncounted d t.rcb a := by
  intro x hx
  have hc : ¬ (x + 48 ≤ a ∧ a < x + 80) := fun ⟨h1, h2⟩ => ha ⟨(tid, t), mem_of_tget ht, x, hx, h1, h2⟩
  omega

theorem abortTrap_trapped {s : State} {c : Fx} (h : Fires s c) (mk : Word → BitVec 128 → TrapInfo) :
    Trapped s c (mk c.r.blk c.r.image.hdr) (s.dev.abortTrap c.i mk) := by
  obtain ⟨hx, ht, hr, -, -, -⟩ := fx_parts h
  have drop := dropInst_dropped hx ht
  have e : s.dev.abortTrap c.i mk = (s.dev.dropInst c.i).trapThread c.x.tid (mk c.r.blk c.r.image.hdr) := by
    simp only [Dev.abortTrap, hx, hr]
  rw [e]
  generalize s.dev.dropInst c.i = d at drop
  constructor
  case inst => simpa only [Dev.inst, trapThread_insts] using drop.inst
  case byte =>
    intro w b hb
    rw [← drop.byte w b (uncounted_of_thread ht hb)]
    simp only [Dev.byte, trapThread_mem]
  case holds => simpa only [trapThread_holds] using drop.holds
  case recs => exact fun r hr => drop.recs r (trapThread_recs hr)
  case thread =>
    have hd : d.thread c.x.tid = some c.t := by rw [Dev.thread, drop.threads]; exact ht
    simp only [trapThread_thread, if_true, hd, Option.map_some, drop.nextOrd]

theorem trapAt_trapped {s : State} {c : Fx} (h : Fires s c) (cause : Cause) (a : Word) :
    Trapped s c (faultInfo cause c.idx a c.r.blk c.r.image.hdr) (s.dev.trapAt c cause a) :=
  abortTrap_trapped h fun b x => { faultInfo cause c.idx a b x with other := none }

theorem breakAt_trapped {s : State} {c : Fx} (h : Fires s c) (code : BitVec 16) (kind : BitVec 2) :
    Trapped s c { faultInfo .brk c.idx 0 c.r.blk c.r.image.hdr with code := code, kind := kind } (s.dev.breakAt c code kind) :=
  abortTrap_trapped h fun b x => { faultInfo .brk c.idx 0 b x with code := code, kind := kind }

/-! ### TRAP and DBGBRK (R387, R388) -/

/-- A row with neither a result nor the duties of a sink acts when it is selected and has no operands (R86). -/
theorem plainAct_takes0 {p : Pred} {s : State} {c : Fx} (h : Takes0 p s c) (d : Dev) (act : Dev → Dev) :
    d.plainAct c p act = act d := by
  simp only [Dev.plainAct, gate0 .none h]

theorem exec_trap {p : Pred} {s : State} {c : Fx} (h : Takes0 p s c) (code : BitVec 16) :
    Does (.trap p code) s (s.dev.breakAt c code 1) := by
  have e := onFire_next h.1 fun d c => d.plainAct c p fun d => d.breakAt c code 1
  rwa [plainAct_takes0 h] at e

/-- A selected DBGBRK under each debug state of its partition (R388). -/
def debugAct (g : Dbg) (d : Dev) (c : Fx) (code : BitVec 16) : Dev :=
  match g with
  | .off => d
  | .observe => d.buffer c (.dbg code)
  | .invasive => d.breakAt c code 2

theorem exec_dbgbrk {p : Pred} {s : State} {c : Fx} {g : Dbg} (h : Takes0 p s c) (hg : s.rot.dbgOf c.t.part = g)
    (code : BitVec 16) : Does (.dbgbrk p code) s (debugAct g s.dev c code) := by
  have e := onFire_next h.1 fun d c => d.plainAct c p fun d => debugAct (s.rot.dbgOf c.t.part) d c code
  rwa [plainAct_takes0 h, hg] at e

/-- Settles O47: TRAP and an invasive DBGBRK end the instance and trap the thread as any trap does. -/
theorem trapEntry : Obligations.TrapEntry := by
  unfold Obligations.TrapEntry
  intro s c p code cause a
  refine ⟨fun h => ?fault, fun h => ?trap, exec_dbgbrk (code := code), exec_dbgbrk (code := code), fun h hg => ?invasive⟩
  case fault =>
    obtain ⟨hi, hb, hh, hr, ht⟩ := trapAt_trapped h cause a
    exact ⟨hi, hb, hh, hr, ht⟩
  case trap =>
    obtain ⟨hi, hb, hh, hr, ht⟩ := breakAt_trapped h.1 code 1
    exact ⟨_, exec_trap h code, hi, hb, hh, hr, ht⟩
  case invasive =>
    obtain ⟨hi, hb, hh, hr, ht⟩ := breakAt_trapped h.1 code 2
    exact ⟨_, exec_dbgbrk h hg code, hi, hb, hh, hr, ht⟩

end Sys2Proof.Proofs
end

section
/-!
SUPPORT. The step: what a move of each kind makes of the state in each power state (R12, R84, R404, R417, R418).
-/

namespace Sys2Proof.Proofs

open Machine Safety Laws

/-- The fabric clock runs (R417). -/
abbrev Clocked (s : State) : Prop := s.rot.power = .p0 ∨ s.rot.power = .p1

/-! ### Time -/

theorem tick_clocked {s : State} (h : Clocked s) : s.tick = State.release { s with dev := s.dev.tick } := by
  obtain h | h := h <;> simp only [State.tick, h]

theorem stopped_cases {s : State} (h : ¬ Clocked s) : s.rot.power = .p2 ∨ s.rot.power = .p3 := by
  cases hp : s.rot.power <;> simp_all [Clocked]

theorem tick_stopped {s : State} (h : ¬ Clocked s) : s.tick = s := by
  obtain h | h := stopped_cases h <;> simp only [State.tick, h]

theorem not_clocked_p2 {s : State} (h : s.rot.power = .p2) : ¬ Clocked s := by simp [Clocked, h]
theorem not_clocked_p3 {s : State} (h : s.rot.power = .p3) : ¬ Clocked s := by simp [Clocked, h]

/-- An event takes a cycle, but a migration command does not (R380). -/
theorem ite_passes_op {α : Type} (i : Instr) (a b : α) :
    (if (Move.op i).passes then a else b) = match i with | .migrationPost .. => b | _ => a := by
  cases i with
  | migrationPost die cmd => rfl
  | _ => rfl

/-! ### A step with a move on the agenda -/

theorem step_nil {s : State} (hg : s.dev.agenda = []) : step s = .next s.autoMove.tick := by
  simp only [step, hg]

theorem step_take {s t : State} {m : Move} {r : List Move} (hg : s.dev.agenda = m :: r)
    (h : (popped s r).take m = .next t) : step s = .next (if m.passes then t.tick else t) := by
  simp only [popped] at h
  simp only [step, hg, h]

theorem take_next {s t : State} {m : Move} (h : s.move m = .next t) : s.take m = .next t := by
  simp only [State.take, h]

theorem take_notEnabled {s : State} {m : Move} {n : String} (h : s.move m = .refused (.notEnabled n)) : s.take m = .next s := by
  simp only [State.take, h]

theorem take_mustWait {s : State} {i : Instr} {n : String} (h : s.move (.op i) = .refused (.mustWait n)) :
    s.take (.op i) = .next (if fromOutside i then s.putOff (.op i) else s) := by
  simp only [State.take, h]

/-- No move is refused. -/
theorem take_ne_refused (s : State) (m : Move) (x : Refusal) : s.take m ≠ .refused x := by
  simp only [State.take]
  split
  · simp
  · simp
  · next h => exact h x

theorem step_ne_refused (s : State) (x : Refusal) : step s ≠ .refused x := by
  simp only [step]
  split
  · simp
  · split
    · simp
    · exact take_ne_refused _ _ x

/-- A request put off comes back after a move of the device's own and a cycle. -/
theorem putOff_op (s : State) (i : Instr) :
    s.putOff (.op i) =
      (let t := State.autoMove (popped s [])
       let u : State := match i with | .migrationPost .. => t.tick | _ => t
       { u with dev := { u.dev with agenda := u.dev.agenda ++ .op i :: s.dev.agenda } }) := by
  rw [State.putOff, ite_passes_op]; rfl

/-! ### Events and host accesses in each power state -/

theorem move_op_clocked {s : State} (h : Clocked s) (i : Instr) :
    s.move (.op i) = if s.staysBehind i then .next (s.hold i) else exec i s := by
  obtain h | h := h <;> simp only [State.move, State.opMove, h]

theorem move_op_exec {s : State} {i : Instr} (hb : s.staysBehind i = false) (h : Clocked s) : s.move (.op i) = exec i s := by
  simp only [move_op_clocked h, hb, Bool.false_eq_true, if_false]

theorem move_op_p2 {s : State} (h : s.rot.power = .p2) (i : Instr) :
    s.move (.op i) = if wakesP2 i then s.holdAccess i
      else if s.staysBehind i then .next (s.hold i) else if servedInP2 i then exec i s else .next s := by
  simp only [State.move, State.opMove, h]

theorem move_op_p3 {s : State} (h : s.rot.power = .p3) {i : Instr} (hi : i ≠ .coldBringUp) : s.move (.op i) = .next s := by
  simp only [State.move, State.opMove, h]

/-- An access in P2 is held and wakes the module, unless it is waking already (R418). -/
theorem holdAccess_next {s : State} (h : s.rot.power = .p2) (hb : s.dev.balk = false) (i : Instr) :
    s.holdAccess i = .next { s with rot := { s.rot with
      heldOps := s.rot.heldOps ++ [i], waking := true, busy := s.rot.busy || !s.rot.waking } } := by
  obtain ⟨d, r⟩ := s
  cases hw : r.waking <;> simp_all [State.holdAccess, State.hold, execP2WakeAccess, onState]

/-! ### Firings -/

theorem fetch_of_decode {im : Image} {idx k : Nat} {i : Instr} {rest : List Word32} (hk : im.starts[idx]? = some k)
    (hd : decode (im.words.drop k) = .ok (i, rest)) : im.fetch idx = some i := by
  simp only [Image.fetch, hk, hd]

theorem move_fire_clocked {s : State} (h : Clocked s) (i idx : Nat) : s.move (.fire i idx) = s.fireMove i idx := by
  obtain h | h := h <;> simp only [State.move, h]

theorem move_fire_stopped {s : State} (h : ¬ Clocked s) (i idx : Nat) : s.move (.fire i idx) = .next s := by
  obtain h | h := stopped_cases h <;> simp only [State.move, h]

theorem fireMove_none {s : State} {i idx : Nat} (h : s.dev.latch i idx = none) : s.fireMove i idx = .next s := by
  simp only [State.fireMove, h]

theorem fireMove_next {s t : State} {i idx : Nat} {d : Dev} {c : Fx} {ins : Instr} (hl : s.dev.latch i idx = some d)
    (hc : d.fx = some c) (hf : c.r.image.fetch c.idx = some ins) (ht : exec ins { s with dev := d } = .next t) :
    s.fireMove i idx = .next (t.fired c.x.reg) := by
  simp only [State.fireMove, hl, Dev.fetchFire, hc, hf, ht]

/-! ### The statements on the step and on reset -/

theorem step_fire {s t : State} {r : List Move} {i idx : Nat} (hg : s.dev.agenda = .fire i idx :: r)
    (h : (popped s r).move (.fire i idx) = .next t) : step s = .next t.tick := step_take hg (take_next h)

theorem step_op {s t : State} {r : List Move} {i : Instr} (hg : s.dev.agenda = .op i :: r)
    (h : (popped s r).move (.op i) = .next t) : step s = .next (if (Move.op i).passes then t.tick else t) :=
  step_take hg (take_next h)

/-- While the fabric clock stands still, an event that is served takes no cycle. -/
theorem step_op_stopped {s t : State} {r : List Move} {i : Instr} (hg : s.dev.agenda = .op i :: r)
    (h : (popped s r).move (.op i) = .next t) (ht : ¬ Clocked t) : step s = .next t := by
  rw [step_op hg h, tick_stopped ht, ite_self]

/-- Settles O37: the agenda's next move is taken as its kind and the power state have it. -/
theorem stepRunsTheNextMove : Obligations.StepRunsTheNextMove := by
  unfold Obligations.StepRunsTheNextMove
  intro s r
  dsimp only
  refine ⟨?fires, ?cannotFire, ?noClock, ?event, ?behind, ?wakes, ?served, ?ended, ?notServed, ?notEnabled, ?mustWait,
    step_ne_refused s, ?waits, tick_stopped, tick_clocked, ?empty⟩
  case fires =>
    intro i idx d c k ins rest t hg hp hl hc hk hd ht
    exact step_fire hg ((move_fire_clocked (s := popped s r) hp i idx).trans
      (fireMove_next hl hc (fetch_of_decode hk hd) ht))
  case cannotFire =>
    intro i idx hg hp hl
    exact step_fire hg ((move_fire_clocked (s := popped s r) hp i idx).trans (fireMove_none hl))
  case noClock =>
    intro i idx hg hp
    rw [step_fire hg (move_fire_stopped (s := popped s r) hp i idx), tick_stopped (s := popped s r) hp]
  case event =>
    intro i t hg hp hb ht
    exact (step_op hg ((move_op_exec hb hp).trans ht)).trans (congrArg _ (ite_passes_op i _ _))
  case behind =>
    intro i hg h3 hw hb
    have hm : (popped s r).move (.op i) = .next ((popped s r).hold i) := by
      by_cases hp : Clocked s
      · simp only [move_op_clocked (s := popped s r) hp, hb, if_true]
      · have h2 : (popped s r).rot.power = .p2 := (stopped_cases hp).resolve_right h3
        simp only [move_op_p2 h2, hw.resolve_right hp, hb, Bool.false_eq_true, if_false, if_true]
    exact (step_op hg hm).trans (congrArg _ (ite_passes_op i _ _))
  case wakes =>
    intro i hg hp hw hb
    have hm := (move_op_p2 (s := popped s r) hp i).trans ((if_pos hw).trans (holdAccess_next (s := popped s r) hp hb i))
    exact step_op_stopped hg hm (not_clocked_p2 hp)
  case served =>
    intro i t hg hp hw hb hs ht
    have hm : (popped s r).move (.op i) = .next t := by
      simpa only [move_op_p2 (s := popped s r) hp, hw, hb, hs, Bool.false_eq_true, if_false, if_true] using ht
    exact (step_op hg hm).trans (congrArg _ (ite_passes_op i _ _))
  case ended =>
    intro i hg hp hi
    exact step_op_stopped hg (move_op_p3 (s := popped s r) hp hi) (not_clocked_p3 hp)
  case notServed =>
    intro i hg hp hw hb hs
    have hm : (popped s r).move (.op i) = .next (popped s r) := by
      simp only [move_op_p2 (s := popped s r) hp, hw, hb, hs, Bool.false_eq_true, if_false]
    exact step_op_stopped hg hm (not_clocked_p2 hp)
  case notEnabled =>
    intro i n hg hp hb hn
    exact (step_take hg (take_notEnabled ((move_op_exec hb hp).trans hn))).trans (congrArg _ (ite_passes_op i _ _))
  case mustWait =>
    intro i n hg hp hb hn
    have ht := step_take hg (take_mustWait ((move_op_exec hb hp).trans hn))
    constructor
    · intro ho
      rw [ho] at ht
      exact ht.trans (congrArg _ (ite_passes_op i _ _))
    · intro ho
      rw [ho, if_pos rfl, putOff_op] at ht
      exact ht.trans (congrArg _ (ite_passes_op i _ _))
  case waits =>
    intro n hg
    refine (step_take hg (take_next rfl)).trans (congrArg _ ?_)
    rcases n with _ | _ | n <;> rfl
  case empty =>
    intro hg
    exact ⟨_, step_nil hg⟩

/-! ### Reset (R7, R410, R417) -/

/-- At reset every measurement register is 48 zero bytes, and nothing is stored, owned or returned (R411, R414). -/
theorem rootOk_reset : RootOk RoT.reset := by
  refine ⟨nofun, ?owned, fun _ => ⟨rfl, rfl⟩, nofun, nofun, ?measured⟩
  case owned => rintro (h | h) <;> cases h
  case measured =>
    intro i h
    have hm : RoT.reset.m.get ⟨i, h⟩ = List.replicate 48 0 := Vector.getElem_replicate h
    rw [hm, List.length_replicate]

/-- Settles O38: tables are empty at reset, and an absent entry reads as its reset value. -/
theorem resetState : Obligations.ResetState := by
  unfold Obligations.ResetState
  exact ⟨rfl, rfl, fun _ => rfl, rfl, rfl, rfl, rfl, rfl, rfl, rfl, fun _ => ⟨rfl, rfl⟩, fun _ => ⟨rfl, rfl, rfl, rfl⟩,
    fun _ => rfl, rfl, fun _ => rfl, rfl, ⟨rfl, rfl⟩, rootOk_reset⟩

end Sys2Proof.Proofs
end

section
/-!
SUPPORT. An instruction's fields pass every check of the decoder and read back as the instruction (R62..R78).
-/

namespace Sys2Proof.Proofs

/-! ### Parts of joins -/

/-- A field between two others of a join. -/
theorem extract_middle {m k n : Nat} (x : BitVec m) (y : BitVec k) (z : BitVec n) : (x ++ y ++ z).extractLsb' n k = y := by
  rw [extract_in_high _ _ _ _ (Nat.le_refl n), Nat.sub_self, extract_low]

theorem toNat_append_eq_add {m n : Nat} (x : BitVec m) (y : BitVec n) : (x ++ y).toNat = x.toNat * 2 ^ n + y.toNat := by
  rw [BitVec.toNat_append, ← Nat.shiftLeft_add_eq_or_of_lt y.isLt, Nat.shiftLeft_eq]

/-- A field over zeros reads as the field's number. -/
theorem toNat_zero_append {m n : Nat} (x : BitVec n) : (0#m ++ x).toNat = x.toNat := by
  rw [toNat_append_eq_add, BitVec.toNat_zero, Nat.zero_mul, Nat.zero_add]

/-- A limit on a field is a limit on the immediate that holds the field over zeros. -/
theorem zero_append_limit {m n : Nat} {x : BitVec n} (limit : Nat → Bool) (h : limit x.toNat = true) :
    limit (0#m ++ x).toNat = true := by
  rwa [toNat_zero_append]

theorem zero_append_lt {m n : Nat} (x : BitVec n) : decide ((0#m ++ x).toNat < 2 ^ n) = true :=
  zero_append_limit (· < 2 ^ n) (decide_eq_true x.isLt)

/-- Two fields over zeros stay within their bits. -/
theorem zero_append_append_lt {m k n : Nat} (x : BitVec k) (y : BitVec n) :
    decide ((0#m ++ x ++ y).toNat < 2 ^ (k + n)) = true := by
  rw [BitVec.append_assoc, BitVec.toNat_cast]
  exact zero_append_lt (x ++ y)

theorem one_le_of_bne_zero {n : Nat} {x : BitVec n} (h : (x != 0#n) = true) : decide (1 ≤ x.toNat) = true := by
  rw [bne_iff_ne, ne_eq, ← BitVec.toNat_inj] at h
  exact decide_eq_true (Nat.one_le_iff_ne_zero.mpr h)

theorem lt_succ_of_le_limit {a b : Nat} (h : decide (a ≤ b) = true) : decide (a < b + 1) = true :=
  decide_eq_true (Nat.lt_succ_of_le (of_decide_eq_true h))

/-! ### The codes of suffixes (R68, R78) -/

theorem encPred_ne_three (p : Pred) : encPred p ≠ 3#2 := by cases p <;> decide
theorem encRole_lt (x : JoinRole) : (encRole x).toNat < 2 := by cases x <;> decide
theorem encASize_lt (x : ASize) : (encASize x).toNat < 2 := by cases x <;> decide
theorem encLaneW_lt (x : LaneW) : (encLaneW x).toNat < 3 := by cases x <;> decide
theorem encRedOp_lt (x : RedOp) : (encRedOp x).toNat < 3 := by cases x <;> decide

/-- An order and a scope lie in the low four bits of ext. -/
theorem ext_scope_order (x : Scope) (y : MOrder) : ((0#3 ++ encScope x ++ encOrder y) &&& ~~~0xF#7 == 0#7) = true := by
  cases x <;> cases y <;> decide

theorem ext_scope (x : Scope) : ((0#3 ++ encScope x ++ 0#2) &&& ~~~0xC#7 == 0#7) = true := by cases x <;> decide

theorem ext_rounding (x : Rounding) : ((0#4 ++ encRounding x) &&& ~~~0x7#7 == 0#7) = true := by cases x <;> decide

theorem ext_rounding_le (x : Rounding) : decide ((0#4 ++ encRounding x).toNat ≤ 4) = true := by cases x <;> decide

theorem extOk_of_zero {o : OpInfo} {f : Fields} (h : f.ext = 0#7) : extOk o f = true := by
  simp [extOk, h]

theorem tgtOk_none : tgtOk 0x1FF#9 = true := rfl

/-! ### Immediates of more than one field (R75) -/

/-- READ names one of 16 g registers or of 8 k registers. -/
theorem read_imm {n : BitVec 4} {file : RFile} (h : (file == .g || decide (n.toNat < 8)) = true) :
    let i := (0#11 ++ encRFile file ++ n).toNat
    (decide (i < 32) && (decide (i < 16) || decide (i < 24))) = true := by
  intro i
  have hi : i = (encRFile file).toNat * 2 ^ 4 + n.toNat := by
    rw [show i = (0#11 ++ encRFile file ++ n).toNat from rfl, toNat_append_eq_add, toNat_zero_append]
  have hn := n.isLt
  simp only [Bool.and_eq_true, Bool.or_eq_true, decide_eq_true_eq] at h ⊢
  cases file with
  | g =>
    have hc : (encRFile .g).toNat = 0 := rfl
    omega
  | k =>
    have hc : (encRFile .k).toNat = 1 := rfl
    have h8 : n.toNat < 8 := h.resolve_left (by decide)
    omega

theorem movx_imm_scl (fmt : BitVec 4) (geom : BitVec 2) (scl : BitVec 1) :
    (0#9 ++ scl ++ geom ++ fmt).extractLsb' 6 1 = scl := by
  rw [extract_in_high _ _ _ _ (by decide)]
  exact extract_middle _ _ _

theorem movx_imm_lt (fmt : BitVec 4) (geom : BitVec 2) (scl : BitVec 1) :
    decide ((0#9 ++ scl ++ geom ++ fmt).toNat < 128) = true := by
  rw [decide_eq_true_eq, toNat_append_eq_add, toNat_append_eq_add, toNat_zero_append]
  omega

/-! ### The checks, in the decoder's order (R79) -/

section
variable {i : Instr} {f : Fields} {o : OpInfo}

theorem fields_held (hf : i.fields = some f) : f.held = true := by
  cases i <;> cases hf <;> rfl

theorem fields_assigned (hf : i.fields = some f) : ∃ o, opInfo f.opcode.toNat = some o := by
  cases i <;> cases hf <;> exact ⟨_, rfl⟩

theorem fields_form (hf : i.fields = some f) (ho : opInfo f.opcode.toNat = some o) : o.forms.contains f.form = true := by
  cases i <;> cases hf <;> cases ho <;> rfl

/-- The rows whose slot p takes data, and the taking operators, are those without a predicate of their own (R69, R336). -/
theorem fields_pred (hf : i.fields = some f) (ho : opInfo f.opcode.toNat = some o) :
    ¬ (f.pred = 3 ∨ ((o.pData || o.taking) && f.pred != 0) = true) := by
  cases i <;> cases hf <;> cases ho <;> simp [encPred_ne_three]

theorem fields_variant (hf : i.fields = some f) (ho : opInfo f.opcode.toNat = some o) : f.variant.toNat < o.variants := by
  cases i <;> cases hf <;> cases ho
  case sjoin => exact encRole_lt _
  case aadd | aand | aor | axor | amin | amax | aminu | amaxu | axchg | acas => exact encASize_lt _
  case vshuf => exact BitVec.isLt _
  case viadd | visub | vimul | viand | vior | vixor | vishl | vishr | vimin | vimax => exact encLaneW_lt _
  case fred => exact encRedOp_lt _
  all_goals exact Nat.one_pos

theorem fields_ext (hf : i.fields = some f) (ho : opInfo f.opcode.toNat = some o) : extOk o f = true := by
  cases i <;> cases hf <;> cases ho
  case aadd | aand | aor | axor | amin | amax | aminu | amaxu | axchg | acas | afadd =>
    exact Bool.and_eq_true_iff.mpr ⟨ext_scope_order _ _, rfl⟩
  case acq | rel | sync => exact Bool.and_eq_true_iff.mpr ⟨ext_scope _, rfl⟩
  case vcvt => exact Bool.and_eq_true_iff.mpr ⟨ext_rounding _, ext_rounding_le _⟩
  all_goals exact extOk_of_zero rfl

/-- A field's limits are those that its bits give and those of well-formedness. -/
theorem fields_imm (hf : i.fields = some f) (hw : i.fieldsOk = true) : immOk f = true := by
  cases i <;> cases hf
  case write | vread | vwrite | movW | nullW | stopTok | testk | shli | shri | sari | bfn | lutb | vbcast | vextr | vins | vrot
    | vrope | fscan | fchk | hint => exact zero_append_lt _
  case read => exact read_imm hw
  case movx =>
    refine Bool.and_eq_true_iff.mpr ⟨movx_imm_lt _ _ _, ?_⟩
    rw [extract_low (n := 4), extract_middle (n := 4), movx_imm_scl, decBool_encBool]
    exact hw
  case lvlup | lvldn =>
    exact Bool.and_eq_true_iff.mpr ⟨zero_append_limit (1 ≤ ·) (one_le_of_bne_zero hw), zero_append_lt _⟩
  case lea => exact zero_append_limit (· < 4) (lt_succ_of_le_limit hw)
  case sext | zext => exact zero_append_limit (fun k => 1 ≤ k && k ≤ 64) hw
  case bfx | bfi =>
    refine Bool.and_eq_true_iff.mpr ⟨zero_append_append_lt _ _, ?_⟩
    rw [extract_low (n := 6), extract_middle (n := 6)]
    exact hw
  case agen | agenx => exact hw
  case vcvt =>
    refine Bool.and_eq_true_iff.mpr ⟨zero_append_append_lt _ _, ?_⟩
    rw [extract_low (n := 4), extract_middle (n := 4)]
    exact hw
  case vpack => exact zero_append_limit (· < 12) (lt_succ_of_le_limit hw)
  case vunpk => exact zero_append_limit (· < 2) (lt_succ_of_le_limit hw)
  case vtopk => exact zero_append_limit (fun k => 1 ≤ k && k ≤ 256) hw
  case crrd => exact Bool.and_eq_true_iff.mpr ⟨zero_append_lt _, zero_append_limit crReadable hw⟩
  case crwr => exact Bool.and_eq_true_iff.mpr ⟨zero_append_lt _, zero_append_limit crWritable hw⟩
  all_goals rfl

theorem fields_targets (hf : i.fields = some f) (ho : opInfo f.opcode.toNat = some o) : fieldTargetsOk o f = true := by
  cases i <;> cases hf <;> cases ho <;> simp [fieldTargetsOk, tgtOk_none, extract_low (n := 9)]

/-- Every operand reads back from its field. -/
theorem mkInstr_fields (hf : i.fields = some f) : mkInstr f = some i := by
  cases i <;> cases hf <;> change some _ = _ <;>
    simp only [extract_low, extract_middle, movx_imm_scl, decPred_encPred, decTgt_encTgt, decRFile_encRFile, decBool_encBool,
      decRole_encRole, decASize_encASize, decOrder_encOrder, decScope_encScope, decRounding_encRounding, decLaneW_encLaneW,
      decShuf_encShuf, decRedOp_encRedOp]

/-- The fields of a well-formed instruction pass each check and give the instruction. -/
theorem decodeFields_fields (hf : i.fields = some f) (hw : i.fieldsOk = true) : decodeFields f = .ok i := by
  obtain ⟨o, ho⟩ := fields_assigned hf
  have hp : ¬ (f.pred = 3 || ((o.pData || o.taking) && f.pred != 0)) = true := by
    simpa only [Bool.or_eq_true, decide_eq_true_eq] using fields_pred hf ho
  simp only [decodeFields, ho, fields_form hf ho, hp, Nat.not_le.mpr (fields_variant hf ho), fields_ext hf ho, fields_imm hf hw,
    fields_targets hf ho, mkInstr_fields hf, Bool.not_true, Bool.false_eq_true, if_false]

end

/-- Settles O36: the fields are read back from the words, pass every check, and give the instruction. -/
theorem decodeUndoesEncode : Obligations.DecodeUndoesEncode := by
  unfold Obligations.DecodeUndoesEncode
  intro i rest hs hw
  obtain ⟨f, hf⟩ := Option.isSome_iff_exists.mp hs
  have hok : i.fieldsOk = true := (Bool.and_eq_true_iff.mp hw).1
  simp only [encode, hf, decode, takeFields_words f (fields_held hf) rest, decodeFields_fields hf hok]

end Sys2Proof.Proofs
end

section
/-!
SUPPORT. Words of the worked encodings (R62..R66).
-/

namespace Sys2Proof.Proofs

/-- Words that encode a well-formed instruction decode to it. -/
theorem decode_toOption_of_encode {i : Instr} {ws : List Word32} (h : encode i = ws) (hs : i.fields.isSome = true)
    (hw : i.wf = true) : (decode ws).toOption = some (i, []) := by
  have hd := decodeUndoesEncode i [] hs hw
  rw [List.append_nil, h] at hd
  rw [hd]
  rfl

/-- Settles O35: each instruction's encoding is the words given; the last three have no form or too few words. -/
theorem wordsDecode : Obligations.WordsDecode := by
  unfold Obligations.WordsDecode
  intro n
  refine ⟨?_, ?_, ?_, ?_, ?_, ?_, ?_, ?_, ?_, ?_, ?_, ?_, ?_, ?_, ?_, ?_, ?_, ?_, ?_, ?noForm, ?truncated, ?empty⟩
  case noForm => rfl
  case truncated => rfl
  case empty => rfl
  all_goals exact decode_toOption_of_encode (by decide) rfl (by decide)

end Sys2Proof.Proofs
end

section
/-!
SUPPORT. A silent set whose stream has an extension frame to return: the return comes before the extension (R147, R246, R247).
-/

namespace Sys2Proof.Proofs

open Machine Safety

/-- Frames of 64 bytes, one of the ring and one of overflow: TAIL has crossed the first boundary, and the bytes up to HWM stand
in an extension frame that has still to return. -/
def dueStream : Stream where
  home := 0
  tail := 64
  hwm := 128
  readers := Vector.ofFn fun j => ⟨j == 0, 64, 64, false⟩
  hpro := false
  pj := true
  ovu := 1
  ovb := 1
  mem := false
  esz := 3
  fsz := 6
  nf := 1
  fbase := 0
  dirty := true
  users := []
  spans := []

/-- A region whose one instruction writes to a stream. -/
def writerRegion : Region := placedRegion 0 (imageOf (.swr .always) (encode (.swr .always)))

/-- Its instance waits for LIMIT, which is 128, to reach 192. -/
def waitingWriter : Inst :=
  { newInst Dev.reset 0 0 writerRegion 0 (placedThread 0) (State.snap State.reset (placedThread 0)) with
    blocked := [(⟨0, 0, none, none, none, none, none, .new⟩, .limit 0 192)] }

/-- The wait has lasted 4,096 cycles. The stream's extension frame lies in the second KiB of die 0's scratch. -/
def dueState : State :=
  { State.reset with dev := { Dev.reset with
      cycle := 4096
      threads := [(0, placedThread 0)]
      regions := [(0, writerRegion)]
      insts := [(0, waitingWriter)]
      streams := [(0, dueStream)]
      drip := [(0, 1, [(scratchBase 0 + 1024, 0)])] } }

/-- The wait's full edge. -/
def waitEdge : EdgeAt := ⟨0, 0, 0, .stream 0 0 0 true⟩

theorem dueState_silentSet : dueState.dev.silentSet 0 = [waitEdge] := by decide +kernel

/-- While the frame is out, the overflow budget is spent. -/
theorem dueState_spent : dueState.dev.extNeed waitEdge = none := by decide +kernel

/-- An outcome's next state still holds a region. -/
def keepsRegion (k : Nat) : Host.Outcome State Fault Refusal → Bool
  | .next t => (t.dev.region k).isSome
  | _ => false

/-- With the frame returned the budget has room again: the event extends the stream and releases nothing. -/
theorem dueState_extends : keepsRegion 0 (exec (.quiescenceExtension 0 (scratchBase 0 + 2048)) dueState) = true := by
  decide +kernel

/-- Refutes O57: its last clause asks whether an extension is possible of the state as it stands, and demands DEADLOCK where
none is. The event first returns the extension frames that are due (R147), which frees overflow budget. In `dueState` the
stream's one frame of overflow is due, so the clause demands DEADLOCK, while the event extends the stream and its region
stays (R246, R247). -/
theorem not_blockEvents : ¬ Obligations.BlockEvents := by
  unfold Obligations.BlockEvents
  rintro ⟨-, -, -, -, -, -, -, -, -, -, hquiet⟩
  have hset : dueState.dev.silentSet 0 ≠ [] := by rw [dueState_silentSet]; exact List.cons_ne_nil _ _
  have hnone : (extensionOrder (dueState.dev.silentSet 0)).findSome?
      (fun e => (dueState.dev.extNeed e).map fun n => (e, n)) = none := by
    have horder : extensionOrder [waitEdge] = [waitEdge] := rfl
    rw [dueState_silentSet, horder, List.findSome?_cons, dueState_spent]
    rfl
  obtain ⟨hdeadlock, hgone, -⟩ := (hquiet dueState 0 (scratchBase 0 + 2048) hset).2 hnone
  have hregion := hgone waitEdge (by rw [dueState_silentSet]; exact List.mem_singleton_self _)
  have hkeeps := dueState_extends
  rw [hdeadlock (.inr ⟨rfl, rfl, rfl⟩), keepsRegion] at hkeeps
  exact Option.isSome_iff_ne_none.mp hkeeps hregion

end Sys2Proof.Proofs
end

section
/-!
SUPPORT. Scalar rows fire on operands that the gate accepts: the row's value goes to its targets (R86, R109, R113, R114).
-/

namespace Sys2Proof.Proofs

open Machine Safety Laws

/-! ### Rows of no, one, two and three scalars (R109) -/

section
variable {i : Instr} {s : State} {c : Fx} {p : Pred} {tgts : List Tgt} {a b q v : Word}

/-- A row whose gate acts sends the value that it makes of its operands. -/
theorem sends_of_ordinary {f : Fx → Word} (hf : Fires s c) (hg : gateOf p .all c.fr = .act)
    (he : exec i s = onFire s fun d c => d.ordinary c p .all tgts fun d => d.send c tgts (scalarTok (f c))) :
    Sends i s c tgts (scalarTok (f c)) := by
  have e := onFire_next hf fun d c => d.ordinary c p .all tgts fun d => d.send c tgts (scalarTok (f c))
  simp only [Dev.ordinary, hg] at e
  exact he.trans e

theorem sends_const (h : Takes0 p s c)
    (he : exec i s = onFire s fun d c => d.ordinary c p .all tgts fun d => d.send c tgts (scalarTok v)) :
    Sends i s c tgts (scalarTok v) :=
  sends_of_ordinary (f := fun _ => v) h.1 (gate0 .all h) he

theorem sends_scalar1 {f : Word → Word} (h : Takes1 p s c a) (he : exec i s = onFire s fun d c => d.scalar1 c p tgts f)
    (hv : f a = v) : Sends i s c tgts (scalarTok v) := by
  obtain ⟨hfires, -, ha, -, -⟩ := id h
  have e := sends_of_ordinary hfires (gate1 .all h) he
  rwa [val_a ha, hv] at e

theorem sends_scalar2 {f : Word → Word → Word} (h : Takes2 p s c a b)
    (he : exec i s = onFire s fun d c => d.scalar2 c p tgts f) (hv : f a b = v) : Sends i s c tgts (scalarTok v) := by
  obtain ⟨hfires, -, ha, hb, -⟩ := id h
  have e := sends_of_ordinary hfires (gate2 .all h) he
  rwa [val_a ha, val_b hb, hv] at e

theorem sends_scalar3 {f : Word → Word → Word → Word} (h : Takes3 s c a b q)
    (he : exec i s = onFire s fun d c => d.ordinary c .always .all tgts fun d =>
      d.send c tgts (scalarTok (f c.a.val c.b.val c.p.val)))
    (hv : f a b q = v) : Sends i s c tgts (scalarTok v) := by
  obtain ⟨hfires, ha, hb, hq, -⟩ := id h
  have e := sends_of_ordinary hfires (gate3 .all h) he
  rwa [val_a ha, val_b hb, val_p hq, hv] at e

/-! ### Division (R113, R114) -/

variable {f z : Word → Word → Word}

/-- A division on two scalars sends its result, or raises DZ and sends the zero divisor's own value. -/
theorem exec_divide (h : Takes2 p s c a b) (he : exec i s = onFire s fun d c => d.divide c p tgts f z) :
    Does i s (if b = 0 then s.dev.raise c flDZ fun d => d.send c tgts (scalarTok (z a b))
      else s.dev.send c tgts (scalarTok (f a b))) := by
  obtain ⟨hfires, -, ha, hb, -⟩ := id h
  have e := onFire_next hfires fun d c => d.divide c p tgts f z
  simp only [Dev.divide, Dev.ordinary, gate2 .all h, val_a ha, val_b hb] at e
  exact he.trans e

theorem sends_divide (h : Takes2 p s c a b) (hb : b ≠ 0) (he : exec i s = onFire s fun d c => d.divide c p tgts f z)
    (hv : f a b = v) : Sends i s c tgts (scalarTok v) := by
  have e := exec_divide h he
  rwa [if_neg hb, hv] at e

/-- Of the trap enables, DZ has TEN[77] (R270). -/
theorem trapOf_divZero (ten : BitVec 3) : trapOf ten flDZ = if ten.getLsbD 1 then some .arith else none := by
  have h0 : flDZ.getLsbD 0 = false := rfl
  have h1 : flDZ.getLsbD 1 = true := rfl
  have h5 : flDZ.getLsbD 5 = false := rfl
  simp only [trapOf, h0, h1, h5, Bool.false_and, Bool.true_and, Bool.false_or, Bool.false_eq_true, if_false]

theorem does_divide_zero (h : Takes2 p s c a b) (hb : b = 0) (ht : c.x.cr.ten.getLsbD 1 = false)
    (he : exec i s = onFire s fun d c => d.divide c p tgts f z) (hv : z a b = v) :
    Does i s ((s.dev.modInst c.i fun x => { x with raised := x.raised ||| 2 }).send c tgts (scalarTok v)) := by
  have e := exec_divide h he
  rw [if_pos hb, Dev.raise, trapOf_divZero, ht, hv] at e
  exact e

theorem traps_divide_zero (h : Takes2 p s c a b) (hb : b = 0) (ht : c.x.cr.ten.getLsbD 1 = true)
    (he : exec i s = onFire s fun d c => d.divide c p tgts f z) : Traps i s c .arith 0 := by
  have e := exec_divide h he
  rw [if_pos hb, Dev.raise, trapOf_divZero, ht] at e
  exact e

end

end Sys2Proof.Proofs
end

section
/-!
SUPPORT. The integer arithmetic of scalars modulo 2^64 (R112, R113).
-/

namespace Sys2Proof.Proofs

open Machine Safety

/-! ### Sums, products and the lesser of two (R112) -/

theorem sub_eq_ofInt (a b : Word) : a - b = BitVec.ofInt 64 (a.toInt - b.toInt) := by
  rw [← BitVec.toInt_inj, BitVec.toInt_sub, BitVec.toInt_ofInt]

theorem mul_eq_ofInt (a b : Word) : a * b = BitVec.ofInt 64 (a.toInt * b.toInt) := by
  rw [BitVec.ofInt_mul, BitVec.ofInt_toInt, BitVec.ofInt_toInt]

theorem mulHi_natCast (n : Nat) : mulHi (Int.ofNat n) = BitVec.ofNat 64 (n / 2 ^ 64) :=
  BitVec.ofInt_natCast 64 (n / 2 ^ 64)

theorem add_sx_eq_ofInt {n : Nat} (a : Word) (x : BitVec n) : a + sx x = BitVec.ofInt 64 (a.toInt + x.toInt) := by
  rw [BitVec.ofInt_add, BitVec.ofInt_toInt]
  rfl

theorem neg_eq_ofInt (a : Word) : 0 - a = BitVec.ofInt 64 (0 - a.toInt) :=
  sub_eq_ofInt 0 a

/-- A choice by the reverse strict order is the choice by the order itself. -/
theorem ite_slt_eq (a b x y : Word) : (if BitVec.slt b a then x else y) = if a.toInt ≤ b.toInt then y else x := by
  simp only [BitVec.slt_iff_toInt_lt, ← Int.not_le, ite_not]

theorem ite_lt_eq (a b x y : Word) : (if b < a then x else y) = if a.toNat ≤ b.toNat then y else x := by
  simp only [BitVec.lt_def, ← Nat.not_le, ite_not]

/-- Of equal operands either is the greater. -/
theorem max_slt_eq (a b : Word) : (if BitVec.slt a b then b else a) = if a.toInt ≤ b.toInt then b else a := by
  by_cases h : a = b
  · simp only [h, ite_self]
  · have hne : a.toInt ≠ b.toInt := fun e => h (BitVec.toInt_inj.mp e)
    simp only [BitVec.slt_iff_toInt_lt, Int.lt_iff_le_and_ne, hne, ne_eq, not_false_eq_true, and_true]

theorem max_lt_eq (a b : Word) : (if a < b then b else a) = if a.toNat ≤ b.toNat then b else a := by
  by_cases h : a = b
  · simp only [h, ite_self]
  · have hne : a.toNat ≠ b.toNat := fun e => h (BitVec.toNat_inj.mp e)
    simp only [BitVec.lt_def, Nat.lt_iff_le_and_ne, hne, ne_eq, not_false_eq_true, and_true]

/-- Settles O1: each row's word is the sum, product or choice that R112 names. -/
theorem scalarArithmeticResults : Obligations.ScalarArithmeticResults := by
  unfold Obligations.ScalarArithmeticResults
  intro s c p imm t1 t2 t3 a b
  refine ⟨fun h => ⟨?add, ?sub, ?mul, ?mulh, ?mulhu, ?min, ?max, ?minu, ?maxu⟩, fun h => ⟨?addi, ?neg, ?abs⟩⟩
  case add => exact sends_scalar2 h rfl (BitVec.add_def a b)
  case sub => exact sends_scalar2 h rfl (sub_eq_ofInt a b)
  case mul => exact sends_scalar2 h rfl (mul_eq_ofInt a b)
  case mulh => exact sends_scalar2 h rfl rfl
  case mulhu => exact sends_scalar2 h rfl (mulHi_natCast _)
  case min => exact sends_scalar2 h rfl (ite_slt_eq a b b a)
  case max => exact sends_scalar2 h rfl (max_slt_eq a b)
  case minu => exact sends_scalar2 h rfl (ite_lt_eq a b b a)
  case maxu => exact sends_scalar2 h rfl (max_lt_eq a b)
  case addi => exact sends_scalar1 h rfl (add_sx_eq_ofInt a imm)
  case neg => exact sends_scalar1 h rfl (neg_eq_ofInt a)
  case abs => exact sends_scalar1 h rfl (by rw [ite_slt_eq, neg_eq_ofInt]; rfl)

/-! ### Quotients and remainders (R113) -/

theorem sdiv_eq_ofInt (a b : Word) : a.sdiv b = BitVec.ofInt 64 (a.toInt.tdiv b.toInt) := by
  rw [← BitVec.toInt_inj, BitVec.toInt_sdiv, BitVec.toInt_ofInt]

/-- The remainder is what the truncated quotient leaves of the dividend. -/
theorem srem_eq_ofInt (a b : Word) : a.srem b = BitVec.ofInt 64 (a.toInt - b.toInt * a.toInt.tdiv b.toInt) := by
  rw [← Int.tmod_def, ← BitVec.toInt_srem, BitVec.ofInt_toInt]

theorem umod_eq_ofNat (a b : Word) : a % b = BitVec.ofNat 64 (a.toNat - b.toNat * (a.toNat / b.toNat)) := by
  rw [BitVec.umod_def, Nat.mod_eq_sub_mul_div]

/-- Settles O2: a row divides where the divisor is not zero, and otherwise raises DZ or takes its trap. -/
theorem scalarDivisionResults : Obligations.ScalarDivisionResults := by
  unfold Obligations.ScalarDivisionResults
  intro s c p t1 t2 a b h
  refine ⟨fun hb => ⟨?div, ?divu, ?rem, ?remu⟩, fun hb ht => ?flag, fun hb ht => ?trap⟩
  case div => exact sends_divide h hb rfl (sdiv_eq_ofInt a b)
  case divu => exact sends_divide h hb rfl BitVec.udiv_def
  case rem => exact sends_divide h hb rfl (srem_eq_ofInt a b)
  case remu => exact sends_divide h hb rfl (umod_eq_ofNat a b)
  case flag =>
    exact ⟨does_divide_zero h hb ht rfl rfl, does_divide_zero h hb ht rfl rfl, does_divide_zero h hb ht rfl rfl,
      does_divide_zero h hb ht rfl rfl⟩
  case trap =>
    exact ⟨traps_divide_zero h hb ht rfl, traps_divide_zero h hb ht rfl, traps_divide_zero h hb ht rfl,
      traps_divide_zero h hb ht rfl⟩

end Sys2Proof.Proofs
end

section
/-!
SUPPORT. Shifts and rotation of scalars by amounts that are not reduced (R115, R116).
-/

namespace Sys2Proof.Proofs

open Machine Safety

theorem shiftLeft_eq_ofNat (a : Word) (n : Nat) : a <<< n = BitVec.ofNat 64 (a.toNat * 2 ^ n) := by
  rw [← BitVec.toNat_inj, BitVec.toNat_shiftLeft, Nat.shiftLeft_eq, BitVec.toNat_ofNat]

theorem shl64_eq (a : Word) (n : Nat) : shl64 a n = if n < 64 then BitVec.ofNat 64 (a.toNat * 2 ^ n) else 0 := by
  simp only [shl64, shiftLeft_eq_ofNat, ← Nat.not_lt, ite_not]

theorem ushiftRight_eq_ofNat (a : Word) (n : Nat) : a >>> n = BitVec.ofNat 64 (a.toNat / 2 ^ n) := by
  rw [← Nat.shiftRight_eq_div_pow, ← BitVec.toNat_ushiftRight, BitVec.ofNat_toNat, BitVec.setWidth_eq]

theorem shr64_eq (a : Word) (n : Nat) : shr64 a n = if n < 64 then BitVec.ofNat 64 (a.toNat / 2 ^ n) else 0 := by
  simp only [shr64, ushiftRight_eq_ofNat, ← Nat.not_lt, ite_not]

theorem sar64_of_lt (a : Word) {n : Nat} (h : n < 64) : sar64 a n = BitVec.ofInt 64 (a.toInt / 2 ^ n) := by
  have hmin : Nat.min n 63 = n := Nat.min_eq_left (Nat.le_of_lt_succ h)
  have hshift : a.toInt >>> n = a.toInt / 2 ^ n := Int.shiftRight_eq_div_pow a.toInt n
  rw [sar64, hmin]
  exact congrArg (BitVec.ofInt 64) hshift

/-- A shift by 63 leaves copies of the sign. -/
theorem getLsbD_sshiftRight_63 (a : Word) {i : Nat} (hi : i < 64) : (a.sshiftRight 63).getLsbD i = a.getLsbD 63 := by
  rw [BitVec.getLsbD_sshiftRight, BitVec.msb_eq_getLsbD_last, decide_eq_false (Nat.not_le.mpr hi), Bool.not_false,
    Bool.true_and]
  split
  case isTrue h =>
    have h0 : i = 0 := by omega
    rw [h0]
  case isFalse => rfl

theorem sar64_of_le (a : Word) {n : Nat} (h : 64 ≤ n) : sar64 a n = if a.getLsbD 63 then -1 else 0 := by
  have hmin : Nat.min n 63 = 63 := Nat.min_eq_right (by omega)
  rw [sar64, hmin]
  apply BitVec.eq_of_getLsbD_eq
  intro i hi
  rw [getLsbD_sshiftRight_63 a hi]
  cases a.getLsbD 63 with
  | false => exact BitVec.getLsbD_zero.symm
  | true =>
    have hones : (-1 : Word) = BitVec.allOnes 64 := by decide
    rw [if_pos rfl, hones, BitVec.getLsbD_allOnes, decide_eq_true hi]

theorem sar64_eq (a : Word) (n : Nat) :
    sar64 a n = if n < 64 then BitVec.ofInt 64 (a.toInt / 2 ^ n) else if a.getLsbD 63 then -1 else 0 := by
  split
  case isTrue h => exact sar64_of_lt a h
  case isFalse h => exact sar64_of_le a (Nat.not_lt.mp h)

/-- Rotation takes bit i to bit i + r. -/
theorem getLsbD_rotateLeft_add (a : Word) {r i : Nat} (hr : r < 64) (hi : i < 64) :
    (a.rotateLeft r).getLsbD ((i + r) % 64) = a.getLsbD i := by
  rw [BitVec.getLsbD_rotateLeft_of_le hr]
  by_cases h : i + r < 64
  · have hnot : ¬ i + r < r := by omega
    rw [Nat.mod_eq_of_lt h, decide_eq_false hnot, cond_false, decide_eq_true h, Bool.true_and, Nat.add_sub_cancel]
  · have hmod : (i + r) % 64 = i + r - 64 := by omega
    have hlt : i + r - 64 < r := by omega
    have hpos : 64 - r + (i + r - 64) = i := by omega
    rw [hmod, decide_eq_true hlt, cond_true, hpos]

/-- Settles O3: a register amount decides by its size, an immediate one is always below 64. -/
theorem scalarLogicAndShiftResults : Obligations.ScalarLogicAndShiftResults := by
  unfold Obligations.ScalarLogicAndShiftResults
  intro s c p imm amt t1 t2 t3 a b
  refine ⟨fun h => ⟨?and, ?or, ?xor, ?shl, ?shr, ?sar, ?rotl⟩, fun h => ⟨?andi, ?ori, ?xori, ?shli, ?shri, ?sari⟩⟩
  case and => exact sends_scalar2 h rfl rfl
  case or => exact sends_scalar2 h rfl rfl
  case xor => exact sends_scalar2 h rfl rfl
  case shl => exact sends_scalar2 h rfl (shl64_eq a b.toNat)
  case shr => exact sends_scalar2 h rfl (shr64_eq a b.toNat)
  case sar => exact sends_scalar2 h rfl (sar64_eq a b.toNat)
  case rotl =>
    exact ⟨_, sends_scalar2 h rfl rfl, fun i hi => getLsbD_rotateLeft_add a (Nat.mod_lt _ (by decide)) hi⟩
  case andi => exact sends_scalar1 h rfl rfl
  case ori => exact sends_scalar1 h rfl rfl
  case xori => exact sends_scalar1 h rfl rfl
  case shli => exact sends_scalar1 h rfl ((shl64_eq a amt.toNat).trans (if_pos amt.isLt))
  case shri => exact sends_scalar1 h rfl ((shr64_eq a amt.toNat).trans (if_pos amt.isLt))
  case sari => exact sends_scalar1 h rfl (sar64_of_lt a amt.isLt)

end Sys2Proof.Proofs
end

section
/-!
SUPPORT. Bit counts, widths, fields and the two table functions of scalars (R117..R120).
-/

namespace Sys2Proof.Proofs

open Machine Safety Laws

/-! ### Bit counts (R117) -/

theorem clzGo_le (a : Word) (n : Nat) : clzGo a n ≤ n := by
  induction n with
  | zero => exact Nat.le_refl 0
  | succ n ih =>
    rw [clzGo]
    split <;> omega

/-- The bits counted from bit n − 1 down are zero. -/
theorem getLsbD_of_clzGo_le (a : Word) {n i : Nat} (hi : i < n) (h : n ≤ i + clzGo a n) : a.getLsbD i = false := by
  induction n with
  | zero => omega
  | succ n ih =>
    rw [clzGo] at h
    split at h
    case isTrue => omega
    case isFalse hbit =>
      by_cases hin : i = n
      · rw [hin]
        exact Bool.eq_false_iff.mpr hbit
      · exact ih (by omega) (by omega)

/-- The bit that ends the count is set. -/
theorem getLsbD_clzGo (a : Word) {n : Nat} (h : clzGo a n < n) : a.getLsbD (n - 1 - clzGo a n) = true := by
  induction n with
  | zero => omega
  | succ n ih =>
    rw [clzGo] at h ⊢
    split at h
    case isTrue hbit => rwa [if_pos hbit]
    case isFalse hbit =>
      have hidx : n + 1 - 1 - (1 + clzGo a n) = n - 1 - clzGo a n := by omega
      rw [if_neg hbit, hidx]
      exact ih (by omega)

theorem ctzGo_le (a : Word) (n : Nat) : ctzGo a n ≤ n := by
  induction n with
  | zero => exact Nat.le_refl 0
  | succ n ih =>
    rw [ctzGo]
    split <;> omega

/-- The bits counted from bit 64 − n up are zero. -/
theorem getLsbD_of_lt_ctzGo (a : Word) {n i : Nat} (hn : n ≤ 64) (hi : 64 - n ≤ i) (h : i < 64 - n + ctzGo a n) :
    a.getLsbD i = false := by
  induction n with
  | zero => exact absurd h (by simp only [ctzGo]; omega)
  | succ n ih =>
    rw [ctzGo] at h
    split at h
    case isTrue => omega
    case isFalse hbit =>
      by_cases hin : i = 63 - n
      · rw [hin]
        exact Bool.eq_false_iff.mpr hbit
      · exact ih (by omega) (by omega) (by omega)

theorem getLsbD_ctzGo (a : Word) {n : Nat} (hn : n ≤ 64) (h : ctzGo a n < n) : a.getLsbD (64 - n + ctzGo a n) = true := by
  induction n with
  | zero => omega
  | succ n ih =>
    rw [ctzGo] at h ⊢
    split at h
    case isTrue hbit =>
      have hidx : 64 - (n + 1) + 0 = 63 - n := by omega
      rwa [if_pos hbit, hidx]
    case isFalse hbit =>
      have hidx : 64 - (n + 1) + (1 + ctzGo a n) = 64 - n + ctzGo a n := by omega
      rw [if_neg hbit, hidx]
      exact ih (by omega) (by omega)

theorem popLow_eq_countP (a : Word) (n : Nat) : popLow a n = (List.range n).countP fun i => a.getLsbD i := by
  induction n with
  | zero => rfl
  | succ n ih => rw [popLow, List.range_succ, List.countP_append, List.countP_singleton, ih, Nat.add_comm]

/-! ### Widths and fields (R118) -/

theorem getLsbD_lowMask {w i : Nat} (hi : i < 64) : (lowMask w).getLsbD i = decide (i < w) := by
  rw [lowMask, BitVec.getLsbD_ofNat, Nat.testBit_two_pow_sub_one, decide_eq_true hi, Bool.true_and]

theorem and_lowMask_eq (a : Word) (w : Nat) : a &&& lowMask w = (a.setWidth w).setWidth 64 := by
  apply BitVec.eq_of_getLsbD_eq
  intro i hi
  simp only [BitVec.getLsbD_and, getLsbD_lowMask hi, BitVec.getLsbD_setWidth, decide_eq_true hi, Bool.true_and, Bool.and_comm]

theorem signExt_eq (a : Word) {w : Nat} (h1 : 1 ≤ w) : signExt w a = (a.setWidth w).signExtend 64 := by
  have hmsb : (a.setWidth w).msb = a.getLsbD (w - 1) := by
    rw [BitVec.msb_eq_getLsbD_last, BitVec.getLsbD_setWidth, decide_eq_true (by omega), Bool.true_and]
  apply BitVec.eq_of_getLsbD_eq
  intro i hi
  rw [BitVec.getLsbD_signExtend, BitVec.getLsbD_setWidth, hmsb, signExt]
  cases a.getLsbD (w - 1) with
  | false =>
    rw [if_neg Bool.false_ne_true, BitVec.getLsbD_and, getLsbD_lowMask hi]
    by_cases h : i < w <;> simp [h, hi]
  | true =>
    rw [if_pos rfl, BitVec.getLsbD_or, BitVec.getLsbD_not, getLsbD_lowMask hi]
    by_cases h : i < w <;> simp [h, hi]

theorem and_lowMask_eq_ofNat (a : Word) (w : Nat) : a &&& lowMask w = BitVec.ofNat 64 (a.toNat % 2 ^ w) := by
  rw [and_lowMask_eq, ← BitVec.toNat_inj, BitVec.toNat_setWidth, BitVec.toNat_setWidth, BitVec.toNat_ofNat]

theorem field_eq_ofNat (a : Word) (l w : Nat) :
    (a >>> l) &&& lowMask w = BitVec.ofNat 64 (a.toNat / 2 ^ l % 2 ^ w) := by
  rw [and_lowMask_eq_ofNat, BitVec.toNat_ushiftRight, Nat.shiftRight_eq_div_pow]

theorem getLsbD_bfInsert (a b : Word) (l m : Nat) {i : Nat} (hi : i < 64) :
    (bfInsert l (m + 1) a b).getLsbD i = if l ≤ i ∧ i ≤ l + m then b.getLsbD (i - l) else a.getLsbD i := by
  have hin : i - l < m + 1 ↔ i ≤ l + m := by omega
  have hmask : (lowMask (m + 1)).getLsbD (i - l) = decide (i ≤ l + m) := by
    rw [getLsbD_lowMask (by omega), decide_eq_decide]
    exact hin
  simp only [bfInsert, BitVec.getLsbD_or, BitVec.getLsbD_and, BitVec.getLsbD_not, BitVec.getLsbD_shiftLeft, hmask,
    decide_eq_true hi, Bool.true_and]
  by_cases hl : i < l
  · have hnot : ¬ l ≤ i := Nat.not_le.mpr hl
    simp only [hl, hnot, decide_true, false_and, if_false, Bool.not_true, Bool.false_and, Bool.not_false, Bool.and_true,
      Bool.or_false]
  · have hle : l ≤ i := Nat.not_lt.mp hl
    by_cases hm : i ≤ l + m
    · simp only [hl, hle, hm, decide_true, decide_false, and_self, if_true, Bool.not_true, Bool.not_false, Bool.true_and,
        Bool.and_false, Bool.and_true, Bool.false_or]
    · simp only [hl, hm, decide_false, and_false, if_false, Bool.not_false, Bool.and_true, Bool.and_false, Bool.or_false]

/-! ### Truth tables and byte tables (R119, R120) -/

/-- Of the eight products of inputs and their complements, the one with the number of the inputs holds. -/
theorem getLsbD_bfn64 (tt : BitVec 8) (a b q : Word) {i : Nat} (hi : i < 64) :
    (bfn64 tt a b q).getLsbD i = tt.getLsbD
      (4 * (if a.getLsbD i then 1 else 0) + 2 * (if b.getLsbD i then 1 else 0) + (if q.getLsbD i then 1 else 0)) := by
  have hpick (j : Nat) (x : Word) : (if tt.getLsbD j then x else 0).getLsbD i = (tt.getLsbD j && x.getLsbD i) := by
    cases tt.getLsbD j
    · exact BitVec.getLsbD_zero
    · rfl
  simp only [bfn64, BitVec.getLsbD_or, hpick, BitVec.getLsbD_and, BitVec.getLsbD_not, decide_eq_true hi, Bool.true_and]
  cases a.getLsbD i <;> cases b.getLsbD i <;> cases q.getLsbD i <;> simp

theorem natOfBytes_lt (bs : List Byte) : natOfBytes bs < 256 ^ bs.length := by
  induction bs with
  | nil => exact Nat.one_pos
  | cons x r ih =>
    have hx := x.isLt
    rw [natOfBytes, List.length_cons, Nat.pow_succ]
    omega

/-- Byte j of the number that bytes hold. -/
theorem natOfBytes_byte (bs : List Byte) (j : Nat) : natOfBytes bs / 256 ^ j % 256 = (bs.getD j 0).toNat := by
  induction bs generalizing j with
  | nil => rw [natOfBytes, Nat.zero_div]; rfl
  | cons x r ih =>
    have hx := x.isLt
    cases j with
    | zero =>
      rw [natOfBytes, Nat.pow_zero, Nat.div_one, List.getD_cons_zero]
      omega
    | succ j =>
      have hdiv : (x.toNat + 256 * natOfBytes r) / 256 = natOfBytes r := by omega
      rw [natOfBytes, List.getD_cons_succ, Nat.pow_succ', ← Nat.div_div_eq_div_mul, hdiv, ih]

theorem extractLsb'_natOfBytes (bs : List Byte) (h : bs.length = 8) (j : Nat) :
    (BitVec.ofNat 64 (natOfBytes bs)).extractLsb' (8 * j) 8 = bs.getD j 0 := by
  have hlt : natOfBytes bs < 2 ^ 64 := by
    have hb := natOfBytes_lt bs
    rwa [h] at hb
  rw [← BitVec.toNat_inj, BitVec.extractLsb'_toNat, BitVec.toNat_ofNat, Nat.mod_eq_of_lt hlt, Nat.shiftRight_eq_div_pow,
    Nat.pow_mul, natOfBytes_byte]

theorem extractLsb'_lutb64 (t : List Byte) (a : Word) {j : Nat} (hj : j < 8) :
    (lutb64 t a).extractLsb' (8 * j) 8 = t.getD (a.extractLsb' (8 * j) 6).toNat 0 := by
  rw [lutb64, extractLsb'_natOfBytes _ rfl, List.getD_eq_getElem?_getD, List.getElem?_map, List.getElem?_range hj]
  rfl

/-- LUTB sends what its image's table makes of the operand (R120). -/
theorem sends_lutb {s : State} {c : Fx} {p : Pred} {a : Word} (h : Takes1 p s c a) {tbl : BitVec 8} (t1 t2 t3 : Tgt)
    {tab : List Byte} (ht : tget tbl.toNat c.r.image.luts = some tab) :
    Sends (.lutb p tbl t1 t2 t3) s c [t1, t2, t3] (scalarTok (lutb64 tab a)) := by
  obtain ⟨hfires, -, ha, -, -⟩ := id h
  have e : Sends (.lutb p tbl t1 t2 t3) s c [t1, t2, t3]
      (scalarTok (lutb64 ((tget tbl.toNat c.r.image.luts).getD []) c.a.val)) :=
    sends_of_ordinary (f := fun c => lutb64 ((tget tbl.toNat c.r.image.luts).getD []) c.a.val) hfires (gate1 .all h) rfl
  rwa [ht, val_a ha] at e

/-- Settles O4: each count, field and table is read off bit by bit. -/
theorem scalarBitFieldResults : Obligations.ScalarBitFieldResults := by
  unfold Obligations.ScalarBitFieldResults
  intro s c p w l m tt tbl t1 t2 t3 a b q
  refine ⟨fun h => ⟨?clz, ?ctz, ?popc, fun hw _ => ⟨?sext, ?zext⟩, fun _ => ?bfx, fun tab ht _ => ?lutb⟩,
    fun h _ => ?bfi, fun h => ?bfn⟩
  case clz =>
    exact ⟨clz64 a, sends_scalar1 h rfl rfl, clzGo_le a 64, fun i hi hn => getLsbD_of_clzGo_le a hi hn, getLsbD_clzGo a⟩
  case ctz =>
    refine ⟨ctz64 a, sends_scalar1 h rfl rfl, ctzGo_le a 64, fun i hi => ?zeros, fun hn => ?one⟩
    case zeros => exact getLsbD_of_lt_ctzGo a (Nat.le_refl 64) (Nat.zero_le i) (by rwa [Nat.sub_self, Nat.zero_add])
    case one => simpa only [ctz64, Nat.sub_self, Nat.zero_add] using getLsbD_ctzGo a (Nat.le_refl 64) hn
  case popc => exact sends_scalar1 h rfl (congrArg _ (popLow_eq_countP a 64))
  case sext => exact sends_scalar1 h rfl (signExt_eq a hw)
  case zext => exact sends_scalar1 h rfl (and_lowMask_eq a w.toNat)
  case bfx => exact sends_scalar1 h rfl (field_eq_ofNat a l.toNat (m.toNat + 1))
  case lutb => exact ⟨_, sends_lutb h t1 t2 t3 ht, fun j hj => extractLsb'_lutb64 tab a hj⟩
  case bfi => exact ⟨_, sends_scalar2 h rfl rfl, fun i hi => getLsbD_bfInsert a b l.toNat m.toNat hi⟩
  case bfn => exact ⟨_, sends_scalar3 (f := bfn64 tt) h rfl rfl, fun i hi => getLsbD_bfn64 tt a b q hi⟩

end Sys2Proof.Proofs
end

section
/-!
SUPPORT. Literals, comparisons and scaled addresses of scalars (R122..R124).
-/

namespace Sys2Proof.Proofs

open Machine Safety

/-- The value of a comparison whose test decides a relation (R123). -/
theorem bit1_of_iff {b : Bool} {r : Prop} [Decidable r] (h : b = true ↔ r) : bit1 b = if r then 1 else 0 := by
  simp only [bit1, h]

theorem toInt_sx {n : Nat} (x : BitVec n) (h : n ≤ 64) : (sx x).toInt = x.toInt :=
  BitVec.toInt_signExtend_of_le h

theorem beq_sx_iff {n : Nat} (a : Word) (x : BitVec n) (h : n ≤ 64) : (a == sx x) = true ↔ a.toInt = x.toInt := by
  rw [beq_iff_eq, ← BitVec.toInt_inj, toInt_sx x h]

theorem slt_sx_iff {n : Nat} (a : Word) (x : BitVec n) (h : n ≤ 64) : BitVec.slt a (sx x) = true ↔ a.toInt < x.toInt := by
  rw [BitVec.slt_iff_toInt_lt, toInt_sx x h]

/-- A literal over the low half of a word (R122). -/
theorem append_low_eq_ofNat (lit : BitVec 32) (a : Word) :
    lit ++ a.extractLsb' 0 32 = BitVec.ofNat 64 (lit.toNat * 2 ^ 32 + a.toNat % 2 ^ 32) := by
  have hlow : (a.extractLsb' 0 32).toNat = a.toNat % 2 ^ 32 := by rw [BitVec.extractLsb'_toNat, Nat.shiftRight_zero]
  have e := BitVec.ofNat_toNat 64 (lit ++ a.extractLsb' 0 32)
  rw [toNat_append_eq_add, hlow] at e
  rw [e, BitVec.setWidth_eq]

theorem add_shiftLeft_eq_ofNat (a b : Word) (n : Nat) : a + b <<< n = BitVec.ofNat 64 (a.toNat + b.toNat * 2 ^ n) := by
  rw [BitVec.ofNat_add, BitVec.ofNat_toNat, BitVec.setWidth_eq, shiftLeft_eq_ofNat]

/-- Settles O5: each test decides the relation of its name, and the other rows' words are those named. -/
theorem scalarCompareAndLiteralResults : Obligations.ScalarCompareAndLiteralResults := by
  unfold Obligations.ScalarCompareAndLiteralResults
  intro s c p v lit sh t1 t2 t3 a b q one
  refine ⟨fun h => ⟨sends_const h rfl, sends_const h rfl⟩, fun h => ⟨?lith, ?teqi, ?tlti⟩,
    fun h => ⟨?teq, ?tne, ?tlt, ?tle, ?tltu, ?tleu, fun _ => ?lea⟩, fun h => ?sel⟩
  case lith => exact sends_scalar1 h rfl (append_low_eq_ofNat lit a)
  case teqi => exact sends_scalar1 h rfl (bit1_of_iff (beq_sx_iff a v (by decide)))
  case tlti => exact sends_scalar1 h rfl (bit1_of_iff (slt_sx_iff a v (by decide)))
  case teq => exact sends_scalar2 h rfl (bit1_of_iff beq_iff_eq)
  case tne => exact sends_scalar2 h rfl (bit1_of_iff bne_iff_ne)
  case tlt => exact sends_scalar2 h rfl (bit1_of_iff BitVec.slt_iff_toInt_lt)
  case tle => exact sends_scalar2 h rfl (bit1_of_iff BitVec.sle_iff_toInt_le)
  case tltu => exact sends_scalar2 h rfl (bit1_of_iff BitVec.ult_iff_toNat_lt)
  case tleu => exact sends_scalar2 h rfl (bit1_of_iff BitVec.ule_iff_toNat_le)
  case lea => exact sends_scalar2 h rfl (add_shiftLeft_eq_ofNat a b sh.toNat)
  case sel => exact sends_scalar3 (f := fun a b q => if q != 0 then a else b) h rfl (by simp only [bne_iff_ne])

end Sys2Proof.Proofs
end
